-- ==== Sys2Proof/Word.lean ====
section
/-! DEFINITION. The words of the link and of the memory-resident formats, under the names the spec uses
(12_memory_resident_formats, 08_the_frame_store_link section 8.1). -/

namespace Sys2Proof

/-- A byte: the smallest addressable unit of the link and of every record (00_scope section 7). -/
abbrev Byte := BitVec 8

/-- A 32-bit word of a memory-resident record (12), a time base value (R169) or a frame number (R10). -/
abbrev Word := BitVec 32

/-- A stream tag, 0..63 (08 section 8.1). -/
abbrev Tag := BitVec 6

/-- An order id, 0..15 (08 section 8.1). -/
abbrev OrderId := BitVec 4

/-- A 40-bit byte address on the link (08 section 8.1). -/
abbrev Addr := BitVec 40

/-- A 16-bit field of a presenter unit or of a record (04 section 4.1, 12 section 12.2). -/
abbrev Half := BitVec 16

end Sys2Proof
end

