-- ==== Sys2Proof/Syntax.lean ====
section
/-! DEFINITION. The commands of the part: one constructor for each row of the table of operations and events
(`spec/opcode_table.json`), with the operands the spec gives it. -/

namespace Sys2Proof

/-- The kind of a link request (08 section 8.1). -/
inductive ReqKind where
  | read
  | write
  deriving DecidableEq, Repr

/-- The status of a link response (08 section 8.1). -/
inductive Status where
  | ok
  | error
  deriving DecidableEq, Repr

/-- The two programme pixel formats of a channel (01 section 1.1, R47, R48). -/
inductive ProgFormat where
  | w10
  | p8
  deriving DecidableEq, Repr, Inhabited

/-- One presenter pixel: the sample group of a LINE (04 section 4.1) and the stored K8 pixel (R49). -/
structure K8 where
  y : Byte
  cb : Byte
  cr : Byte
  k : Byte
  deriving DecidableEq, Repr

/-- The three kinds of presenter link unit (04 section 4.1). -/
inductive UnitKind where
  | frameOpen
  | line
  | frameClose
  deriving DecidableEq, Repr

/-- The monitor fields of a SET MONITOR cue, as words 1 to 12 carry them (12 section 12.2), before any clamp. -/
structure MonitorFields where
  monitor : Byte
  mode : Byte
  delayKind : Byte
  force : Byte
  zoneX : Half
  zoneY : Half
  zoneW : Half
  zoneH : Half
  threshold : Word
  level : Word
  hysteresis : Word
  tracking : Byte
  offset : Half
  onDelay : Word
  offDelay : Word
  inhibit : Bool
  alternate : Word
  edges : Word
  deriving DecidableEq, Repr

/-- The commands. A cue command carries the target byte and the argument words of its cue record
(12 section 12.2); a response command carries what its link record carries (08 section 8.1). -/
inductive Instr where
  /-- Power-on (R169). -/
  | powerOn
  /-- The end of a pulse on the reset input (R169). -/
  | resetPulse
  /-- The read of the boot image from flash completes; the words as the flash gave them (R170). -/
  | bootImageLoad (image : List Word)
  /-- The engine presents a READ at the upstream port (R140, R141). -/
  | acceptRead (tag : Tag) (oid : OrderId) (addr : Addr) (beats : Nat)
  /-- The engine presents a WRITE at the upstream port; `data` and `enables` byte by byte (R140, R141). -/
  | engineWrite (tag : Tag) (oid : OrderId) (addr : Addr) (beats : Nat) (data : List Byte) (enables : List Bool)
  /-- A write to the report consumer word reaches the link path's copy (R145, R162). -/
  | reportConsumerWord (word : Word) (enables : BitVec 4)
  /-- START CHANNEL is posted (R7). -/
  | startChannel (channel : Byte) (policy : Word)
  /-- STOP CHANNEL is posted (R8). -/
  | stopChannel (channel : Byte)
  /-- WRITE LAYOUT is posted (R102). -/
  | writeLayout (entry : Byte) (x y opacity glide fade prescale : Word)
  /-- SELECT LAYOUT is posted (R104). -/
  | selectLayout (channel : Byte) (entry : Word)
  /-- PUSH LAYOUT is posted (R105). -/
  | pushLayout (channel : Byte) (entry : Word)
  /-- POP LAYOUT is posted (R106). -/
  | popLayout (channel : Byte)
  /-- FADE is posted (R114). -/
  | fade (channel : Byte) (target length prescale : Word)
  /-- ASSIGN PRESENTER is posted (R17). -/
  | assignPresenter (channel : Byte) (port : Byte) (delay loss : Word)
  /-- SET INGEST is posted (R82). -/
  | setIngest (port : Byte) (cropX cropY cropW cropH targetW targetH : Half)
  /-- SET MONITOR is posted (R133). -/
  | setMonitor (channel : Byte) (fields : MonitorFields)
  /-- FORCE MONITOR is posted (R134). -/
  | forceMonitor (channel monitor : Byte) (force : Word)
  /-- CLEAR MONITOR is posted (R135). -/
  | clearMonitor (channel monitor : Byte)
  /-- CLEAR FLAGS is posted (R107). -/
  | clearFlags (channel : Byte)
  /-- SET REPORTS is posted (R163). -/
  | setReports (mask : Word)
  /-- RESTART is posted (R173). -/
  | restart
  /-- A cue whose kind value names no kind is posted (R159). -/
  | unknownKind (kind target : Byte)
  /-- The downstream request port can accept a request (R147). -/
  | downstreamGrant
  /-- An ENGINE response arrives that the part passes straight back (R149). -/
  | passResponseArrival (kind : ReqKind) (tag : Tag) (oid : OrderId) (data : List Byte) (status : Status)
  /-- The programme response of a tracked read arrives whole (R29, R32). -/
  | programmeResponse (tag : Tag) (oid : OrderId) (data : List Byte) (status : Status)
  /-- A companion fetch response arrives whole; the entry's number is its tag (R28, R30). -/
  | fetchResponse (entry : Tag) (data : List Byte) (status : Status)
  /-- The time base reaches the join deadline of an entry (R37). -/
  | joinLimitExpiry (entry : Tag)
  /-- The engine can take a response at the upstream port (R150). -/
  | upstreamResponseGrant
  /-- A write response for a line piece of a port arrives (R80). -/
  | lineWriteResponse (port : Fin 4) (status : Status)
  /-- A report write response arrives (R164). -/
  | reportWriteResponse (status : Status)
  /-- The status write's response arrives (R167). -/
  | statusWriteResponse (status : Status)
  /-- A FRAME OPEN unit, marked good by the receiver, is delivered (R61, R63). -/
  | frameOpen (port : Fin 4) (width height : Half)
  /-- A LINE unit, marked good by the receiver, is delivered (R61, R75). -/
  | line (port : Fin 4) (index : Half) (samples : List K8)
  /-- A FRAME CLOSE unit, marked good by the receiver, is delivered (R66). -/
  | frameClose (port : Fin 4)
  /-- A unit the receiver marked damaged is delivered (R61). -/
  | damagedUnit (port : Fin 4) (unit : UnitKind)
  /-- The loss limit of a port expires (R68, R69). -/
  | lossLimitExpiry (port : Fin 4)
  /-- A whole refresh period has passed (R166). -/
  | refreshPeriodExpiry
  /-- The first event after which RESTART's work in flight is drained (R174). -/
  | restartCompletion
  deriving DecidableEq, Repr

end Sys2Proof
end

