-- ==== Sys2Proof/Config.lean ====
section
/-! DEFINITION. What the part fixes once for all (sizes the spec states as numbers) and the free values: results the
spec leaves open. A free value has no body, so nothing can be proved about which value it is. -/

namespace Sys2Proof.Config

/-- The RTT has 64 entries (R20). -/
def rttSize : Nat := 64

/-- The fetch queue holds 32 reads (R26). -/
def fetchQueueSize : Nat := 32

/-- The pending report queue holds 8 records (R163). -/
def reportQueueSize : Nat := 8

/-- A write queue holds 4 line entries (R78). -/
def writeQueueSize : Nat := 4

/-- A layout stack holds up to six values (R103). -/
def stackSize : Nat := 6

/-- The greatest untracked count (R142). -/
def untrackedMax : Nat := 255

/-- The greatest accumulator value (R121) and the period of the capture numbers (R86). -/
def wordMax : Nat := 4294967295

/-- The cue area's size in bytes (R143). -/
def cueAreaBytes : Nat := 4096

/-- The status block's size in bytes (R143). -/
def statusBytes : Nat := 256

/-- The boot image's magic word (12 section 12.5). -/
def magic : Word := 0x4D534B31#32

/-- The boot image's length in words (12 section 12.5). -/
def imageWords : Nat := 422

/-- The programme format of a channel whose format byte is neither 0 (W10) nor 1 (P8): the spec lists the byte among
neither the structural checks nor the clamped fields (R2, R170, R175). FREE VALUE, DESIGN CHOICE (log 13); safe. -/
opaque unnamedFormat : Byte → ProgFormat

/-- The AO tag a channel holds when the image's byte is above 63: the spec gives neither a check nor a clamp for it
(R2, 12 section 12.5). FREE VALUE, DESIGN CHOICE (log 14); safe. -/
opaque tagBeyondRange : Byte → Byte

end Sys2Proof.Config
end

