-- ==== Sys2Proof/WellFormed.lean ====
section
/-! DEFINITION. Which commands are well formed: those whose operands a record of the link, of the flash or of the cue ring can
carry (08 section 8.1, 12). -/

namespace Sys2Proof

/-- An address and a length a request can carry: a multiple of 16, and 1 to 16 beats (08 section 8.1). -/
def requestWf (addr : Addr) (beats : Nat) : Bool :=
  addr.toNat % 16 == 0 && decide (1 ≤ beats) && decide (beats ≤ 16)

/-- The data of a read response: whole beats, 1 to 16 of them (08 section 8.1). -/
def beatsWf (data : List Byte) : Bool :=
  data.length % 16 == 0 && decide (16 ≤ data.length) && decide (data.length ≤ 256)

/-- The data of a write request: 16 bytes and 16 enables for each beat (08 section 8.1). -/
def writeWf (beats : Nat) (data : List Byte) (enables : List Bool) : Bool :=
  data.length == 16 * beats && enables.length == 16 * beats

/-- The words the loader has read (R170): the magic and the length word, and the whole image when the length word is
the image length. -/
def imageWf (image : List Word) : Bool :=
  decide (2 ≤ image.length) &&
    ((image.getD 1 0).toNat != Config.imageWords || image.length == Config.imageWords)

/-- The kind values that name a cue kind (12 section 12.2). -/
def namesKind (kind : Byte) : Bool := decide (1 ≤ kind.toNat) && decide (kind.toNat ≤ 15)

/-- The well-formedness check of a command. -/
def Instr.wf : Instr → Bool
  | .bootImageLoad image => imageWf image
  | .acceptRead _ _ addr beats => requestWf addr beats
  | .engineWrite _ _ addr beats data enables => requestWf addr beats && writeWf beats data enables
  | .unknownKind kind _ => !namesKind kind
  | .passResponseArrival .read _ _ data _ => beatsWf data
  | .passResponseArrival .write _ _ data _ => data.isEmpty
  | .programmeResponse _ _ data _ => beatsWf data
  | .fetchResponse _ data _ => beatsWf data
  | .powerOn | .resetPulse | .reportConsumerWord _ _ | .startChannel _ _ | .stopChannel _
  | .writeLayout _ _ _ _ _ _ _ | .selectLayout _ _ | .pushLayout _ _ | .popLayout _ | .fade _ _ _ _
  | .assignPresenter _ _ _ _ | .setIngest _ _ _ _ _ _ _ | .setMonitor _ _ | .forceMonitor _ _ _
  | .clearMonitor _ _ | .clearFlags _ | .setReports _ | .restart | .downstreamGrant | .joinLimitExpiry _
  | .upstreamResponseGrant | .lineWriteResponse _ _ | .reportWriteResponse _ | .statusWriteResponse _
  | .frameOpen _ _ _ | .line _ _ _ | .frameClose _ | .damagedUnit _ _ | .lossLimitExpiry _
  | .refreshPeriodExpiry | .restartCompletion => true

end Sys2Proof
end

