-- ==== Sys2Proof/Machine/State.lean ====
section
/-! DEFINITION. The state of the part: every piece the spec gives each block (00_scope section 2), as plain data, the value of
each after reset, and the reasons a step can stop. -/

namespace Sys2Proof.Machine

/-! ## The part's own state (11) -/

/-- The part states (11, opening table). -/
inductive PartMode where
  | loading
  | active
  | restarting
  | bypass
  deriving DecidableEq, Repr

/-- The reset cause (R169). -/
inductive ResetCause where
  | powerOn
  | pin
  deriving DecidableEq, Repr

/-- The values the blocks hold from the boot image from the entry to ACTIVE on, besides those that cues change
(R171): the regions of R143, the limits of R147, R36 and R68, and the refresh period of R166. -/
structure ImageValues where
  cueBase : Nat
  statusBase : Nat
  ringBase : Nat
  ringSize : Nat
  presBase : Nat
  slotBytes : Nat
  starvationLimit : Nat
  joinLimit : Nat
  lossLimit : Nat
  refreshPeriod : Nat
  deriving DecidableEq, Repr

/-! ## Channels (01) -/

/-- What a channel shows while its port is LOST (01 section 1.1). -/
inductive LossPolicy where
  | hold
  | hide
  deriving DecidableEq, Repr

/-- What a push onto a full layout stack does (01 section 1.1). -/
inductive StackPolicy where
  | hold
  | revert
  deriving DecidableEq, Repr

/-- The channel descriptor (01 section 1.1). The AO tag is held as the byte of the image. -/
structure Descriptor where
  enabled : Bool
  autoStart : Bool
  aoTag : Byte
  format : ProgFormat
  width : Nat
  height : Nat
  stride : Nat
  bufferCount : Nat
  bases : Vector Nat 4
  home : Fin 32
  port : Option (Fin 4)
  delay : Nat
  loss : LossPolicy
  stackPolicy : StackPolicy
  deriving DecidableEq, Repr

/-- The channel states (01 section 1.4). -/
inductive ChanState where
  | off
  | armed
  | running
  | stopping
  deriving DecidableEq, Repr

/-- A rectangle of the raster: a monitor zone (R119). -/
structure Rect where
  x : Nat
  y : Nat
  w : Nat
  h : Nat
  deriving DecidableEq, Repr

/-- A slot reference: port, slot index, and the slot's W and H (R93). -/
structure SlotRef where
  port : Fin 4
  slot : Fin 16
  w : Nat
  h : Nat
  deriving DecidableEq, Repr

/-- The latched frame geometry (01 section 1.7). The inset size is the slot reference's W and H, or 0 × 0 (R14). -/
structure Geometry where
  x : Nat
  y : Nat
  opacity : Nat
  slot : Option SlotRef
  zoneA : Option Rect
  zoneB : Option Rect
  deriving DecidableEq, Repr

/-! ## Layouts (06) -/

/-- A layout table entry (06 section 6.1). -/
structure LayoutEntry where
  x : Nat
  y : Nat
  opacity : Nat
  glide : Nat
  fade : Nat
  prescale : Nat
  deriving DecidableEq, Repr

/-- The glide record (06 section 6.4). -/
structure Glide where
  startX : Nat
  startY : Nat
  targetX : Nat
  targetY : Nat
  length : Nat
  step : Nat
  x : Nat
  y : Nat
  deriving DecidableEq, Repr

/-- The fade record (06 section 6.5). -/
structure Fade where
  start : Nat
  target : Nat
  length : Nat
  prescale : Nat
  count : Nat
  step : Nat
  opacity : Nat
  deriving DecidableEq, Repr

/-- A channel's layout records (R103, R110, 06 sections 6.4 and 6.5). The stack has its newest value last. -/
structure LayoutState where
  sl : Fin 32
  stack : List (Fin 32)
  overflow : Bool
  underflow : Bool
  prevEff : Fin 32
  rewrite : Bool
  glide : Glide
  fade : Fade
  deriving DecidableEq, Repr

/-! ## Placement monitors (07) -/

/-- A monitor's mode (07 section 7.1). -/
inductive MonMode where
  | off
  | above
  | below
  deriving DecidableEq, Repr

/-- A monitor's delay kind (07 section 7.1). -/
inductive DelayKind where
  | steady
  | oneShot
  | latched
  deriving DecidableEq, Repr

/-- A monitor's force (07 section 7.1). -/
inductive Force where
  | auto
  | forceOn
  | forceOff
  deriving DecidableEq, Repr

/-- Which changes of the effective state a monitor reports (07 section 7.1). -/
inductive EdgeReports where
  | none
  | make
  | break
  | both
  deriving DecidableEq, Repr

/-- The monitor record (07 section 7.1). `tracking` is the offset when the monitor tracks the other one. -/
structure MonRecord where
  mode : MonMode
  zone : Option Rect
  threshold : Nat
  level : Nat
  hysteresis : Nat
  tracking : Option Int
  delayKind : DelayKind
  onDelay : Nat
  offDelay : Nat
  inhibit : Bool
  alternate : Fin 32
  force : Force
  edges : EdgeReports
  deriving DecidableEq, Repr

/-- A monitor's computed state (07 section 7.5). -/
inductive Computed where
  | inhibited
  | idle
  | pendingOn
  | active
  | pendingOff
  | spent
  deriving DecidableEq, Repr

/-- A monitor: its record and its running state (07 section 7.1). -/
structure Monitor where
  cfg : MonRecord
  computed : Computed
  onCount : Nat
  offCount : Nat
  shotCount : Nat
  acc : Nat
  fresh : Bool
  activity : Nat
  effective : Bool
  deriving DecidableEq, Repr

/-- Monitor A or B of a channel (07). -/
inductive MonId where
  | a
  | b
  deriving DecidableEq, Repr

/-- A channel: descriptor, state, frame tracking and geometry of its controller (01), the layout logic's records
(06), its two monitors (07), and the frame numbers the RCU remembers (R38). -/
structure Channel where
  desc : Descriptor
  state : ChanState
  frame : Word
  buffer : Option (Fin 4)
  deepest : Nat
  geom : Option Geometry
  lay : LayoutState
  monA : Monitor
  monB : Monitor
  lastLate : Option Word
  lastFetchError : Option Word
  deriving DecidableEq, Repr

/-! ## Read composition unit (02) -/

/-- A span of a BLEND entry (R24). -/
structure Span where
  line : Nat
  first : Nat
  count : Nat
  deriving DecidableEq, Repr

/-- What a BLEND entry copies from the latched geometry (R22, R24). -/
structure BlendInfo where
  x : Nat
  y : Nat
  opacity : Nat
  slot : SlotRef
  spans : List Span
  deriving DecidableEq, Repr

/-- The kind of an entry (02 section 2.1). -/
inductive EntryKind where
  | pass
  | measure
  | blend (info : BlendInfo)
  deriving DecidableEq, Repr

/-- The state of an entry in use; JOIN has the join deadline (02 section 2.1). -/
inductive EntryState where
  | await
  | join (deadline : Word)
  | done
  | drain
  deriving DecidableEq, Repr

/-- The outcome of an entry (02 section 2.1). -/
inductive EntryOutcome where
  | pending
  | blended
  | clean
  deriving DecidableEq, Repr

/-- An RTT entry in use (02 section 2.1). Its place in the allocation sequence is its place in the RTT's list. -/
structure Entry where
  num : Tag
  state : EntryState
  kind : EntryKind
  tag : Tag
  oid : OrderId
  addr : Addr
  beats : Nat
  chan : Fin 8
  frame : Word
  format : ProgFormat
  buffer : Option (Fin 4)
  zoneA : Option Rect
  zoneB : Option Rect
  outstanding : Nat
  presData : List Byte
  progData : List Byte
  progError : Bool
  fetchError : Bool
  late : Bool
  outcome : EntryOutcome
  deriving DecidableEq, Repr

/-- A companion fetch read in the fetch queue (R28). -/
structure FetchRead where
  entry : Tag
  addr : Addr
  beats : Nat
  deriving DecidableEq, Repr

/-! ## Presenter ingest (04) -/

/-- A port's crop and target settings, unclamped (04 section 4.2). -/
structure IngestSettings where
  cropX : Nat
  cropY : Nat
  cropW : Nat
  cropH : Nat
  targetW : Nat
  targetH : Nat
  deriving DecidableEq, Repr

/-- The open frame of a RECEIVING port (04 section 4.2): source size, clamped crop, W × H, steps, slot, the last taken
line index, the first received crop line, the last received crop line with its scaled content, the next output line. -/
structure OpenFrame where
  srcW : Nat
  srcH : Nat
  crop : Rect
  w : Nat
  h : Nat
  stepX : Nat
  stepY : Nat
  slot : Fin 16
  lastIndex : Option Nat
  firstLine : Option (Nat × List K8)
  lastLine : Option (Nat × List K8)
  nextOut : Nat
  deriving DecidableEq, Repr

/-- The ingest state (04 section 4.2), with the open frame where one is present. -/
inductive IngestState where
  | idle
  | waiting
  | receiving (frame : OpenFrame)
  | discarding (srcW srcH : Nat)
  | lost
  deriving DecidableEq, Repr

/-- The drop reason of a frame in flight (04 section 4.2). -/
inductive DropReason where
  | none
  | damaged
  | writeError
  | abandoned
  deriving DecidableEq, Repr

/-- A frame in flight (04 section 4.2). -/
structure Flight where
  slot : Fin 16
  w : Nat
  closed : Bool
  reason : DropReason
  outstanding : Nat
  deriving DecidableEq, Repr

/-- A line entry of the write queue (R78), with how far it has been granted: output lines written in full and beats
granted of the next (R79). -/
structure LineEntry where
  slot : Fin 16
  w : Nat
  first : Nat
  count : Nat
  content : List K8
  linesDone : Nat
  beatsDone : Nat
  deriving DecidableEq, Repr

/-- A port's ingest unit (04 section 4.2). -/
structure Port where
  state : IngestState
  settings : IngestSettings
  lastGood : Option Word
  flights : List Flight
  queue : List LineEntry
  deriving DecidableEq, Repr

/-! ## Slot table (05) -/

/-- The slot states (05 section 5.1). -/
inductive SlotState where
  | free
  | filling
  | settling
  | ready
  deriving DecidableEq, Repr

/-- A slot record (05 section 5.1). W, H and capture number are 0 where the slot has none (log 12). -/
structure Slot where
  state : SlotState
  w : Nat
  h : Nat
  capture : Nat
  hold : Nat
  damaged : Bool
  deriving DecidableEq, Repr

/-- The slot table's records of one port (R85, R86). -/
structure PortSlots where
  slots : Vector Slot 16
  latest : Nat
  deriving DecidableEq, Repr

/-! ## Report unit (10) -/

/-- The subject of a report record (12 section 12.3). -/
inductive Subject where
  | none
  | channel (c : Fin 8) (frame : Word)
  | port (p : Fin 4)
  deriving DecidableEq, Repr

/-- The report kinds, in the order of their codes 1 to 13 (12 section 12.3). -/
inductive ReportKind where
  | cueRefused
  | guard
  | latePresenter
  | fetchError
  | ingestDrop
  | inputLost
  | inputRestored
  | presenterAbsent
  | presenterPresent
  | monitorEdge
  | stackFlag
  | channelState
  | restartDone
  deriving DecidableEq, Repr

/-- A pending report: its kind, its subject, the time base value at its raising and its kind-specific words 3 to 7
(12 section 12.3; words not listed are 0, R176). -/
structure Report where
  kind : ReportKind
  subject : Subject
  time : Word
  words : List Word
  deriving DecidableEq, Repr

/-- The status write's states (R167). -/
inductive StatusWrite where
  | idle
  | waiting
  | inFlight
  deriving DecidableEq, Repr

/-- The report unit (R162 to R168). -/
structure ReportUnit where
  prod : Nat
  prodLap : Bool
  cons : Nat
  consLap : Bool
  lost : Bool
  queue : List Report
  mask : BitVec 13
  status : StatusWrite
  again : Bool
  lastRefresh : Word
  deriving DecidableEq, Repr

/-! ## The blocks behind the link path and the cue unit -/

/-- The state of every block behind the link path and the cue unit. -/
structure Blocks where
  mode : PartMode
  cause : ResetCause
  timeBase : Word
  restartTime : Word
  image : ImageValues
  chans : Vector Channel 8
  layouts : Vector LayoutEntry 32
  rtt : List Entry
  fetchQueue : List FetchRead
  ports : Vector Port 4
  slotTab : Vector PortSlots 4
  rep : ReportUnit
  deriving DecidableEq, Repr

/-! ## Link path (08) -/

/-- A request the engine presents at the upstream port (08 section 8.1); a READ has no data. -/
structure UpRequest where
  kind : ReqKind
  tag : Tag
  oid : OrderId
  addr : Addr
  beats : Nat
  data : List Byte
  enables : List Bool
  deriving DecidableEq, Repr

/-- The source flag of a downstream request (08 section 8.1). -/
inductive Source where
  | engine
  | compositor
  deriving DecidableEq, Repr

/-- A request issued on the downstream port (08 section 8.1). -/
structure DownRequest where
  source : Source
  kind : ReqKind
  tag : Tag
  oid : OrderId
  addr : Addr
  beats : Nat
  data : List Byte
  enables : List Bool
  deriving DecidableEq, Repr

/-- A response sent, or waiting to be sent, on the upstream port (08 section 8.1); a write response has no data. -/
structure UpResponse where
  kind : ReqKind
  tag : Tag
  oid : OrderId
  data : List Byte
  status : Status
  deriving DecidableEq, Repr

/-- A response on the downstream response port, by whom it answers (R146, R149). -/
inductive DownResponse where
  | engine (kind : ReqKind) (tag : Tag) (oid : OrderId) (data : List Byte) (status : Status)
  | fetch (entry : Tag) (data : List Byte) (status : Status)
  | lineWrite (port : Fin 4) (status : Status)
  | reportWrite (status : Status)
  | statusWrite (status : Status)
  deriving DecidableEq, Repr

/-- The last source granted at the upstream response port (R150). -/
inductive LastSource where
  | pass
  | entry
  deriving DecidableEq, Repr

/-- The link path (R140 to R152). `untracked` and `writeRecords` are keyed by (tag, order id); see `Sparse`. `issued`
and `returned` are what the two ports have sent since the reset (log 19). -/
structure Link where
  upstream : List UpRequest
  passSlot : Option UpRequest
  untracked : List (Nat × Nat)
  writeRecords : List (Nat × List Bool)
  starvation : Nat
  lastPort : Fin 4
  lastSource : LastSource
  passResponse : Option UpResponse
  held : List DownResponse
  consumerWord : Word
  issued : List DownRequest
  returned : List UpResponse
  deriving DecidableEq, Repr

/-! ## Cue unit (09) -/

/-- The cue unit (R153). An unlisted byte of the shadow is 0, the shadow's reset content (R153). -/
structure CueUnit where
  shadow : List Host.Cell
  slot : Fin 32
  lap : Bool
  deriving DecidableEq, Repr

/-- The whole state: the queue of waiting commands, the blocks, and the attention output (R165). -/
structure State where
  pending : List Instr
  link : Link
  cue : CueUnit
  blk : Blocks
  attn : Bool
  deriving DecidableEq, Repr

/-! ## Reasons to stop -/

/-- Why a step faults. Both are breaches by the downstream partner of what R139 says the part relies on; the spec gives
the part no behaviour for them. -/
inductive Fault where
  /-- Raised by the response commands: a downstream response that no entry, frame in flight or status write waits for
  ("every COMPOSITOR response has its issuer", R146). Safe: the model stops where the part might go on (log 9). -/
  | noIssuer
  /-- Raised by PROGRAMME_RESPONSE and FETCH_RESPONSE: a read response that does not carry exactly the beats requested
  (R139, third). Safe (log 9). -/
  | wrongBeats
  deriving DecidableEq, Repr

/-- Why a step is refused. -/
inductive Refusal where
  /-- An arm of `exec` without a meaning. Safe. -/
  | notModelled (mnemonic : String)
  /-- Raised by commands whose operands no record of the link or the flash can carry (`Instr.wf`). Safe: no such record
  reaches the part (log 10). -/
  | malformed
  deriving DecidableEq, Repr

/-! ## Reset (R169 and each chapter's table) -/

/-- The image values before the entry to ACTIVE: the spec gives none. DESIGN CHOICE 0 (log 11); unsafe, but nothing
reads them in LOADING or BYPASS. -/
def ImageValues.reset : ImageValues where
  cueBase := 0
  statusBase := 0
  ringBase := 0
  ringSize := 0
  presBase := 0
  slotBytes := 0
  starvationLimit := 0
  joinLimit := 0
  lossLimit := 0
  refreshPeriod := 0

/-- "No descriptor" (R19): a disabled one. DESIGN CHOICE (log 11). -/
def Descriptor.reset : Descriptor where
  enabled := false
  autoStart := false
  aoTag := 0
  format := .w10
  width := 0
  height := 0
  stride := 0
  bufferCount := 0
  bases := Vector.replicate 4 0
  home := 0
  port := none
  delay := 0
  loss := .hold
  stackPolicy := .hold

/-- "No table" (R116): every entry 0, prescale 1. DESIGN CHOICE (log 11). -/
def LayoutEntry.reset : LayoutEntry where
  x := 0
  y := 0
  opacity := 0
  glide := 0
  fade := 0
  prescale := 1

/-- The glide record before the entry to ACTIVE. DESIGN CHOICE (log 11). -/
def Glide.reset : Glide where
  startX := 0
  startY := 0
  targetX := 0
  targetY := 0
  length := 0
  step := 0
  x := 0
  y := 0

/-- The fade record before the entry to ACTIVE, as the table of R116 gives it for the entry. DESIGN CHOICE (log 11). -/
def Fade.reset : Fade where
  start := 0
  target := 0
  length := 0
  prescale := 1
  count := 0
  step := 0
  opacity := 0

/-- A channel's layout records before the entry to ACTIVE. DESIGN CHOICE (log 11). -/
def LayoutState.reset : LayoutState where
  sl := 0
  stack := []
  overflow := false
  underflow := false
  prevEff := 0
  rewrite := false
  glide := .reset
  fade := .reset

/-- "No record" (R137): mode OFF, no zone. DESIGN CHOICE (log 11). -/
def MonRecord.reset : MonRecord where
  mode := .off
  zone := none
  threshold := 1
  level := 0
  hysteresis := 0
  tracking := none
  delayKind := .steady
  onDelay := 0
  offDelay := 0
  inhibit := false
  alternate := 0
  force := .auto
  edges := .none

/-- A monitor before the entry to ACTIVE. DESIGN CHOICE (log 11). -/
def Monitor.reset : Monitor where
  cfg := .reset
  computed := .idle
  onCount := 0
  offCount := 0
  shotCount := 0
  acc := 0
  fresh := true
  activity := 0
  effective := false

/-- A channel after reset (R19, R45). -/
def Channel.reset : Channel where
  desc := .reset
  state := .off
  frame := 0
  buffer := none
  deepest := 0
  geom := none
  lay := .reset
  monA := .reset
  monB := .reset
  lastLate := none
  lastFetchError := none

/-- The settings before the entry to ACTIVE: none given. DESIGN CHOICE 0 (log 11). -/
def IngestSettings.reset : IngestSettings where
  cropX := 0
  cropY := 0
  cropW := 0
  cropH := 0
  targetW := 0
  targetH := 0

/-- A port after reset (R84). -/
def Port.reset : Port where
  state := .idle
  settings := .reset
  lastGood := none
  flights := []
  queue := []

/-- A FREE slot, cleared (R99). -/
def Slot.reset : Slot where
  state := .free
  w := 0
  h := 0
  capture := 0
  hold := 0
  damaged := false

/-- The slots of a port after reset (R99). -/
def PortSlots.reset : PortSlots where
  slots := Vector.replicate 16 Slot.reset
  latest := 0

/-- The report unit after reset (R168). The mask and the time of the last periodic request have no value before the
entry to ACTIVE: DESIGN CHOICE 0 (log 11). -/
def ReportUnit.reset : ReportUnit where
  prod := 0
  prodLap := true
  cons := 0
  consLap := true
  lost := false
  queue := []
  mask := 0
  status := .idle
  again := false
  lastRefresh := 0

/-- The blocks after a reset with the given cause (R169). -/
def Blocks.resetWith (cause : ResetCause) : Blocks where
  mode := .loading
  cause := cause
  timeBase := 0
  restartTime := 0
  image := .reset
  chans := Vector.replicate 8 Channel.reset
  layouts := Vector.replicate 32 LayoutEntry.reset
  rtt := []
  fetchQueue := []
  ports := Vector.replicate 4 Port.reset
  slotTab := Vector.replicate 4 PortSlots.reset
  rep := .reset

/-- The link path after reset (R152). -/
def Link.reset : Link where
  upstream := []
  passSlot := none
  untracked := []
  writeRecords := []
  starvation := 0
  lastPort := 3
  lastSource := .entry
  passResponse := none
  held := []
  consumerWord := 0
  issued := []
  returned := []

/-- The cue unit after reset (R153). -/
def CueUnit.reset : CueUnit where
  shadow := []
  slot := 0
  lap := true

/-- The part after a reset with the given cause; the queue of commands is the sender's (log 1). -/
def State.resetWith (cause : ResetCause) (pending : List Instr) : State where
  pending := pending
  link := .reset
  cue := .reset
  blk := .resetWith cause
  attn := false

/-- The machine right after power-on, with no command waiting. -/
def State.reset : State := .resetWith .powerOn []

end Sys2Proof.Machine
end

