-- ==== Sys2Proof/Machine/Operands.lean ====
section
/-! DEFINITION. The byte and bit layouts of the memory-resident formats (12): little-endian words, pixel words, and the codes of
the enumerated fields. -/

namespace Sys2Proof.Machine

/-! ## Little-endian words (00_scope section 7, 12) -/

/-- The byte at place `i`, 0 beyond the end. -/
def byteAt (bytes : List Byte) (i : Nat) : Byte := bytes.getD i 0

/-- A word from its four bytes, byte 0 the least significant. -/
def wordOf (b0 b1 b2 b3 : Byte) : Word := b3 ++ b2 ++ b1 ++ b0

/-- The word whose byte 0 is at place `i`. -/
def wordAt (bytes : List Byte) (i : Nat) : Word :=
  wordOf (byteAt bytes i) (byteAt bytes (i + 1)) (byteAt bytes (i + 2)) (byteAt bytes (i + 3))

/-- Byte `k` of a word. -/
def wordByte (w : Word) (k : Nat) : Byte := w.extractLsb' (8 * k) 8

/-- The four bytes of a word, byte 0 first. -/
def wordBytes (w : Word) : List Byte := [wordByte w 0, wordByte w 1, wordByte w 2, wordByte w 3]

/-- The low half (bits 0 to 15) of a word. -/
def lowHalf (w : Word) : Half := w.extractLsb' 0 16

/-- The high half (bits 16 to 31) of a word. -/
def highHalf (w : Word) : Half := w.extractLsb' 16 16

/-- A number as a 32-bit word. -/
def wordOfNat (n : Nat) : Word := BitVec.ofNat 32 n

/-- A number as a byte. -/
def byteOfNat (n : Nat) : Byte := BitVec.ofNat 8 n

/-- A number of 16 bits as two bytes. -/
def halfBytes (n : Nat) : List Byte := [byteOfNat n, byteOfNat (n / 256)]

/-- Two numbers of 16 bits in one word, the first in bits 0 to 15. -/
def pairWord (lo hi : Nat) : Word := (BitVec.ofNat 16 hi ++ BitVec.ofNat 16 lo : BitVec 32)

/-- Four bytes in one word, the first in bits 0 to 7. -/
def quadWord (b0 b1 b2 b3 : Nat) : Word := wordOf (byteOfNat b0) (byteOfNat b1) (byteOfNat b2) (byteOfNat b3)

/-- The low and high words of a 40-bit address (12). -/
def addrWords (a : Addr) : Word × Word := (wordOfNat a.toNat, wordOfNat (a.toNat / 4294967296))

/-- A yes/no as 0 or 1. -/
def bitOf (b : Bool) : Nat := if b then 1 else 0

/-- Replace the four bytes from place `i` on by a word's bytes. -/
def putWord (bytes : List Byte) (i : Nat) (w : Word) : List Byte :=
  (((bytes.set i (wordByte w 0)).set (i + 1) (wordByte w 1)).set (i + 2) (wordByte w 2)).set (i + 3) (wordByte w 3)

/-! ## Pixel words (12 section 12.1) -/

/-- The W10 word's Cb, Y and Cr. -/
def w10Cb (w : Word) : Nat := (w.extractLsb' 0 10).toNat
/-- W10 Y. -/
def w10Y (w : Word) : Nat := (w.extractLsb' 10 10).toNat
/-- W10 Cr. -/
def w10Cr (w : Word) : Nat := (w.extractLsb' 20 10).toNat
/-- The W10 word's two spare bits (R47). -/
def w10Spare (w : Word) : BitVec 2 := w.extractLsb' 30 2

/-- A W10 word from its components and spare bits. -/
def w10Word (cb y cr : Nat) (spare : BitVec 2) : Word :=
  (spare ++ BitVec.ofNat 10 cr ++ BitVec.ofNat 10 y ++ BitVec.ofNat 10 cb : BitVec 32)

/-- The K8 pixel of a word: Y, Cb, Cr, K in bytes 0 to 3. -/
def k8OfWord (w : Word) : K8 := ⟨wordByte w 0, wordByte w 1, wordByte w 2, wordByte w 3⟩

/-- The bytes of a K8 pixel, as ingest writes them. -/
def k8Bytes (p : K8) : List Byte := [p.y, p.cb, p.cr, p.k]

/-! ## Codes (12 sections 12.2 to 12.4) -/

/-- The code of a report kind (12 section 12.3). -/
def ReportKind.code : ReportKind → Nat
  | .cueRefused => 1
  | .guard => 2
  | .latePresenter => 3
  | .fetchError => 4
  | .ingestDrop => 5
  | .inputLost => 6
  | .inputRestored => 7
  | .presenterAbsent => 8
  | .presenterPresent => 9
  | .monitorEdge => 10
  | .stackFlag => 11
  | .channelState => 12
  | .restartDone => 13

/-- The code of a channel state (12 section 12.4). -/
def ChanState.code : ChanState → Nat
  | .off => 0
  | .armed => 1
  | .running => 2
  | .stopping => 3

/-- The code of a computed state (12 section 12.4). -/
def Computed.code : Computed → Nat
  | .inhibited => 0
  | .idle => 1
  | .pendingOn => 2
  | .active => 3
  | .pendingOff => 4
  | .spent => 5

/-- The code of an ingest state (12 section 12.4). -/
def IngestState.code : IngestState → Nat
  | .idle => 0
  | .waiting => 1
  | .receiving _ => 2
  | .discarding _ _ => 3
  | .lost => 4

/-- The code of a part state in the status block; codes 0 and 3 are reserved (12 section 12.4, R177). -/
def PartMode.code : PartMode → Nat
  | .loading => 0
  | .active => 1
  | .restarting => 2
  | .bypass => 3

/-- The code of a stack policy (12 section 12.2). -/
def StackPolicy.code : StackPolicy → Nat
  | .hold => 0
  | .revert => 1

/-- The stack policy of a code; one that names neither is HOLD (R2, 09 section 9.3). -/
def stackPolicyOf (code : Nat) : StackPolicy := if code = 1 then .revert else .hold

/-- The loss policy of a code; one that names neither is HOLD (R2, R17). -/
def lossPolicyOf (code : Nat) : LossPolicy := if code = 1 then .hide else .hold

/-- The monitor mode of a code; one that names none is OFF (R118). -/
def monModeOf (code : Nat) : MonMode := if code = 1 then .above else if code = 2 then .below else .off

/-- The delay kind of a code; one that names none is STEADY (R118). -/
def delayKindOf (code : Nat) : DelayKind := if code = 1 then .oneShot else if code = 2 then .latched else .steady

/-- The force of a code; one that names none is AUTO (R118, R134). -/
def forceOf (code : Nat) : Force := if code = 1 then .forceOn else if code = 2 then .forceOff else .auto

/-- The edge reports of a code; one that names none is NONE (R118). -/
def edgeReportsOf (code : Nat) : EdgeReports :=
  if code = 1 then .make else if code = 2 then .break else if code = 3 then .both else .none

/-- The monitor of a code, if it names one (R175). -/
def monIdOf (code : Nat) : Option MonId := if code = 0 then some .a else if code = 1 then some .b else none

/-- The port of a byte, if it is 0..3 (R175). -/
def portOf (n : Nat) : Option (Fin 4) := if h : n < 4 then some ⟨n, h⟩ else none

/-- The channel of a number, if it is 0..7 (R159). -/
def chanOf (n : Nat) : Option (Fin 8) := if h : n < 8 then some ⟨n, h⟩ else none

/-- The layout entry of a number, if it is 0..31 (R159). -/
def layoutOf (n : Nat) : Option (Fin 32) := if h : n < 32 then some ⟨n, h⟩ else none

/-- A number lowered to the last layout entry (R2, R118). -/
def layoutClamp (n : Nat) : Fin 32 := (layoutOf n).getD 31

/-- The 16-bit two's-complement offset of a monitor, in −1000..1000 (R118, 12 section 12.2). -/
def offsetClamp (h : Half) : Int := max (-1000) (min 1000 h.toInt)

/-- The tracking of a monitor: byte value 1 tracks the other monitor; a value that names none is none (R118). -/
def trackingOf (code : Nat) (offset : Half) : Option Int := if code = 1 then some (offsetClamp offset) else none

end Sys2Proof.Machine
end

