-- ==== Sys2Proof/Machine/Ops.lean ====
section
/-! DEFINITION. The named operations over the state: the sparse memory that holds the cue shadow and the link path's per-pair
records, the accessors of channels, ports and slots, slot holds, and the raising of a report. -/

namespace Sys2Proof.Machine

/-! ## Sparse memory in one canonical form

The cue shadow (R153), the untracked counts (R142) and the write records (R144) are lists of (key, value) cells: keys
strictly rising, no value equal to `d`, what an unlisted key reads as. -/

section
variable {α : Type} [DecidableEq α]

/-- The value at a key; an unlisted key reads as `d`. -/
def Memory.get (d : α) : List (Nat × α) → Nat → α
  | [], _ => d
  | (k, v) :: rest, a => if k = a then v else Memory.get d rest a

/-- The cells without those at a key. -/
def Memory.remove : List (Nat × α) → Nat → List (Nat × α)
  | [], _ => []
  | (k, v) :: rest, a => if k = a then Memory.remove rest a else (k, v) :: Memory.remove rest a

/-- A new cell in its place. -/
def Memory.insert : List (Nat × α) → Nat → α → List (Nat × α)
  | [], a, v => [(a, v)]
  | (k, w) :: rest, a, v => if a < k then (a, v) :: (k, w) :: rest else (k, w) :: Memory.insert rest a v

/-- The write of one key; writing `d` removes its cell. -/
def Memory.set (d : α) (m : List (Nat × α)) (a : Nat) (v : α) : List (Nat × α) :=
  if v = d then Memory.remove m a else Memory.insert (Memory.remove m a) a v

/-- The canonical form, from a least key on. -/
def Memory.wfFrom (d : α) : Nat → List (Nat × α) → Bool
  | _, [] => true
  | lo, (k, v) :: rest => decide (lo ≤ k) && decide (v ≠ d) && Memory.wfFrom d (k + 1) rest

/-- The canonical form: keys strictly rising, no cell holding `d`. -/
def Memory.wf (d : α) (m : List (Nat × α)) : Bool := Memory.wfFrom d 0 m

/-- The writes of a list of cells, in order. -/
def Memory.setAll (d : α) (m : List (Nat × α)) (cells : List (Nat × α)) : List (Nat × α) :=
  cells.foldl (fun m c => Memory.set d m c.1 c.2) m

end

/-! ## Accessors of the blocks -/

namespace Blocks

/-- A channel. -/
def chan (b : Blocks) (c : Fin 8) : Channel := b.chans[c]

/-- Replace a channel. -/
def setChan (b : Blocks) (c : Fin 8) (x : Channel) : Blocks := { b with chans := b.chans.set c x }

/-- A port's ingest unit. -/
def port (b : Blocks) (p : Fin 4) : Port := b.ports[p]

/-- Replace a port's ingest unit. -/
def setPort (b : Blocks) (p : Fin 4) (x : Port) : Blocks := { b with ports := b.ports.set p x }

/-- A port's slot records. -/
def portSlots (b : Blocks) (p : Fin 4) : PortSlots := b.slotTab[p]

/-- Replace a port's slot records. -/
def setPortSlots (b : Blocks) (p : Fin 4) (x : PortSlots) : Blocks := { b with slotTab := b.slotTab.set p x }

/-- A slot record. -/
def slot (b : Blocks) (p : Fin 4) (i : Fin 16) : Slot := (b.portSlots p).slots[i]

/-- Replace a slot record. -/
def setSlot (b : Blocks) (p : Fin 4) (i : Fin 16) (x : Slot) : Blocks :=
  b.setPortSlots p { b.portSlots p with slots := (b.portSlots p).slots.set i x }

/-- A layout table entry. -/
def layout (b : Blocks) (i : Fin 32) : LayoutEntry := b.layouts[i]

/-- Replace every channel by a function of it. -/
def mapChans (b : Blocks) (f : Fin 8 → Channel → Channel) : Blocks :=
  { b with chans := Vector.ofFn fun c => f c (b.chan c) }

end Blocks

/-- The channels in order (R18: channel 0 first). -/
def allChans : List (Fin 8) := [0, 1, 2, 3, 4, 5, 6, 7]

/-- The ports in order. -/
def allPorts : List (Fin 4) := [0, 1, 2, 3]

/-- The slot indices in order. -/
def allSlots : List (Fin 16) := [0, 1, 2, 3, 4, 5, 6, 7, 8, 9, 10, 11, 12, 13, 14, 15]

/-- Monitor A or B of a channel. -/
def Channel.mon (ch : Channel) : MonId → Monitor
  | .a => ch.monA
  | .b => ch.monB

/-- Replace monitor A or B of a channel. -/
def Channel.setMon (ch : Channel) : MonId → Monitor → Channel
  | .a, m => { ch with monA := m }
  | .b, m => { ch with monB := m }

/-! ## Holds (R92) -/

namespace Blocks

/-- Add one hold to the slot of a reference. -/
def addHold (b : Blocks) (r : SlotRef) : Blocks :=
  b.setSlot r.port r.slot { b.slot r.port r.slot with hold := (b.slot r.port r.slot).hold + 1 }

/-- Remove one hold from the slot of a reference. -/
def dropHold (b : Blocks) (r : SlotRef) : Blocks :=
  b.setSlot r.port r.slot { b.slot r.port r.slot with hold := (b.slot r.port r.slot).hold - 1 }

/-- Remove the hold of a reference that may be absent. -/
def dropHold? (b : Blocks) : Option SlotRef → Blocks
  | none => b
  | some r => b.dropHold r

end Blocks

/-! ## Reports and refresh requests (10) -/

/-- The distance from the consumer index to the producer index, for a ring of `n` records (R162). -/
def ReportUnit.distance (r : ReportUnit) (n : Nat) : Nat :=
  (r.prod + n * bitOf r.prodLap + 2 * n - (r.cons + n * bitOf r.consLap)) % (2 * n)

namespace Blocks

/-- The distance of the report ring as the part holds it (R162). -/
def distance (b : Blocks) : Nat := b.rep.distance b.image.ringSize

/-- Whether a report kind is enabled (R163). -/
def enabled (b : Blocks) (k : ReportKind) : Bool := b.rep.mask.getLsbD (k.code - 1)

/-- Whether an enabled report raised now is lost (R163). -/
def reportsFull (b : Blocks) : Bool :=
  decide (Config.reportQueueSize ≤ b.rep.queue.length) ||
    decide (b.image.ringSize ≤ b.distance + b.rep.queue.length)

/-- Raise a report: dropped when its kind is disabled, lost when there is no room, otherwise queued (R163). -/
def raise (b : Blocks) (k : ReportKind) (subject : Subject) (words : List Word) : Blocks :=
  if b.enabled k then
    if b.reportsFull then { b with rep := { b.rep with lost := true } }
    else { b with rep := { b.rep with queue := b.rep.queue ++ [⟨k, subject, b.timeBase, words⟩] } }
  else b

/-- Raise a report about a channel; it carries the channel's frame number as it stands (10 section 10.2). -/
def raiseChan (b : Blocks) (k : ReportKind) (c : Fin 8) (words : List Word) : Blocks :=
  b.raise k (.channel c (b.chan c).frame) words

/-- Request a status block refresh (R166, R167). -/
def requestRefresh (b : Blocks) : Blocks :=
  match b.rep.status with
  | .idle => { b with rep := { b.rep with status := .waiting } }
  | .waiting => b
  | .inFlight => { b with rep := { b.rep with again := true } }

end Blocks

/-- The base address of a slot (R27). -/
def ImageValues.slotBase (v : ImageValues) (p : Fin 4) (i : Fin 16) : Nat :=
  v.presBase + (p.val * 16 + i.val) * v.slotBytes

/-- Whether a time base value has reached a later one, modulo the wrap of the time base (R36). -/
def reached (now deadline : Word) : Bool := decide ((now - deadline).toNat < 2147483648)

/-- The time since a time base value, modulo the wrap of the time base (R68). -/
def since (now start : Word) : Nat := (now - start).toNat

end Sys2Proof.Machine
end

