-- ==== Sys2Proof/Machine/Blend.lean ====
section
/-! DEFINITION. The blend arithmetic of one component, one W10 pixel and one P8 pair (03_blend_arithmetic). -/

namespace Sys2Proof.Machine

/-- The expansion of an 8-bit value to 10 bits (R50). -/
def expand (v : Nat) : Nat := v * 4 + v / 64

/-- The alpha of a presenter pixel with key `k` at opacity `o` (R51). -/
def alpha (k o : Nat) : Nat := (k * o + 127) / 255

/-- The blend of one component: programme value `p`, presenter value `s`, alpha `a` (R52). -/
def mix (p s a : Nat) : Nat := (p * (256 - a) + s * a + 128) / 256

/-- The average of two presenter chroma values (R55). -/
def average (l r : Nat) : Nat := (l + r + 1) / 2

/-- A W10 pixel blended with its presenter pixel; the spare bits stay as received (R53). -/
def blendW10 (w : Word) (s : K8) (o : Nat) : Word :=
  let a := alpha s.k.toNat o
  w10Word (mix (w10Cb w) (expand s.cb.toNat) a) (mix (w10Y w) (expand s.y.toNat) a)
    (mix (w10Cr w) (expand s.cr.toNat) a) (w10Spare w)

/-- One P8 component: expanded, blended and returned to 8 bits (R54, R56). -/
def mixP8 (p s a : Nat) : Byte := byteOfNat (mix (expand p) (expand s) a / 4)

/-- A P8 pair blended with its left and right presenter pixels (R54, R55, R56). -/
def blendP8 (w : Word) (l r : K8) (o : Nat) : Word :=
  let a0 := alpha l.k.toNat o
  let a1 := alpha r.k.toNat o
  let ac := average a0 a1
  wordOf
    (mixP8 (wordByte w 0).toNat (average l.cb.toNat r.cb.toNat) ac)
    (mixP8 (wordByte w 1).toNat l.y.toNat a0)
    (mixP8 (wordByte w 2).toNat (average l.cr.toNat r.cr.toNat) ac)
    (mixP8 (wordByte w 3).toNat r.y.toNat a1)

/-- The luma of the pixel at column `c`, whose programme word is `w`: W10 Y as received, or the expanded P8 Y0 or Y1
(R121). -/
def luma (format : ProgFormat) (w : Word) (c : Nat) : Nat :=
  match format with
  | .w10 => w10Y w
  | .p8 => expand (wordByte w (if c % 2 = 0 then 1 else 3)).toNat

end Sys2Proof.Machine
end

