-- ==== Sys2Proof/Machine/Layouts.lean ====
section
/-! DEFINITION. The layout logic: the layout table, the selected layout and the stack, the effective layout, glides and fades
(06_layouts_the_layout_stack_and_transitions). -/

namespace Sys2Proof.Machine

/-! ## The table (R101) -/

/-- Bring the fields of a layout entry into range (R101). -/
def layoutInRange (x y opacity glide fade prescale : Nat) : LayoutEntry where
  x := min x 4094 / 2 * 2
  y := min y 2302
  opacity := min opacity 256
  glide := min glide 255
  fade := min fade 255
  prescale := max 1 (min prescale 16)

/-! ## Transitions (R111 to R114) -/

/-- A quotient rounded half away from zero (00_scope section 7). -/
def roundAway (num : Int) (den : Nat) : Int :=
  let q : Int := ((2 * num.natAbs + den) / (2 * den) : Nat)
  if num < 0 then -q else q

/-- One axis of a transition after step `k` of `n`: the start plus (target − start) × k ÷ n, rounded half away from
zero; the target when n is 0 (R112, R113). -/
def along (start target k n : Nat) : Nat :=
  if n = 0 then target else ((start : Int) + roundAway (((target : Int) - start) * k) n).toNat

/-- A position at rest: start and target there, G 0, k 0 (R115, R116). -/
def glideAt (x y : Nat) : Glide where
  startX := x
  startY := y
  targetX := x
  targetY := y
  length := 0
  step := 0
  x := x
  y := y

/-- The glide of a new target, begun when the entry's position differs from the record's target (R111). -/
def glideBegin (g : Glide) (e : LayoutEntry) : Glide :=
  if e.x = g.targetX ∧ e.y = g.targetY then g
  else { g with startX := g.x, startY := g.y, targetX := e.x, targetY := e.y, length := e.glide, step := 0 }

/-- The glide step of a frame start (R112). -/
def glideStep (g : Glide) : Glide :=
  let k := if g.step < g.length then g.step + 1 else g.step
  { g with
    step := k
    x := along g.startX g.targetX k g.length / 2 * 2
    y := along g.startY g.targetY k g.length }

/-- A fade from the opacity as it stands toward a target (R113, R114). -/
def fadeToward (f : Fade) (target length prescale : Nat) : Fade :=
  { f with start := f.opacity, target := target, length := length, prescale := prescale, count := 0, step := 0 }

/-- The fade of a new target, begun when the entry's opacity differs from the record's target (R113). -/
def fadeBegin (f : Fade) (e : LayoutEntry) : Fade :=
  if e.opacity = f.target then f else fadeToward f e.opacity e.fade e.prescale

/-- The fade step of a frame start (R113). -/
def fadeStep (f : Fade) : Fade :=
  let ticked := f.count + 1
  let turn := decide (f.prescale ≤ ticked)
  let k := if turn && decide (f.step < f.length) then f.step + 1 else f.step
  { f with
    count := if turn then 0 else ticked
    step := k
    opacity := along f.start f.target k f.length }

/-- A fade at rest at opacity 0 (R116). -/
def fadeAtZero : Fade := Fade.reset

/-! ## The effective layout (R109) -/

/-- The effective entry, from the monitors' effective states and SL (R109). -/
def effectiveEntry (ch : Channel) (activeA activeB : Bool) : Fin 32 :=
  if activeA then ch.monA.cfg.alternate else if activeB then ch.monB.cfg.alternate else ch.lay.sl

/-- The layout logic's work at a frame start of R10, in the order of R108. -/
def layoutFrame (table : Vector LayoutEntry 32) (ch : Channel) (activeA activeB : Bool) : LayoutState :=
  let lay := ch.lay
  let eff := effectiveEntry ch activeA activeB
  let entry := table[eff]
  let newTarget := decide (eff ≠ lay.prevEff) || lay.rewrite
  let glide := if newTarget then glideBegin lay.glide entry else lay.glide
  let fade := if newTarget then fadeBegin lay.fade entry else lay.fade
  { lay with glide := glideStep glide, fade := fadeStep fade, prevEff := eff, rewrite := false }

/-- The layout records as START CHANNEL sets them; the monitors' effective states are those the START leaves (R115). -/
def layoutStart (table : Vector LayoutEntry 32) (ch : Channel) (activeA activeB : Bool) : LayoutState :=
  let eff := effectiveEntry { ch with lay := { ch.lay with sl := ch.desc.home } } activeA activeB
  let entry := table[eff]
  { sl := ch.desc.home
    stack := []
    overflow := false
    underflow := false
    prevEff := eff
    rewrite := false
    glide := glideAt entry.x entry.y
    fade := fadeToward fadeAtZero entry.opacity entry.fade entry.prescale }

/-- The layout records of the entry to ACTIVE and of the completion of RESTART (R116). -/
def layoutInitial (table : Vector LayoutEntry 32) (home : Fin 32) : LayoutState where
  sl := home
  stack := []
  overflow := false
  underflow := false
  prevEff := home
  rewrite := false
  glide := glideAt table[home].x table[home].y
  fade := fadeAtZero

/-! ## The effects of the layout cues -/

/-- WRITE LAYOUT: the entry is replaced, and the rewrite mark set for channels whose previous effective entry it is
(R102). -/
def writeLayout (i : Fin 32) (e : LayoutEntry) (b : Blocks) : Blocks :=
  { b with layouts := b.layouts.set i e }.mapChans fun _ ch =>
    if ch.lay.prevEff = i then { ch with lay := { ch.lay with rewrite := true } } else ch

/-- SELECT LAYOUT (R104). -/
def selectLayout (c : Fin 8) (i : Fin 32) (b : Blocks) : Blocks :=
  b.setChan c { b.chan c with lay := { (b.chan c).lay with sl := i } }

/-- The words of a STACK FLAG report (R107); the policy byte is 0 for an UNDERFLOW (R176). -/
def stackFlagWords (underflow : Bool) (policy : Nat) (lay : LayoutState) : List Word :=
  [quadWord (bitOf underflow) policy lay.sl.val lay.stack.length]

/-- PUSH LAYOUT (R105). -/
def pushLayout (c : Fin 8) (i : Fin 32) (b : Blocks) : Blocks :=
  let ch := b.chan c
  if ch.lay.stack.length < Config.stackSize then
    b.setChan c { ch with lay := { ch.lay with stack := ch.lay.stack ++ [ch.lay.sl], sl := i } }
  else
    let lay := match ch.desc.stackPolicy with
      | .hold => { ch.lay with overflow := true }
      | .revert => { ch.lay with overflow := true, stack := [], sl := ch.desc.home }
    (b.setChan c { ch with lay := lay }).raiseChan .stackFlag c (stackFlagWords false ch.desc.stackPolicy.code lay)

/-- POP LAYOUT (R106). -/
def popLayout (c : Fin 8) (b : Blocks) : Blocks :=
  let ch := b.chan c
  match ch.lay.stack.getLast? with
  | some top => b.setChan c { ch with lay := { ch.lay with sl := top, stack := ch.lay.stack.dropLast } }
  | none =>
    let lay := { ch.lay with sl := ch.desc.home, underflow := true }
    (b.setChan c { ch with lay := lay }).raiseChan .stackFlag c (stackFlagWords true 0 lay)

/-- CLEAR FLAGS (R107). -/
def clearFlags (c : Fin 8) (b : Blocks) : Blocks :=
  b.setChan c { b.chan c with lay := { (b.chan c).lay with overflow := false, underflow := false } }

/-- FADE, its values brought into range (R114). -/
def fadeChannel (c : Fin 8) (target length prescale : Nat) (b : Blocks) : Blocks :=
  let ch := b.chan c
  b.setChan c { ch with lay := { ch.lay with
    fade := fadeToward ch.lay.fade (min target 256) (min length 255) (max 1 (min prescale 16)) } }

end Sys2Proof.Machine
end

