-- ==== Sys2Proof/Machine/Monitors.lean ====
section
/-! DEFINITION. The placement monitors: records, edge counting, activity, conditions, the computed state machine, the effective
state, and the monitor cues (07_placement_monitors). -/

namespace Sys2Proof.Machine

/-! ## Records (R118, R119) -/

/-- Whether a zone lies wholly outside a raster (R119). -/
def zoneOutside (z : Rect) (width height : Nat) : Bool :=
  decide (width ≤ z.x) || decide (height ≤ z.y) || decide (z.w = 0) || decide (z.h = 0)

/-- A zone clamped to a raster (R119). -/
def zoneClamp (z : Rect) (width height : Nat) : Rect :=
  { z with w := min z.w (width - z.x), h := min z.h (height - z.y) }

/-- The zone the fields carry, before any clamp. -/
def fieldsZone (f : MonitorFields) : Rect := ⟨f.zoneX.toNat, f.zoneY.toNat, f.zoneW.toNat, f.zoneH.toNat⟩

/-- Whether the mode carried is ABOVE or BELOW and the zone lies wholly outside the raster (R119, R159). -/
def fieldsZoneBad (f : MonitorFields) (width height : Nat) : Bool :=
  decide (monModeOf f.mode.toNat ≠ .off) && zoneOutside (fieldsZone f) width height

/-- The stored record of the fields carried, every field brought into range (R118); the zone by R119: absent under mode
OFF, and an image record whose zone lies wholly outside is stored with mode OFF and no zone. That an image record of mode
OFF, too, is stored without a zone is DEDUCED (log 35). -/
def recordOf (f : MonitorFields) (width height : Nat) : MonRecord :=
  let mode := monModeOf f.mode.toNat
  let usable := decide (mode ≠ .off) && !zoneOutside (fieldsZone f) width height
  { mode := if usable then mode else .off
    zone := if usable then some (zoneClamp (fieldsZone f) width height) else none
    threshold := max 1 (min f.threshold.toNat 1023)
    level := min f.level.toNat 1000
    hysteresis := min f.hysteresis.toNat 1000
    tracking := trackingOf f.tracking.toNat f.offset
    delayKind := delayKindOf f.delayKind.toNat
    onDelay := min f.onDelay.toNat 255
    offDelay := min f.offDelay.toNat 255
    inhibit := f.inhibit
    alternate := layoutClamp f.alternate.toNat
    force := forceOf f.force.toNat
    edges := edgeReportsOf f.edges.toNat }

/-! ## Running state -/

/-- The initial computed state of a record (R133). -/
def initialComputed (r : MonRecord) : Computed := if r.inhibit then .inhibited else .idle

/-- The reset of the running state by SET MONITOR and START CHANNEL: the accumulator and the last effective state are
kept (R133, R136). -/
def Monitor.resetRunning (m : Monitor) : Monitor :=
  { m with computed := initialComputed m.cfg, onCount := 0, offCount := 0, shotCount := 0, activity := 0, fresh := true }

/-- The running state of the entry to ACTIVE and of the completion of RESTART (R137). -/
def Monitor.initial (r : MonRecord) : Monitor where
  cfg := r
  computed := initialComputed r
  onCount := 0
  offCount := 0
  shotCount := 0
  acc := 0
  fresh := true
  activity := 0
  effective := false

/-- The effective state, from the force and the computed state (R131). -/
def Monitor.active (m : Monitor) : Bool :=
  match m.cfg.force with
  | .forceOn => true
  | .forceOff => false
  | .auto => m.computed = .active || m.computed = .pendingOff

/-- What START CHANNEL does to a monitor: the running state is reset and the effective state formed and recorded
(R136). -/
def Monitor.start (m : Monitor) : Monitor :=
  { m.resetRunning with effective := m.resetRunning.active }

/-! ## Activity and condition (R124 to R126) -/

/-- The activity of the frame just ended (R124). A record without a zone has none to divide by and gives 0; a monitor
whose mode is not OFF has a zone (log 29). -/
def Monitor.measured (m : Monitor) : Nat :=
  match m.cfg.zone with
  | none => 0
  | some z => min 1000 (m.acc * 1000 / (z.w * z.h))

/-- The effective level: its own, or the other monitor's stored level plus the offset (R125). -/
def Monitor.effectiveLevel (m other : Monitor) : Nat :=
  match m.cfg.tracking with
  | none => m.cfg.level
  | some offset => min 1000 ((other.cfg.level : Int) + offset).toNat

/-- The condition of an evaluation (R126). -/
inductive Condition where
  | on
  | off
  | neither
  deriving DecidableEq, Repr

/-- The condition of an activity against a level and a hysteresis (R126). -/
def conditionOf (mode : MonMode) (activity level hysteresis : Nat) : Condition :=
  match mode with
  | .above => if level ≤ activity then .on else if activity < level - hysteresis then .off else .neither
  | .below => if activity ≤ level then .on else if level + hysteresis < activity then .off else .neither
  | .off => .neither

/-! ## The computed state machine (R127 to R130) -/

/-- A make: the entry to ACTIVE; under ONE-SHOT the shot count is set to the off delay (R127). -/
def Monitor.make (m : Monitor) : Monitor :=
  let m := { m with computed := .active, onCount := 0 }
  match m.cfg.delayKind with
  | .oneShot => { m with shotCount := m.cfg.offDelay }
  | .steady | .latched => m

/-- One evaluation in ACTIVE (R128, R129, R130). -/
def Monitor.stepActive (m : Monitor) (c : Condition) : Monitor :=
  match m.cfg.delayKind with
  | .latched => m
  | .oneShot =>
    let shots := m.shotCount - 1
    if shots = 0 then { m with shotCount := 0, computed := .spent } else { m with shotCount := shots }
  | .steady =>
    match c with
    | .off => if m.cfg.offDelay = 0 then { m with computed := .idle }
              else { m with computed := .pendingOff, offCount := m.cfg.offDelay }
    | .on | .neither => m

/-- One evaluation, by the table of 07 section 7.5. The count of a PENDING state that is left is held as 0, a DESIGN CHOICE
(log 36). -/
def Monitor.stepComputed (m : Monitor) (c : Condition) : Monitor :=
  match m.computed with
  | .inhibited => if c = .off then { m with computed := .idle } else m
  | .idle =>
    if c = .on then
      if m.cfg.onDelay = 0 then m.make else { m with computed := .pendingOn, onCount := m.cfg.onDelay }
    else m
  | .pendingOn =>
    if c = .on then
      if m.onCount ≤ 1 then m.make else { m with onCount := m.onCount - 1 }
    else { m with computed := .idle, onCount := 0 }
  | .active => m.stepActive c
  | .pendingOff =>
    if c = .off then
      if m.offCount ≤ 1 then { m with computed := .idle, offCount := 0 } else { m with offCount := m.offCount - 1 }
    else { m with computed := .active, offCount := 0 }
  | .spent => if c = .off then { m with computed := .idle } else m

/-- The evaluation of a frame start: activity, condition, state machine; the accumulator is cleared (R123 step 2). -/
def Monitor.evaluate (m other : Monitor) : Monitor :=
  let activity := m.measured
  let m' := { m with activity := activity, acc := 0 }
  m'.stepComputed (conditionOf m.cfg.mode activity (m.effectiveLevel other) m.cfg.hysteresis)

/-- A monitor's work at a frame start of R10: discard, evaluate or neither, then the effective state (R123, R131). -/
def Monitor.frameStart (m other : Monitor) (wasRunning : Bool) : Monitor :=
  let m' :=
    if m.fresh then { m with acc := 0, fresh := false }
    else if wasRunning && decide (m.cfg.mode ≠ .off) then m.evaluate other
    else { m with acc := 0 }
  { m' with effective := m'.active }

/-- The zone a monitor hands to the channel controller (R120). -/
def Monitor.zoneHanded (m : Monitor) : Option Rect := if m.cfg.mode = .off then none else m.cfg.zone

/-! ## Edge reports (R132) -/

/-- The number of a monitor (12 section 12.2). -/
def MonId.code : MonId → Nat
  | .a => 0
  | .b => 1

/-- Whether a MAKE edge is reported. -/
def EdgeReports.makes : EdgeReports → Bool
  | .make | .both => true
  | .none | .break => false

/-- Whether a BREAK edge is reported. -/
def EdgeReports.breaks : EdgeReports → Bool
  | .break | .both => true
  | .none | .make => false

/-- The MONITOR EDGE report of monitor `i` of a channel, whose last effective state was `before` (R132). The byte of a
forced mark that is set is 1, a DESIGN CHOICE (log 34). -/
def raiseEdge (c : Fin 8) (i : MonId) (before : Bool) (b : Blocks) : Blocks :=
  let m := (b.chan c).mon i
  let forced := bitOf (decide (m.cfg.force ≠ .auto))
  if !before && m.effective && m.cfg.edges.makes then
    b.raiseChan .monitorEdge c [quadWord i.code 0 m.computed.code forced, wordOfNat m.activity]
  else if before && !m.effective && m.cfg.edges.breaks then
    b.raiseChan .monitorEdge c [quadWord i.code 1 m.computed.code forced, wordOfNat m.activity]
  else b

/-! ## The accumulator (R121) -/

/-- Add edges to a monitor's accumulator, which stands at its greatest value rather than exceed it (R121). -/
def Monitor.addEdges (m : Monitor) (n : Nat) : Monitor := { m with acc := min Config.wordMax (m.acc + n) }

/-! ## The effects of the monitor cues -/

/-- SET MONITOR: the record is stored and the running state reset (R133). -/
def setMonitor (c : Fin 8) (i : MonId) (f : MonitorFields) (b : Blocks) : Blocks :=
  let ch := b.chan c
  let r := recordOf f ch.desc.width ch.desc.height
  b.setChan c (ch.setMon i ({ ch.mon i with cfg := r } : Monitor).resetRunning)

/-- FORCE MONITOR (R134). -/
def forceMonitor (c : Fin 8) (i : MonId) (force : Force) (b : Blocks) : Blocks :=
  let ch := b.chan c
  let m := ch.mon i
  b.setChan c (ch.setMon i { m with cfg := { m.cfg with force := force } })

/-- CLEAR MONITOR on a monitor (R135). A count that is dropped is held as 0, a DESIGN CHOICE (log 36). -/
def Monitor.clear (m : Monitor) : Monitor :=
  match m.computed with
  | .active => if m.cfg.delayKind = .latched then { m with computed := .idle } else m
  | .pendingOn => { m with computed := .idle, onCount := 0 }
  | .pendingOff => { m with computed := .idle, offCount := 0 }
  | .spent => { m with computed := .idle }
  | .idle | .inhibited => m

/-- CLEAR MONITOR (R135). -/
def clearMonitor (c : Fin 8) (i : MonId) (b : Blocks) : Blocks :=
  let ch := b.chan c
  b.setChan c (ch.setMon i (ch.mon i).clear)

end Sys2Proof.Machine
end

