-- ==== Sys2Proof/Machine/Slots.lean ====
section
/-! DEFINITION. The slot table: capture numbers and age, the retention depth, the claim, completion, and the pick
(05_presenter_frame_slots). -/

namespace Sys2Proof.Machine

/-! ## Capture numbers and age (R86) -/

/-- The capture number after `latest` (R86). -/
def nextCapture (latest : Nat) : Nat := if latest = Config.wordMax then 1 else latest + 1

/-- The age of a capture number (R86). -/
def ageOf (latest capture : Nat) : Nat :=
  if capture ≤ latest then latest - capture else latest + Config.wordMax - capture

namespace Blocks

/-- The age of a slot (R86). -/
def age (b : Blocks) (p : Fin 4) (i : Fin 16) : Nat := ageOf (b.portSlots p).latest (b.slot p i).capture

/-- The READY slots of a port, in index order. -/
def readySlots (b : Blocks) (p : Fin 4) : List (Fin 16) := allSlots.filter fun i => (b.slot p i).state = .ready

/-- The slot of greatest age of a list. -/
def oldest (b : Blocks) (p : Fin 4) : List (Fin 16) → Option (Fin 16)
  | [] => none
  | i :: rest =>
    match b.oldest p rest with
    | none => some i
    | some j => if b.age p i < b.age p j then some j else some i

/-- The slot of smallest age of a list. -/
def newest (b : Blocks) (p : Fin 4) : List (Fin 16) → Option (Fin 16)
  | [] => none
  | i :: rest =>
    match b.newest p rest with
    | none => some i
    | some j => if b.age p j < b.age p i then some j else some i

/-! ## Retention depth and claim (R87, R88) -/

/-- Whether a channel counts towards a port's retention depth (R87). -/
def retains (b : Blocks) (p : Fin 4) (c : Fin 8) : Bool :=
  decide ((b.chan c).desc.port = some p) && decide ((b.chan c).state ≠ .off)

/-- The retention depth of a port (R87). -/
def retentionDepth (b : Blocks) (p : Fin 4) : Nat :=
  allChans.foldl (fun d c => if b.retains p c then max d (b.chan c).desc.delay else d) 0

/-- The slot a claim would recycle: the oldest unheld READY slot, if older than the retention depth (R88). -/
def recyclable (b : Blocks) (p : Fin 4) : Option (Fin 16) :=
  match b.oldest p ((b.readySlots p).filter fun i => (b.slot p i).hold = 0) with
  | none => none
  | some i => if b.retentionDepth p < b.age p i then some i else none

/-- The slot a claim of a port chooses (R88). -/
def claimSlot (b : Blocks) (p : Fin 4) : Option (Fin 16) :=
  match allSlots.find? fun i => (b.slot p i).state = .free with
  | some i => some i
  | none => b.recyclable p

/-- The claimed slot becomes FILLING with the frame's W and H; its capture number is discarded (R85, R88). -/
def fillSlot (b : Blocks) (p : Fin 4) (i : Fin 16) (w h : Nat) : Blocks :=
  b.setSlot p i { b.slot p i with state := .filling, w := w, h := h, capture := 0, damaged := false }

/-! ## Settling and completion (R90, R91) -/

/-- FILLING to SETTLING; the damaged mark is set when the slot is handed over as damaged, and stays set (R90). -/
def settleSlot (b : Blocks) (p : Fin 4) (i : Fin 16) (damaged : Bool) : Blocks :=
  b.setSlot p i { b.slot p i with state := .settling, damaged := (b.slot p i).damaged || damaged }

/-- A damaged mark handed over while the slot is FILLING (R80, R90). In SETTLING the mark stays as it is, which is DEDUCED
(log 32). -/
def markDamaged (b : Blocks) (p : Fin 4) (i : Fin 16) : Blocks :=
  if (b.slot p i).state = .filling then b.setSlot p i { b.slot p i with damaged := true } else b

/-- A complete slot: READY with the port's next capture number, or FREE and cleared (R86, R91). -/
def completeSlot (b : Blocks) (p : Fin 4) (i : Fin 16) (good : Bool) : Blocks :=
  if good && !(b.slot p i).damaged then
    let capture := nextCapture (b.portSlots p).latest
    let b := b.setSlot p i { b.slot p i with state := .ready, capture := capture }
    b.setPortSlots p { b.portSlots p with latest := capture }
  else b.setSlot p i { Slot.reset with hold := (b.slot p i).hold }

/-! ## The pick (R93 to R95) -/

end Blocks

/-- Why a pick is absent (R93). -/
inductive AbsentCause where
  | noPort
  | inputLost
  | noFrame
  deriving DecidableEq, Repr

/-- The code of a cause (12 section 12.3). -/
def AbsentCause.code : AbsentCause → Nat
  | .noPort => 1
  | .inputLost => 2
  | .noFrame => 3

/-- Whether an ingest state is LOST. -/
def IngestState.isLost : IngestState → Bool
  | .lost => true
  | .idle | .waiting | .receiving _ | .discarding _ _ => false

namespace Blocks

/-- The slot a channel of delay `d` shows of a port: of the READY slots of age at least `d` the newest; in shortfall the
oldest (R93). -/
def pickSlot (b : Blocks) (p : Fin 4) (d : Nat) : Option (Fin 16) :=
  let ready := b.readySlots p
  match b.newest p (ready.filter fun i => d ≤ b.age p i) with
  | some i => some i
  | none => b.oldest p ready

/-- The reference to a slot as it stands (R93). -/
def refOf (b : Blocks) (p : Fin 4) (i : Fin 16) : SlotRef := ⟨p, i, (b.slot p i).w, (b.slot p i).h⟩

/-- The pick of a channel at a frame start: a slot reference, or why it is absent (R93). -/
def pick (b : Blocks) (c : Fin 8) : Except AbsentCause SlotRef :=
  let desc := (b.chan c).desc
  match desc.port with
  | none => .error .noPort
  | some p =>
    if (b.port p).state.isLost && decide (desc.loss = .hide) then .error .inputLost
    else
      match b.pickSlot p desc.delay with
      | none => .error .noFrame
      | some i => .ok (b.refOf p i)

/-- Move the channel's hold from its previous slot to the picked one (R94). -/
def moveHold (b : Blocks) (before after : Option SlotRef) : Blocks :=
  match before, after with
  | none, none => b
  | some x, none => b.dropHold x
  | none, some y => b.addHold y
  | some x, some y => if x.port = y.port ∧ x.slot = y.slot then b else (b.dropHold x).addHold y

/-- The presence report of a pick, by comparison with the previous reference (R95). -/
def raisePresence (b : Blocks) (c : Fin 8) (before : Option SlotRef) (pick : Except AbsentCause SlotRef) : Blocks :=
  match before, pick with
  | some x, .error cause => b.raiseChan .presenterAbsent c [wordOfNat x.port.val, wordOfNat cause.code]
  | none, .error _ => b
  | before, .ok y =>
    if before.map SlotRef.port = some y.port then b
    else
      b.raiseChan .presenterPresent c
        [quadWord y.port.val y.slot.val 0 0, wordOfNat (b.slot y.port y.slot).capture, pairWord y.w y.h]

/-- The slot reference of a pick, if present. -/
def pickRef : Except AbsentCause SlotRef → Option SlotRef
  | .ok r => some r
  | .error _ => none

end Blocks

/-! ## The effect of ASSIGN PRESENTER (R17, R96) -/

/-- ASSIGN PRESENTER: port, delay and loss policy are replaced at once; delay above 12 is taken as 12 (R17). -/
def assignPresenter (c : Fin 8) (port : Option (Fin 4)) (delay : Nat) (loss : LossPolicy) (b : Blocks) : Blocks :=
  let ch := b.chan c
  b.setChan c { ch with desc := { ch.desc with port := port, delay := min delay 12, loss := loss } }

end Sys2Proof.Machine
end

