-- ==== Sys2Proof/Machine/Channels.lean ====
section
/-! DEFINITION. The channel controllers: addresses and pixels, the channel of a tag, frame starts, the latched geometry, and the
channel cues (01_programme_channels_and_frame_timing). -/

namespace Sys2Proof.Machine

/-! ## Addresses and pixels (R3, R4) -/

/-- Bytes per pixel (R3). -/
def bytesPerPixel : ProgFormat → Nat
  | .w10 => 4
  | .p8 => 2

namespace Descriptor

/-- The row width in bytes (R3). -/
def rowWidth (d : Descriptor) : Nat := d.width * bytesPerPixel d.format

/-- The size of a buffer's span (R3). -/
def spanBytes (d : Descriptor) : Nat := (d.height - 1) * d.stride + d.rowWidth

/-- The base of a buffer. -/
def base (d : Descriptor) (k : Fin 4) : Nat := d.bases[k]

/-- Whether a buffer's span contains an address (R3). -/
def spanHas (d : Descriptor) (k : Fin 4) (a : Nat) : Bool :=
  decide (k.val < d.bufferCount) && decide (d.base k ≤ a) && decide (a < d.base k + d.spanBytes)

/-- The buffer of a request at an address, if any (R4). -/
def bufferOf (d : Descriptor) (a : Nat) : Option (Fin 4) := ([0, 1, 2, 3] : List (Fin 4)).find? fun k => d.spanHas k a

/-- The offset of an address in a buffer (R3). -/
def offset (d : Descriptor) (k : Fin 4) (a : Nat) : Nat := a - d.base k

/-- The columns of line `l` a request of `n` bytes at offset `o` covers, as one run, if any (R3, R4). -/
def runOf (d : Descriptor) (o n l : Nat) : Option Span :=
  let lo := max o (l * d.stride)
  let hi := min (o + n) (l * d.stride + d.rowWidth)
  if l < d.height ∧ lo < hi then
    let per := match d.format with
      | .w10 => 1
      | .p8 => 2
    let w0 := (lo - l * d.stride) / 4
    let w1 := (hi - 1 - l * d.stride) / 4 + 1
    some ⟨l, w0 * per, (w1 - w0) * per⟩
  else none

/-- The pixels of a request with a buffer: a run on each of at most two consecutive lines, in line order (R4). -/
def runs (d : Descriptor) (k : Fin 4) (a beats : Nat) : List Span :=
  let o := d.offset k a
  let l := o / d.stride
  [l, l + 1].filterMap (d.runOf o (beats * 16))

/-- The runs of a request, none when it has no buffer (R4). -/
def requestRuns (d : Descriptor) (a beats : Nat) : List Span :=
  match d.bufferOf a with
  | none => []
  | some k => d.runs k a beats

end Descriptor

/-- The part of a run inside a rectangle, if not empty. -/
def Span.inside (s : Span) (r : Rect) : Option Span :=
  let lo := max s.first r.x
  let hi := min (s.first + s.count) (r.x + r.w)
  if r.y ≤ s.line ∧ s.line < r.y + r.h ∧ lo < hi then some ⟨s.line, lo, hi - lo⟩ else none

/-- Whether a request has a pixel inside a rectangle. -/
def anyInside (runs : List Span) (r : Rect) : Bool := runs.any fun s => (s.inside r).isSome

/-- The inset of a geometry: its rectangle, with the slot's size or 0 × 0 (R14, R15). -/
def Geometry.inset (g : Geometry) : Rect :=
  match g.slot with
  | some r => ⟨g.x, g.y, r.w, r.h⟩
  | none => ⟨g.x, g.y, 0, 0⟩

/-! ## The channel of a tag (R5, R13) -/

namespace Blocks

/-- The channel of a stream tag: the enabled channel whose AO tag it is (R5). -/
def chanOfTag (b : Blocks) (t : Tag) : Option (Fin 8) :=
  allChans.find? fun c => (b.chan c).desc.enabled && decide ((b.chan c).desc.aoTag.toNat = t.toNat)

/-- Whether the RTT holds an entry of a tag (R13). -/
def rttHasTag (b : Blocks) (t : Tag) : Bool := b.rtt.any fun e => e.tag = t

/-- The channel a read of a tag is tracked for, if the tag is tracked (R13). A tag tracked because entries remain whose
channel is none does not arise (R5); its entries' channel stands in (log 26). -/
def trackedChan (b : Blocks) (t : Tag) : Option (Fin 8) :=
  match b.chanOfTag t with
  | some c => if (b.chan c).state ≠ .off ∨ b.rttHasTag t then some c else none
  | none => (b.rtt.find? fun e => e.tag = t).map Entry.chan

/-! ## Channel state reports (R6) -/

end Blocks

/-- What changed a channel's state (R6). -/
inductive StateCause where
  | startChannel
  | frameStart
  | stopChannel
  | restart
  deriving DecidableEq, Repr

/-- The code of a cause (12 section 12.3). -/
def StateCause.code : StateCause → Nat
  | .startChannel => 1
  | .frameStart => 2
  | .stopChannel => 3
  | .restart => 4

namespace Blocks

/-- The CHANNEL STATE report, with the state as it stands after the change (R6). -/
def raiseState (b : Blocks) (c : Fin 8) (cause : StateCause) : Blocks :=
  b.raiseChan .channelState c [quadWord (b.chan c).state.code cause.code 0 0]

/-! ## Entering OFF (R16) -/

/-- The slot reference of a channel's latched geometry, if present. -/
def latchedRef (b : Blocks) (c : Fin 8) : Option SlotRef := (b.chan c).geom.bind Geometry.slot

/-- A channel enters OFF: geometry cleared, hold removed, no current buffer, deepest line 0; the frame number is kept;
the CHANNEL STATE report is raised (R6, R16; for a channel that was ARMED, log 30). -/
def channelOff (b : Blocks) (c : Fin 8) (cause : StateCause) : Blocks :=
  let b := b.dropHold? (b.latchedRef c)
  let ch := b.chan c
  (b.setChan c { ch with state := .off, geom := none, buffer := none, deepest := 0 }).raiseState c cause

/-! ## Frame starts (R9 to R12) -/

end Blocks

/-- Whether a request is a candidate, and for which buffer (R9). -/
def candidate (d : Descriptor) (a : Nat) : Option (Fin 4) :=
  match d.bufferOf a with
  | none => none
  | some k => if d.offset k a < d.rowWidth ∧ d.offset k a < d.stride then some k else none

/-- Whether a candidate for buffer `k` is a frame start of a channel (R9). -/
def Channel.startsFrame (ch : Channel) (k : Fin 4) : Bool :=
  decide (ch.state = .armed) || decide (ch.buffer ≠ some k) || decide (ch.desc.height / 2 ≤ ch.deepest)

/-- The clamp of the inset origin on one axis (R15). -/
def insetClamp (pos size limit : Nat) : Nat := min pos (limit - size)

/-- The latched geometry of a frame, from the position and opacity, the pick and the zones (R14, R15). -/
def latchGeometry (ch : Channel) (lay : LayoutState) (slot : Option SlotRef) : Geometry :=
  let w := (slot.map SlotRef.w).getD 0
  let h := (slot.map SlotRef.h).getD 0
  { x := insetClamp lay.glide.x w ch.desc.width / 2 * 2
    y := insetClamp lay.glide.y h ch.desc.height
    opacity := lay.fade.opacity
    slot := slot
    zoneA := ch.monA.zoneHanded
    zoneB := ch.monB.zoneHanded }

namespace Blocks

/-- The frame number, buffer, deepest line and state of a new frame, with the CHANNEL STATE report of an ARMED channel
(R10). -/
def beginFrame (b : Blocks) (c : Fin 8) (k : Fin 4) : Blocks :=
  let ch := b.chan c
  let b' := b.setChan c { ch with frame := ch.frame + 1, buffer := some k, deepest := 0, state := .running }
  if ch.state = .armed then b'.raiseState c .frameStart else b'

/-- The monitors' work at a frame start, with their MONITOR EDGE reports, A before B (R123, R132). -/
def monitorFrame (b : Blocks) (c : Fin 8) (wasRunning : Bool) : Blocks :=
  let ch := b.chan c
  let b := b.setChan c { ch with
    monA := ch.monA.frameStart ch.monB wasRunning
    monB := ch.monB.frameStart ch.monA wasRunning }
  raiseEdge c .b ch.monB.effective (raiseEdge c .a ch.monA.effective b)

/-- The layout logic's work at a frame start (R108). -/
def layoutFrameOf (b : Blocks) (c : Fin 8) : Blocks :=
  let ch := b.chan c
  b.setChan c { ch with lay := layoutFrame b.layouts ch ch.monA.effective ch.monB.effective }

/-- The pick, the move of the hold and the presence report of a frame start (R93 to R95), and the latching of the new
frame's geometry (R14). -/
def pickAndLatch (b : Blocks) (c : Fin 8) : Blocks :=
  let before := b.latchedRef c
  let pick := b.pick c
  let b := (b.moveHold before (pickRef pick)).raisePresence c before pick
  let ch := b.chan c
  b.setChan c { ch with geom := some (latchGeometry ch ch.lay (pickRef pick)) }

/-- A frame start of an ARMED or RUNNING channel (R10): the new frame, then the monitors, the layout logic and the slot
table, then the latching. -/
def frameStart (b : Blocks) (c : Fin 8) (k : Fin 4) : Blocks :=
  let wasRunning := decide ((b.chan c).state = .running)
  (((b.beginFrame c k).monitorFrame c wasRunning).layoutFrameOf c).pickAndLatch c

/-- The deepest line after an examined read (R12). -/
def raiseDeepest (b : Blocks) (c : Fin 8) (a beats : Nat) : Blocks :=
  let ch := b.chan c
  let deepest := ((ch.desc.requestRuns a beats).map Span.line).foldl max ch.deepest
  b.setChan c { ch with deepest := deepest }

/-- The examination of an accepted read of a channel's tag in ACTIVE (R9 to R12). A read that ends a stop leaves the
OFF channel's deepest line at 0 (R11; log 16). -/
def examine (b : Blocks) (c : Fin 8) (a beats : Nat) : Blocks :=
  let ch := b.chan c
  if ch.state = .off then b
  else
    match candidate ch.desc a with
    | none => b.raiseDeepest c a beats
    | some k =>
      if ch.startsFrame k then
        if ch.state = .stopping then b.channelOff c .frameStart
        else (b.frameStart c k).raiseDeepest c a beats
      else b.raiseDeepest c a beats

/-! ## The effects of the channel cues -/

end Blocks

/-- What START CHANNEL does to a channel's monitors and layout records (R115, R136). -/
def Channel.startRecords (table : Vector LayoutEntry 32) (ch : Channel) : Channel :=
  let ch := { ch with monA := ch.monA.start, monB := ch.monB.start }
  { ch with lay := layoutStart table ch ch.monA.effective ch.monB.effective }

/-- A channel armed from OFF: frame tracking reset, the RCU's remembered frame numbers none (R7, R38). -/
def Channel.arm (table : Vector LayoutEntry 32) (ch : Channel) : Channel :=
  { ch with state := .armed, frame := 0, buffer := none, deepest := 0,
            lastLate := none, lastFetchError := none }.startRecords table

/-- START CHANNEL; none is the refusal with WRONG STATE (R7). -/
def startChannel (c : Fin 8) (policy : StackPolicy) (b : Blocks) : Option Blocks :=
  let ch := b.chan c
  let ch := { ch with desc := { ch.desc with stackPolicy := policy } }
  match ch.state with
  | .off => some (b.setChan c (ch.arm b.layouts))
  | .stopping => some ((b.setChan c ({ ch with state := .running }.startRecords b.layouts)).raiseState c .startChannel)
  | .armed | .running => none

/-- STOP CHANNEL (R8). The deepest line of an ARMED channel stays as it stands: R8 and R16 do not set it, which is DEDUCED
(log 30). -/
def stopChannel (c : Fin 8) (b : Blocks) : Blocks :=
  let ch := b.chan c
  match ch.state with
  | .off | .stopping => b
  | .armed => (b.setChan c { ch with state := .off }).raiseState c .stopChannel
  | .running => b.setChan c { ch with state := .stopping }

/-- RESTART's effect on the channels, channel 0 first (R18). -/
def restartChannels (b : Blocks) : Blocks :=
  allChans.foldl (fun b c => if (b.chan c).state = .off then b else b.channelOff c .restart) b

end Sys2Proof.Machine
end

