-- ==== Sys2Proof/Machine/Composition.lean ====
section
/-! DEFINITION. The read composition unit: classification, allocation, companion fetches, responses, the join, blending of an
entry, measurement attribution and delivery order (02_read_composition, 03 section 3.7, R121). -/

namespace Sys2Proof.Machine

/-! ## Companion fetches (R27) -/

/-- The byte range of a span in its slot, widened to whole beats: start and end, relative to the slot base (R27). -/
def spanRange (info : BlendInfo) (s : Span) : Nat × Nat :=
  let start := ((s.line - info.y) * info.slot.w + (s.first - info.x)) * 4
  (start / 16 * 16, (start + s.count * 4 + 15) / 16 * 16)

/-- A widened range divided into reads of 16 beats, the last taking what remains: offset and beats of each (R27). -/
def rangeReads (range : Nat × Nat) : List (Nat × Nat) :=
  let n := (range.2 - range.1) / 16
  (List.range ((n + 15) / 16)).map fun i => (range.1 + 256 * i, min 16 (n - 16 * i))

/-- The companion fetch reads of a BLEND entry, in span order and address order (R25, R27). -/
def blendReads (info : BlendInfo) : List (Nat × Nat) := info.spans.flatMap fun s => rangeReads (spanRange info s)

/-- The fetch reads of entry `n`, addressed from the slot base (R27, R28). -/
def fetchReads (image : ImageValues) (n : Tag) (info : BlendInfo) : List FetchRead :=
  (blendReads info).map fun r =>
    ⟨n, BitVec.ofNat 40 (image.slotBase info.slot.port info.slot.slot + r.1), r.2⟩

/-- How many fetch reads an entry of a kind places. -/
def EntryKind.reads : EntryKind → Nat
  | .pass | .measure => 0
  | .blend info => (blendReads info).length

/-! ## Classification (R22 to R24) -/

/-- What a read copies when it is BLEND, if its geometry lets it be (R22, R24). -/
def blendInfoOf (g : Geometry) (runs : List Span) : Option BlendInfo :=
  match g.slot with
  | none => none
  | some slot =>
    let spans := runs.filterMap fun s => s.inside g.inset
    if g.opacity = 0 ∨ spans = [] then none else some ⟨g.x, g.y, g.opacity, slot, spans⟩

/-- A latched zone, if the request has a pixel inside it (R23). -/
def zoneCopy (zone : Option Rect) (runs : List Span) : Option Rect := zone.filter fun z => anyInside runs z

/-- The kind and the zones of a tracked read, against its channel's geometry as it stands (R22, R23). -/
def Blocks.classify (b : Blocks) (c : Fin 8) (a beats : Nat) : EntryKind × Option Rect × Option Rect :=
  let ch := b.chan c
  match ch.geom with
  | none => (.pass, none, none)
  | some g =>
    if b.mode = .active ∧ (ch.state = .running ∨ ch.state = .stopping) then
      let runs := ch.desc.requestRuns a beats
      let zoneA := zoneCopy g.zoneA runs
      let zoneB := zoneCopy g.zoneB runs
      match blendInfoOf g runs with
      | some info => (.blend info, zoneA, zoneB)
      | none => if zoneA.isSome || zoneB.isSome then (.measure, zoneA, zoneB) else (.pass, none, none)
    else (.pass, none, none)

/-! ## Allocation (R20, R25) -/

/-- The entry numbers in order. -/
def allEntries : List Tag := (List.range 64).map fun n => BitVec.ofNat 6 n

namespace Blocks

/-- The FREE entry with the lowest number (R20). -/
def freeEntry (b : Blocks) : Option Tag := allEntries.find? fun n => b.rtt.all fun e => e.num ≠ n

/-- The examination of R9 when the part is ACTIVE; in RESTARTING a read is not examined (R9). -/
def examined (b : Blocks) (c : Fin 8) (a beats : Nat) : Blocks := if b.mode = .active then b.examine c a beats else b

/-- Fill entry `n` for a tracked read of channel `c`, place its fetch reads and add its hold (R25). -/
def allocate (b : Blocks) (n : Tag) (c : Fin 8) (tag : Tag) (oid : OrderId) (addr : Addr) (beats : Nat) : Blocks :=
  let ch := b.chan c
  let kz := b.classify c addr.toNat beats
  let entry : Entry :=
    { num := n, state := .await, kind := kz.1, tag := tag, oid := oid, addr := addr, beats := beats, chan := c,
      frame := ch.frame, format := ch.desc.format, buffer := ch.desc.bufferOf addr.toNat,
      zoneA := kz.2.1, zoneB := kz.2.2, outstanding := kz.1.reads, presData := [], progData := [],
      progError := false, fetchError := false, late := false, outcome := .pending }
  let b := { b with rtt := b.rtt ++ [entry] }
  match kz.1 with
  | .pass | .measure => b
  | .blend info =>
    { b with fetchQueue := b.fetchQueue ++ fetchReads b.image n info }.addHold info.slot

/-- Replace the entry of a number. -/
def setEntry (b : Blocks) (e : Entry) : Blocks :=
  { b with rtt := b.rtt.map fun e' => if e'.num = e.num then e else e' }

/-- The entry in use of a number. -/
def entry? (b : Blocks) (n : Tag) : Option Entry := b.rtt.find? fun e => e.num = n

/-- An entry becomes FREE; a BLEND entry's hold is removed (R42). -/
def freeEntryOf (b : Blocks) (e : Entry) : Blocks :=
  let b := { b with rtt := b.rtt.filter fun e' => e'.num ≠ e.num }
  match e.kind with
  | .pass | .measure => b
  | .blend info => b.dropHold info.slot

end Blocks

/-! ## Blending an entry (R39, R57) -/

/-- The place in an entry's programme data of the word of column `c` of line `l` (R57). -/
def progOffset (d : Descriptor) (e : Entry) (l c : Nat) : Nat :=
  match e.buffer with
  | none => 0
  | some k => d.base k + l * d.stride + c * bytesPerPixel d.format - e.addr.toNat

/-- The presenter pixel of column `c` of a span, `held` beats into the presenter data standing before the span's
(R27). -/
def presPixel (info : BlendInfo) (s : Span) (held : Nat) (pres : List Byte) (c : Nat) : K8 :=
  let offset := ((s.line - info.y) * info.slot.w + (c - info.x)) * 4
  k8OfWord (wordAt pres (held * 16 + (offset - (spanRange info s).1)))

/-- The programme data with the words of one span blended (R53, R54, R57). -/
def blendSpan (d : Descriptor) (e : Entry) (info : BlendInfo) (s : Span) (held : Nat) (data : List Byte) : List Byte :=
  match e.format with
  | .w10 =>
    (List.range s.count).foldl (fun data i =>
      let c := s.first + i
      let at' := progOffset d e s.line c
      putWord data at' (blendW10 (wordAt data at') (presPixel info s held e.presData c) info.opacity)) data
  | .p8 =>
    (List.range (s.count / 2)).foldl (fun data i =>
      let c := s.first + 2 * i
      let at' := progOffset d e s.line c
      putWord data at' (blendP8 (wordAt data at') (presPixel info s held e.presData c)
        (presPixel info s held e.presData (c + 1)) info.opacity)) data

/-- The programme data with every span blended, in span order; `held` counts the presenter beats of earlier spans. -/
def blendSpans (d : Descriptor) (e : Entry) (info : BlendInfo) : Nat → List Span → List Byte → List Byte
  | _, [], data => data
  | held, s :: rest, data =>
    let range := spanRange info s
    blendSpans d e info (held + (range.2 - range.1) / 16) rest (blendSpan d e info s held data)

/-- The blended programme data of an entry (R39, R57, R58). -/
def blendedData (d : Descriptor) (e : Entry) : List Byte :=
  match e.kind with
  | .pass | .measure => e.progData
  | .blend info => blendSpans d e info 0 info.spans e.progData

/-- The entry blended and DONE (R32, R34, R39). -/
def Entry.blend (d : Descriptor) (e : Entry) : Entry :=
  { e with progData := blendedData d e, outcome := .blended, state := .done }

/-- The entry DONE and CLEAN (R31, R32, R35, R37). -/
def Entry.clean (e : Entry) : Entry := { e with outcome := .clean, state := .done }

/-- What an entry delivers (R41). -/
def Entry.response (e : Entry) : UpResponse :=
  ⟨.read, e.tag, e.oid, e.progData, if e.progError then .error else .ok⟩

/-! ## Measurement (R33, R121) -/

/-- The edges of one run of an entry inside a zone (R121). -/
def runEdges (d : Descriptor) (e : Entry) (threshold : Nat) (zone : Rect) (run : Span) : Nat :=
  match run.inside zone with
  | none => 0
  | some s =>
    let lumaAt (c : Nat) : Nat :=
      luma e.format (wordAt e.progData (progOffset d e s.line (match e.format with
        | .w10 => c
        | .p8 => c / 2 * 2))) c
    ((List.range (s.count - 1)).filter fun i =>
      let l := lumaAt (s.first + i)
      let r := lumaAt (s.first + i + 1)
      decide (threshold ≤ max l r - min l r)).length

/-- The edges of an entry's data in a zone (R121). -/
def entryEdges (d : Descriptor) (e : Entry) (threshold : Nat) (zone : Rect) : Nat :=
  match e.buffer with
  | none => 0
  | some k => ((d.runs k e.addr.toNat e.beats).map (runEdges d e threshold zone)).sum

/-- A monitor after an entry's data, when the entry carries its zone (R121). -/
def Monitor.measure (m : Monitor) (d : Descriptor) (e : Entry) : Option Rect → Monitor
  | none => m
  | some zone => m.addEdges (entryEdges d e m.cfg.threshold zone)

/-- The clean data of an entry offered to its channel's monitors, if R33 attributes it. -/
def Blocks.attribute (b : Blocks) (e : Entry) : Blocks :=
  let ch := b.chan e.chan
  if (ch.state = .running ∨ ch.state = .stopping) ∧ ch.frame = e.frame then
    b.setChan e.chan { ch with
      monA := ch.monA.measure ch.desc e e.zoneA
      monB := ch.monB.measure ch.desc e e.zoneB }
  else b

/-! ## Reports of the RCU (R38) -/

/-- Words 3 to 6 of a LATE PRESENTER or FETCH ERROR report (12 section 12.3). -/
def entryWords (e : Entry) : List Word :=
  [e.frame, quadWord e.tag.toNat e.oid.toNat 0 0, (addrWords e.addr).1, (addrWords e.addr).2]

/-- The slot word of a FETCH ERROR report (12 section 12.3). -/
def entrySlotWord (e : Entry) : Word :=
  match e.kind with
  | .pass | .measure => 0
  | .blend info => quadWord info.slot.port.val info.slot.slot.val 0 0

namespace Blocks

/-- The LATE PRESENTER report of an entry, once per channel frame (R38). -/
def raiseLate (b : Blocks) (e : Entry) : Blocks :=
  let ch := b.chan e.chan
  if ch.lastLate = some e.frame then b
  else (b.setChan e.chan { ch with lastLate := some e.frame }).raiseChan .latePresenter e.chan (entryWords e)

/-- The FETCH ERROR report of an entry, once per channel frame (R38). -/
def raiseFetchError (b : Blocks) (e : Entry) : Blocks :=
  let ch := b.chan e.chan
  if ch.lastFetchError = some e.frame then b
  else
    (b.setChan e.chan { ch with lastFetchError := some e.frame }).raiseChan .fetchError e.chan
      (entryWords e ++ [entrySlotWord e])

/-! ## Programme responses (R29, R31, R32) -/

/-- The oldest AWAIT entry of a pair's list (R29). -/
def awaiting (b : Blocks) (tag : Tag) (oid : OrderId) : Option Entry :=
  b.rtt.find? fun e => decide (e.tag = tag) && decide (e.oid = oid) && decide (e.state = .await)

/-- The completion of an entry's programme response (R31, R32). -/
def completeProgramme (b : Blocks) (e : Entry) (data : List Byte) (status : Status) : Blocks :=
  let e := { e with progData := data }
  match status with
  | .error => b.setEntry { e with progError := true }.clean
  | .ok =>
    let b := b.attribute e
    match e.kind with
    | .pass | .measure => b.setEntry e.clean
    | .blend _ =>
      if e.fetchError then b.setEntry e.clean
      else if e.outstanding = 0 then b.setEntry (e.blend (b.chan e.chan).desc)
      else b.setEntry { e with state := .join (b.timeBase + wordOfNat b.image.joinLimit) }

/-- A programme response arrives: it goes to the oldest AWAIT entry of its pair (R29), even while the entry's read still
stands in the pass slot, a DESIGN CHOICE (log 31). -/
def takeProgramme (b : Blocks) (tag : Tag) (oid : OrderId) (data : List Byte) (status : Status) :
    Except Fault Blocks :=
  match b.awaiting tag oid with
  | none => .error .noIssuer
  | some e => if data.length = 16 * e.beats then .ok (b.completeProgramme e data status) else .error .wrongBeats

/-! ## Fetch responses (R30, R34, R35) -/

/-- The effect of one fetch response on its entry, its count already lowered, before the count is looked at (R30,
R35). -/
def storeFetch (b : Blocks) (e : Entry) (data : List Byte) (status : Status) : Blocks :=
  match status, e.state with
  | .ok, .await | .ok, .join _ => if e.fetchError then b.setEntry e else b.setEntry { e with presData := e.presData ++ data }
  | .ok, .done | .ok, .drain => b.setEntry e
  | .error, .await =>
    let b := b.setEntry { e with fetchError := true }
    if e.fetchError then b else b.raiseFetchError e
  | .error, .join _ =>
    let b := b.setEntry { e with fetchError := true }.clean
    if e.fetchError then b else b.raiseFetchError e
  | .error, .done | .error, .drain => b.setEntry { e with fetchError := true }

/-- What follows the last fetch response of an entry (R34). -/
def lastFetch (b : Blocks) (e : Entry) : Blocks :=
  match e.state with
  | .await | .done => b
  | .join _ => b.setEntry (e.blend (b.chan e.chan).desc)
  | .drain => b.freeEntryOf e

/-- The beats of the fetch read the next response of an entry answers (R27, R28). -/
def fetchBeats (e : Entry) : Option Nat :=
  match e.kind with
  | .pass | .measure => none
  | .blend info =>
    if e.outstanding = 0 then none
    else ((blendReads info)[(blendReads info).length - e.outstanding]?).map Prod.snd

/-- A fetch response arrives for the entry whose number is its tag (R29, R30, R34, R35). Whether the read it answers has
left the fetch queue is not asked: an answer to a read not yet issued is taken, a DESIGN CHOICE (log 31). -/
def takeFetch (b : Blocks) (n : Tag) (data : List Byte) (status : Status) : Except Fault Blocks :=
  match b.entry? n with
  | none => .error .noIssuer
  | some e =>
    match fetchBeats e with
    | none => .error .noIssuer
    | some beats =>
      if data.length = 16 * beats then
        let b := b.storeFetch { e with outstanding := e.outstanding - 1 } data status
        match b.entry? n with
        | none => .ok b
        | some e' => .ok (if e'.outstanding = 0 then b.lastFetch e' else b)
      else .error .wrongBeats

/-! ## The join limit (R36, R37) -/

/-- Whether an entry is in JOIN with its deadline reached (R36). -/
def joinDue (b : Blocks) (e : Entry) : Bool :=
  match e.state with
  | .join deadline => reached b.timeBase deadline
  | .await | .done | .drain => false

/-- The expiry of an entry's join limit (R37). An entry that is not in JOIN, or whose deadline the time base has not
reached, has no expiry (R36). -/
def expireJoin (b : Blocks) (n : Tag) : Blocks :=
  match b.entry? n with
  | none => b
  | some e => if b.joinDue e then (b.setEntry { e with late := true }.clean).raiseLate e else b

/-! ## Delivery (R40, R41) -/

/-- Whether an entry is undelivered and of a pair. -/
def inList (tag : Tag) (oid : OrderId) (e : Entry) : Bool :=
  decide (e.tag = tag) && decide (e.oid = oid) && decide (e.state ≠ .drain)

/-- Whether an entry is ready: DONE, and the head of its list (R21, R40). -/
def isReady (b : Blocks) (e : Entry) : Bool :=
  decide (e.state = .done) && decide ((b.rtt.find? (inList e.tag e.oid)).map Entry.num = some e.num)

/-- The ready entry with the lowest allocation sequence (R40). -/
def readyEntry (b : Blocks) : Option Entry := b.rtt.find? b.isReady

/-- The entry after its delivery: FREE, or DRAIN while fetch reads are outstanding (R41). -/
def deliver (b : Blocks) (e : Entry) : Blocks :=
  if e.outstanding = 0 then b.freeEntryOf e else b.setEntry { e with state := .drain }

/-- Whether the RTT's part in the completion of RESTART is met (R44). -/
def rttDrained (b : Blocks) : Bool :=
  (b.rtt.all fun e => decide (e.kind = .pass) && decide (e.state ≠ .drain)) && b.fetchQueue.isEmpty

end Blocks

end Sys2Proof.Machine
end

