-- ==== Sys2Proof/Machine/Ingest.lean ====
section
/-! DEFINITION. Presenter ingest: link units, crop and target, scaling, lines taken and held, the write queue, frame completion
and the loss of input (04_presenter_ingest). -/

namespace Sys2Proof.Machine

/-! ## Sample clamp (R70) -/

/-- A component raised and lowered into a range. -/
def clampByte (v : Byte) (lo hi : Nat) : Byte := byteOfNat (max lo (min v.toNat hi))

/-- The sample clamp (R70). -/
def clampSample (p : K8) : K8 := ⟨clampByte p.y 16 235, clampByte p.cb 16 240, clampByte p.cr 16 240, p.k⟩

/-! ## Crop and target (R71, R72) -/

/-- One axis of the crop: origin and size, none when the axis has no area (R71). -/
def cropAxis (origin size source : Nat) : Option (Nat × Nat) :=
  if origin < source then
    let n := min size (source - origin)
    if n = 0 then none else some (origin, n)
  else none

/-- The clamped crop of a source (R71). -/
def cropOf (s : IngestSettings) (srcW srcH : Nat) : Rect :=
  match cropAxis s.cropX s.cropW srcW, cropAxis s.cropY s.cropH srcH with
  | some (x, w), some (y, h) => if w < 16 ∨ h < 16 then ⟨0, 0, srcW, srcH⟩ else ⟨x, y, w, h⟩
  | none, _ | some _, none => ⟨0, 0, srcW, srcH⟩

/-- The frame's W and H: the four steps of R72. -/
def targetOf (s : IngestSettings) (crop : Rect) (slotBytes : Nat) : Nat × Nat :=
  let w1 := max 16 (min s.targetW 960) / 4 * 4
  let h1 := max 16 (min s.targetH 1080)
  let w2 := if crop.w < w1 then crop.w / 4 * 4 else w1
  let h2 := if crop.h < h1 then crop.h else h1
  let h3 := if slotBytes < w2 * h2 * 4 then slotBytes / (w2 * 4) else h2
  if h3 < 16 then (slotBytes / 64 / 4 * 4, 16) else (w2, h3)

/-! ## Scaling (R73, R74) -/

/-- The step of an axis: `n` source pixels or lines onto `m` (R73, R74). -/
def stepOf (n m : Nat) : Nat := n * 4096 / m

/-- The position of output column or line `i` (R73). -/
def posOf (step i : Nat) : Nat := i * step + step / 2 - 2048

/-- The two-tap formula on one component (R73, R74). -/
def tap (a b : Byte) (f : Nat) : Byte := byteOfNat ((a.toNat * (4096 - f) + b.toNat * f + 2048) / 4096)

/-- The two-tap formula on a pixel, component by component. -/
def tapPixel (a b : K8) (f : Nat) : K8 := ⟨tap a.y b.y f, tap a.cb b.cb f, tap a.cr b.cr f, tap a.k b.k f⟩

/-- The pixel at a place of a line. -/
def pixelAt (line : List K8) (i : Nat) : K8 := line.getD i ⟨0, 0, 0, 0⟩

/-- A scaled crop line: W pixels from the clamped samples of the crop columns (R70, R73). -/
def scaleLine (crop : Rect) (w step : Nat) (samples : List K8) : List K8 :=
  let line := (samples.drop crop.x).map clampSample
  (List.range w).map fun i =>
    let p := posOf step i
    let s := p / 4096
    tapPixel (pixelAt line s) (pixelAt line (min (s + 1) (crop.w - 1))) (p % 4096)

/-- The first source line of output line `j` (R74). -/
def OpenFrame.source (f : OpenFrame) (j : Nat) : Nat := posOf f.stepY j / 4096

/-- The required line of output line `j` (R74). -/
def OpenFrame.required (f : OpenFrame) (j : Nat) : Nat := min (f.source j + 1) (f.crop.h - 1)

/-- Output line `j` formed from the contents of its two source lines (R74). -/
def OpenFrame.formLine (f : OpenFrame) (j : Nat) (a b : List K8) : List K8 :=
  (List.range f.w).map fun i => tapPixel (pixelAt a i) (pixelAt b i) (posOf f.stepY j % 4096)

/-! ## Output line production (R76, R77) -/

/-- How many output lines from `j` on have their required line below `r`; `n` bounds the search (R76). -/
def OpenFrame.countBelow (f : OpenFrame) (r : Nat) : Nat → Nat → Nat
  | 0, _ => 0
  | n + 1, j => if f.required j < r then f.countBelow r n (j + 1) + 1 else 0

/-- How many output lines from `j` on have `r` as their required line. -/
def OpenFrame.countAt (f : OpenFrame) (r : Nat) : Nat → Nat → Nat
  | 0, _ => 0
  | n + 1, j => if f.required j = r then f.countAt r n (j + 1) + 1 else 0

/-- A line entry not yet granted (R78). -/
def OpenFrame.lineEntry (f : OpenFrame) (first count : Nat) (content : List K8) : LineEntry :=
  ⟨f.slot, f.w, first, count, content, 0, 0⟩

/-- The line entries a received crop line `r` produces, and the next output line after them: at most one run of output
lines whose source lines are both entered before `r`, then the lines that require `r` (R76; log 15). Before the first
received line, and between two received lines, a held line has the content `held`. -/
def OpenFrame.produce (f : OpenFrame) (r : Nat) (content : List K8) : List LineEntry × Nat :=
  let held := match f.lastLine with
    | some (_, l) => l
    | none => content
  let runs := f.countBelow r (f.h - f.nextOut) f.nextOut
  let first := f.nextOut + runs
  let singles := f.countAt r (f.h - first) first
  let run := if runs = 0 then [] else [f.lineEntry f.nextOut runs held]
  let single := (List.range singles).map fun i =>
    let j := first + i
    f.lineEntry j 1 (f.formLine j (if f.source j < r then held else content) content)
  (run ++ single, first + singles)

/-- The last line entry of a closed frame: every output line not yet produced, with the content of the last received
crop line (R77). -/
def OpenFrame.finishRun (f : OpenFrame) : List LineEntry :=
  match f.lastLine with
  | none => []
  | some (_, l) => if f.nextOut < f.h then [f.lineEntry f.nextOut (f.h - f.nextOut) l] else []

/-! ## Frames in flight and the write queue (R78, R80) -/

/-- Change the frame in flight of a slot. -/
def Port.setFlight (u : Port) (slot : Fin 16) (g : Flight → Flight) : Port :=
  { u with flights := u.flights.map fun f => if f.slot = slot then g f else f }

/-- The frame in flight of a slot. -/
def Port.flight? (u : Port) (slot : Fin 16) : Option Flight := u.flights.find? fun f => f.slot = slot

namespace Blocks

/-- Give the frame in flight of a slot a drop reason; while the slot is FILLING it is marked damaged at once (R80). -/
def dropFlight (b : Blocks) (p : Fin 4) (slot : Fin 16) (g : DropReason → DropReason) : Blocks :=
  let u := b.port p
  let b' := b.setPort p (u.setFlight slot fun f => { f with reason := g f.reason })
  match (u.setFlight slot fun f => { f with reason := g f.reason }).flight? slot with
  | some f => if f.reason = .none then b' else b'.markDamaged p slot
  | none => b'

/-- The DAMAGED reason, for a frame in flight whose reason was none (R77, R78). -/
def damagedIfNone (r : DropReason) : DropReason := if r = .none then .damaged else r

/-- Place a line entry, or discard it when the queue is full (R78). -/
def placeEntry (b : Blocks) (p : Fin 4) (e : LineEntry) : Blocks :=
  let u := b.port p
  if u.queue.length < Config.writeQueueSize then b.setPort p { u with queue := u.queue ++ [e] }
  else b.dropFlight p e.slot damagedIfNone

/-- Place line entries, in order (R78). -/
def placeEntries (b : Blocks) (p : Fin 4) (es : List LineEntry) : Blocks := es.foldl (fun b e => b.placeEntry p e) b

/-! ## Completion (R81) -/

/-- Words 3 to 6 of an INGEST DROP report (12 section 12.3). -/
def dropWords (reason slot w h lines : Nat) : List Word :=
  [wordOfNat reason, wordOfNat slot, pairWord w h, wordOfNat lines]

/-- Whether a frame in flight is complete: closed, nothing queued, nothing outstanding (R81). -/
def flightDone (u : Port) (f : Flight) : Bool :=
  f.closed && decide (f.outstanding = 0) && u.queue.all fun e => e.slot ≠ f.slot

/-- Complete the frame in flight of a slot if its conditions hold (R81, R91). -/
def completeFlight (b : Blocks) (p : Fin 4) (slot : Fin 16) : Blocks :=
  let u := b.port p
  match u.flight? slot with
  | none => b
  | some f =>
    if flightDone u f then
      let s := b.slot p slot
      let b := b.setPort p { u with flights := u.flights.filter fun f' => f'.slot ≠ slot }
      let b := b.completeSlot p slot (decide (f.reason = .none))
      match f.reason with
      | .none | .abandoned => b
      | .damaged => b.raise .ingestDrop (.port p) (dropWords 2 slot.val s.w s.h 0)
      | .writeError => b.raise .ingestDrop (.port p) (dropWords 4 slot.val s.w s.h 0)
    else b

/-! ## Opening, closing, abandoning (R63 to R66) -/

end Blocks

/-- The open frame's values, fixed at its FRAME OPEN (R63, R71 to R74). -/
def openFrameOf (s : IngestSettings) (slotBytes srcW srcH : Nat) (slot : Fin 16) : OpenFrame :=
  let crop := cropOf s srcW srcH
  let wh := targetOf s crop slotBytes
  { srcW := srcW, srcH := srcH, crop := crop, w := wh.1, h := wh.2, stepX := stepOf crop.w wh.1,
    stepY := stepOf crop.h wh.2, slot := slot, lastIndex := none, firstLine := none, lastLine := none, nextOut := 0 }

namespace Blocks

/-- Record the time of a good unit (R62). -/
def goodUnit (b : Blocks) (p : Fin 4) : Blocks := b.setPort p { b.port p with lastGood := some b.timeBase }

/-- Open a frame: claim a slot and enter RECEIVING, or enter DISCARDING (R63). -/
def openFrame (b : Blocks) (p : Fin 4) (srcW srcH : Nat) : Blocks :=
  let u := b.port p
  match b.claimSlot p with
  | some i =>
    let f := openFrameOf u.settings b.image.slotBytes srcW srcH i
    let b := b.fillSlot p i f.w f.h
    b.setPort p { u with state := .receiving f, flights := u.flights ++ [⟨i, f.w, false, .none, 0⟩] }
  | none =>
    (b.setPort p { u with state := .discarding srcW srcH }).raise .ingestDrop (.port p) (dropWords 1 255 srcW srcH 0)

/-- Abandon the open frame of a RECEIVING port, with or without its report; the port is left WAITING (R65). -/
def abandonFrame (b : Blocks) (p : Fin 4) (f : OpenFrame) (report : Bool) : Blocks :=
  let u := b.port p
  let b := b.setPort p
    { u.setFlight f.slot (fun g => { g with reason := .abandoned, closed := true }) with state := .waiting }
  let b := b.settleSlot p f.slot true
  let b := if report then b.raise .ingestDrop (.port p) (dropWords 3 f.slot.val f.srcW f.srcH f.nextOut) else b
  b.completeFlight p f.slot

/-- Close the open frame of a RECEIVING port (R66, R77). -/
def closeFrame (b : Blocks) (p : Fin 4) (f : OpenFrame) : Blocks :=
  let b := if f.lastLine.isNone then b.dropFlight p f.slot damagedIfNone else b.placeEntries p f.finishRun
  let u := (b.port p).setFlight f.slot fun g => { g with closed := true }
  let damaged := match u.flight? f.slot with
    | some g => decide (g.reason ≠ .none)
    | none => false
  ((b.setPort p { u with state := .waiting }).settleSlot p f.slot damaged).completeFlight p f.slot

/-! ## Good units (R61 to R67, R75, R76) -/

/-- A FRAME OPEN (R61, R63, R64; log 27). -/
def takeFrameOpen (b : Blocks) (p : Fin 4) (w h : Nat) : Blocks :=
  if w < 16 ∨ 1920 < w ∨ h < 16 ∨ 1080 < h then b
  else
    match (b.port p).state with
    | .idle | .waiting | .discarding _ _ => (b.goodUnit p).openFrame p w h
    | .receiving f => ((b.abandonFrame p f true).goodUnit p).openFrame p w h
    | .lost =>
      let b := b.raise .inputRestored (.port p) [((b.port p).lastGood).getD 0, pairWord w h]
      (b.goodUnit p).openFrame p w h

end Blocks

/-- Whether a LINE is taken for the open frame (R75). -/
def OpenFrame.takes (f : OpenFrame) (index : Nat) : Bool :=
  decide (f.crop.y ≤ index) && decide (index < f.crop.y + f.crop.h) &&
    match f.lastIndex with
    | none => true
    | some i => decide (i < index)

namespace Blocks

/-- A LINE taken for the open frame (R75, R76). -/
def enterLine (b : Blocks) (p : Fin 4) (f : OpenFrame) (index : Nat) (samples : List K8) : Blocks :=
  if f.nextOut < f.h then
    let r := index - f.crop.y
    let content := scaleLine f.crop f.w f.stepX samples
    let out := f.produce r content
    let f' := { f with
      lastIndex := some index, lastLine := some (r, content), nextOut := out.2,
      firstLine := match f.firstLine with
        | none => some (r, content)
        | some l => some l }
    (b.setPort p { b.port p with state := .receiving f' }).placeEntries p out.1
  else b.setPort p { b.port p with state := .receiving { f with lastIndex := some index } }

/-- A LINE (R61, R67, R75). -/
def takeLine (b : Blocks) (p : Fin 4) (index : Nat) (samples : List K8) : Blocks :=
  match (b.port p).state with
  | .idle | .lost => b
  | .waiting | .discarding _ _ => b.goodUnit p
  | .receiving f =>
    if samples.length ≠ f.srcW then b
    else if f.takes index then (b.goodUnit p).enterLine p f index samples
    else b.goodUnit p

/-- A FRAME CLOSE (R66). -/
def takeFrameClose (b : Blocks) (p : Fin 4) : Blocks :=
  match (b.port p).state with
  | .idle | .lost => b
  | .waiting => b.goodUnit p
  | .discarding _ _ =>
    let b := b.goodUnit p
    b.setPort p { b.port p with state := .waiting }
  | .receiving f => (b.goodUnit p).closeFrame p f

/-! ## Loss of input (R68, R69) -/

/-- Whether a port's loss limit has expired: the part is ACTIVE (R61), a gap is measured, and it is longer than the
limit (R68). -/
def lossDue (b : Blocks) (p : Fin 4) : Bool :=
  let u := b.port p
  let measures := match u.state with
    | .waiting | .receiving _ | .discarding _ _ => true
    | .idle | .lost => false
  match u.lastGood with
  | none => false
  | some t => decide (b.mode = .active) && measures && decide (b.image.lossLimit < since b.timeBase t)

/-- The expiry of a port's loss limit (R69). A gap that has not passed the limit has no expiry (R68). A port in a measuring
state has a last good unit (log 27). -/
def expireLoss (b : Blocks) (p : Fin 4) : Blocks :=
  if b.lossDue p then
    let u := b.port p
    let left := wordOfNat u.state.code
    let b := match u.state with
      | .receiving f => b.abandonFrame p f true
      | .idle | .waiting | .discarding _ _ | .lost => b
    let b := b.setPort p { b.port p with state := .lost }
    b.raise .inputLost (.port p) [u.lastGood.getD 0, left]
  else b

/-! ## Write pieces and their responses (R79, R80) -/

/-- The next write piece of a port's head entry: address, beats and data (R79). -/
def nextPiece (b : Blocks) (p : Fin 4) : Option (Addr × Nat × List Byte) :=
  match (b.port p).queue with
  | [] => none
  | e :: _ =>
    let beats := min 16 (e.w / 4 - e.beatsDone)
    let at' := b.image.slotBase p e.slot + (e.first + e.linesDone) * e.w * 4 + e.beatsDone * 16
    some (BitVec.ofNat 40 at', beats, ((e.content.drop (e.beatsDone * 4)).take (beats * 4)).flatMap k8Bytes)

end Blocks

/-- The head entry after its next piece, none when that was its last (R78, R79). -/
def LineEntry.advance (e : LineEntry) : Option LineEntry :=
  if e.beatsDone + 16 < e.w / 4 then some { e with beatsDone := e.beatsDone + 16 }
  else if e.linesDone + 1 < e.count then some { e with linesDone := e.linesDone + 1, beatsDone := 0 }
  else none

namespace Blocks

/-- The next piece of a port is granted: the frame's writes outstanding rise by 1 and the queue advances (R78, R79). -/
def grantPiece (b : Blocks) (p : Fin 4) : Blocks :=
  let u := b.port p
  match u.queue with
  | [] => b
  | e :: rest =>
    let u := u.setFlight e.slot fun f => { f with outstanding := f.outstanding + 1 }
    b.setPort p { u with queue := match e.advance with
      | some e' => e' :: rest
      | none => rest }

/-- The drop reason after a write answered with ERROR (R80). -/
def afterWriteError (r : DropReason) : DropReason := if r = .abandoned then .abandoned else .writeError

/-- A write response of a port, counted against its oldest frame in flight with writes outstanding (R80). -/
def takeLineWrite (b : Blocks) (p : Fin 4) (status : Status) : Except Fault Blocks :=
  let u := b.port p
  match u.flights.find? fun f => 0 < f.outstanding with
  | none => .error .noIssuer
  | some f =>
    let b := b.setPort p (u.setFlight f.slot fun f => { f with outstanding := f.outstanding - 1 })
    let b := match status with
      | .ok => b
      | .error => b.dropFlight p f.slot afterWriteError
    .ok (b.completeFlight p f.slot)

/-! ## SET INGEST and RESTART (R82, R83) -/

end Blocks

/-- SET INGEST (R82). -/
def setIngest (p : Fin 4) (s : IngestSettings) (b : Blocks) : Blocks := b.setPort p { b.port p with settings := s }

/-- RESTART's effect on one port (R83). -/
def restartPort (b : Blocks) (p : Fin 4) : Blocks :=
  let b := match (b.port p).state with
    | .receiving f => b.abandonFrame p f false
    | .idle | .waiting | .discarding _ _ | .lost => b
  b.setPort p { b.port p with state := .idle, lastGood := none }

/-- RESTART's effect on the ingest units (R83). -/
def restartPorts (b : Blocks) : Blocks := allPorts.foldl restartPort b

/-- Whether the ingest units' and the slot table's part in the completion of RESTART is met (R83, R97, R174). -/
def Blocks.ingestDrained (b : Blocks) : Bool :=
  allPorts.all fun p => (b.port p).queue.isEmpty && allSlots.all fun i => (b.slot p i).state ≠ .settling

end Sys2Proof.Machine
end

