-- ==== Sys2Proof/Machine/Flags.lean ====
section
/-! DEFINITION. The report unit's flags and indexes and the two records it writes: the report record and the status block, and the
attention condition (10_reports_the_status_block_and_attention, 12 sections 12.3 and 12.4). -/

namespace Sys2Proof.Machine

/-! ## The report record (12 section 12.3, R176) -/

/-- The channel or port number of a subject; 0 when it names none (R176). -/
def Subject.number : Subject → Nat
  | .none => 0
  | .channel c _ => c.val
  | .port p => p.val

/-- The code of a subject (12 section 12.3). -/
def Subject.code : Subject → Nat
  | .none => 0
  | .channel _ _ => 1
  | .port _ => 2

/-- The frame number word of a subject (12 section 12.3). -/
def Subject.frameWord : Subject → Word
  | .none | .port _ => 0
  | .channel _ f => f

/-- Word 0 of a record: kind, number, subject, lost-before, lap (12 section 12.3). -/
def Report.head (r : Report) (lostBefore lap : Bool) : Word :=
  quadWord r.kind.code r.subject.number r.subject.code (64 * bitOf lostBefore + 128 * bitOf lap)

/-- The eight words of a record (12 section 12.3; unused words 0, R176). -/
def Report.record (r : Report) (lostBefore lap : Bool) : List Word :=
  [r.head lostBefore lap, r.time, r.subject.frameWord, r.words.getD 0 0, r.words.getD 1 0, r.words.getD 2 0,
   r.words.getD 3 0, r.words.getD 4 0]

/-! ## The ring's indexes (R162, R164) -/

/-- The producer index and lap after one more record (R162). -/
def ReportUnit.advance (r : ReportUnit) (n : Nat) : ReportUnit :=
  if r.prod + 1 < n then { r with prod := r.prod + 1 } else { r with prod := 0, prodLap := !r.prodLap }

/-- The consumer index and lap taken from the consumer word; a word that stands for no position software can have read
sets them to the producer's (R162, R175). -/
def ReportUnit.consume (r : ReportUnit) (n : Nat) (word : Word) : ReportUnit :=
  let r' := { r with cons := (lowHalf word).toNat % n, consLap := word.getLsbD 31 }
  if n < r'.distance n then { r with cons := r.prod, consLap := r.prodLap } else r'

/-- The code of a reset cause (12 section 12.4). -/
def causeCode : ResetCause → Nat
  | .powerOn => 0
  | .pin => 1

namespace Blocks

/-- Whether a report write waits: a record is pending and the distance is below N (R164). -/
def reportWaits (b : Blocks) : Bool := !b.rep.queue.isEmpty && decide (b.distance < b.image.ringSize)

/-- The report write of the head record at position p, and the report unit after its grant (R164). -/
def grantReport (b : Blocks) : Option (DownRequest × Blocks) :=
  match b.rep.queue with
  | [] => none
  | r :: rest =>
    let request : DownRequest :=
      { source := .compositor, kind := .write, tag := 60, oid := 2,
        addr := BitVec.ofNat 40 (b.image.ringBase + 32 * b.rep.prod), beats := 2,
        data := (r.record b.rep.lost b.rep.prodLap).flatMap wordBytes, enables := List.replicate 32 true }
    some (request, { b with rep := { b.rep with queue := rest, lost := false }.advance b.image.ringSize })

/-- A report write response: an ERROR sets the lost flag (R164). -/
def takeReportWrite (b : Blocks) (status : Status) : Except Fault Blocks :=
  if b.mode = .active ∨ b.mode = .restarting then
    match status with
    | .ok => .ok b
    | .error => .ok { b with rep := { b.rep with lost := true } }
  else .error .noIssuer

/-! ## The status block (12 section 12.4, R177) -/

/-- The 8 bytes of a port (12 section 12.4; R62, R100). -/
def portRecord (b : Blocks) (p : Fin 4) : List Byte :=
  [byteOfNat (b.port p).state.code, byteOfNat (b.readySlots p).length, 0, 0] ++
    wordBytes (wordOfNat (b.portSlots p).latest)

/-- The slot byte of a geometry (12 section 12.4). -/
def slotByte : Option SlotRef → Byte
  | none => 0
  | some r => byteOfNat (128 + 16 * r.port.val + r.slot.val)

/-- The 24 bytes of a channel (12 section 12.4; R19, R117, R138). -/
def channelRecord (b : Blocks) (c : Fin 8) : List Byte :=
  let ch := b.chan c
  let lay := ch.lay
  let origin := (ch.geom.map fun g => (g.x, g.y)).getD (0, 0)
  let opacity := (ch.geom.map Geometry.opacity).getD 0
  [byteOfNat ch.state.code, byteOfNat lay.sl.val,
    byteOfNat (lay.stack.length + 64 * bitOf lay.overflow + 128 * bitOf lay.underflow), byteOfNat lay.prevEff.val] ++
  wordBytes ch.frame ++ halfBytes lay.glide.x ++ halfBytes lay.glide.y ++ halfBytes origin.1 ++ halfBytes origin.2 ++
  halfBytes opacity ++
  [slotByte (b.latchedRef c),
    byteOfNat (ch.monA.computed.code + 8 * bitOf ch.monA.effective + 16 * ch.monB.computed.code +
      128 * bitOf ch.monB.effective)] ++
  halfBytes ch.monA.activity ++ halfBytes ch.monB.activity

/-- The 256 bytes of the status block, gathered from the owners as they stand; `e` and `l` are the cue unit's (R161,
R177). -/
def statusBlock (b : Blocks) (e : Fin 32) (l : Bool) : List Byte :=
  [byteOfNat b.mode.code, byteOfNat (causeCode b.cause), byteOfNat (e.val + 128 * bitOf l),
    byteOfNat (bitOf b.rep.lost + 128 * bitOf b.rep.prodLap)] ++ halfBytes b.rep.prod ++ List.replicate 10 0 ++
  allPorts.flatMap b.portRecord ++ allChans.flatMap b.channelRecord ++ List.replicate 16 0

/-- The status write's request (R167). -/
def statusRequest (b : Blocks) (e : Fin 32) (l : Bool) : DownRequest :=
  { source := .compositor, kind := .write, tag := 61, oid := 2, addr := BitVec.ofNat 40 b.image.statusBase, beats := 16,
    data := b.statusBlock e l, enables := List.replicate 256 true }

/-- A status write response (R167). -/
def takeStatusWrite (b : Blocks) : Except Fault Blocks :=
  match b.rep.status with
  | .idle | .waiting => .error .noIssuer
  | .inFlight =>
    .ok { b with rep := { b.rep with status := if b.rep.again then .waiting else .idle, again := false } }

/-! ## The refresh period (R166) -/

/-- Whether a whole refresh period has passed since the last periodic request (R166). -/
def refreshDue (b : Blocks) : Bool :=
  (decide (b.mode = .active) || decide (b.mode = .restarting)) &&
    decide (b.image.refreshPeriod * 1000 ≤ since b.timeBase b.rep.lastRefresh)

/-- The expiry of the refresh period (R166). -/
def expireRefresh (b : Blocks) : Blocks :=
  if b.refreshDue then { b with rep := { b.rep with lastRefresh := b.timeBase } }.requestRefresh else b

/-! ## Attention (R165) -/

/-- The condition under which the attention output is asserted (R165). -/
def attention (b : Blocks) : Bool := decide (0 < b.distance) || decide (b.mode = .bypass)

end Blocks

/-! ## SET REPORTS (R163) -/

/-- SET REPORTS: the enable mask is replaced; enables beyond the thirteen kinds are ignored (R163, R175). -/
def setReports (mask : Word) (b : Blocks) : Blocks :=
  { b with rep := { b.rep with mask := mask.setWidth 13 } }

end Sys2Proof.Machine
end

