-- ==== Sys2Proof/Machine/Cues.lean ====
section
/-! DEFINITION. The cue unit: the shadow, posting, taking, refusal and the chain (09_cues), with the taking and the completion of
RESTART (11 section 11.3). -/

namespace Sys2Proof.Machine

/-! ## Cue records (12 section 12.2) -/

/-- A cue as its record carries it: kind, target, and the words 1 to 12 that some kind uses. -/
structure CueRecord where
  kind : Byte
  target : Byte
  words : List Word
  deriving DecidableEq, Repr

/-- Word `n` of a cue record, n from 1 on. -/
def CueRecord.word (r : CueRecord) (n : Nat) : Word := r.words.getD (n - 1) 0

/-- The post word of a cue: kind, target and lap (12 section 12.2). -/
def postWord (kind target : Byte) (lap : Bool) : Word := wordOf kind target 0 (byteOfNat (128 * bitOf lap))

/-- The sixteen words of a slot that holds a cue, its unused words 0. -/
def CueRecord.slotWords (r : CueRecord) (lap : Bool) : List Word :=
  postWord r.kind r.target lap :: (List.range 15).map fun i => r.words.getD i 0

/-- The 64 bytes of a slot that holds a cue. -/
def CueRecord.slotBytes (r : CueRecord) (lap : Bool) : List Byte := (r.slotWords lap).flatMap wordBytes

/-- The monitor fields of a monitor record's twelve words, in a cue or in the boot image (12 sections 12.2, 12.5). -/
def monitorFields (word : Nat → Word) : MonitorFields where
  monitor := wordByte (word 1) 0
  mode := wordByte (word 1) 1
  delayKind := wordByte (word 1) 2
  force := wordByte (word 1) 3
  zoneX := lowHalf (word 2)
  zoneY := highHalf (word 2)
  zoneW := lowHalf (word 3)
  zoneH := highHalf (word 3)
  threshold := word 4
  level := word 5
  hysteresis := word 6
  tracking := wordByte (word 7) 0
  offset := highHalf (word 7)
  onDelay := word 8
  offDelay := word 9
  inhibit := (word 10).getLsbD 0
  alternate := word 11
  edges := word 12

/-- The twelve words of monitor fields. -/
def monitorWords (f : MonitorFields) : List Word :=
  [wordOf f.monitor f.mode f.delayKind f.force, f.zoneY ++ f.zoneX, f.zoneH ++ f.zoneW, f.threshold, f.level,
   f.hysteresis, f.offset ++ (0#8 ++ f.tracking), f.onDelay, f.offDelay, wordOfNat (bitOf f.inhibit), f.alternate,
   f.edges]

/-! ## The shadow (R153, R154) -/

/-- A byte of the shadow. -/
def CueUnit.byte (u : CueUnit) (a : Nat) : Byte := Memory.get 0 u.shadow a

/-- Word `i` of slot `s` of the shadow. -/
def CueUnit.slotWord (u : CueUnit) (s : Fin 32) (i : Nat) : Word :=
  let a := 64 * s.val + 4 * i
  wordOf (u.byte a) (u.byte (a + 1)) (u.byte (a + 2)) (u.byte (a + 3))

/-- The lap bit of a slot's post word, as the shadow holds it (R155). -/
def CueUnit.slotLap (u : CueUnit) (s : Fin 32) : Bool := (u.byte (64 * s.val + 3)).getLsbD 7

/-- The cue in a slot of the shadow (R156). -/
def CueUnit.record (u : CueUnit) (s : Fin 32) : CueRecord where
  kind := u.byte (64 * s.val)
  target := u.byte (64 * s.val + 1)
  words := (List.range 15).map fun i => u.slotWord s (i + 1)

/-- Whether the expected slot carries the expected lap (R155, R157). -/
def CueUnit.posted (u : CueUnit) : Bool := u.slotLap u.slot == u.lap

/-- The slot and lap after these (R156). -/
def nextSlot (s : Fin 32) (l : Bool) : Fin 32 × Bool := if s = 31 then (0, !l) else (s + 1, l)

/-- The cue unit after a taking: e advanced by 1, l toggled at the wrap (R156). -/
def CueUnit.advance (u : CueUnit) : CueUnit :=
  { u with slot := (nextSlot u.slot u.lap).1, lap := (nextSlot u.slot u.lap).2 }

/-! ## RESTART (R173) -/

/-- The taking of RESTART by the blocks (R173). -/
def takeRestart (b : Blocks) : Blocks :=
  { (restartPorts (restartChannels b)) with mode := .restarting, restartTime := b.timeBase }

/-! ## Examination and dispatch (R156, R159) -/

/-- Why a cue is refused (R159, R160). -/
inductive CueRefusal where
  | unknownKind
  | badTarget
  | wrongState
  | badArgument
  deriving DecidableEq, Repr

/-- The code of a reason (12 section 12.3). -/
def CueRefusal.code : CueRefusal → Nat
  | .unknownKind => 1
  | .badTarget => 2
  | .wrongState => 3
  | .badArgument => 4

/-- The channel a cue names, refused with BAD TARGET when above 7 or disabled (R159). -/
def targetChannel (b : Blocks) (n : Nat) : Except CueRefusal (Fin 8) :=
  match chanOf n with
  | none => .error .badTarget
  | some c => if (b.chan c).desc.enabled then .ok c else .error .badTarget

/-- The layout entry a cue names, refused with BAD TARGET when above 31 (R159). -/
def targetLayout (n : Nat) : Except CueRefusal (Fin 32) :=
  match layoutOf n with
  | none => .error .badTarget
  | some i => .ok i

/-- The monitor a cue names, refused with BAD TARGET when neither A nor B (R159). -/
def targetMonitor (n : Nat) : Except CueRefusal MonId :=
  match monIdOf n with
  | none => .error .badTarget
  | some i => .ok i

/-- The port a cue names, refused with BAD TARGET when above 3 (R159). -/
def targetPort (n : Nat) : Except CueRefusal (Fin 4) :=
  match portOf n with
  | none => .error .badTarget
  | some p => .ok p

/-- The presenter port an ASSIGN PRESENTER carries: 0..3, or 255 for NONE; any other is refused (R159, R175). -/
def targetPresenter (n : Nat) : Except CueRefusal (Option (Fin 4)) :=
  match portOf n with
  | some p => .ok (some p)
  | none => if n = 255 then .ok none else .error .badTarget

/-- START CHANNEL (R7, R115, R136). -/
def cueStartChannel (r : CueRecord) (b : Blocks) : Except CueRefusal Blocks :=
  match targetChannel b r.target.toNat with
  | .error e => .error e
  | .ok c =>
    match startChannel c (stackPolicyOf (r.word 1).toNat) b with
    | some b' => .ok b'
    | none => .error .wrongState

/-- STOP CHANNEL (R8). -/
def cueStopChannel (r : CueRecord) (b : Blocks) : Except CueRefusal Blocks :=
  (targetChannel b r.target.toNat).map fun c => stopChannel c b

/-- WRITE LAYOUT (R101, R102). -/
def cueWriteLayout (r : CueRecord) (b : Blocks) : Except CueRefusal Blocks :=
  (targetLayout r.target.toNat).map fun i =>
    writeLayout i (layoutInRange (r.word 1).toNat (r.word 2).toNat (r.word 3).toNat (r.word 4).toNat (r.word 5).toNat
      (r.word 6).toNat) b

/-- SELECT LAYOUT (R104). -/
def cueSelectLayout (r : CueRecord) (b : Blocks) : Except CueRefusal Blocks :=
  match targetChannel b r.target.toNat, targetLayout (r.word 1).toNat with
  | .ok c, .ok i => .ok (selectLayout c i b)
  | .error e, _ | .ok _, .error e => .error e

/-- PUSH LAYOUT (R105). -/
def cuePushLayout (r : CueRecord) (b : Blocks) : Except CueRefusal Blocks :=
  match targetChannel b r.target.toNat, targetLayout (r.word 1).toNat with
  | .ok c, .ok i => .ok (pushLayout c i b)
  | .error e, _ | .ok _, .error e => .error e

/-- POP LAYOUT (R106). -/
def cuePopLayout (r : CueRecord) (b : Blocks) : Except CueRefusal Blocks :=
  (targetChannel b r.target.toNat).map fun c => popLayout c b

/-- FADE (R114). -/
def cueFade (r : CueRecord) (b : Blocks) : Except CueRefusal Blocks :=
  (targetChannel b r.target.toNat).map fun c =>
    fadeChannel c (r.word 1).toNat (r.word 2).toNat (r.word 3).toNat b

/-- ASSIGN PRESENTER (R17, R96). -/
def cueAssignPresenter (r : CueRecord) (b : Blocks) : Except CueRefusal Blocks :=
  match targetChannel b r.target.toNat, targetPresenter (wordByte (r.word 1) 0).toNat with
  | .ok c, .ok p => .ok (assignPresenter c p (r.word 2).toNat (lossPolicyOf (r.word 3).toNat) b)
  | .error e, _ | .ok _, .error e => .error e

/-- The six settings a SET INGEST carries (R82, R175). -/
def ingestSettingsOf (r : CueRecord) : IngestSettings where
  cropX := (lowHalf (r.word 1)).toNat
  cropY := (lowHalf (r.word 2)).toNat
  cropW := (lowHalf (r.word 3)).toNat
  cropH := (lowHalf (r.word 4)).toNat
  targetW := (lowHalf (r.word 5)).toNat
  targetH := (lowHalf (r.word 6)).toNat

/-- SET INGEST (R82). -/
def cueSetIngest (r : CueRecord) (b : Blocks) : Except CueRefusal Blocks :=
  (targetPort r.target.toNat).map fun p => setIngest p (ingestSettingsOf r) b

/-- SET MONITOR (R119, R133, R159). -/
def cueSetMonitor (r : CueRecord) (b : Blocks) : Except CueRefusal Blocks :=
  let f := monitorFields r.word
  match targetChannel b r.target.toNat, targetMonitor f.monitor.toNat with
  | .ok c, .ok i =>
    if fieldsZoneBad f (b.chan c).desc.width (b.chan c).desc.height then .error .badArgument
    else .ok (setMonitor c i f b)
  | .error e, _ | .ok _, .error e => .error e

/-- FORCE MONITOR (R134). -/
def cueForceMonitor (r : CueRecord) (b : Blocks) : Except CueRefusal Blocks :=
  match targetChannel b r.target.toNat, targetMonitor (wordByte (r.word 1) 0).toNat with
  | .ok c, .ok i => .ok (forceMonitor c i (forceOf (r.word 2).toNat) b)
  | .error e, _ | .ok _, .error e => .error e

/-- CLEAR MONITOR (R135). -/
def cueClearMonitor (r : CueRecord) (b : Blocks) : Except CueRefusal Blocks :=
  match targetChannel b r.target.toNat, targetMonitor (wordByte (r.word 1) 0).toNat with
  | .ok c, .ok i => .ok (clearMonitor c i b)
  | .error e, _ | .ok _, .error e => .error e

/-- CLEAR FLAGS (R107). -/
def cueClearFlags (r : CueRecord) (b : Blocks) : Except CueRefusal Blocks :=
  (targetChannel b r.target.toNat).map fun c => clearFlags c b

/-- SET REPORTS (R163). -/
def cueSetReports (r : CueRecord) (b : Blocks) : Except CueRefusal Blocks := .ok (setReports (r.word 1) b)

/-- RESTART (R173). -/
def cueRestart (b : Blocks) : Except CueRefusal Blocks := .ok (takeRestart b)

/-- The examination of a cue and the effect of its owner, or why it is refused (R156, R159); kind values by 12 section
12.2. -/
def cueEffect (r : CueRecord) (b : Blocks) : Except CueRefusal Blocks :=
  match r.kind.toNat with
  | 1 => cueStartChannel r b
  | 2 => cueStopChannel r b
  | 3 => cueWriteLayout r b
  | 4 => cueSelectLayout r b
  | 5 => cuePushLayout r b
  | 6 => cuePopLayout r b
  | 7 => cueFade r b
  | 8 => cueAssignPresenter r b
  | 9 => cueSetIngest r b
  | 10 => cueSetMonitor r b
  | 11 => cueForceMonitor r b
  | 12 => cueClearMonitor r b
  | 13 => cueClearFlags r b
  | 14 => cueSetReports r b
  | 15 => cueRestart b
  | _ => .error .unknownKind

/-! ## Refusal (R160) -/

/-- Whether the target of a kind is a channel (12 section 12.2). -/
def targetsChannel (kind : Byte) : Bool :=
  decide (kind.toNat ∈ [1, 2, 4, 5, 6, 7, 8, 10, 11, 12, 13])

/-- The subject of a CUE REFUSED report (R160). -/
def refusalSubject (b : Blocks) (r : CueRecord) : Subject :=
  match targetsChannel r.kind, chanOf r.target.toNat with
  | true, some c => .channel c (b.chan c).frame
  | true, none | false, _ => .none

/-- The CUE REFUSED report of the cue in slot `s` (R160). -/
def raiseCueRefused (b : Blocks) (s : Fin 32) (r : CueRecord) (why : CueRefusal) : Blocks :=
  b.raise .cueRefused (refusalSubject b r)
    [wordOfNat s.val, wordOfNat r.kind.toNat, wordOfNat why.code, wordOfNat r.target.toNat]

/-! ## Taking and the chain (R156, R157) -/

/-- The blocks after a cue has been examined, and carried out or refused, with the status refresh every taking asks for
(R156). -/
def carryOut (s : Fin 32) (r : CueRecord) (b : Blocks) : Blocks :=
  (match cueEffect r b with
    | .ok b' => b'
    | .error why => raiseCueRefused b s r why).requestRefresh

/-- The taking of the expected slot, the check of R157 apart (R156). -/
def takeSlot (u : CueUnit) (b : Blocks) : CueUnit × Blocks :=
  (u.advance, carryOut u.slot (u.record u.slot) b)

/-- The check of the expected slot, and the chain of takings that follows it (R157). `fuel` bounds the chain; 33 is more
than any chain needs, since no chain runs more than 32 slots (R157; log 28). -/
def chain : Nat → CueUnit → Blocks → CueUnit × Blocks
  | 0, u, b => (u, b)
  | n + 1, u, b =>
    if b.mode = .active ∧ u.posted then
      let t := takeSlot u b
      chain n t.1 t.2
    else (u, b)

/-- The bound given to a chain. -/
def chainFuel : Nat := 33

/-! ## The completion of RESTART (R174) -/

/-- Whether everything R174 waits for has come back. -/
def restartDrained (b : Blocks) : Bool := b.rttDrained && b.ingestDrained

/-- A channel at the completion of RESTART: layout records, monitors and remembered frame numbers, and the deepest line 0,
also of a channel that was OFF when RESTART was taken (R19, R38, R116, R137). -/
def restartedChannel (table : Vector LayoutEntry 32) (ch : Channel) : Channel :=
  { ch with
    deepest := 0
    lay := layoutInitial table ch.desc.home
    monA := Monitor.initial ch.monA.cfg
    monB := Monitor.initial ch.monB.cfg
    lastLate := none
    lastFetchError := none }

/-- Items 1 to 7 of the completion of RESTART (R174). -/
def completeRestart (b : Blocks) : Blocks :=
  let b := { b with slotTab := Vector.replicate 4 PortSlots.reset }
  let b := b.mapChans fun _ ch => restartedChannel b.layouts ch
  let b := { b with mode := .active }
  (b.raise .restartDone .none [b.restartTime]).requestRefresh

/-- The completion of RESTART at the first event after which its conditions hold, with the check of item 8 and whatever
the waiting cues do, a further RESTART among them (R158, R174). `fuel` bounds the RESTARTs completed at one event; each
but the first was a cue of the ring (log 28). -/
def settle : Nat → CueUnit → Blocks → CueUnit × Blocks
  | 0, u, b => (u, b)
  | n + 1, u, b =>
    if b.mode = .restarting ∧ restartDrained b then
      let t := chain chainFuel u (completeRestart b)
      settle n t.1 t.2
    else (u, b)

/-! ## Posting -/

/-- Where the next cue is posted while cues wait: from the expected slot on, the first slot that does not carry its lap;
none when the whole ring waits (log 5). -/
def postPlace (u : CueUnit) : Nat → Fin 32 → Bool → Option (Fin 32 × Bool)
  | 0, _, _ => none
  | n + 1, s, l => if u.slotLap s = l then postPlace u n (nextSlot s l).1 (nextSlot s l).2 else some (s, l)

/-- The cells of a run of bytes from an offset on. -/
def cellsFrom : Nat → List Byte → List Host.Cell
  | _, [] => []
  | a, x :: rest => (a, x) :: cellsFrom (a + 1) rest

/-- A slot of the shadow written whole with a cue and a lap (R154). -/
def CueUnit.store (u : CueUnit) (s : Fin 32) (lap : Bool) (r : CueRecord) : CueUnit :=
  { u with shadow := Memory.setAll 0 u.shadow (cellsFrom (64 * s.val) (r.slotBytes lap)) }

/-- A cue posted whole by software in ring order (R155 to R158; log 3): in ACTIVE in the expected slot with the expected
lap, and taken, with the chain; in RESTARTING in the next slot of the ring, where it waits; in LOADING and BYPASS
nothing reaches the shadow. -/
def postCue (r : CueRecord) (u : CueUnit) (b : Blocks) : CueUnit × Blocks :=
  match b.mode with
  | .active => chain chainFuel (u.store u.slot u.lap r) b
  | .restarting =>
    match postPlace u 32 u.slot u.lap with
    | some (s, l) => (u.store s l r, b)
    | none => (u, b)
  | .loading | .bypass => (u, b)

end Sys2Proof.Machine
end

