-- ==== Sys2Proof/Machine/LinkPath.lean ====
section
/-! DEFINITION. The link path: acceptance, guarding, snooping, the downstream arbiter and the responses (08_the_frame_store_link),
and what ends every event: the completion of RESTART, the acceptance of a waiting request, the starvation count and the
attention output. -/

namespace Sys2Proof.Machine

/-! ## Per-pair records (R142, R144) -/

/-- The key of a (tag, order id) pair. -/
def pairKey (tag : Tag) (oid : OrderId) : Nat := tag.toNat * 16 + oid.toNat

namespace Link

/-- The untracked count of a pair (R142). -/
def untrackedOf (k : Link) (tag : Tag) (oid : OrderId) : Nat := Memory.get 0 k.untracked (pairKey tag oid)

/-- Set the untracked count of a pair (R142). -/
def setUntracked (k : Link) (tag : Tag) (oid : OrderId) (n : Nat) : Link :=
  { k with untracked := Memory.set 0 k.untracked (pairKey tag oid) n }

/-- The write record of a pair (R144). -/
def writeRecord (k : Link) (tag : Tag) (oid : OrderId) : List Bool := Memory.get [] k.writeRecords (pairKey tag oid)

/-- Set the write record of a pair (R144). -/
def setWriteRecord (k : Link) (tag : Tag) (oid : OrderId) (marks : List Bool) : Link :=
  { k with writeRecords := Memory.set [] k.writeRecords (pairKey tag oid) marks }

/-- Raise the untracked count of a pair by 1 (R142). -/
def countRead (k : Link) (tag : Tag) (oid : OrderId) : Link :=
  k.setUntracked tag oid (k.untrackedOf tag oid + 1)

/-- A write joins the tail of its pair's write record (R144). -/
def recordWrite (k : Link) (tag : Tag) (oid : OrderId) (null : Bool) : Link :=
  k.setWriteRecord tag oid (k.writeRecord tag oid ++ [null])

/-- Place a request in the pass slot (R141). -/
def place (k : Link) (r : UpRequest) : Link := { k with passSlot := some r }

end Link

/-! ## Regions (R143) -/

/-- Whether a request of `n` bytes at `a` covers a byte of a region. -/
def covers (a n base size : Nat) : Bool := decide (max a base < min (a + n) (base + size))

/-- The guarded region a write touches first, by its code: 1 status block, 2 report ring, 3 presenter region; none when
it touches none (R143, 12 section 12.3). -/
def guardedRegion (v : ImageValues) (a n : Nat) : Option Nat :=
  if covers a n v.statusBase Config.statusBytes then some 1
  else if covers a n v.ringBase (v.ringSize * 32) then some 2
  else if covers a n v.presBase (64 * v.slotBytes) then some 3
  else none

/-! ## Snooping (R145) -/

/-- The cells of the cue area a write enables: offset and byte (R145). -/
def cueCells (base : Nat) : Nat → List Byte → List Bool → List Host.Cell
  | a, x :: xs, e :: es =>
    let rest := cueCells base (a + 1) xs es
    if e && decide (base ≤ a) && decide (a < base + Config.cueAreaBytes) then (a - base, x) :: rest else rest
  | _, _, [] | _, [], _ :: _ => []

/-- Bytes of the consumer word copy replaced by a write's cells (R145). -/
def consumerWith (w : Word) (cells : List Host.Cell) : Word :=
  let byte (k : Nat) : Byte := ((cells.find? fun c => c.1 = 2048 + k).map Prod.snd).getD (wordByte w k)
  wordOf (byte 0) (byte 1) (byte 2) (byte 3)

/-- Whether cells hold a byte of the consumer word. -/
def touchesConsumer (cells : List Host.Cell) : Bool := cells.any fun c => decide (2048 ≤ c.1) && decide (c.1 < 2052)

/-- Whether cells hold all four bytes of a slot's post word (R155). -/
def enablesPost (cells : List Host.Cell) (s : Fin 32) : Bool :=
  ([0, 1, 2, 3] : List Nat).all fun k => cells.any fun c => c.1 = 64 * s.val + k

/-- The cells that fall in the shadow (R145). -/
def shadowCells (cells : List Host.Cell) : List Host.Cell := cells.filter fun c => c.1 < 2048

/-- The report unit takes the consumer word (R162). -/
def Blocks.takeConsumer (b : Blocks) (word : Word) : Blocks :=
  { b with rep := b.rep.consume b.image.ringSize word }

/-- The copy of an unguarded write's cue-area bytes, the cue unit's taking of what it posts, then the report unit's
taking of the consumer word (R145, R155; log 17). -/
def snoop (cells : List Host.Cell) (s : State) : State :=
  let u := { s.cue with shadow := Memory.setAll 0 s.cue.shadow (shadowCells cells) }
  let t := if s.blk.mode = .active ∧ enablesPost cells u.slot then chain chainFuel u s.blk else (u, s.blk)
  let word := consumerWith s.link.consumerWord cells
  { s with
    cue := t.1
    blk := if touchesConsumer cells then t.2.takeConsumer word else t.2
    link := { s.link with consumerWord := word } }

/-! ## Acceptance (R140, R141, R151) -/

/-- The channel and the free entry number of a read that needs an entry, if the RTT has one (R20, R26). -/
def Blocks.entryFor (b : Blocks) (tag : Tag) : Option (Fin 8 × Option Tag) :=
  (b.trackedChan tag).map fun c => (c, b.freeEntry)

/-- How many fetch reads a tracked read would need, judged with any frame start its acceptance would cause (R26). -/
def Blocks.readsNeeded (b : Blocks) (c : Fin 8) (addr : Addr) (beats : Nat) : Nat :=
  ((b.examined c addr.toNat beats).classify c addr.toNat beats).1.reads

/-- Whether the head request's conditions hold (R26, R140, R151). -/
def acceptable (s : State) (r : UpRequest) : Bool :=
  s.link.passSlot.isNone &&
  match s.blk.mode, r.kind with
  | .bypass, _ => true
  | .loading, .write => true
  | .loading, .read => decide (s.link.untrackedOf r.tag r.oid < Config.untrackedMax)
  | .active, .write | .restarting, .write => true
  | .active, .read | .restarting, .read =>
    match s.blk.entryFor r.tag with
    | none => decide (s.link.untrackedOf r.tag r.oid < Config.untrackedMax)
    | some (c, n) =>
      n.isSome && decide (s.blk.fetchQueue.length + s.blk.readsNeeded c r.addr r.beats ≤ Config.fetchQueueSize)

/-- The acceptance of a read in ACTIVE or RESTARTING (R141). -/
def acceptRead (s : State) (r : UpRequest) : State :=
  match s.blk.entryFor r.tag with
  | some (c, some n) =>
    { s with
      blk := (s.blk.examined c r.addr.toNat r.beats).allocate n c r.tag r.oid r.addr r.beats
      link := s.link.place r }
  | some (_, none) => s
  | none => { s with link := (s.link.countRead r.tag r.oid).place r }

/-- Words 3 to 5 of a GUARD report (12 section 12.3). -/
def guardWords (r : UpRequest) (region : Nat) : List Word :=
  [quadWord r.tag.toNat r.oid.toNat r.beats region, (addrWords r.addr).1, (addrWords r.addr).2]

/-- The acceptance of a guarded write: a null write and a GUARD report (R144). -/
def acceptGuarded (s : State) (r : UpRequest) (region : Nat) : State :=
  { s with
    blk := s.blk.raise .guard .none (guardWords r region)
    link := (s.link.recordWrite r.tag r.oid true).place { r with enables := r.enables.map fun _ => false } }

/-- The acceptance of a write in ACTIVE or RESTARTING (R141, R143 to R145). -/
def acceptWrite (s : State) (r : UpRequest) : State :=
  match guardedRegion s.blk.image r.addr.toNat (r.beats * 16) with
  | some region => acceptGuarded s r region
  | none =>
    let s' := snoop (cueCells s.blk.image.cueBase r.addr.toNat r.data r.enables) s
    { s' with link := (s'.link.recordWrite r.tag r.oid false).place r }

/-- The acceptance of a request whose conditions hold (R141, R151). -/
def accept (s : State) (r : UpRequest) : State :=
  match s.blk.mode, r.kind with
  | .bypass, _ => { s with link := s.link.place r }
  | .loading, .read => { s with link := (s.link.countRead r.tag r.oid).place r }
  | .loading, .write => { s with link := (s.link.recordWrite r.tag r.oid false).place r }
  | .active, .read | .restarting, .read => acceptRead s r
  | .active, .write | .restarting, .write => acceptWrite s r

/-! ## Own requests and the arbiter (R146 to R148) -/

/-- The ports in round-robin order after the last port granted (R148). -/
def portOrder (last : Fin 4) : List (Fin 4) := [last + 1, last + 2, last + 3, last]

/-- The own request the arbiter would take next, by class (R148). -/
inductive OwnHead where
  | fetch (read : FetchRead)
  | report
  | status
  | piece (port : Fin 4)
  deriving DecidableEq, Repr

/-- The own head; own requests are issued only in ACTIVE and RESTARTING (R146, R148). -/
def ownHead (s : State) : Option OwnHead :=
  if s.blk.mode = .active ∨ s.blk.mode = .restarting then
    match s.blk.fetchQueue with
    | f :: _ => some (.fetch f)
    | [] =>
      if s.blk.reportWaits then some .report
      else if s.blk.rep.status = .waiting then some .status
      else ((portOrder s.link.lastPort).find? fun p => (s.blk.port p).queue ≠ []).map .piece
  else none

/-- A forwarded engine request as issued downstream (R141). -/
def issuedRequest (r : UpRequest) : DownRequest :=
  ⟨.engine, r.kind, r.tag, r.oid, r.addr, r.beats, r.data, r.enables⟩

/-- A fetch read as issued downstream (R28). -/
def fetchRequest (f : FetchRead) : DownRequest := ⟨.compositor, .read, f.entry, 0, f.addr, f.beats, [], []⟩

/-- A write piece as issued downstream (R79). -/
def pieceRequest (p : Fin 4) (piece : Addr × Nat × List Byte) : DownRequest :=
  ⟨.compositor, .write, BitVec.ofNat 6 (56 + p.val), 1, piece.1, piece.2.1, piece.2.2,
    List.replicate (piece.2.1 * 16) true⟩

/-- A request leaves on the downstream port. -/
def Link.issue (k : Link) (r : DownRequest) : Link := { k with issued := k.issued ++ [r] }

/-- The grant of the pass slot; it raises the starvation count while an own request waits (R147). -/
def grantPass (s : State) (r : UpRequest) (ownWaits : Bool) : State :=
  { s with link := { s.link.issue (issuedRequest r) with
      passSlot := none
      starvation := if ownWaits then s.link.starvation + 1 else s.link.starvation } }

/-- The grant of the own head; it sets the starvation count to 0 (R147, R148). -/
def grantOwn (s : State) (o : OwnHead) : State :=
  let k := { s.link with starvation := 0 }
  match o with
  | .fetch f => { s with link := k.issue (fetchRequest f), blk := { s.blk with fetchQueue := s.blk.fetchQueue.drop 1 } }
  | .report =>
    match s.blk.grantReport with
    | some (request, b) => { s with link := k.issue request, blk := b }
    | none => s
  | .status =>
    { s with
      link := k.issue (s.blk.statusRequest s.cue.slot s.cue.lap)
      blk := { s.blk with rep := { s.blk.rep with status := .inFlight } } }
  | .piece p =>
    match s.blk.nextPiece p with
    | some piece => { s with link := { k.issue (pieceRequest p piece) with lastPort := p }, blk := s.blk.grantPiece p }
    | none => s

/-- One grant of the downstream arbiter; with no candidate there is no grant (R147). -/
def grantDown (s : State) : State :=
  match s.link.passSlot, ownHead s with
  | none, none => s
  | some r, none => grantPass s r false
  | none, some o => grantOwn s o
  | some r, some o => if s.link.starvation < s.blk.image.starvationLimit then grantPass s r true else grantOwn s o

/-! ## The end of an event -/

/-- What ends an event: the completion of RESTART if it has come (R174), the starvation count set to 0 when no own
request waits (R147), and the attention output (R165). -/
def endEvent (s : State) : State :=
  let t := settle chainFuel s.cue s.blk
  let s := { s with cue := t.1, blk := t.2, attn := t.2.attention }
  if (ownHead s).isNone then { s with link := { s.link with starvation := 0 } } else s

/-- The waiting head request is accepted at the first event that makes its conditions hold (R26, R140). -/
def acceptHead (s : State) : State :=
  match s.link.upstream with
  | [] => s
  | r :: rest =>
    if acceptable s r then endEvent (accept { s with link := { s.link with upstream := rest } } r) else s

/-- The whole end of an event. At most one waiting request is accepted, since its acceptance fills the pass slot. Where
one event both drains RESTART and meets the head request's conditions, RESTART completes first, a DESIGN CHOICE
(log 33). -/
def finish (s : State) : State := acceptHead (endEvent s)

/-- The engine presents a request: it waits behind those before it (R140). -/
def present (s : State) (r : UpRequest) : State :=
  finish { s with link := { s.link with upstream := s.link.upstream ++ [r] } }

/-! ## Responses (R149, R150) -/

/-- A pass response comes to wait at the downstream response port (R149). -/
def Link.waitPass (k : Link) (r : UpResponse) : Link := { k with passResponse := some r }

/-- An ENGINE write response: it answers the head of its pair's write record, a null write's status becomes ERROR
(R144). In BYPASS no records are kept (R151). -/
def takeEngineWrite (s : State) (tag : Tag) (oid : OrderId) (status : Status) : State :=
  if s.blk.mode = .bypass then { s with link := s.link.waitPass ⟨.write, tag, oid, [], status⟩ }
  else
    match s.link.writeRecord tag oid with
    | [] => { s with link := s.link.waitPass ⟨.write, tag, oid, [], status⟩ }
    | null :: rest =>
      let response : UpResponse := ⟨.write, tag, oid, [], if null then .error else status⟩
      { s with link := (s.link.setWriteRecord tag oid rest).waitPass response }

/-- An ENGINE read response: a pass response while its pair's untracked count is above 0, and in LOADING and BYPASS;
otherwise the programme response of an entry (R29, R142, R149, R151). -/
def takeEngineRead (s : State) (tag : Tag) (oid : OrderId) (data : List Byte) (status : Status) : Except Fault State :=
  let n := s.link.untrackedOf tag oid
  if s.blk.mode ≠ .bypass ∧ 0 < n then
    .ok { s with link := (s.link.setUntracked tag oid (n - 1)).waitPass ⟨.read, tag, oid, data, status⟩ }
  else if s.blk.mode = .bypass ∨ s.blk.mode = .loading then
    .ok { s with link := s.link.waitPass ⟨.read, tag, oid, data, status⟩ }
  else (s.blk.takeProgramme tag oid data status).map fun b => { s with blk := b }

/-- A downstream response is taken (R146, R149). -/
def takeResponse (s : State) : DownResponse → Except Fault State
  | .engine .write tag oid _ status => .ok (takeEngineWrite s tag oid status)
  | .engine .read tag oid data status => takeEngineRead s tag oid data status
  | .fetch n data status => (s.blk.takeFetch n data status).map fun b => { s with blk := b }
  | .lineWrite p status => (s.blk.takeLineWrite p status).map fun b => { s with blk := b }
  | .reportWrite status => (s.blk.takeReportWrite status).map fun b => { s with blk := b }
  | .statusWrite _ => s.blk.takeStatusWrite.map fun b => { s with blk := b }

/-- A response arrives: while a pass response waits, the downstream response port takes no other, and this one waits
downstream (R149; log 7). -/
def arrive (s : State) (r : DownResponse) : Except Fault State :=
  if s.link.passResponse.isSome then .ok (finish { s with link := { s.link with held := s.link.held ++ [r] } })
  else (takeResponse s r).map finish

/-- The responses that waited behind a pass response are taken in order of arrival, up to the next pass response, each
an event of its own (R149). -/
def releaseHeld : List DownResponse → State → Except Fault State
  | [], s => .ok s
  | r :: rest, s =>
    if s.link.passResponse.isSome then .ok { s with link := { s.link with held := r :: rest } }
    else
      match takeResponse s r with
      | .error f => .error f
      | .ok s' => releaseHeld rest (finish s')

/-- A response leaves on the upstream port. -/
def Link.send (k : Link) (r : UpResponse) (source : LastSource) : Link :=
  { k with returned := k.returned ++ [r], lastSource := source }

/-- The waiting pass response is sent, and the downstream response port takes what waited behind it (R149, R150). -/
def sendPass (s : State) (r : UpResponse) : Except Fault State :=
  let held := s.link.held
  releaseHeld held (finish { s with link := { s.link.send r .pass with passResponse := none, held := [] } })

/-- The ready entry is delivered (R41, R150). -/
def sendEntry (s : State) (e : Entry) : State :=
  finish { s with link := s.link.send e.response .entry, blk := s.blk.deliver e }

/-- One grant of the upstream response port; with nothing waiting there is none (R150). -/
def grantUp (s : State) : Except Fault State :=
  match s.link.passResponse, s.blk.readyEntry with
  | none, none => .ok (finish s)
  | some r, none => sendPass s r
  | none, some e => .ok (sendEntry s e)
  | some r, some e => if s.link.lastSource = .pass then .ok (sendEntry s e) else sendPass s r

end Sys2Proof.Machine
end

