-- ==== Sys2Proof/Machine/Boot.lean ====
section
/-! DEFINITION. The boot loader: the boot image, its structural checks, the entry to ACTIVE or to BYPASS
(11_start_up_restart_and_bypass sections 11.1 and 11.2, 12 section 12.5, R2). -/

namespace Sys2Proof.Machine

/-! ## Reading the image (12 section 12.5) -/

/-- Word `n` of the image. -/
def imgWord (image : List Word) (n : Nat) : Word := image.getD n 0

/-- An address of two words, low first; all bits of the high word count (12). -/
def imgAddr (image : List Word) (n : Nat) : Nat :=
  (imgWord image n).toNat + 4294967296 * (imgWord image (n + 1)).toNat

/-- A value brought into 1..`hi`, 0 taken as `unset` (R36, R166). -/
def limitOf (v unset hi : Nat) : Nat := if v = 0 then unset else min v hi

/-- The loss limit of an image value (R68). -/
def lossLimitOf (v : Nat) : Nat := if v = 0 then 1000 else max 100 (min v 10000)

/-- The regions and limits of the image (R171). -/
def imageValues (image : List Word) : ImageValues where
  cueBase := imgAddr image 2
  statusBase := imgAddr image 4
  ringBase := imgAddr image 6
  ringSize := (imgWord image 8).toNat
  presBase := imgAddr image 9
  slotBytes := (imgWord image 11).toNat
  starvationLimit := min (imgWord image 12).toNat 15
  joinLimit := limitOf (imgWord image 13).toNat 20 1000
  lossLimit := lossLimitOf (imgWord image 14).toNat
  refreshPeriod := limitOf (imgWord image 15).toNat 20 1000

/-- The format of a format byte; a byte that names none has a free value (log 13). -/
def formatOf (code : Byte) : ProgFormat :=
  if code = 0 then .w10 else if code = 1 then .p8 else Config.unnamedFormat code

/-- The AO tag held for a tag byte; above 63 it is a free value (log 14). -/
def aoTagOf (code : Byte) : Byte := if code.toNat < 64 then code else Config.tagBeyondRange code

/-- The descriptor of channel `c`, its clamped fields brought into range (R2, 12 section 12.5). -/
def imageDescriptor (image : List Word) (c : Fin 8) : Descriptor :=
  let at' := 17 + 13 * c.val
  let w0 := imgWord image at'
  let w1 := imgWord image (at' + 1)
  let w3 := imgWord image (at' + 3)
  let w4 := imgWord image (at' + 4)
  { enabled := w0.getLsbD 0
    autoStart := w0.getLsbD 1
    aoTag := aoTagOf (wordByte w0 1)
    format := formatOf (wordByte w0 2)
    width := (lowHalf w1).toNat
    height := (highHalf w1).toNat
    stride := (imgWord image (at' + 2)).toNat
    bufferCount := (wordByte w3 0).toNat
    bases := Vector.ofFn fun k => imgAddr image (at' + 5 + 2 * k.val)
    home := layoutClamp (wordByte w0 3).toNat
    port := portOf (wordByte w3 1).toNat
    delay := min (wordByte w3 2).toNat 12
    loss := lossPolicyOf (wordByte w4 0).toNat
    stackPolicy := stackPolicyOf (wordByte w4 1).toNat }

/-- The settings of port `p` (R84, 12 section 12.5). -/
def imageSettings (image : List Word) (p : Fin 4) : IngestSettings :=
  let at' := 121 + 3 * p.val
  let half (n : Nat) : Nat × Nat := ((lowHalf (imgWord image (at' + n))).toNat, (highHalf (imgWord image (at' + n))).toNat)
  ⟨(half 0).1, (half 0).2, (half 1).1, (half 1).2, (half 2).1, (half 2).2⟩

/-- Layout entry `i`, brought into range (R101, 12 section 12.5). -/
def imageLayout (image : List Word) (i : Fin 32) : LayoutEntry :=
  let at' := 133 + 3 * i.val
  let lo (n : Nat) : Nat := (lowHalf (imgWord image (at' + n))).toNat
  let hi (n : Nat) : Nat := (highHalf (imgWord image (at' + n))).toNat
  layoutInRange (lo 0) (hi 0) (lo 1) (lo 2) (hi 2) (hi 1)

/-- The record of monitor `m` of channel `c` (R118, R119, 12 section 12.5). -/
def imageMonitor (image : List Word) (c : Fin 8) (m : MonId) (d : Descriptor) : MonRecord :=
  let at' := 229 + 12 * (2 * c.val + m.code)
  recordOf (monitorFields fun n => imgWord image (at' + n - 1)) d.width d.height

/-! ## Structural checks (R2, R170) -/

/-- The first address beyond the 40-bit address space. -/
def addressTop : Nat := 1099511627776

/-- Whether two ranges of bytes share none. -/
def disjoint (a b : Nat × Nat) : Bool := decide (a.1 + a.2 ≤ b.1) || decide (b.1 + b.2 ≤ a.1)

/-- Whether the ranges of a list are disjoint pairwise. -/
def allDisjoint : List (Nat × Nat) → Bool
  | [] => true
  | r :: rest => rest.all (disjoint r) && allDisjoint rest

/-- The four regions, base and size (R143). -/
def regionsOf (v : ImageValues) : List (Nat × Nat) :=
  [(v.cueBase, Config.cueAreaBytes), (v.statusBase, Config.statusBytes), (v.ringBase, v.ringSize * 32),
   (v.presBase, 64 * v.slotBytes)]

/-- The ring sizes: the powers of two in 64..4,096 (R162). -/
def ringSizes : List Nat := [64, 128, 256, 512, 1024, 2048, 4096]

/-- The checks of the regions (R170, fourth item). -/
def regionsGood (v : ImageValues) : Bool :=
  decide (v.cueBase % 4096 = 0) && decide (v.statusBase % 16 = 0) && decide (v.ringBase % 16 = 0) &&
    decide (v.presBase % 16 = 0) && decide (v.ringSize ∈ ringSizes) && decide (v.slotBytes ≠ 0) &&
    decide (v.slotBytes % 4096 = 0) && decide (v.slotBytes ≤ 8388608) &&
    (regionsOf v).all (fun r => decide (r.1 + r.2 ≤ addressTop)) && allDisjoint (regionsOf v)

/-- The spans of a descriptor's buffers in use (R3). -/
def bufferSpans (d : Descriptor) : List (Nat × Nat) :=
  (([0, 1, 2, 3] : List (Fin 4)).filter fun k => k.val < d.bufferCount).map fun k => (d.base k, d.spanBytes)

/-- The structural checks of one enabled channel, tag uniqueness apart (R2). -/
def descriptorGood (v : ImageValues) (d : Descriptor) : Bool :=
  decide (256 ≤ d.width) && decide (d.width ≤ 4096) && decide (d.width % 2 = 0) && decide (32 ≤ d.height) &&
    decide (d.height ≤ 2304) && decide (d.stride % 16 = 0) && decide (d.rowWidth ≤ d.stride) &&
    decide (1 ≤ d.bufferCount) && decide (d.bufferCount ≤ 4) &&
    (bufferSpans d).all (fun r => decide (r.1 % 16 = 0) && decide (r.1 + r.2 ≤ addressTop)) &&
    allDisjoint (bufferSpans d) && (bufferSpans d).all fun r => (regionsOf v).all (disjoint r)

/-- Whether the enabled channels' descriptors pass (R2). -/
def channelsGood (v : ImageValues) (desc : Fin 8 → Descriptor) : Bool :=
  allChans.all fun c =>
    !(desc c).enabled ||
      (descriptorGood v (desc c) &&
        allChans.all fun c' => c' = c || !(desc c').enabled || (desc c').aoTag ≠ (desc c).aoTag)

/-- The sum of the image's words (R170, third item). -/
def imageSum (image : List Word) : Word := (image.take Config.imageWords).foldl (fun a w => a + w) 0

/-- The structural checks of the whole image (R170). -/
def imageGood (image : List Word) : Bool :=
  decide (imgWord image 0 = Config.magic) && decide ((imgWord image 1).toNat = Config.imageWords) &&
    decide (imageSum image = 0) && regionsGood (imageValues image) &&
    channelsGood (imageValues image) (imageDescriptor image)

/-! ## The entry to ACTIVE and to BYPASS (R171, R172) -/

/-- A channel on the entry to ACTIVE, armed if it is enabled and marked auto-start (R19, R116, R137). -/
def bootChannel (image : List Word) (c : Fin 8) : Channel :=
  let d := imageDescriptor image c
  let table : Vector LayoutEntry 32 := Vector.ofFn (imageLayout image)
  let ch : Channel :=
    { Channel.reset with
      desc := d
      lay := layoutInitial table d.home
      monA := Monitor.initial (imageMonitor image c .a d)
      monB := Monitor.initial (imageMonitor image c .b d) }
  if d.enabled && d.autoStart then ch.arm table else ch

/-- The blocks on the entry to ACTIVE after a good image (R171). -/
def enterActive (image : List Word) (b : Blocks) : Blocks :=
  let b := { b with
    mode := .active
    image := imageValues image
    chans := Vector.ofFn (bootChannel image)
    layouts := Vector.ofFn (imageLayout image)
    ports := Vector.ofFn fun p => { Port.reset with settings := imageSettings image p }
    slotTab := Vector.replicate 4 PortSlots.reset
    rep := { b.rep with mask := (imgWord image 16).setWidth 13, lastRefresh := b.timeBase } }
  b.requestRefresh

/-- The entry to BYPASS: no block takes a value; the link path keeps no counts and no write records from then on (R151,
R172; log 25). -/
def enterBypass (s : State) : State :=
  { s with
    blk := { s.blk with mode := .bypass }
    link := { s.link with untracked := [], writeRecords := [] } }

/-- The end of the load of an image in LOADING; in any other state no load is in progress and nothing happens (R170;
log 24). -/
def loadImage (s : State) (image : List Word) : State :=
  if s.blk.mode = .loading then
    if imageGood image then { s with blk := enterActive image s.blk } else enterBypass s
  else s

end Sys2Proof.Machine
end

