-- ==== Sys2Proof/Machine/StartUp.lean ====
section
/-! DEFINITION. The meanings of the start-up commands: power-on, the reset pulse, the load of the boot image and the completion of
RESTART (11). -/

namespace Sys2Proof.Machine

/-- What every command answers with. -/
abbrev Answer := Host.Outcome State Fault Refusal

/-- An event that completed, ended by `finish`. -/
def ended (s : State) : Answer := .next (finish s)

/-- An event that completed or broke what R139 relies on. -/
def answerOf : Except Fault State → Answer
  | .ok s => .next s
  | .error f => .fault f

/-- A command whose operands a record can carry is answered; any other is refused (log 10). -/
def wellFormed (i : Instr) (a : Answer) : Answer := if i.wf then a else .refused .malformed

/-- POWER_ON: every block is reset, the cause is POWER-ON and LOADING begins, whatever state the part was in (R169). -/
def execPowerOn (s : State) : Answer := .next (State.resetWith .powerOn s.pending)

/-- RESET_PULSE: as power-on, with cause PIN; a load in progress is abandoned (R169). -/
def execResetPulse (s : State) : Answer := .next (State.resetWith .pin s.pending)

/-- BOOT_IMAGE_LOAD: the image is checked whole; a good one takes the part to ACTIVE, any other to BYPASS (R170 to R172). -/
def execBootImageLoad (image : List Word) (s : State) : Answer :=
  wellFormed (.bootImageLoad image) (ended (loadImage s image))

/-- RESTART_COMPLETION: in RESTARTING, once everything in flight has come back, the completion of R174. Every event ends
with it (`endEvent`), so the command finds it done or finds its conditions not met (log 8). -/
def execRestartCompletion (s : State) : Answer := ended s

end Sys2Proof.Machine
end

