-- ==== Sys2Proof/Machine/Requests.lean ====
section
/-! DEFINITION. The meanings of the upstream request commands and of the two grants (08, 02 section 2.3). -/

namespace Sys2Proof.Machine

/-- ACCEPT_READ: the engine presents a READ; it is accepted once its conditions hold (R26, R140, R141). -/
def execAcceptRead (tag : Tag) (oid : OrderId) (addr : Addr) (beats : Nat) (s : State) : Answer :=
  wellFormed (.acceptRead tag oid addr beats) (.next (present s ⟨.read, tag, oid, addr, beats, [], []⟩))

/-- ENGINE_WRITE: the engine presents a WRITE; at its acceptance it is guarded or copied, and what it posts is taken
(R140, R141, R143 to R145, R155). -/
def execEngineWrite (tag : Tag) (oid : OrderId) (addr : Addr) (beats : Nat) (data : List Byte) (enables : List Bool)
    (s : State) : Answer :=
  wellFormed (.engineWrite tag oid addr beats data enables)
    (.next (present s ⟨.write, tag, oid, addr, beats, data, enables⟩))

/-- The cells of a write to the report consumer word: its enabled bytes (R145). -/
def consumerCells (word : Word) (enables : BitVec 4) : List Host.Cell :=
  (([0, 1, 2, 3] : List Nat).filter fun k => enables.getLsbD k).map fun k => (2048 + k, wordByte word k)

/-- REPORT_CONSUMER_WORD: the enabled bytes reach the link path's copy, and the report unit takes the word as it then
stands (R145, R162; log 4). In LOADING and BYPASS nothing is copied (R145, R151). -/
def execReportConsumerWord (word : Word) (enables : BitVec 4) (s : State) : Answer :=
  ended (if s.blk.mode = .active ∨ s.blk.mode = .restarting then snoop (consumerCells word enables) s else s)

/-- DOWNSTREAM_GRANT (R147, R148). -/
def execDownstreamGrant (s : State) : Answer := ended (grantDown s)

/-- UPSTREAM_RESPONSE_GRANT (R40, R41, R149, R150). -/
def execUpstreamResponseGrant (s : State) : Answer := answerOf (grantUp s)

end Sys2Proof.Machine
end

