-- ==== Sys2Proof/Machine/CueCommands.lean ====
section
/-! DEFINITION. The meanings of the cue commands: the cue is posted with its arguments, examined, carried out or refused, and the
chain goes on from it (09, 12 section 12.2). -/

namespace Sys2Proof.Machine

/-- A cue is posted (R155 to R158; log 3). -/
def posted (r : CueRecord) (s : State) : Answer :=
  let t := postCue r s.cue s.blk
  ended { s with cue := t.1, blk := t.2 }

/-- START_CHANNEL (R7, R115, R136). -/
def execStartChannel (channel : Byte) (policy : Word) (s : State) : Answer := posted ⟨1, channel, [policy]⟩ s

/-- STOP_CHANNEL (R8). -/
def execStopChannel (channel : Byte) (s : State) : Answer := posted ⟨2, channel, []⟩ s

/-- WRITE_LAYOUT (R101, R102). -/
def execWriteLayout (entry : Byte) (x y opacity glide fade prescale : Word) (s : State) : Answer :=
  posted ⟨3, entry, [x, y, opacity, glide, fade, prescale]⟩ s

/-- SELECT_LAYOUT (R104). -/
def execSelectLayout (channel : Byte) (entry : Word) (s : State) : Answer := posted ⟨4, channel, [entry]⟩ s

/-- PUSH_LAYOUT (R105, R107). -/
def execPushLayout (channel : Byte) (entry : Word) (s : State) : Answer := posted ⟨5, channel, [entry]⟩ s

/-- POP_LAYOUT (R106, R107). -/
def execPopLayout (channel : Byte) (s : State) : Answer := posted ⟨6, channel, []⟩ s

/-- FADE (R114). -/
def execFade (channel : Byte) (target length prescale : Word) (s : State) : Answer :=
  posted ⟨7, channel, [target, length, prescale]⟩ s

/-- ASSIGN_PRESENTER (R17, R96); the port stands in byte 0 of word 1. -/
def execAssignPresenter (channel port : Byte) (delay loss : Word) (s : State) : Answer :=
  posted ⟨8, channel, [wordOf port 0 0 0, delay, loss]⟩ s

/-- SET_INGEST (R82); each setting stands in the low half of its word. -/
def execSetIngest (port : Byte) (cropX cropY cropW cropH targetW targetH : Half) (s : State) : Answer :=
  posted ⟨9, port, [cropX, cropY, cropW, cropH, targetW, targetH].map (BitVec.setWidth 32)⟩ s

/-- SET_MONITOR (R118, R119, R133). -/
def execSetMonitor (channel : Byte) (fields : MonitorFields) (s : State) : Answer :=
  posted ⟨10, channel, monitorWords fields⟩ s

/-- FORCE_MONITOR (R134); the monitor stands in byte 0 of word 1. -/
def execForceMonitor (channel monitor : Byte) (force : Word) (s : State) : Answer :=
  posted ⟨11, channel, [wordOf monitor 0 0 0, force]⟩ s

/-- CLEAR_MONITOR (R135); the monitor stands in byte 0 of word 1. -/
def execClearMonitor (channel monitor : Byte) (s : State) : Answer :=
  posted ⟨12, channel, [wordOf monitor 0 0 0]⟩ s

/-- CLEAR_FLAGS (R107). -/
def execClearFlags (channel : Byte) (s : State) : Answer := posted ⟨13, channel, []⟩ s

/-- SET_REPORTS (R163); the target field is unused. -/
def execSetReports (mask : Word) (s : State) : Answer := posted ⟨14, 0, [mask]⟩ s

/-- RESTART (R173); the target field is unused. -/
def execRestart (s : State) : Answer := posted ⟨15, 0, []⟩ s

/-- UNKNOWN_KIND (R159, R160). -/
def execUnknownKind (kind target : Byte) (s : State) : Answer := posted ⟨kind, target, []⟩ s

end Sys2Proof.Machine
end

