-- ==== Sys2Proof/Machine/Responses.lean ====
section
/-! DEFINITION. The meanings of the downstream response commands (08 section 8.7, 02 sections 2.5 to 2.7, 04 section 4.8, 10). -/

namespace Sys2Proof.Machine

/-- PASS_RESPONSE_ARRIVAL: an ENGINE response arrives; the link path decides where it belongs (R142, R144, R149). -/
def execPassResponseArrival (kind : ReqKind) (tag : Tag) (oid : OrderId) (data : List Byte) (status : Status) (s : State) :
    Answer :=
  wellFormed (.passResponseArrival kind tag oid data status) (answerOf (arrive s (.engine kind tag oid data status)))

/-- PROGRAMME_RESPONSE: an ENGINE read response arrives; the link path decides where it belongs (R29, R31, R32). -/
def execProgrammeResponse (tag : Tag) (oid : OrderId) (data : List Byte) (status : Status) (s : State) : Answer :=
  wellFormed (.programmeResponse tag oid data status) (answerOf (arrive s (.engine .read tag oid data status)))

/-- FETCH_RESPONSE (R29, R30, R34, R35). -/
def execFetchResponse (entry : Tag) (data : List Byte) (status : Status) (s : State) : Answer :=
  wellFormed (.fetchResponse entry data status) (answerOf (arrive s (.fetch entry data status)))

/-- LINE_WRITE_RESPONSE (R80, R81). -/
def execLineWriteResponse (port : Fin 4) (status : Status) (s : State) : Answer :=
  answerOf (arrive s (.lineWrite port status))

/-- REPORT_WRITE_RESPONSE (R164). -/
def execReportWriteResponse (status : Status) (s : State) : Answer := answerOf (arrive s (.reportWrite status))

/-- STATUS_WRITE_RESPONSE (R167). -/
def execStatusWriteResponse (status : Status) (s : State) : Answer := answerOf (arrive s (.statusWrite status))

end Sys2Proof.Machine
end

