-- ==== Sys2Proof/Machine/Units.lean ====
section
/-! DEFINITION. The meanings of the presenter link units (04). -/

namespace Sys2Proof.Machine

/-- A unit acted upon: only in ACTIVE (R61). -/
def onUnit (s : State) (g : Blocks → Blocks) : Answer :=
  ended (if s.blk.mode = .active then { s with blk := g s.blk } else s)

/-- FRAME_OPEN; out-of-range sizes make it damaged (R61, R63, R64). -/
def execFrameOpen (port : Fin 4) (width height : Half) (s : State) : Answer :=
  onUnit s fun b => b.takeFrameOpen port width.toNat height.toNat

/-- LINE; in RECEIVING a wrong number of sample groups makes it damaged (R61, R67, R75, R76). -/
def execLine (port : Fin 4) (index : Half) (samples : List K8) (s : State) : Answer :=
  onUnit s fun b => b.takeLine port index.toNat samples

/-- FRAME_CLOSE (R66). -/
def execFrameClose (port : Fin 4) (s : State) : Answer := onUnit s fun b => b.takeFrameClose port

/-- DAMAGED_UNIT: no effect (R61). -/
def execDamagedUnit (_port : Fin 4) (_unit : UnitKind) (s : State) : Answer := ended s

end Sys2Proof.Machine
end

