-- ==== Sys2Proof/Machine/Timers.lean ====
section
/-! DEFINITION. The meanings of the limit expiries, and the tick of the time base (R36, R68, R166, R169). -/

namespace Sys2Proof.Machine

/-- JOIN_LIMIT_EXPIRY; nothing expires for an entry that is not in JOIN or whose deadline is not reached (R36, R37;
log 2). -/
def execJoinLimitExpiry (entry : Tag) (s : State) : Answer := ended { s with blk := s.blk.expireJoin entry }

/-- LOSS_LIMIT_EXPIRY; nothing expires for a port whose gap has not passed the limit (R68, R69; log 2). -/
def execLossLimitExpiry (port : Fin 4) (s : State) : Answer := ended { s with blk := s.blk.expireLoss port }

/-- REFRESH_PERIOD_EXPIRY; nothing expires before a whole period has passed (R166; log 2). -/
def execRefreshPeriodExpiry (s : State) : Answer := ended { s with blk := s.blk.expireRefresh }

/-- The expiries due at the time base's value: entries in allocation order, ports in order, the refresh period (R36, R68,
R166; the order is log 1). -/
def dueExpiries (b : Blocks) : List Instr :=
  (b.rtt.filter b.joinDue).map (fun e => .joinLimitExpiry e.num) ++
    (allPorts.filter b.lossDue).map .lossLimitExpiry ++ (if b.refreshDue then [.refreshPeriodExpiry] else [])

/-- One microsecond of the time base, which counts in every part state and wraps (R169); what expires at its new value
is put in the queue (log 1). -/
def tick (s : State) : State :=
  let b := { s.blk with timeBase := s.blk.timeBase + 1 }
  { s with blk := b, pending := dueExpiries b }

end Sys2Proof.Machine
end

