-- ==== Sys2Proof/Machine/Dispatch.lean ====
section
/-! DEFINITION. The dispatch: one arm for each command, each one direct call of its meaning. -/

namespace Sys2Proof.Machine

def exec (i : Instr) (s : State) : Host.Outcome State Fault Refusal :=
  match i with
  | .powerOn => Sys2Proof.Machine.execPowerOn s
  | .resetPulse => Sys2Proof.Machine.execResetPulse s
  | .bootImageLoad image => Sys2Proof.Machine.execBootImageLoad image s
  | .acceptRead tag oid addr beats => Sys2Proof.Machine.execAcceptRead tag oid addr beats s
  | .engineWrite tag oid addr beats data enables => Sys2Proof.Machine.execEngineWrite tag oid addr beats data enables s
  | .reportConsumerWord word enables => Sys2Proof.Machine.execReportConsumerWord word enables s
  | .startChannel channel policy => Sys2Proof.Machine.execStartChannel channel policy s
  | .stopChannel channel => Sys2Proof.Machine.execStopChannel channel s
  | .writeLayout entry x y opacity glide fade prescale => Sys2Proof.Machine.execWriteLayout entry x y opacity glide fade prescale s
  | .selectLayout channel entry => Sys2Proof.Machine.execSelectLayout channel entry s
  | .pushLayout channel entry => Sys2Proof.Machine.execPushLayout channel entry s
  | .popLayout channel => Sys2Proof.Machine.execPopLayout channel s
  | .fade channel target length prescale => Sys2Proof.Machine.execFade channel target length prescale s
  | .assignPresenter channel port delay loss => Sys2Proof.Machine.execAssignPresenter channel port delay loss s
  | .setIngest port cropX cropY cropW cropH targetW targetH => Sys2Proof.Machine.execSetIngest port cropX cropY cropW cropH targetW targetH s
  | .setMonitor channel fields => Sys2Proof.Machine.execSetMonitor channel fields s
  | .forceMonitor channel monitor force => Sys2Proof.Machine.execForceMonitor channel monitor force s
  | .clearMonitor channel monitor => Sys2Proof.Machine.execClearMonitor channel monitor s
  | .clearFlags channel => Sys2Proof.Machine.execClearFlags channel s
  | .setReports mask => Sys2Proof.Machine.execSetReports mask s
  | .restart => Sys2Proof.Machine.execRestart s
  | .unknownKind kind target => Sys2Proof.Machine.execUnknownKind kind target s
  | .downstreamGrant => Sys2Proof.Machine.execDownstreamGrant s
  | .passResponseArrival kind tag oid data status => Sys2Proof.Machine.execPassResponseArrival kind tag oid data status s
  | .programmeResponse tag oid data status => Sys2Proof.Machine.execProgrammeResponse tag oid data status s
  | .fetchResponse entry data status => Sys2Proof.Machine.execFetchResponse entry data status s
  | .joinLimitExpiry entry => Sys2Proof.Machine.execJoinLimitExpiry entry s
  | .upstreamResponseGrant => Sys2Proof.Machine.execUpstreamResponseGrant s
  | .lineWriteResponse port status => Sys2Proof.Machine.execLineWriteResponse port status s
  | .reportWriteResponse status => Sys2Proof.Machine.execReportWriteResponse status s
  | .statusWriteResponse status => Sys2Proof.Machine.execStatusWriteResponse status s
  | .frameOpen port width height => Sys2Proof.Machine.execFrameOpen port width height s
  | .line port index samples => Sys2Proof.Machine.execLine port index samples s
  | .frameClose port => Sys2Proof.Machine.execFrameClose port s
  | .damagedUnit port unit => Sys2Proof.Machine.execDamagedUnit port unit s
  | .lossLimitExpiry port => Sys2Proof.Machine.execLossLimitExpiry port s
  | .refreshPeriodExpiry => Sys2Proof.Machine.execRefreshPeriodExpiry s
  | .restartCompletion => Sys2Proof.Machine.execRestartCompletion s

end Sys2Proof.Machine
end

