-- ==== Sys2Proof/Safety.lean ====
section
/-! DEFINITION. What counts as a safe step and a safe run of the part, and what is claimed of every state a run reaches. -/

namespace Sys2Proof.Machine

/-- An answer that is a next state. -/
def Answer.completes : Answer → Bool
  | .next _ => true
  | .fault _ | .refused _ => false

/-- A step that completes: no breach of what the part relies on, no command a record could not carry. -/
def safeStep (s : State) : Bool := Answer.completes (step s)

/-- The next `k` steps complete. -/
def safeRun : Nat → State → Bool
  | 0, _ => true
  | k + 1, s =>
    match step s with
    | .next s' => safeRun k s'
    | .fault _ | .refused _ => false

/-! ## What every event leaves -/

/-- No event is left unfinished: the attention output is as R165 has it, the starvation count is 0 unless an own request
waits (R147), a RESTART whose work in flight is drained has completed (R174), and no waiting request could be accepted
(R26, R140). -/
def Rested (s : State) : Prop :=
  s.attn = (decide (0 < s.blk.distance) || decide (s.blk.mode = .bypass)) ∧
  (ownHead s = none → s.link.starvation = 0) ∧
  ¬ (s.blk.mode = .restarting ∧ restartDrained s.blk = true) ∧
  ∀ r rest, s.link.upstream = r :: rest → acceptable s r = false

/-- The three sparse memories are in canonical form and hold what the spec lets them hold: bytes of the 2,048-byte shadow
(R153), counts 0..255 of 1,024 pairs (R142), write records of 1,024 pairs (R144). -/
def SparseForms (s : State) : Prop :=
  Memory.wf (0 : Byte) s.cue.shadow = true ∧ (∀ c ∈ s.cue.shadow, c.1 < 2048) ∧
  Memory.wf 0 s.link.untracked = true ∧ (∀ c ∈ s.link.untracked, c.1 < 1024 ∧ c.2 ≤ 255) ∧
  Memory.wf [] s.link.writeRecords = true ∧ ∀ c ∈ s.link.writeRecords, c.1 < 1024

/-- No table or queue holds more than the spec gives it room for: entries of distinct numbers, at most 64 (R20), 32 fetch
reads (R26), 8 pending reports (R163), 4 line entries a port (R78), six stacked layouts a channel (R103). -/
def TablesFit (s : State) : Prop :=
  (s.blk.rtt.map Entry.num).Nodup ∧ s.blk.rtt.length ≤ 64 ∧ s.blk.fetchQueue.length ≤ 32 ∧
  s.blk.rep.queue.length ≤ 8 ∧ (∀ p, (s.blk.port p).queue.length ≤ 4) ∧ ∀ c, (s.blk.chan c).lay.stack.length ≤ 6

/-- In LOADING and BYPASS nothing is tracked, queued, written or shown (R45, R84, R99, R172). -/
def QuietOutsideService (s : State) : Prop :=
  (s.blk.mode = .loading ∨ s.blk.mode = .bypass) →
    s.blk.rtt = [] ∧ s.blk.fetchQueue = [] ∧ s.blk.rep.queue = [] ∧ s.blk.rep.status = .idle ∧
    (∀ c, (s.blk.chan c).state = .off ∧ (s.blk.chan c).geom = none) ∧
    (∀ p, (s.blk.port p).state = .idle ∧ (s.blk.port p).queue = [] ∧ (s.blk.port p).flights = []) ∧
    ∀ p i, (s.blk.slot p i).state = .free ∧ (s.blk.slot p i).hold = 0

/-- How many channels' latched geometry refers to a slot. -/
def latchedOn (b : Blocks) (p : Fin 4) (i : Fin 16) : Nat :=
  allChans.countP fun c => decide ((b.latchedRef c).map (fun r => (r.port, r.slot)) = some (p, i))

/-- Whether an entry is BLEND and refers to a slot. -/
def Entry.refersTo (e : Entry) (p : Fin 4) (i : Fin 16) : Bool :=
  match e.kind with
  | .pass | .measure => false
  | .blend info => decide (info.slot.port = p ∧ info.slot.slot = i)

/-- Every hold count is the number of references to its slot: latched geometries and BLEND entries in use (R92). -/
def HoldsCounted (b : Blocks) : Prop :=
  ∀ p i, (b.slot p i).hold = latchedOn b p i + b.rtt.countP fun e => e.refersTo p i

/-- What the count of holds rests on: entry numbers are distinct (R20), a channel has latched geometry only in RUNNING and
STOPPING (01 section 1.4), and in LOADING, BYPASS and RESTARTING every channel is OFF (R18, R19). -/
def GeometryInService (b : Blocks) : Prop :=
  (b.rtt.map Entry.num).Nodup ∧
  (∀ c, ((b.chan c).state = .off ∨ (b.chan c).state = .armed) → (b.chan c).geom = none) ∧
  (b.mode ≠ .active → ∀ c, (b.chan c).state = .off) ∧
  ((b.mode = .loading ∨ b.mode = .bypass) → b.rtt = [])

/-- A layout entry within the ranges of 06 section 6.1. -/
def LayoutEntry.inRange (e : LayoutEntry) : Prop :=
  e.x ≤ 4094 ∧ e.x % 2 = 0 ∧ e.y ≤ 2302 ∧ e.opacity ≤ 256 ∧ e.glide ≤ 255 ∧ e.fade ≤ 255 ∧ 1 ≤ e.prescale ∧
    e.prescale ≤ 16

/-- A glide record within the ranges of 06 section 6.4. -/
def Glide.inRange (g : Glide) : Prop :=
  g.startX ≤ 4094 ∧ g.startY ≤ 2302 ∧ g.targetX ≤ 4094 ∧ g.targetX % 2 = 0 ∧ g.targetY ≤ 2302 ∧ g.length ≤ 255 ∧
    g.step ≤ g.length ∧ g.x ≤ 4094 ∧ g.x % 2 = 0 ∧ g.y ≤ 2302

/-- A fade record within the ranges of 06 section 6.5. -/
def Fade.inRange (f : Fade) : Prop :=
  f.start ≤ 256 ∧ f.target ≤ 256 ∧ f.length ≤ 255 ∧ 1 ≤ f.prescale ∧ f.prescale ≤ 16 ∧ f.count < f.prescale ∧
    f.step ≤ f.length ∧ f.opacity ≤ 256

/-- The layout table and every channel's glide and fade records are within their ranges (R101, R112, R113). -/
def LayoutsInRange (s : State) : Prop :=
  (∀ i, (s.blk.layout i).inRange) ∧ ∀ c, (s.blk.chan c).lay.glide.inRange ∧ (s.blk.chan c).lay.fade.inRange

/-- The indexes of the report ring stand for positions of it, and the part has not written a position software has not
released: the distance from q to p is at most N (R162, R164). Before the entry to ACTIVE the indexes are equal (R168). -/
def RingKept (s : State) : Prop :=
  if s.blk.mode = .active ∨ s.blk.mode = .restarting then
    s.blk.image.ringSize ∈ ringSizes ∧ s.blk.rep.prod < s.blk.image.ringSize ∧
      s.blk.rep.cons < s.blk.image.ringSize ∧ s.blk.distance ≤ s.blk.image.ringSize
  else s.blk.rep.prod = 0 ∧ s.blk.rep.cons = 0 ∧ s.blk.rep.prodLap = s.blk.rep.consLap

end Sys2Proof.Machine
end

