-- ==== Sys2Proof/Certificates/Slice0/Obligations.lean ====
section
/-! DEFINITION. The statements for the provers. An event's answer is written `.next (finish s')`, with `s'` what the
command's own rules make of `s`; what `finish` then does (the completion of RESTART, the acceptance of a waiting request,
the starvation count, attention) is stated by `EventEndServesTheUpstreamPort` and `RestartCompletesInOrder`. A
cue command's answer is written `goesOn s u b`: the chain of R157 goes on from cue unit `u` and blocks `b`; what a chain
does is stated by `ChainTakesPostedSlots`. -/

namespace Sys2Proof.Stated

open Sys2Proof.Machine

/-- The chain of takings goes on from `u` and `b`, and the event ends. -/
def goesOn (s : State) (u : CueUnit) (b : Blocks) : Answer :=
  .next (finish { s with cue := (chain chainFuel u b).1, blk := (chain chainFuel u b).2 })

/-- The cue unit when a cue has been posted in its expected slot with its expected lap, and taken: what a cue command posts
is the model's choice (log 3). -/
def taken (s : State) (kind target : Byte) (words : List Word) : CueUnit :=
  (s.cue.store s.cue.slot s.cue.lap ⟨kind, target, words⟩).advance

/-- A channel byte names an enabled channel. -/
def Names (s : State) (channel : Byte) (c : Fin 8) : Prop :=
  channel.toNat = c.val ∧ (s.blk.chan c).desc.enabled = true

/-- The starvation count as an event leaves it: 0 when no own request waits (R147). -/
def starved (s : State) : Nat := if ownHead s = none then 0 else s.link.starvation

end Sys2Proof.Stated

section
open Sys2Proof Sys2Proof.Machine Sys2Proof.Stated

/-! ## The step and the end of an event -/

/-- A step with a command in front runs it on the state with the queue's rest (log 1). -/
def Obligations.StepRunsFrontCommand : Prop :=
  ∀ (c : Instr) (rest : List Instr) (s : State),
    step { s with pending := c :: rest } = exec c { s with pending := rest }

namespace Sys2Proof.Stated

/-- A JOIN entry whose deadline a value of the time base has reached (R36; log 2). -/
def pastDeadline (now : Word) (e : Entry) : Bool :=
  match e.state with
  | .join deadline => decide ((now - deadline).toNat < 2147483648)
  | .await | .done | .drain => false

/-- A port that measures a gap longer than the loss limit: in WAITING, RECEIVING or DISCARDING, in ACTIVE (R61, R68;
log 2). -/
def gapTooLong (b : Blocks) (now : Word) (p : Fin 4) : Bool :=
  match (b.port p).state, (b.port p).lastGood with
  | .waiting, some t | .receiving _, some t | .discarding _ _, some t =>
    decide (b.mode = .active ∧ b.image.lossLimit < (now - t).toNat)
  | .idle, _ | .lost, _ | .waiting, none | .receiving _, none | .discarding _ _, none => false

/-- A whole refresh period has passed since the last periodic request, in ACTIVE or RESTARTING (R166; log 2, log 22). -/
def periodOver (b : Blocks) (now : Word) : Bool :=
  decide ((b.mode = .active ∨ b.mode = .restarting) ∧
    b.image.refreshPeriod * 1000 ≤ (now - b.rep.lastRefresh).toNat)

end Sys2Proof.Stated

/-- A step on an empty queue is one microsecond: the time base counts and wraps at 2^32, and the queue becomes exactly what
is due at its new value, in this order: the limits of the JOIN entries whose deadline is reached, in allocation order,
the loss limits of the ports whose gap is too long, port 0 first, and the refresh period when it is over; nothing else
changes (log 1, log 2 and log 22, the model's choice). -/
def Obligations.EmptyQueueCountsMicrosecond : Prop :=
  ∀ (s : State) (now : Word), s.pending = [] → now = s.blk.timeBase + 1 →
    now.toNat = (s.blk.timeBase.toNat + 1) % 4294967296 ∧
    step s = .next { s with
      blk := { s.blk with timeBase := now }
      pending := ((s.blk.rtt.filter (pastDeadline now)).map fun e => .joinLimitExpiry e.num) ++
        ((([0, 1, 2, 3] : List (Fin 4)).filter (gapTooLong s.blk now)).map .lossLimitExpiry) ++
        if periodOver s.blk now = true then [.refreshPeriodExpiry] else [] }

/-- The end of an event with no drained RESTART sets attention and the starvation count; then the request at the head of
the upstream port is accepted if its conditions hold, and otherwise waits, without effect on any block (R26, R140,
R147, R165; log 6). -/
def Obligations.EventEndServesTheUpstreamPort : Prop :=
  ∀ s t : State, ¬ (s.blk.mode = .restarting ∧ restartDrained s.blk = true) →
    t = { s with
      attn := decide (0 < s.blk.distance) || decide (s.blk.mode = .bypass)
      link := { s.link with starvation := starved s } } →
    (s.link.upstream = [] → finish s = t) ∧
    ∀ r rest, s.link.upstream = r :: rest →
      (acceptable s r = true →
        finish s = endEvent (accept { t with link := { t.link with upstream := rest } } r)) ∧
      (acceptable s r = false → finish s = t)

/-! ## Reset and the boot image -/

/-- Power-on and a reset pulse set every block as its chapter's table gives it, whatever state the part was in; the
queue of waiting commands is the sender's and stays (log 1). -/
def Obligations.ResetClearsEveryBlock : Prop :=
  ∀ (s : State) (c : Instr) (cause : ResetCause),
    ((c = .powerOn ∧ cause = .powerOn) ∨ (c = .resetPulse ∧ cause = .pin)) →
    ∃ t, exec c s = .next t ∧ t.pending = s.pending ∧ t.attn = false ∧
      t.blk.mode = .loading ∧ t.blk.cause = cause ∧ t.blk.timeBase = 0 ∧
      (∀ ch, (t.blk.chan ch).state = .off ∧ (t.blk.chan ch).frame = 0 ∧ (t.blk.chan ch).buffer = none ∧
        (t.blk.chan ch).deepest = 0 ∧ (t.blk.chan ch).geom = none ∧ (t.blk.chan ch).lastLate = none ∧
        (t.blk.chan ch).lastFetchError = none) ∧
      t.blk.rtt = [] ∧ t.blk.fetchQueue = [] ∧
      (∀ p, (t.blk.port p).state = .idle ∧ (t.blk.port p).lastGood = none ∧ (t.blk.port p).flights = [] ∧
        (t.blk.port p).queue = []) ∧
      (∀ p i, t.blk.slot p i = ⟨.free, 0, 0, 0, 0, false⟩) ∧ (∀ p, (t.blk.portSlots p).latest = 0) ∧
      t.link.upstream = [] ∧ t.link.passSlot = none ∧
      (∀ tag oid, t.link.untrackedOf tag oid = 0 ∧ t.link.writeRecord tag oid = []) ∧
      t.link.starvation = 0 ∧ t.link.lastPort = 3 ∧ t.link.lastSource = .entry ∧ t.link.passResponse = none ∧
      t.link.held = [] ∧ t.link.consumerWord = 0 ∧
      (∀ k, t.cue.byte k = 0) ∧ t.cue.slot = 0 ∧ t.cue.lap = true ∧
      t.blk.rep.prod = 0 ∧ t.blk.rep.prodLap = true ∧ t.blk.rep.cons = 0 ∧ t.blk.rep.consLap = true ∧
      t.blk.rep.lost = false ∧ t.blk.rep.queue = [] ∧ t.blk.rep.status = .idle ∧ t.blk.rep.again = false

namespace Sys2Proof.Stated

/-- Two ranges of bytes, base and size, share no byte. -/
def Apart (a b : Nat × Nat) : Prop := a.1 + a.2 ≤ b.1 ∨ b.1 + b.2 ≤ a.1

/-- The span of buffer `k` of a descriptor, base and size (R3). -/
def span (d : Descriptor) (k : Fin 4) : Nat × Nat :=
  (d.bases[k], (d.height - 1) * d.stride + d.width * (if d.format = .w10 then 4 else 2))

/-- The number in bits `lo` to `lo + len - 1` of word `n` of an image (12 section 12.5). -/
def bits (image : List Word) (n lo len : Nat) : Nat := (image.getD n 0).toNat / 2 ^ lo % 2 ^ len

/-- Word `n` of an image as a number. -/
def number (image : List Word) (n : Nat) : Nat := bits image n 0 32

/-- The address in words `n` and `n + 1` of an image, low first, all bits of the high word counted (12 section 12.5). -/
def address (image : List Word) (n : Nat) : Nat := number image n + 2 ^ 32 * number image (n + 1)

/-- The descriptor of channel `c` in an image: thirteen words from word 17 + 13 × c on, home layout and delay lowered into
range, a port other than 0..3 taken as NONE, an unknown policy as HOLD (R2, 12 section 12.5). The format of a byte above
1 and the AO tag of a byte above 63 are the free values of log 13 and log 14. -/
def descriptorIn (image : List Word) (c : Fin 8) : Descriptor :=
  let n := 17 + 13 * c.val
  let tag := bits image n 8 8
  let format := bits image n 16 8
  let port := bits image (n + 3) 8 8
  { enabled := decide (bits image n 0 1 = 1)
    autoStart := decide (bits image n 1 1 = 1)
    aoTag := if tag ≤ 63 then BitVec.ofNat 8 tag else Config.tagBeyondRange (BitVec.ofNat 8 tag)
    format := if format = 0 then .w10 else if format = 1 then .p8 else Config.unnamedFormat (BitVec.ofNat 8 format)
    width := bits image (n + 1) 0 16
    height := bits image (n + 1) 16 16
    stride := number image (n + 2)
    bufferCount := bits image (n + 3) 0 8
    bases := #v[address image (n + 5), address image (n + 7), address image (n + 9), address image (n + 11)]
    home := ⟨min 31 (bits image n 24 8), by omega⟩
    port := if h : port ≤ 3 then some ⟨port, by omega⟩ else none
    delay := min 12 (bits image (n + 3) 16 8)
    loss := if bits image (n + 4) 0 8 = 1 then .hide else .hold
    stackPolicy := if bits image (n + 4) 8 8 = 1 then .revert else .hold }

/-- The settings of port `p` in an image, three words from word 121 + 3 × p on, as they are (R84, 12 section 12.5). -/
def settingsIn (image : List Word) (p : Fin 4) : IngestSettings :=
  let n := 121 + 3 * p.val
  { cropX := bits image n 0 16, cropY := bits image n 16 16
    cropW := bits image (n + 1) 0 16, cropH := bits image (n + 1) 16 16
    targetW := bits image (n + 2) 0 16, targetH := bits image (n + 2) 16 16 }

/-- Layout entry `i` in an image, three words from word 133 + 3 × i on: each field lowered to the top of its range, x then
rounded down to even, a prescale of 0 taken as 1 (R101, 12 section 12.5). -/
def layoutIn (image : List Word) (i : Fin 32) : LayoutEntry :=
  let n := 133 + 3 * i.val
  { x := min 4094 (bits image n 0 16) - min 4094 (bits image n 0 16) % 2
    y := min 2302 (bits image n 16 16)
    opacity := min 256 (bits image (n + 1) 0 16)
    prescale := if bits image (n + 1) 16 16 = 0 then 1 else min 16 (bits image (n + 1) 16 16)
    glide := min 255 (bits image (n + 2) 0 16)
    fade := min 255 (bits image (n + 2) 16 16) }

/-- The record of monitor `m` (0 A, 1 B) of channel `c` in an image, twelve words from word 229 + 12 × (2 × c + m) on, each
field brought into range (R118, 12 sections 12.2 and 12.5); the zone clamped to the raster, absent under mode OFF, and
mode OFF with it where the zone given lies wholly outside (R119; log 35). -/
def monitorIn (image : List Word) (c : Fin 8) (m width height : Nat) : MonRecord :=
  let n := 229 + 12 * (2 * c.val + m)
  let mode := bits image n 8 8
  let kind := bits image n 16 8
  let force := bits image n 24 8
  let x := bits image (n + 1) 0 16
  let y := bits image (n + 1) 16 16
  let w := bits image (n + 2) 0 16
  let h := bits image (n + 2) 16 16
  let offset : Int := if bits image (n + 6) 31 1 = 1 then (bits image (n + 6) 16 16 : Int) - 65536
    else bits image (n + 6) 16 16
  let edges := number image (n + 11)
  let inRaster := x < width ∧ y < height ∧ w ≠ 0 ∧ h ≠ 0
  { mode := if mode = 1 ∧ inRaster then .above else if mode = 2 ∧ inRaster then .below else .off
    zone := if (mode = 1 ∨ mode = 2) ∧ inRaster then some ⟨x, y, min w (width - x), min h (height - y)⟩ else none
    threshold := if number image (n + 3) = 0 then 1 else min 1023 (number image (n + 3))
    level := min 1000 (number image (n + 4))
    hysteresis := min 1000 (number image (n + 5))
    tracking := if bits image (n + 6) 0 8 = 1 then some (max (-1000) (min 1000 offset)) else none
    delayKind := if kind = 1 then .oneShot else if kind = 2 then .latched else .steady
    onDelay := min 255 (number image (n + 7))
    offDelay := min 255 (number image (n + 8))
    inhibit := decide (bits image (n + 9) 0 1 = 1)
    alternate := ⟨min 31 (number image (n + 10)), by omega⟩
    force := if force = 1 then .forceOn else if force = 2 then .forceOff else .auto
    edges := if edges = 1 then .make else if edges = 2 then .break else if edges = 3 then .both else .none }

/-- The first layout records of a channel whose home entry is number `home`, `e`: SL and the previous effective entry home,
stack empty, flags and rewrite mark clear, the position at rest at the entry's, the opacity at rest at 0 (R116). -/
def layoutAtRest (home : Fin 32) (e : LayoutEntry) : LayoutState :=
  { sl := home, stack := [], overflow := false, underflow := false, prevEff := home, rewrite := false
    glide := { startX := e.x, startY := e.y, targetX := e.x, targetY := e.y, length := 0, step := 0, x := e.x, y := e.y }
    fade := { start := 0, target := 0, length := 0, prescale := 1, count := 0, step := 0, opacity := 0 } }

/-- The first running state of a monitor with record `r` (R137). -/
def monitorAtRest (r : MonRecord) : Monitor :=
  { cfg := r, computed := if r.inhibit then .inhibited else .idle, onCount := 0, offCount := 0, shotCount := 0, acc := 0
    fresh := true, activity := 0, effective := false }

/-- The four regions of the image, base and size: cue area, status block, report ring, presenter region (R143). -/
def regions (image : List Word) : List (Nat × Nat) :=
  [(address image 2, 4096), (address image 4, 256), (address image 6, number image 8 * 32),
   (address image 9, 64 * number image 11)]

/-- The structural checks of an enabled channel, the uniqueness of its AO tag apart (R2). -/
def ChannelChecks (image : List Word) (d : Descriptor) : Prop :=
  256 ≤ d.width ∧ d.width ≤ 4096 ∧ d.width % 2 = 0 ∧ 32 ≤ d.height ∧ d.height ≤ 2304 ∧ d.stride % 16 = 0 ∧
  d.width * (if d.format = .w10 then 4 else 2) ≤ d.stride ∧ 1 ≤ d.bufferCount ∧ d.bufferCount ≤ 4 ∧
  (∀ k : Fin 4, k.val < d.bufferCount →
    d.bases[k] % 16 = 0 ∧ (span d k).1 + (span d k).2 ≤ 2 ^ 40 ∧ ∀ r ∈ regions image, Apart (span d k) r) ∧
  ∀ k k' : Fin 4, k.val < k'.val → k'.val < d.bufferCount → Apart (span d k) (span d k')

/-- The number of a report kind: 1 to 13 in the order of 12 section 12.3. -/
def kindNumber (k : ReportKind) : Nat :=
  ([.cueRefused, .guard, .latePresenter, .fetchError, .ingestDrop, .inputLost, .inputRestored, .presenterAbsent,
    .presenterPresent, .monitorEdge, .stackFlag, .channelState, .restartDone] : List ReportKind).idxOf k + 1

/-- The structural checks of the image (R170). -/
def ImageChecks (image : List Word) : Prop :=
  number image 0 = 0x4D534B31 ∧ number image 1 = 422 ∧ ((image.take 422).map BitVec.toNat).sum % 2 ^ 32 = 0 ∧
  address image 2 % 4096 = 0 ∧ address image 4 % 16 = 0 ∧ address image 6 % 16 = 0 ∧ address image 9 % 16 = 0 ∧
  (∃ k, 6 ≤ k ∧ k ≤ 12 ∧ number image 8 = 2 ^ k) ∧
  number image 11 ≠ 0 ∧ number image 11 % 4096 = 0 ∧ number image 11 ≤ 8388608 ∧
  (∀ r ∈ regions image, r.1 + r.2 ≤ 2 ^ 40) ∧ (regions image).Pairwise Apart ∧
  ∀ c : Fin 8, (descriptorIn image c).enabled = true → ChannelChecks image (descriptorIn image c) ∧
    ∀ c' : Fin 8, c' ≠ c → (descriptorIn image c').enabled = true →
      (descriptorIn image c').aoTag ≠ (descriptorIn image c).aoTag

/-- The layout and monitor records of a channel that has just been started, from a channel that stood as `ch` (R115,
R136): SL home, stack empty, flags and rewrite mark clear, the position at once at the effective entry's, a fade from 0
toward its opacity; each monitor at its initial state, fresh, its last effective state formed from its force. -/
def Started (table : Fin 32 → LayoutEntry) (ch x : Channel) : Prop :=
  let a := decide (ch.monA.cfg.force = .forceOn)
  let b := decide (ch.monB.cfg.force = .forceOn)
  let eff := if a then ch.monA.cfg.alternate else if b then ch.monB.cfg.alternate else ch.desc.home
  let e := table eff
  x.lay = { sl := ch.desc.home, stack := [], overflow := false, underflow := false, prevEff := eff, rewrite := false,
            glide := { startX := e.x, startY := e.y, targetX := e.x, targetY := e.y, length := 0, step := 0,
                       x := e.x, y := e.y }
            fade := { start := 0, target := e.opacity, length := e.fade, prescale := e.prescale, count := 0,
                      step := 0, opacity := 0 } } ∧
  x.monA = { ch.monA with computed := if ch.monA.cfg.inhibit then .inhibited else .idle, onCount := 0, offCount := 0,
                          shotCount := 0, activity := 0, fresh := true, effective := a } ∧
  x.monB = { ch.monB with computed := if ch.monB.cfg.inhibit then .inhibited else .idle, onCount := 0, offCount := 0,
                          shotCount := 0, activity := 0, fresh := true, effective := b }

end Sys2Proof.Stated

/-- An image that passes every structural check takes the part from LOADING to ACTIVE: every block takes its values from
the words of the image that 12 section 12.5 gives them, brought into range, and its running state; enabled auto-start
channels are armed without a report, the refresh period counts from this moment, and a status refresh is asked for; the
reset cause, the time base, the ring's indexes and laps, the lost flag and what is queued stay as LOADING leaves them
(R2, R19, R36, R38, R68, R84, R99, R101, R116, R118, R119, R137, R147, R166, R168, R171; log 13, log 14). That a monitor
record of mode OFF is stored without a zone is deduced (log 35). -/
def Obligations.GoodImageEntersActive : Prop :=
  ∀ (s : State) (image : List Word), s.blk.mode = .loading → imageWf image = true → ImageChecks image →
    ∃ b, exec (.bootImageLoad image) s = .next (finish { s with blk := b }) ∧
      b = { s.blk with
        mode := .active, image := b.image, chans := b.chans, layouts := b.layouts, ports := b.ports, slotTab := b.slotTab
        rep := { s.blk.rep with
          mask := b.rep.mask
          lastRefresh := s.blk.timeBase
          status := if s.blk.rep.status = .idle then .waiting else s.blk.rep.status
          again := s.blk.rep.again || decide (s.blk.rep.status = .inFlight) } } ∧
      b.image = {
        cueBase := address image 2
        statusBase := address image 4
        ringBase := address image 6
        ringSize := number image 8
        presBase := address image 9
        slotBytes := number image 11
        starvationLimit := min 15 (number image 12)
        joinLimit := if number image 13 = 0 then 20 else min 1000 (number image 13)
        lossLimit := if number image 14 = 0 then 1000 else max 100 (min 10000 (number image 14))
        refreshPeriod := if number image 15 = 0 then 20 else min 1000 (number image 15) } ∧
      (∀ k : ReportKind, b.enabled k = decide (bits image 16 (kindNumber k - 1) 1 = 1)) ∧
      (∀ i, b.layout i = layoutIn image i) ∧
      (∀ p, b.port p = ⟨.idle, settingsIn image p, none, [], []⟩) ∧
      (∀ p i, b.slot p i = ⟨.free, 0, 0, 0, 0, false⟩) ∧ (∀ p, (b.portSlots p).latest = 0) ∧
      ∀ c, let d := descriptorIn image c
        (b.chan c).desc = d ∧ (b.chan c).frame = 0 ∧ (b.chan c).buffer = none ∧
        (b.chan c).deepest = 0 ∧ (b.chan c).geom = none ∧ (b.chan c).lastLate = none ∧
        (b.chan c).lastFetchError = none ∧
        if d.enabled = true ∧ d.autoStart = true then
          (b.chan c).state = .armed ∧
            ∃ ch : Channel, ch.desc = d ∧
              ch.monA.cfg = monitorIn image c 0 d.width d.height ∧ ch.monA.acc = 0 ∧
              ch.monB.cfg = monitorIn image c 1 d.width d.height ∧ ch.monB.acc = 0 ∧
              Started (layoutIn image) ch (b.chan c)
        else
          (b.chan c).state = .off ∧
            (b.chan c).lay = layoutAtRest d.home (layoutIn image d.home) ∧
            (b.chan c).monA = monitorAtRest (monitorIn image c 0 d.width d.height) ∧
            (b.chan c).monB = monitorAtRest (monitorIn image c 1 d.width d.height)

/-- An image that fails a structural check takes the part from LOADING to BYPASS: no block takes a value, and the link
path keeps no counts and no records from then on (R151, R172; log 25). Outside LOADING no load is in progress, and its
end has no effect (R170; log 24). -/
def Obligations.BadImageEntersBypass : Prop :=
  ∀ (s : State) (image : List Word), imageWf image = true →
    (s.blk.mode = .loading → ¬ ImageChecks image →
      exec (.bootImageLoad image) s = .next (finish { s with
        blk := { s.blk with mode := .bypass }, link := { s.link with untracked := [], writeRecords := [] } })) ∧
    (s.blk.mode ≠ .loading → exec (.bootImageLoad image) s = .next (finish s))

/-- A command whose operands no record can carry is refused (log 10). -/
def Obligations.MalformedCommandsRefused : Prop :=
  ∀ (c : Instr) (s : State), c.wf = false → (∀ kind target, c ≠ .unknownKind kind target) →
    exec c s = .refused .malformed

/-! ## Requests of the engine -/

namespace Sys2Proof.Stated

/-- A channel is the channel of a tag: enabled, with that AO tag, and no other enabled channel has it (R5). -/
def Owns (b : Blocks) (tag : Tag) (c : Fin 8) : Prop :=
  ((b.chan c).desc.enabled = true ∧ (b.chan c).desc.aoTag.toNat = tag.toNat) ∧
    ∀ c', c' ≠ c → (b.chan c').desc.enabled = true → (b.chan c').desc.aoTag.toNat ≠ tag.toNat

/-- A tag is tracked: a channel of it is ARMED, RUNNING or STOPPING, or an entry in use has it (R13). -/
def Tracked (b : Blocks) (tag : Tag) : Prop :=
  (∃ c, (b.chan c).desc.enabled = true ∧ (b.chan c).desc.aoTag.toNat = tag.toNat ∧ (b.chan c).state ≠ .off) ∨
    ∃ e ∈ b.rtt, e.tag = tag

/-- A write covers a byte of a region. -/
def Touches (addr : Addr) (beats base size : Nat) : Prop :=
  ∃ x, addr.toNat ≤ x ∧ x < addr.toNat + beats * 16 ∧ base ≤ x ∧ x < base + size

/-- The guarded region a write touches first, in the order status block, report ring, presenter region (R143). -/
def Guarded (v : ImageValues) (addr : Addr) (beats : Nat) : Nat → Prop
  | 1 => Touches addr beats v.statusBase 256
  | 2 => ¬ Touches addr beats v.statusBase 256 ∧ Touches addr beats v.ringBase (v.ringSize * 32)
  | 3 => ¬ Touches addr beats v.statusBase 256 ∧ ¬ Touches addr beats v.ringBase (v.ringSize * 32) ∧
      Touches addr beats v.presBase (64 * v.slotBytes)
  | _ => False

/-- What a write puts at an offset of the cue area: its byte there, if the write covers it with its enable set (R145). -/
def written (v : ImageValues) (addr : Addr) (data : List Byte) (enables : List Bool) (k : Nat) : Option Byte :=
  if addr.toNat ≤ v.cueBase + k ∧ enables.getD (v.cueBase + k - addr.toNat) false = true then
    data[v.cueBase + k - addr.toNat]?
  else none

/-- The part is in service: ACTIVE or RESTARTING. -/
def InService (s : State) : Prop := s.blk.mode = .active ∨ s.blk.mode = .restarting

/-- The upstream port is free to accept the next request: no event is unfinished, nothing waits, the pass slot is empty. -/
def UpstreamFree (s : State) : Prop := Rested s ∧ s.link.upstream = [] ∧ s.link.passSlot = none

end Sys2Proof.Stated

/-- When the head request of the upstream port is accepted (R26, R140, R151). -/
def Obligations.AcceptanceConditions : Prop :=
  ∀ (s : State) (r : UpRequest), acceptable s r = true ↔
    s.link.passSlot = none ∧
      (r.kind = .write ∨ s.blk.mode = .bypass ∨
        (s.blk.mode = .loading ∧ s.link.untrackedOf r.tag r.oid < 255) ∨
        (InService s ∧ s.blk.trackedChan r.tag = none ∧ s.link.untrackedOf r.tag r.oid < 255) ∨
        (InService s ∧ ∃ c, s.blk.trackedChan r.tag = some c ∧ (∃ n : Tag, ∀ e ∈ s.blk.rtt, e.num ≠ n) ∧
          s.blk.fetchQueue.length + s.blk.readsNeeded c r.addr r.beats ≤ 32))

/-- A read that waits behind others, or whose conditions do not hold, has no effect but to wait; so has a write (R26,
R140; log 6). -/
def Obligations.RequestsWaitWithoutEffect : Prop :=
  ∀ (s : State) (tag : Tag) (oid : OrderId) (addr : Addr) (beats : Nat) (data : List Byte) (enables : List Bool),
    Rested s → requestWf addr beats = true →
    ((s.link.upstream ≠ [] ∨ acceptable s ⟨.read, tag, oid, addr, beats, [], []⟩ = false) →
      exec (.acceptRead tag oid addr beats) s = .next { s with
        link := { s.link with upstream := s.link.upstream ++ [⟨.read, tag, oid, addr, beats, [], []⟩] } }) ∧
    (writeWf beats data enables = true →
      (s.link.upstream ≠ [] ∨ acceptable s ⟨.write, tag, oid, addr, beats, data, enables⟩ = false) →
      exec (.engineWrite tag oid addr beats data enables) s = .next { s with
        link := { s.link with upstream := s.link.upstream ++ [⟨.write, tag, oid, addr, beats, data, enables⟩] } })

/-- Requests that no block acts on stand in the pass slot as they came: a read of an untracked tag, or any read in LOADING,
raises its pair's untracked count by 1; a write in LOADING joins its pair's write record unmarked; in BYPASS nothing is
kept (R13, R141, R142, R151). -/
def Obligations.PassRequestsForwarded : Prop :=
  ∀ (s : State) (tag : Tag) (oid : OrderId) (addr : Addr) (beats : Nat) (data : List Byte) (enables : List Bool)
    (k : Link) (read write : UpRequest), UpstreamFree s → requestWf addr beats = true → k = s.link →
    read = ⟨.read, tag, oid, addr, beats, [], []⟩ → write = ⟨.write, tag, oid, addr, beats, data, enables⟩ →
    ((s.blk.mode = .loading ∨ (InService s ∧ ¬ Tracked s.blk tag)) → k.untrackedOf tag oid < 255 →
      ∃ u, exec (.acceptRead tag oid addr beats) s = .next (finish { s with
          link := { k with untracked := u, passSlot := some read } }) ∧
        ∀ tag' oid', ({ k with untracked := u } : Link).untrackedOf tag' oid' =
          if tag' = tag ∧ oid' = oid then k.untrackedOf tag oid + 1 else k.untrackedOf tag' oid') ∧
    (s.blk.mode = .loading → writeWf beats data enables = true →
      ∃ m, exec (.engineWrite tag oid addr beats data enables) s = .next (finish { s with
          link := { k with writeRecords := m, passSlot := some write } }) ∧
        ∀ tag' oid', ({ k with writeRecords := m } : Link).writeRecord tag' oid' =
          if tag' = tag ∧ oid' = oid then k.writeRecord tag oid ++ [false] else k.writeRecord tag' oid') ∧
    (s.blk.mode = .bypass →
      exec (.acceptRead tag oid addr beats) s = .next (finish { s with link := { k with passSlot := some read } }) ∧
      (writeWf beats data enables = true →
        exec (.engineWrite tag oid addr beats data enables) s =
          .next (finish { s with link := { k with passSlot := some write } })))

/-- A read of a tracked tag, accepted, is examined in ACTIVE, takes the FREE entry with the lowest number and the last
place of the sequence, is classified against its channel as the examination left it, places its fetch reads and adds its
hold if it is BLEND, and stands in the pass slot as it came (R9, R20, R25, R141). -/
def Obligations.TrackedReadTakesEntry : Prop :=
  ∀ (s : State) (tag : Tag) (oid : OrderId) (addr : Addr) (beats : Nat) (c : Fin 8) (n : Tag) (b : Blocks)
    (kz : EntryKind × Option Rect × Option Rect),
    UpstreamFree s → requestWf addr beats = true → InService s → Owns s.blk tag c → Tracked s.blk tag →
    (∀ e ∈ s.blk.rtt, e.num ≠ n) → (∀ m : Tag, m.toNat < n.toNat → ∃ e ∈ s.blk.rtt, e.num = m) →
    b = (if s.blk.mode = .active then s.blk.examine c addr.toNat beats else s.blk) →
    kz = b.classify c addr.toNat beats → s.blk.fetchQueue.length + kz.1.reads ≤ 32 →
    ∃ e : Entry, ∃ b',
      exec (.acceptRead tag oid addr beats) s = .next (finish { s with
        blk := b', link := { s.link with passSlot := some ⟨.read, tag, oid, addr, beats, [], []⟩ } }) ∧
      e = { num := n, state := .await, kind := kz.1, tag := tag, oid := oid, addr := addr, beats := beats, chan := c,
            frame := (b.chan c).frame, format := (b.chan c).desc.format,
            buffer := (b.chan c).desc.bufferOf addr.toNat, zoneA := kz.2.1, zoneB := kz.2.2, outstanding := kz.1.reads,
            presData := [], progData := [], progError := false, fetchError := false, late := false,
            outcome := .pending } ∧
      match kz.1 with
      | .blend info =>
          b' = { b with rtt := b.rtt ++ [e], fetchQueue := b.fetchQueue ++ fetchReads b.image n info }.addHold info.slot
      | .pass | .measure => b' = { b with rtt := b.rtt ++ [e] }

/-- A write that covers a byte of a guarded region, whatever its enables, becomes a null write: it stands in the pass
slot with its data and all its enables cleared, joins its pair's write record marked, and raises a GUARD report; no byte
of it reaches the shadow or the consumer word copy (R143, R144). -/
def Obligations.GuardedWriteBecomesNull : Prop :=
  ∀ (s : State) (tag : Tag) (oid : OrderId) (addr : Addr) (beats region : Nat) (data : List Byte)
    (enables : List Bool),
    UpstreamFree s → InService s → requestWf addr beats = true → writeWf beats data enables = true →
    Guarded s.blk.image addr beats region →
    exec (.engineWrite tag oid addr beats data enables) s = .next (finish { s with
      blk := s.blk.raise .guard .none
        [quadWord tag.toNat oid.toNat beats region, wordOfNat addr.toNat, wordOfNat (addr.toNat / 2 ^ 32)]
      link := (s.link.setWriteRecord tag oid (s.link.writeRecord tag oid ++ [true])).place
        ⟨.write, tag, oid, addr, beats, data, List.replicate enables.length false⟩ })

/-- A write that touches no guarded region is forwarded as it came and joins its pair's write record unmarked; each byte
of the cue area it enables is copied, the others stay; when it enables the whole post word of the expected slot in
ACTIVE, the chain starts there; the report unit takes the consumer word when the write enabled a byte of it (R141,
R145, R154, R155; log 17). -/
def Obligations.EngineWriteCopiedAndForwarded : Prop :=
  ∀ (s : State) (tag : Tag) (oid : OrderId) (addr : Addr) (beats : Nat) (data : List Byte) (enables : List Bool),
    UpstreamFree s → InService s → requestWf addr beats = true → writeWf beats data enables = true →
    (∀ region, ¬ Guarded s.blk.image addr beats region) →
    let w := written s.blk.image addr data enables
    ∃ u word,
      (∀ k, ({ s.cue with shadow := u } : CueUnit).byte k = if k < 2048 then (w k).getD (s.cue.byte k) else s.cue.byte k) ∧
      (∀ k < 4, wordByte word k = (w (2048 + k)).getD (wordByte s.link.consumerWord k)) ∧
      let posts := decide (s.blk.mode = .active) && [0, 1, 2, 3].all fun k => (w (64 * s.cue.slot.val + k)).isSome
      let t := if posts then chain chainFuel { s.cue with shadow := u } s.blk else ({ s.cue with shadow := u }, s.blk)
      let told := [0, 1, 2, 3].any fun k => (w (2048 + k)).isSome
      exec (.engineWrite tag oid addr beats data enables) s = .next (finish { s with
        cue := t.1
        blk := if told then t.2.takeConsumer word else t.2
        link := { ((s.link.setWriteRecord tag oid (s.link.writeRecord tag oid ++ [false])).place
            ⟨.write, tag, oid, addr, beats, data, enables⟩) with consumerWord := word } })

/-- A write to the consumer word replaces its enabled bytes in the copy, and the report unit takes q and its lap from the
word as it then stands, or from p when the word stands for no position software can have read; nothing else changes. In
LOADING and BYPASS it has no effect (R145, R162, R175; log 4). -/
def Obligations.ConsumerWordSetsReadIndex : Prop :=
  ∀ (s : State) (word : Word) (enables : BitVec 4),
    (¬ InService s → exec (.reportConsumerWord word enables) s = .next (finish s)) ∧
    (InService s → enables = 0 → exec (.reportConsumerWord word enables) s = .next (finish s)) ∧
    (InService s → enables ≠ 0 →
      ∃ copy : Word, (∀ k < 4, wordByte copy k = if enables.getLsbD k then wordByte word k
          else wordByte s.link.consumerWord k) ∧
        let n := s.blk.image.ringSize
        let read := { s.blk.rep with cons := copy.toNat % 65536 % n, consLap := copy.getLsbD 31 }
        let rep := if n < read.distance n then { s.blk.rep with cons := s.blk.rep.prod, consLap := s.blk.rep.prodLap }
          else read
        exec (.reportConsumerWord word enables) s = .next (finish { s with
          link := { s.link with consumerWord := copy }, blk := { s.blk with rep := rep } }))

/-! ## Frame starts and classification -/

namespace Sys2Proof.Stated

/-- A read at address `a` is a candidate for buffer `k`: its first byte lies in line 0 of the buffer and is no stride
padding (R9). -/
def IsCandidate (d : Descriptor) (a : Nat) (k : Fin 4) : Prop :=
  d.bufferOf a = some k ∧ (a - d.bases[k]) / d.stride = 0 ∧
    (a - d.bases[k]) % d.stride < d.width * (if d.format = .w10 then 4 else 2)

/-- The lines a request touches (R4). -/
def linesOf (d : Descriptor) (a beats : Nat) : List Nat := (d.requestRuns a beats).map Span.line

/-- A pixel lies inside a rectangle (R15, R119). -/
def Inside (r : Rect) (line column : Nat) : Prop := r.y ≤ line ∧ line < r.y + r.h ∧ r.x ≤ column ∧ column < r.x + r.w

/-- A request has a pixel inside a rectangle. -/
def Meets (d : Descriptor) (a beats : Nat) (r : Rect) : Prop :=
  ∃ run ∈ d.requestRuns a beats, ∃ c, run.first ≤ c ∧ c < run.first + run.count ∧ Inside r run.line c

/-- The inset of a latched geometry: its origin with the slot's W × H, empty without a slot (R14, R15). -/
def insetOf (g : Geometry) : Rect := ⟨g.x, g.y, (g.slot.map SlotRef.w).getD 0, (g.slot.map SlotRef.h).getD 0⟩

end Sys2Proof.Stated

namespace Sys2Proof.Stated

/-- A monitor after its work at a frame start (R123, R131): a fresh one clears its accumulator and its mark; another is
evaluated if its channel was RUNNING and its mode is not OFF, and otherwise clears its accumulator; the effective state
then follows the force and the computed state. -/
def worked (m other : Monitor) (wasRunning : Prop) [Decidable wasRunning] : Monitor :=
  let n :=
    if m.fresh = true then { m with acc := 0, fresh := false }
    else if wasRunning ∧ m.cfg.mode ≠ .off then m.evaluate other
    else { m with acc := 0 }
  { n with effective := match n.cfg.force with
      | .forceOn => true
      | .forceOff => false
      | .auto => decide (n.computed = .active ∨ n.computed = .pendingOff) }

/-- The point of a transition after step `k` of `n`: the start plus (target − start) × k ÷ n, the quotient rounded half
away from zero; the target when n is 0 (R112, R113). -/
def pathPoint (start target k n : Nat) : Nat :=
  if n = 0 then target
  else if start ≤ target then start + (2 * ((target - start) * k) + n) / (2 * n)
  else start - (2 * ((start - target) * k) + n) / (2 * n)

/-- A glide at a frame start: begun anew toward entry `e` when it is a new target with another position, then stepped
(R111, R112). -/
def glided (g : Glide) (e : LayoutEntry) (new : Bool) : Glide :=
  let g' := if new = true ∧ (e.x ≠ g.targetX ∨ e.y ≠ g.targetY) then
      { g with startX := g.x, startY := g.y, targetX := e.x, targetY := e.y, length := e.glide, step := 0 } else g
  let k := if g'.step < g'.length then g'.step + 1 else g'.step
  { g' with
    step := k
    x := pathPoint g'.startX g'.targetX k g'.length / 2 * 2
    y := pathPoint g'.startY g'.targetY k g'.length }

/-- A fade at a frame start: begun anew toward entry `e` when it is a new target with another opacity, then stepped at
every turn of the prescale count (R113). -/
def faded (f : Fade) (e : LayoutEntry) (new : Bool) : Fade :=
  let f' := if new = true ∧ e.opacity ≠ f.target then
      { f with start := f.opacity, target := e.opacity, length := e.fade, prescale := e.prescale, count := 0, step := 0 }
    else f
  let k := if f'.prescale ≤ f'.count + 1 ∧ f'.step < f'.length then f'.step + 1 else f'.step
  { f' with
    count := if f'.prescale ≤ f'.count + 1 then 0 else f'.count + 1
    step := k
    opacity := pathPoint f'.start f'.target k f'.length }

/-- The layout records of a channel after a frame start, from the monitors' effective states (R108 to R113). -/
def laidOut (b : Blocks) (ch : Channel) (activeA activeB : Bool) : LayoutState :=
  let eff := if activeA = true then ch.monA.cfg.alternate
    else if activeB = true then ch.monB.cfg.alternate else ch.lay.sl
  let new := decide (eff ≠ ch.lay.prevEff) || ch.lay.rewrite
  { ch.lay with
    prevEff := eff
    rewrite := false
    glide := glided ch.lay.glide (b.layout eff) new
    fade := faded ch.lay.fade (b.layout eff) new }

/-- The code of a computed state (12 section 12.4). -/
def computedCode : Computed → Nat
  | .inhibited => 0
  | .idle => 1
  | .pendingOn => 2
  | .active => 3
  | .pendingOff => 4
  | .spent => 5

/-- The MONITOR EDGE report of monitor `i` (0 A, 1 B) that went from `m` to `m'` at a frame start, if any (R132; the value
1 of a set forced mark is log 34). -/
def edgeReport (i : Nat) (m m' : Monitor) : List (ReportKind × List Word) :=
  let told := fun edge : Nat => [(ReportKind.monitorEdge,
    [quadWord i edge (computedCode m'.computed) (if m.cfg.force = .auto then 0 else 1), wordOfNat m'.activity])]
  if m.effective = false ∧ m'.effective = true ∧ (m.cfg.edges = .make ∨ m.cfg.edges = .both) then told 0
  else if m.effective = true ∧ m'.effective = false ∧ (m.cfg.edges = .break ∨ m.cfg.edges = .both) then told 1
  else []

/-- The presence report of a pick, against the previous reference (R95). -/
def presenceReport (b : Blocks) (before : Option SlotRef) (pick : Except AbsentCause SlotRef) :
    List (ReportKind × List Word) :=
  match before, pick with
  | none, .error _ => []
  | some x, .error cause => [(.presenterAbsent, [wordOfNat x.port.val, wordOfNat (match cause with
      | .noPort => 1
      | .inputLost => 2
      | .noFrame => 3)])]
  | before, .ok y =>
    if before.map SlotRef.port = some y.port then []
    else [(.presenterPresent,
      [quadWord y.port.val y.slot.val 0 0, wordOfNat (b.slot y.port y.slot).capture, pairWord y.w y.h])]

/-- A slot reference that may be absent names a slot. -/
def names (r : Option SlotRef) (p : Fin 4) (i : Fin 16) : Bool :=
  match r with
  | none => false
  | some x => decide (x.port = p ∧ x.slot = i)

/-- The blocks after reports about a channel, in order. -/
def told (b : Blocks) (c : Fin 8) (frame : Word) (reports : List (ReportKind × List Word)) : Blocks :=
  reports.foldl (fun b r => b.raise r.1 (.channel c frame) r.2) b

end Sys2Proof.Stated

/-- A frame start of an ARMED or RUNNING channel: the frame number rises by 1 modulo 2^32, the buffer becomes the read's,
the deepest line the highest line the read touches, the state RUNNING; each monitor and the layout logic take their step;
the geometry latched is the position and opacity of that step, the pick, the inset origin clamped into the raster and the
zones of the monitors that are not OFF. The channel's hold moves from the slot it showed to the pick. An entry to RUNNING
is reported first, then a MAKE or BREAK of monitor A, of monitor B, and last a change of presence, each with the new
frame number; that a set forced mark is written as 1 is the model's choice (log 34). Nothing else changes (R6, R9, R10, R12, R14, R15, R94, R95, R108 to R113, R120, R123, R131, R132). -/
def Obligations.FrameStartLatchesGeometry : Prop :=
  ∀ (b : Blocks) (c : Fin 8) (a beats : Nat) (k : Fin 4) (ch x : Channel) (b' : Blocks),
    ch = b.chan c → 0 < ch.desc.stride → (ch.state = .armed ∨ ch.state = .running) → IsCandidate ch.desc a k →
    (ch.state = .armed ∨ ch.buffer ≠ some k ∨ ch.desc.height / 2 ≤ ch.deepest) →
    b' = b.examine c a beats → x = b'.chan c →
    let before := ch.geom.bind Geometry.slot
    let after := Blocks.pickRef (b.pick c)
    x.desc = ch.desc ∧ x.state = .running ∧ x.frame = ch.frame + 1 ∧ x.buffer = some k ∧
      x.deepest = (linesOf ch.desc a beats).foldl max 0 ∧
      x.monA = worked ch.monA ch.monB (ch.state = .running) ∧
      x.monB = worked ch.monB ch.monA (ch.state = .running) ∧
      x.lay = laidOut b ch x.monA.effective x.monB.effective ∧
      x.lastLate = ch.lastLate ∧ x.lastFetchError = ch.lastFetchError ∧
      (∃ g, x.geom = some g ∧ g.slot = after ∧ g.opacity = x.lay.fade.opacity ∧
        g.x = min x.lay.glide.x (ch.desc.width - (insetOf g).w) / 2 * 2 ∧
        g.y = min x.lay.glide.y (ch.desc.height - (insetOf g).h) ∧
        g.zoneA = (if ch.monA.cfg.mode = .off then none else ch.monA.cfg.zone) ∧
        g.zoneB = (if ch.monB.cfg.mode = .off then none else ch.monB.cfg.zone)) ∧
      b' = { b with chans := b'.chans, slotTab := b'.slotTab, rep := b'.rep } ∧
      (∀ c', c' ≠ c → b'.chan c' = b.chan c') ∧
      (∀ p, (b'.portSlots p).latest = (b.portSlots p).latest) ∧
      (∀ p i, b'.slot p i = { b.slot p i with
        hold := if names before p i = names after p i then (b.slot p i).hold
          else if names after p i = true then (b.slot p i).hold + 1 else (b.slot p i).hold - 1 }) ∧
      b'.rep = (told b c (ch.frame + 1)
        ((if ch.state = .armed then [(.channelState, [quadWord 2 2 0 0])] else []) ++
          edgeReport 0 ch.monA x.monA ++ edgeReport 1 ch.monB x.monB ++ presenceReport b before (b.pick c))).rep

/-- An examined read that starts no frame raises the deepest line to the highest line it touches and changes nothing else;
one that would start a frame of a STOPPING channel completes the stop instead: the geometry is cleared and its hold
removed, no buffer, deepest line 0, OFF, and the frame number kept; a read of an OFF channel is not examined (R9, R11,
R12, R16; log 16). -/
def Obligations.OtherReadsKeepTheFrame : Prop :=
  ∀ (b : Blocks) (c : Fin 8) (a beats : Nat) (ch : Channel), ch = b.chan c → 0 < ch.desc.stride →
    (ch.state = .off → b.examine c a beats = b) ∧
    (ch.state ≠ .off →
      (∀ k, IsCandidate ch.desc a k →
        ch.state ≠ .armed ∧ ch.buffer = some k ∧ ch.deepest < ch.desc.height / 2) →
      b.examine c a beats = b.setChan c { ch with deepest := (linesOf ch.desc a beats).foldl max ch.deepest }) ∧
    ∀ k, ch.state = .stopping → IsCandidate ch.desc a k →
      (ch.buffer ≠ some k ∨ ch.desc.height / 2 ≤ ch.deepest) →
      b.examine c a beats =
        (((b.dropHold? (ch.geom.bind Geometry.slot)).setChan c
          { ch with state := .off, geom := none, buffer := none, deepest := 0 }).raise .channelState
            (.channel c ch.frame) [quadWord 0 2 0 0])

namespace Sys2Proof.Stated

/-- The span of a buffer in use contains an address (R3). -/
def SpanHas (d : Descriptor) (k : Fin 4) (a : Nat) : Prop :=
  k.val < d.bufferCount ∧ (span d k).1 ≤ a ∧ a < (span d k).1 + (span d k).2

/-- The structural checks of R2 that the map from addresses to pixels rests on: lines of at least 256 pixels, at least one
line, a stride of at least the row width, and buffers whose spans share no byte. -/
def RasterChecked (d : Descriptor) : Prop :=
  256 ≤ d.width ∧ 1 ≤ d.height ∧ d.width * (if d.format = .w10 then 4 else 2) ≤ d.stride ∧
    ∀ k k' : Fin 4, k.val < k'.val → k'.val < d.bufferCount → Apart (span d k) (span d k')

/-- Byte `x` is inside buffer `k` and belongs to the word that holds the pixel of a line and a column: the word itself in
W10, its pair in P8 (R3). -/
def ByteOfPixel (d : Descriptor) (k : Fin 4) (x line column : Nat) : Prop :=
  SpanHas d k x ∧ (x - d.bases[k]) / d.stride = line ∧
    (x - d.bases[k]) % d.stride < d.width * (if d.format = .w10 then 4 else 2) ∧
    (x - d.bases[k]) % d.stride / 4 = (if d.format = .w10 then column else column / 2)

end Sys2Proof.Stated

/-- A tracked read is BLEND exactly when the part is ACTIVE, its channel RUNNING or STOPPING with a slot and an opacity
above 0 latched and a pixel of the request inside the inset; otherwise MEASURE exactly when it has a pixel inside a
latched zone; otherwise PASS. It copies each latched zone it meets (R22, R23). The pixels of a request: its buffer is the
one whose span contains its first byte; a pixel is one of the request's exactly when the request covers a byte of the
pixel's word that lies inside that buffer; the pixels form runs, none empty, one to a line, on at most two lines, which
are consecutive (R3, R4). -/
def Obligations.ReadClassification : Prop :=
  (∀ (d : Descriptor) (a beats : Nat), RasterChecked d → beats ≤ 16 →
    let runs := d.requestRuns a beats
    (∀ k, d.bufferOf a = some k ↔ SpanHas d k a) ∧
    (∀ line column, (∃ run ∈ runs, run.line = line ∧ run.first ≤ column ∧ column < run.first + run.count) ↔
      ∃ k x, SpanHas d k a ∧ a ≤ x ∧ x < a + beats * 16 ∧ ByteOfPixel d k x line column) ∧
    (∀ run ∈ runs, 1 ≤ run.count) ∧
    (runs = [] ∨ (∃ r, runs = [r]) ∨ ∃ r r', runs = [r, r'] ∧ r'.line = r.line + 1)) ∧
  ∀ (b : Blocks) (c : Fin 8) (a beats : Nat) (k : EntryKind) (zoneA zoneB : Option Rect),
    b.classify c a beats = (k, zoneA, zoneB) →
    let ch := b.chan c
    let live := b.mode = .active ∧ (ch.state = .running ∨ ch.state = .stopping)
    let blends := fun g : Geometry => g.slot.isSome = true ∧ 0 < g.opacity ∧ Meets ch.desc a beats (insetOf g)
    let measures := fun g : Geometry => ∃ z, (g.zoneA = some z ∨ g.zoneB = some z) ∧ Meets ch.desc a beats z
    ((∃ info, k = .blend info) ↔ live ∧ ∃ g, ch.geom = some g ∧ blends g) ∧
    (k = .measure ↔ live ∧ ∃ g, ch.geom = some g ∧ ¬ blends g ∧ measures g) ∧
    (∀ info, k = .blend info → ∃ g, ch.geom = some g ∧ g.slot = some info.slot ∧ info.x = g.x ∧ info.y = g.y ∧
      info.opacity = g.opacity) ∧
    (∀ z, zoneA = some z ↔ live ∧ ∃ g, ch.geom = some g ∧ g.zoneA = some z ∧ Meets ch.desc a beats z) ∧
    ∀ z, zoneB = some z ↔ live ∧ ∃ g, ch.geom = some g ∧ g.zoneB = some z ∧ Meets ch.desc a beats z

/-- The pick of a frame start: by the channel's port, loss policy and delay, of the READY slots of age at least the delay
the one of smallest age, and where none is that old the one of greatest age (R93). The age of a slot is the port's
latest capture number less its own, or, where its own is the greater, that with 4,294,967,295 added (R86). -/
def Obligations.PickFollowsDelay : Prop :=
  (∀ (b : Blocks) (p : Fin 4) (i : Fin 16),
    let latest := (b.portSlots p).latest
    let c := (b.slot p i).capture
    b.age p i = if c ≤ latest then latest - c else latest + 4294967295 - c) ∧
  ∀ (b : Blocks) (c : Fin 8) (d : Descriptor), d = (b.chan c).desc →
    (d.port = none → b.pick c = .error .noPort) ∧
    ∀ p, d.port = some p →
      ((b.port p).state.isLost = true ∧ d.loss = .hide → b.pick c = .error .inputLost) ∧
      (¬ ((b.port p).state.isLost = true ∧ d.loss = .hide) →
        ((∀ i, (b.slot p i).state ≠ .ready) → b.pick c = .error .noFrame) ∧
        ((∃ i, (b.slot p i).state = .ready) →
          ∃ i, b.pick c = .ok ⟨p, i, (b.slot p i).w, (b.slot p i).h⟩ ∧ (b.slot p i).state = .ready ∧
            ((∃ j, (b.slot p j).state = .ready ∧ d.delay ≤ b.age p j) →
              d.delay ≤ b.age p i ∧
                ∀ j, (b.slot p j).state = .ready → d.delay ≤ b.age p j → b.age p i ≤ b.age p j) ∧
            ((∀ j, (b.slot p j).state = .ready → b.age p j < d.delay) →
              ∀ j, (b.slot p j).state = .ready → b.age p j ≤ b.age p i)))

/-- A claim takes the FREE slot of lowest index; otherwise the unheld READY slot of greatest age if that age exceeds the
retention depth; otherwise none. The retention depth is the largest delay among the ARMED, RUNNING and STOPPING channels
assigned to the port, 0 when there is none (R87, R88; ages are those of PickFollowsDelay). -/
def Obligations.ClaimKeepsRetainedFrames : Prop :=
  ∀ (b : Blocks) (p : Fin 4),
    (∀ i, (b.slot p i).state = .free → (∀ j, j < i → (b.slot p j).state ≠ .free) → b.claimSlot p = some i) ∧
    ((∀ i, (b.slot p i).state ≠ .free) →
      (∀ i, b.claimSlot p = some i → (b.slot p i).state = .ready ∧ (b.slot p i).hold = 0 ∧
        b.retentionDepth p < b.age p i ∧
        ∀ j, (b.slot p j).state = .ready → (b.slot p j).hold = 0 → b.age p j ≤ b.age p i) ∧
      (b.claimSlot p = none →
        ∀ j, (b.slot p j).state = .ready → (b.slot p j).hold = 0 → b.age p j ≤ b.retentionDepth p)) ∧
    (∀ c, (b.chan c).desc.port = some p → (b.chan c).state ≠ .off →
      (b.chan c).desc.delay ≤ b.retentionDepth p) ∧
    (b.retentionDepth p = 0 ∨ ∃ c, (b.chan c).desc.port = some p ∧ (b.chan c).state ≠ .off ∧
      (b.chan c).desc.delay = b.retentionDepth p)

/-! ## Cues -/

namespace Sys2Proof.Stated

/-- The kind, target and words of the record a cue command posts (12 section 12.2); none for the other commands. -/
def record : Instr → Option (Byte × Byte × List Word)
  | .startChannel c policy => some (1, c, [policy])
  | .stopChannel c => some (2, c, [])
  | .writeLayout e x y opacity glide fade prescale => some (3, e, [x, y, opacity, glide, fade, prescale])
  | .selectLayout c e => some (4, c, [e])
  | .pushLayout c e => some (5, c, [e])
  | .popLayout c => some (6, c, [])
  | .fade c target length prescale => some (7, c, [target, length, prescale])
  | .assignPresenter c p delay loss => some (8, c, [wordOf p 0 0 0, delay, loss])
  | .setIngest p x y w h tw th => some (9, p, [x, y, w, h, tw, th].map (BitVec.setWidth 32))
  | .setMonitor c f => some (10, c, monitorWords f)
  | .forceMonitor c m force => some (11, c, [wordOf m 0 0 0, force])
  | .clearMonitor c m => some (12, c, [wordOf m 0 0 0])
  | .clearFlags c => some (13, c, [])
  | .setReports mask => some (14, 0, [mask])
  | .restart => some (15, 0, [])
  | .unknownKind kind target => some (kind, target, [])
  | .powerOn | .resetPulse | .bootImageLoad _ | .acceptRead _ _ _ _ | .engineWrite _ _ _ _ _ _
  | .reportConsumerWord _ _ | .downstreamGrant | .passResponseArrival _ _ _ _ _ | .programmeResponse _ _ _ _
  | .fetchResponse _ _ _ | .joinLimitExpiry _ | .upstreamResponseGrant | .lineWriteResponse _ _
  | .reportWriteResponse _ | .statusWriteResponse _ | .frameOpen _ _ _ | .line _ _ _ | .frameClose _
  | .damagedUnit _ _ | .lossLimitExpiry _ | .refreshPeriodExpiry | .restartCompletion => none

/-- A channel value names no channel, or a disabled one (R159). -/
def BadChannel (b : Blocks) (channel : Byte) : Prop := ∀ c : Fin 8, channel.toNat = c.val → (b.chan c).desc.enabled = false

/-- A zone lies wholly outside the raster of a channel (R119). -/
def ZoneOutside (b : Blocks) (channel : Byte) (f : MonitorFields) : Prop :=
  ∃ c : Fin 8, channel.toNat = c.val ∧
    ((b.chan c).desc.width ≤ f.zoneX.toNat ∨ (b.chan c).desc.height ≤ f.zoneY.toNat ∨ f.zoneW = 0 ∨ f.zoneH = 0)

/-- A cue is refused, for a reason by its code: 1 UNKNOWN KIND, 2 BAD TARGET, 3 WRONG STATE, 4 BAD ARGUMENT (R159). -/
def RefusedFor (b : Blocks) : Instr → Nat → Prop
  | .unknownKind kind _, why => why = 1 ∧ (kind.toNat = 0 ∨ 15 < kind.toNat)
  | .startChannel c _, why =>
      (why = 2 ∧ BadChannel b c) ∨ (why = 3 ∧ ¬ BadChannel b c ∧
        ∃ i : Fin 8, c.toNat = i.val ∧ ((b.chan i).state = .armed ∨ (b.chan i).state = .running))
  | .stopChannel c, why | .popLayout c, why | .fade c _ _ _, why | .clearFlags c, why => why = 2 ∧ BadChannel b c
  | .writeLayout e _ _ _ _ _ _, why => why = 2 ∧ 31 < e.toNat
  | .selectLayout c e, why | .pushLayout c e, why => why = 2 ∧ (BadChannel b c ∨ 31 < e.toNat)
  | .assignPresenter c p _ _, why => why = 2 ∧ (BadChannel b c ∨ (3 < p.toNat ∧ p.toNat ≠ 255))
  | .setIngest p _ _ _ _ _ _, why => why = 2 ∧ 3 < p.toNat
  | .setMonitor c f, why =>
      (why = 2 ∧ (BadChannel b c ∨ 1 < f.monitor.toNat)) ∨
      (why = 4 ∧ ¬ BadChannel b c ∧ f.monitor.toNat ≤ 1 ∧ (f.mode = 1 ∨ f.mode = 2) ∧ ZoneOutside b c f)
  | .forceMonitor c m _, why | .clearMonitor c m, why => why = 2 ∧ (BadChannel b c ∨ 1 < m.toNat)
  | .powerOn, _ | .resetPulse, _ | .bootImageLoad _, _ | .acceptRead _ _ _ _, _ | .engineWrite _ _ _ _ _ _, _
  | .reportConsumerWord _ _, _ | .downstreamGrant, _ | .passResponseArrival _ _ _ _ _, _
  | .programmeResponse _ _ _ _, _ | .fetchResponse _ _ _, _ | .joinLimitExpiry _, _ | .upstreamResponseGrant, _
  | .lineWriteResponse _ _, _ | .reportWriteResponse _, _ | .statusWriteResponse _, _ | .frameOpen _ _ _, _
  | .line _ _ _, _ | .frameClose _, _ | .damagedUnit _ _, _ | .lossLimitExpiry _, _ | .refreshPeriodExpiry, _
  | .restartCompletion, _ | .setReports _, _ | .restart, _ => False

/-- The cue's kind is one of the fifteen and its target is a channel. -/
def TargetsChannel (kind : Byte) : Prop := kind.toNat ∈ [1, 2, 4, 5, 6, 7, 8, 10, 11, 12, 13]

/-- What a CUE REFUSED report names: the channel and its frame number when the kind's target is a channel and the target
value is one, otherwise nothing (R160). -/
def IsRefusalSubject (b : Blocks) (kind target : Byte) (subject : Subject) : Prop :=
  (∀ c : Fin 8, TargetsChannel kind → target.toNat = c.val → subject = .channel c (b.chan c).frame) ∧
  (¬ TargetsChannel kind ∨ 7 < target.toNat → subject = .none)

/-- The slot and lap `k` places on from the expected ones: the lap toggles at the wrap (R156). -/
def placeAfter (u : CueUnit) (k : Nat) : Fin 32 × Bool :=
  (⟨(u.slot.val + k) % 32, Nat.mod_lt _ (by decide)⟩, if u.slot.val + k < 32 then u.lap else !u.lap)

/-- The blocks with a channel's layout records replaced. -/
def withLay (b : Blocks) (c : Fin 8) (lay : LayoutState) : Blocks := b.setChan c { b.chan c with lay := lay }

/-- The blocks with monitor `m` of a channel replaced; 0 is A, 1 is B. -/
def withMon (b : Blocks) (c : Fin 8) (m : Nat) (x : Monitor) : Blocks :=
  b.setChan c (if m = 0 then { b.chan c with monA := x } else { b.chan c with monB := x })

/-- Monitor `m` of a channel; 0 is A, 1 is B. -/
def monOf (b : Blocks) (c : Fin 8) (m : Nat) : Monitor := if m = 0 then (b.chan c).monA else (b.chan c).monB

end Sys2Proof.Stated

/-- A slot stored with a cue holds the post word with the lap in bit 7 of byte 3, then the cue's words, 0 beyond them;
every other byte of the shadow stays (R153 to R155; log 3). -/
def Obligations.CueStoredInSlot : Prop :=
  ∀ (u : CueUnit) (e : Fin 32) (lap : Bool) (kind target : Byte) (words : List Word), words.length ≤ 15 →
    let u' := u.store e lap ⟨kind, target, words⟩
    u'.slot = u.slot ∧ u'.lap = u.lap ∧
    u'.byte (64 * e.val) = kind ∧ u'.byte (64 * e.val + 1) = target ∧ u'.byte (64 * e.val + 2) = 0 ∧
    u'.byte (64 * e.val + 3) = (if lap then 128 else 0) ∧
    (∀ n < 15, ∀ k < 4, u'.byte (64 * e.val + 4 * (n + 1) + k) = wordByte (words.getD n 0) k) ∧
    ∀ a, (a < 64 * e.val ∨ 64 * e.val + 64 ≤ a) → u'.byte a = u.byte a

/-- The chain takes the expected slot while the part is ACTIVE and the slot carries the expected lap: the slot index moves
on by 1 (the lap toggling at the wrap), the cue is carried out or refused, a status refresh is asked for, and the check
is made again; it ends at a slot that is not posted, or outside ACTIVE (R156, R157). -/
def Obligations.ChainTakesPostedSlots : Prop :=
  ∀ (u : CueUnit) (b : Blocks),
    (¬ (b.mode = .active ∧ u.slotLap u.slot = u.lap) → chain chainFuel u b = (u, b)) ∧
    (b.mode = .active → u.slotLap u.slot = u.lap →
      chain chainFuel u b = chain chainFuel { u with slot := (placeAfter u 1).1, lap := (placeAfter u 1).2 }
        (match cueEffect (u.record u.slot) b with
          | .ok b' => b'.requestRefresh
          | .error why => (raiseCueRefused b u.slot (u.record u.slot) why).requestRefresh)) ∧
    ((chain chainFuel u b).2.mode = .active →
      (chain chainFuel u b).1.slotLap (chain chainFuel u b).1.slot ≠ (chain chainFuel u b).1.lap) ∧
    (chain chainFuel u b).1.shadow = u.shadow

/-- A cue of an unknown kind, with a bad target, in the wrong state or with a bad argument is taken and refused (the cue
posted as log 3 has it): it has no effect but the CUE REFUSED report with slot, kind, reason and target, and the status
refresh every taking asks for (R156, R159, R160). To raise a report of a disabled kind changes nothing; of an enabled
kind it sets the lost flag when 8 records are pending or the distance and the pending records fill the ring, and otherwise
adds the record, with the time base value, at the tail of the pending queue; the distance is counted modulo 2 × N
(R162, R163). To ask for a refresh makes an IDLE status write WAITING, changes nothing in WAITING, and sets "again" in
IN FLIGHT (R167). -/
def Obligations.RefusedCuesAreReported : Prop :=
  (∀ (s : State) (i : Instr) (kind target : Byte) (words : List Word) (why : Nat) (subject : Subject),
    s.blk.mode = .active → record i = some (kind, target, words) → RefusedFor s.blk i why →
    IsRefusalSubject s.blk kind target subject →
    exec i s = goesOn s (taken s kind target words)
      (s.blk.raise .cueRefused subject
        [wordOfNat s.cue.slot.val, wordOfNat kind.toNat, wordOfNat why, wordOfNat target.toNat]).requestRefresh) ∧
  (∀ (b : Blocks) (k : ReportKind) (subject : Subject) (words : List Word),
    b.raise k subject words =
      if b.rep.mask.getLsbD (kindNumber k - 1) = false then b
      else if 8 ≤ b.rep.queue.length ∨ b.image.ringSize ≤ b.distance + b.rep.queue.length then
        { b with rep := { b.rep with lost := true } }
      else { b with rep := { b.rep with queue := b.rep.queue ++ [⟨k, subject, b.timeBase, words⟩] } }) ∧
  (∀ (b : Blocks) (n : Nat), n = b.image.ringSize → b.rep.cons < n →
    (b.distance : Int) = (((b.rep.prod : Int) + (if b.rep.prodLap = true then n else 0)) -
      (b.rep.cons + (if b.rep.consLap = true then n else 0))) % (2 * n)) ∧
  ∀ b : Blocks, b.requestRefresh = { b with rep := { b.rep with
    status := if b.rep.status = .idle then .waiting else b.rep.status
    again := b.rep.again || decide (b.rep.status = .inFlight) } }

/-- In RESTARTING no cue is taken: a posted cue waits in the first slot, from the expected one on, that does not carry the
lap it would be posted with; while the whole ring waits, no cue can be posted. In LOADING and BYPASS no cue reaches the
shadow (R154, R158; where and how software posts is log 3 and log 5, the model's choice). -/
def Obligations.CuesWaitOutsideActive : Prop :=
  ∀ (s : State) (i : Instr) (kind target : Byte) (words : List Word), record i = some (kind, target, words) →
    (s.blk.mode = .loading ∨ s.blk.mode = .bypass → exec i s = .next (finish s)) ∧
    (s.blk.mode = .restarting →
      (∀ k < 32, (∀ j < k, s.cue.slotLap (placeAfter s.cue j).1 = (placeAfter s.cue j).2) →
        s.cue.slotLap (placeAfter s.cue k).1 ≠ (placeAfter s.cue k).2 →
        exec i s = .next (finish { s with
          cue := s.cue.store (placeAfter s.cue k).1 (placeAfter s.cue k).2 ⟨kind, target, words⟩ })) ∧
      ((∀ j < 32, s.cue.slotLap (placeAfter s.cue j).1 = (placeAfter s.cue j).2) → exec i s = .next (finish s)))

/-- START CHANNEL: an OFF channel becomes ARMED with its frame tracking reset; a STOPPING one RUNNING, its frame going on,
with a CHANNEL STATE report; both take the stack policy and start their layout records and monitors afresh; an ARMED or
RUNNING one refuses with WRONG STATE (R6, R7, R38, R115, R136; the cue is posted as log 3 has it, the model's choice). -/
def Obligations.StartChannelArms : Prop :=
  ∀ (s : State) (channel : Byte) (policy : Word) (c : Fin 8) (ch : Channel),
    s.blk.mode = .active → Names s channel c → ch = s.blk.chan c →
    (ch.state = .off → ∃ x,
      exec (.startChannel channel policy) s =
        goesOn s (taken s 1 channel [policy]) (s.blk.setChan c x).requestRefresh ∧
      x.state = .armed ∧ x.frame = 0 ∧ x.buffer = none ∧ x.deepest = 0 ∧ x.geom = ch.geom ∧ x.lastLate = none ∧
      x.lastFetchError = none ∧ x.desc = { ch.desc with stackPolicy := if policy = 1 then .revert else .hold } ∧
      Started s.blk.layout ch x) ∧
    (ch.state = .stopping → ∃ x,
      exec (.startChannel channel policy) s = goesOn s (taken s 1 channel [policy])
        ((s.blk.setChan c x).raise .channelState (.channel c ch.frame) [quadWord 2 1 0 0]).requestRefresh ∧
      x.state = .running ∧ x.frame = ch.frame ∧ x.buffer = ch.buffer ∧ x.deepest = ch.deepest ∧ x.geom = ch.geom ∧
      x.lastLate = ch.lastLate ∧ x.lastFetchError = ch.lastFetchError ∧
      x.desc = { ch.desc with stackPolicy := if policy = 1 then .revert else .hold } ∧
      Started s.blk.layout ch x) ∧
    (ch.state = .armed ∨ ch.state = .running →
      exec (.startChannel channel policy) s = goesOn s (taken s 1 channel [policy])
        (s.blk.raise .cueRefused (.channel c ch.frame)
          [wordOfNat s.cue.slot.val, 1, 3, wordOfNat channel.toNat]).requestRefresh)

/-- STOP CHANNEL: no effect in OFF and STOPPING; ARMED becomes OFF with a CHANNEL STATE report, its deepest line as it stands
(log 30); RUNNING becomes STOPPING (R6, R8; the cue is posted as log 3 has it, the model's choice). -/
def Obligations.StopChannelStops : Prop :=
  ∀ (s : State) (channel : Byte) (c : Fin 8) (ch : Channel),
    s.blk.mode = .active → Names s channel c → ch = s.blk.chan c →
    exec (.stopChannel channel) s = goesOn s (taken s 2 channel [])
      (match ch.state with
        | .off | .stopping => s.blk
        | .armed => (s.blk.setChan c { ch with state := .off }).raise .channelState (.channel c ch.frame) [quadWord 0 3 0 0]
        | .running => s.blk.setChan c { ch with state := .stopping }).requestRefresh

/-- WRITE LAYOUT replaces the entry with the fields brought into range and marks each channel whose previous effective
entry it is; SELECT LAYOUT sets SL alone; CLEAR FLAGS clears both flags alone (R101, R102, R104, R107; the cue is
posted as log 3 has it, the model's choice). -/
def Obligations.LayoutTableAndSelection : Prop :=
  (∀ (s : State) (entry : Byte) (x y opacity glide fade prescale : Word) (i : Fin 32),
    s.blk.mode = .active → entry.toNat = i.val →
    ∃ b : Blocks, exec (.writeLayout entry x y opacity glide fade prescale) s =
        goesOn s (taken s 3 entry [x, y, opacity, glide, fade, prescale]) b.requestRefresh ∧
      b = { s.blk with layouts := b.layouts, chans := b.chans } ∧
      b.layout i = ⟨min x.toNat 4094 / 2 * 2, min y.toNat 2302, min opacity.toNat 256, min glide.toNat 255,
        min fade.toNat 255, max 1 (min prescale.toNat 16)⟩ ∧
      (∀ j, j ≠ i → b.layout j = s.blk.layout j) ∧
      ∀ c, b.chan c = if (s.blk.chan c).lay.prevEff = i then
          { s.blk.chan c with lay := { (s.blk.chan c).lay with rewrite := true } } else s.blk.chan c) ∧
  (∀ (s : State) (channel : Byte) (entry : Word) (c : Fin 8) (i : Fin 32),
    s.blk.mode = .active → Names s channel c → entry.toNat = i.val →
    exec (.selectLayout channel entry) s = goesOn s (taken s 4 channel [entry])
      (withLay s.blk c { (s.blk.chan c).lay with sl := i }).requestRefresh) ∧
  ∀ (s : State) (channel : Byte) (c : Fin 8), s.blk.mode = .active → Names s channel c →
    exec (.clearFlags channel) s = goesOn s (taken s 13 channel [])
      (withLay s.blk c { (s.blk.chan c).lay with overflow := false, underflow := false }).requestRefresh

/-- PUSH LAYOUT saves SL and sets it while the stack has room; on a full stack it sets OVERFLOW and either leaves both or
empties the stack and returns to the home layout, by the stack policy. POP LAYOUT restores the newest value; on an
empty stack it returns to the home layout and sets UNDERFLOW. Overflow and underflow are reported, with SL and the
depth as they then stand (R105, R106, R107; the cue is posted as log 3 has it, the model's choice). -/
def Obligations.LayoutStackPushesAndPops : Prop :=
  (∀ (s : State) (channel : Byte) (entry : Word) (c : Fin 8) (i : Fin 32) (lay : LayoutState),
    s.blk.mode = .active → Names s channel c → entry.toNat = i.val → lay = (s.blk.chan c).lay →
    exec (.pushLayout channel entry) s = goesOn s (taken s 5 channel [entry])
      (if lay.stack.length < 6 then withLay s.blk c { lay with stack := lay.stack ++ [lay.sl], sl := i }
       else if (s.blk.chan c).desc.stackPolicy = .hold then
        (withLay s.blk c { lay with overflow := true }).raise .stackFlag (.channel c (s.blk.chan c).frame)
          [quadWord 0 0 lay.sl.val lay.stack.length]
       else
        (withLay s.blk c { lay with overflow := true, stack := [], sl := (s.blk.chan c).desc.home }).raise .stackFlag
          (.channel c (s.blk.chan c).frame) [quadWord 0 1 (s.blk.chan c).desc.home.val 0]).requestRefresh) ∧
  ∀ (s : State) (channel : Byte) (c : Fin 8) (lay : LayoutState),
    s.blk.mode = .active → Names s channel c → lay = (s.blk.chan c).lay →
    (∀ below top, lay.stack = below ++ [top] →
      exec (.popLayout channel) s = goesOn s (taken s 6 channel [])
        (withLay s.blk c { lay with sl := top, stack := below }).requestRefresh) ∧
    (lay.stack = [] →
      exec (.popLayout channel) s = goesOn s (taken s 6 channel [])
        ((withLay s.blk c { lay with sl := (s.blk.chan c).desc.home, underflow := true }).raise .stackFlag
          (.channel c (s.blk.chan c).frame) [quadWord 1 0 (s.blk.chan c).desc.home.val 0]).requestRefresh)

/-- FADE begins a fade from the opacity as it stands, its values brought into range; ASSIGN PRESENTER replaces port, delay
and loss policy; SET INGEST replaces a port's six settings as carried; SET REPORTS replaces the enable mask
(R17, R82, R114, R163, R175; the cue is posted as log 3 has it, the model's choice). -/
def Obligations.SettingCuesReplaceTheirFields : Prop :=
  (∀ (s : State) (channel : Byte) (target length prescale : Word) (c : Fin 8) (lay : LayoutState),
    s.blk.mode = .active → Names s channel c → lay = (s.blk.chan c).lay →
    exec (.fade channel target length prescale) s = goesOn s (taken s 7 channel [target, length, prescale])
      (withLay s.blk c { lay with
        fade := { start := lay.fade.opacity, target := min target.toNat 256, length := min length.toNat 255,
                  prescale := max 1 (min prescale.toNat 16), count := 0, step := 0,
                  opacity := lay.fade.opacity } }).requestRefresh) ∧
  (∀ (s : State) (channel port : Byte) (delay loss : Word) (c : Fin 8) (p : Option (Fin 4)),
    s.blk.mode = .active → Names s channel c →
    (port.toNat = 255 ∧ p = none ∨ ∃ q : Fin 4, port.toNat = q.val ∧ p = some q) →
    exec (.assignPresenter channel port delay loss) s = goesOn s (taken s 8 channel [wordOf port 0 0 0, delay, loss])
      (s.blk.setChan c { s.blk.chan c with desc := { (s.blk.chan c).desc with
        port := p, delay := min delay.toNat 12, loss := if loss = 1 then .hide else .hold } }).requestRefresh) ∧
  (∀ (s : State) (port : Byte) (x y w h tw th : Half) (p : Fin 4), s.blk.mode = .active → port.toNat = p.val →
    exec (.setIngest port x y w h tw th) s =
      goesOn s (taken s 9 port ([x, y, w, h, tw, th].map (BitVec.setWidth 32)))
        (s.blk.setPort p { s.blk.port p with
          settings := ⟨x.toNat, y.toNat, w.toNat, h.toNat, tw.toNat, th.toNat⟩ }).requestRefresh) ∧
  ∀ (s : State) (mask : Word), s.blk.mode = .active →
    ∃ b : Blocks, exec (.setReports mask) s = goesOn s (taken s 14 0 [mask]) b.requestRefresh ∧
      b = { s.blk with rep := { s.blk.rep with mask := b.rep.mask } } ∧
      ∀ k : ReportKind, b.enabled k = mask.getLsbD (kindNumber k - 1)

/-- SET MONITOR stores every field, brought into range, with the zone clamped to the raster (none under mode OFF), and
resets the running state, the accumulator and the last effective state apart (R118, R119, R133; the cue is posted as
log 3 has it, the model's choice). -/
def Obligations.SetMonitorStoresItsRecord : Prop :=
  ∀ (s : State) (channel : Byte) (f : MonitorFields) (c : Fin 8) (d : Descriptor) (on : Bool),
    s.blk.mode = .active → Names s channel c → d = (s.blk.chan c).desc → f.monitor.toNat ≤ 1 →
    on = decide (f.mode = 1 ∨ f.mode = 2) →
    (on = true → f.zoneX.toNat < d.width ∧ f.zoneY.toNat < d.height ∧ f.zoneW ≠ 0 ∧ f.zoneH ≠ 0) →
    exec (.setMonitor channel f) s = goesOn s (taken s 10 channel (monitorWords f))
      (withMon s.blk c f.monitor.toNat { monOf s.blk c f.monitor.toNat with
        cfg := {
          mode := if f.mode = 1 then .above else if f.mode = 2 then .below else .off
          zone := if on then some ⟨f.zoneX.toNat, f.zoneY.toNat, min f.zoneW.toNat (d.width - f.zoneX.toNat),
            min f.zoneH.toNat (d.height - f.zoneY.toNat)⟩ else none
          threshold := max 1 (min f.threshold.toNat 1023)
          level := min f.level.toNat 1000
          hysteresis := min f.hysteresis.toNat 1000
          tracking := if f.tracking = 1 then some (max (-1000) (min 1000 f.offset.toInt)) else none
          delayKind := if f.delayKind = 1 then .oneShot else if f.delayKind = 2 then .latched else .steady
          onDelay := min f.onDelay.toNat 255
          offDelay := min f.offDelay.toNat 255
          inhibit := f.inhibit
          alternate := ⟨min f.alternate.toNat 31, by omega⟩
          force := if f.force = 1 then .forceOn else if f.force = 2 then .forceOff else .auto
          edges := if f.edges = 1 then .make else if f.edges = 2 then .break else if f.edges = 3 then .both else .none }
        computed := if f.inhibit then .inhibited else .idle
        onCount := 0
        offCount := 0
        shotCount := 0
        activity := 0
        fresh := true }).requestRefresh

/-- FORCE MONITOR replaces the force alone; CLEAR MONITOR makes an ACTIVE LATCHED, a PENDING-ON, a PENDING-OFF and a SPENT
monitor IDLE and has no effect otherwise (R134, R135). The cue is posted as log 3 has it, and the count dropped is held as
0 (log 36), both the model's choice. -/
def Obligations.ForceAndClearMonitor : Prop :=
  ∀ (s : State) (channel monitor : Byte) (force : Word) (c : Fin 8) (m : Monitor),
    s.blk.mode = .active → Names s channel c → monitor.toNat ≤ 1 → m = monOf s.blk c monitor.toNat →
    exec (.forceMonitor channel monitor force) s = goesOn s (taken s 11 channel [wordOf monitor 0 0 0, force])
      (withMon s.blk c monitor.toNat { m with cfg := { m.cfg with
        force := if force = 1 then .forceOn else if force = 2 then .forceOff else .auto } }).requestRefresh ∧
    exec (.clearMonitor channel monitor) s = goesOn s (taken s 12 channel [wordOf monitor 0 0 0])
      (withMon s.blk c monitor.toNat (match m.computed with
        | .active => if m.cfg.delayKind = .latched then { m with computed := .idle } else m
        | .pendingOn => { m with computed := .idle, onCount := 0 }
        | .pendingOff => { m with computed := .idle, offCount := 0 }
        | .spent => { m with computed := .idle }
        | .idle | .inhibited => m)).requestRefresh

namespace Sys2Proof.Stated

/-- The frame in flight of an abandoned open frame is complete at once: nothing of it is queued or outstanding (R81). -/
def endsAtOnce (u : Port) (f : OpenFrame) : Bool :=
  ((u.flights.find? fun g => g.slot = f.slot).any fun g => g.outstanding = 0) && u.queue.all fun e => e.slot ≠ f.slot

/-- The frames in flight of a port after RESTART: the open frame's is abandoned and closed, or gone when it is complete at
once; the others stay (R65, R81, R83). -/
def flightsAfterRestart (u : Port) : List Flight :=
  match u.state with
  | .receiving f =>
    if endsAtOnce u f = true then u.flights.filter fun g => g.slot ≠ f.slot
    else u.flights.map fun g => if g.slot = f.slot then { g with reason := .abandoned, closed := true } else g
  | .idle | .waiting | .discarding _ _ | .lost => u.flights

/-- A slot of a port after RESTART, its hold count apart: the open frame's slot is SETTLING and damaged, or FREE when its
frame is complete at once; the others stay (R81, R83, R91, R97). -/
def slotAfterRestart (u : Port) (i : Fin 16) (x : Slot) : Slot :=
  match u.state with
  | .receiving f =>
    if f.slot = i then
      if endsAtOnce u f = true then ⟨.free, 0, 0, 0, x.hold, false⟩ else { x with state := .settling, damaged := true }
    else x
  | .idle | .waiting | .discarding _ _ | .lost => x

/-- How many channels that are not OFF show a slot. -/
def shownBy (b : Blocks) (p : Fin 4) (i : Fin 16) : Nat :=
  ([0, 1, 2, 3, 4, 5, 6, 7] : List (Fin 8)).countP fun c =>
    decide ((b.chan c).state ≠ .off) && names ((b.chan c).geom.bind Geometry.slot) p i

end Sys2Proof.Stated

/-- RESTART is carried out in ACTIVE (posted as log 3 has it, the model's choice): the part enters RESTARTING and the time
is kept; every channel that is not OFF enters OFF, keeping its frame number, with a CHANNEL STATE report, channel 0 first,
and its hold is released; every port is IDLE with no last good unit, keeping its settings and write queue; an open frame
is abandoned without a report, its slot SETTLING and damaged or, with no write queued or outstanding, FREE; the other
frames in flight, slots and capture numbers stay, and so does everything else (R16, R18, R44, R65, R81, R83, R97, R173;
log 30). -/
def Obligations.RestartCueStopsTheBlocks : Prop :=
  ∀ s : State, s.blk.mode = .active →
    ∃ b : Blocks, exec .restart s = goesOn s (taken s 15 0 []) b.requestRefresh ∧
      b = { s.blk with
        mode := .restarting, restartTime := s.blk.timeBase, chans := b.chans, ports := b.ports, slotTab := b.slotTab
        rep := b.rep } ∧
      (∀ c, b.chan c = if (s.blk.chan c).state = .off then s.blk.chan c
        else { s.blk.chan c with state := .off, geom := none, buffer := none, deepest := 0 }) ∧
      (∀ p, b.port p = { s.blk.port p with
        state := .idle, lastGood := none, flights := flightsAfterRestart (s.blk.port p) }) ∧
      (∀ p, (b.portSlots p).latest = (s.blk.portSlots p).latest) ∧
      (∀ p i, b.slot p i = slotAfterRestart (s.blk.port p) i
        { s.blk.slot p i with hold := (s.blk.slot p i).hold - shownBy s.blk p i }) ∧
      b.rep = (((allChans.filter fun c => (s.blk.chan c).state ≠ .off).foldl
        (fun b' c => b'.raise .channelState (.channel c (s.blk.chan c).frame) [quadWord 0 4 0 0]) s.blk)).rep

/-! ## Grants -/

namespace Sys2Proof.Stated

/-- A report record waits to be written: one is pending and the distance is below N (R164). -/
def ReportWaits (s : State) : Prop := s.blk.rep.queue ≠ [] ∧ s.blk.distance < s.blk.image.ringSize

/-- No own request waits (R146, R148). -/
def NoOwn (s : State) : Prop :=
  ¬ InService s ∨ (s.blk.fetchQueue = [] ∧ ¬ ReportWaits s ∧ s.blk.rep.status ≠ .waiting ∧
    ∀ p, (s.blk.port p).queue = [])

/-- The arbiter prefers an own request: no engine request waits, or the starvation count has reached its limit (R147). -/
def OwnTurn (s : State) : Prop := s.link.passSlot = none ∨ s.blk.image.starvationLimit ≤ s.link.starvation

/-- The link path when a request has been issued for an own head. -/
def ownIssued (s : State) (r : DownRequest) : Link := { s.link with issued := s.link.issued ++ [r], starvation := 0 }

/-- A port is the next of the round robin with something to write (R148). -/
def NextPort (s : State) (p : Fin 4) : Prop :=
  (s.blk.port p).queue ≠ [] ∧
    ∀ q : Fin 4, q - (s.link.lastPort + 1) < p - (s.link.lastPort + 1) → (s.blk.port q).queue = []

/-- Entry `k` of the table is ready: DONE, with no undelivered entry of its pair before it (R40). -/
def ReadyAt (rtt : List Entry) (k : Nat) : Prop :=
  ∃ e, rtt[k]? = some e ∧ e.state = .done ∧
    ∀ j < k, ∀ x, rtt[j]? = some x → x.tag = e.tag → x.oid = e.oid → x.state = .drain

/-- What an entry leaves when it becomes FREE: a BLEND entry's hold is removed (R42). -/
def freed (b : Blocks) (e : Entry) (rest : List Entry) : Blocks :=
  match e.kind with
  | .pass | .measure => { b with rtt := rest }
  | .blend info => { b with rtt := rest }.dropHold info.slot

end Sys2Proof.Stated

/-- The pass slot is granted while no own request waits or the starvation count is below its limit: the request leaves as
it stands, with source ENGINE; the count rises by 1 while an own request waits. With nothing waiting there is no grant
(R141, R147). -/
def Obligations.PassSlotGranted : Prop :=
  ∀ s : State,
    (∀ r, s.link.passSlot = some r →
      (NoOwn s → exec .downstreamGrant s = .next (finish { s with link := { s.link with
        passSlot := none
        issued := s.link.issued ++ [⟨.engine, r.kind, r.tag, r.oid, r.addr, r.beats, r.data, r.enables⟩] } })) ∧
      (¬ NoOwn s → s.link.starvation < s.blk.image.starvationLimit →
        exec .downstreamGrant s = .next (finish { s with link := { s.link with
          passSlot := none
          starvation := s.link.starvation + 1
          issued := s.link.issued ++ [⟨.engine, r.kind, r.tag, r.oid, r.addr, r.beats, r.data, r.enables⟩] } }))) ∧
    (s.link.passSlot = none → NoOwn s → exec .downstreamGrant s = .next (finish s))

namespace Sys2Proof.Stated

/-- Word `n` of the record a report is written as (12 section 12.3): kind, number, subject, lost-before and lap in word 0,
the time base value, the channel's frame number, and the kind-specific words, 0 beyond them (R176). -/
def recordWord (r : Report) (lost lap : Bool) : Nat → Word
  | 0 =>
    let subject := match r.subject with
      | .none => 0
      | .channel c _ => 256 * c.val + 65536
      | .port p => 256 * p.val + 131072
    BitVec.ofNat 32 (kindNumber r.kind + subject + (if lost = true then 1073741824 else 0) +
      (if lap = true then 2147483648 else 0))
  | 1 => r.time
  | 2 => match r.subject with
    | .channel _ frame => frame
    | .none | .port _ => 0
  | n + 3 => r.words.getD n 0

/-- Bytes `n` and `n + 1` of a block as a number of 16 bits. -/
def halfAt (block : List Byte) (n : Nat) : Nat := (block.getD n 0).toNat + 256 * (block.getD (n + 1) 0).toNat

/-- Bytes `n` to `n + 3` of a block as a number of 32 bits. -/
def numberAt (block : List Byte) (n : Nat) : Nat := halfAt block n + 65536 * halfAt block (n + 2)

/-- The 24 bytes of a channel, from byte `n` of the status block on (12 section 12.4; R19, R117, R138). -/
def ChannelBytes (ch : Channel) (block : List Byte) (n : Nat) : Prop :=
  let byte := fun k : Nat => (block.getD (n + k) 0).toNat
  let bit := fun (b : Bool) (v : Nat) => if b = true then v else 0
  byte 0 = (match ch.state with | .off => 0 | .armed => 1 | .running => 2 | .stopping => 3) ∧
  byte 1 = ch.lay.sl.val ∧
  byte 2 = (ch.lay.stack.length + bit ch.lay.overflow 64 + bit ch.lay.underflow 128) % 256 ∧
  byte 3 = ch.lay.prevEff.val ∧ numberAt block (n + 4) = ch.frame.toNat ∧
  halfAt block (n + 8) = ch.lay.glide.x % 65536 ∧ halfAt block (n + 10) = ch.lay.glide.y % 65536 ∧
  (ch.geom = none → halfAt block (n + 12) = 0 ∧ halfAt block (n + 14) = 0 ∧ halfAt block (n + 16) = 0) ∧
  (∀ g, ch.geom = some g → halfAt block (n + 12) = g.x % 65536 ∧ halfAt block (n + 14) = g.y % 65536 ∧
    halfAt block (n + 16) = g.opacity % 65536) ∧
  byte 18 = (match ch.geom.bind Geometry.slot with
    | none => 0
    | some r => 128 + 16 * r.port.val + r.slot.val) ∧
  byte 19 = computedCode ch.monA.computed + bit ch.monA.effective 8 + 16 * computedCode ch.monB.computed +
    bit ch.monB.effective 128 ∧
  halfAt block (n + 20) = ch.monA.activity % 65536 ∧ halfAt block (n + 22) = ch.monB.activity % 65536

/-- The 8 bytes of a port, from byte `n` of the status block on (12 section 12.4; R62, R100). -/
def PortBytes (b : Blocks) (p : Fin 4) (block : List Byte) (n : Nat) : Prop :=
  (block.getD n 0).toNat = (match (b.port p).state with
    | .idle => 0 | .waiting => 1 | .receiving _ => 2 | .discarding _ _ => 3 | .lost => 4) ∧
  (block.getD (n + 1) 0).toNat = allSlots.countP (fun i => (b.slot p i).state = .ready) ∧
  halfAt block (n + 2) = 0 ∧ numberAt block (n + 4) = (b.portSlots p).latest % 4294967296

/-- The bytes of the status block of a part in ACTIVE or RESTARTING, with the cue unit's expected slot and lap (12 section
12.4, R161, R177). -/
def StatusBytes (b : Blocks) (e : Fin 32) (l : Bool) (block : List Byte) : Prop :=
  block.length = 256 ∧
  (block.getD 0 0).toNat = (if b.mode = .active then 1 else 2) ∧
  (block.getD 1 0).toNat = (match b.cause with | .powerOn => 0 | .pin => 1) ∧
  (block.getD 2 0).toNat = e.val + (if l = true then 128 else 0) ∧
  (block.getD 3 0).toNat = (if b.rep.lost = true then 1 else 0) + (if b.rep.prodLap = true then 128 else 0) ∧
  halfAt block 4 = b.rep.prod % 65536 ∧
  (∀ n < 16, 6 ≤ n → block.getD n 0 = 0) ∧ (∀ p : Fin 4, PortBytes b p block (16 + 8 * p.val)) ∧
  (∀ c : Fin 8, ChannelBytes (b.chan c) block (48 + 24 * c.val)) ∧ ∀ n < 256, 240 ≤ n → block.getD n 0 = 0

end Sys2Proof.Stated

/-- Fetch reads go before the report write, and that before the status write: a fetch read carries its entry's number as
tag; the report write carries the head record at position p, which moves on, and clears the lost flag; the status write
carries the status block gathered at the grant (R28, R147, R148, R162, R164, R167). The record's 32 bytes are its eight
words, byte 0 first, unused words 0 (R176); the status block's 256 bytes are the part's, the ports' and the channels'
fields as they stand, every other byte 0 (R177). -/
def Obligations.OwnRequestsGranted : Prop :=
  (∀ s : State, InService s → OwnTurn s →
    (∀ f rest, s.blk.fetchQueue = f :: rest →
      exec .downstreamGrant s = .next (finish { s with
        link := ownIssued s ⟨.compositor, .read, f.entry, 0, f.addr, f.beats, [], []⟩
        blk := { s.blk with fetchQueue := rest } })) ∧
    (s.blk.fetchQueue = [] →
      (∀ r rest, s.blk.rep.queue = r :: rest → s.blk.distance < s.blk.image.ringSize →
        let wraps := s.blk.image.ringSize ≤ s.blk.rep.prod + 1
        exec .downstreamGrant s = .next (finish { s with
          link := ownIssued s ⟨.compositor, .write, 60, 2,
            BitVec.ofNat 40 (s.blk.image.ringBase + 32 * s.blk.rep.prod), 2,
            (r.record s.blk.rep.lost s.blk.rep.prodLap).flatMap wordBytes, List.replicate 32 true⟩
          blk := { s.blk with rep := { s.blk.rep with
            queue := rest
            lost := false
            prod := if wraps then 0 else s.blk.rep.prod + 1
            prodLap := if wraps then !s.blk.rep.prodLap else s.blk.rep.prodLap } } })) ∧
      (¬ ReportWaits s → s.blk.rep.status = .waiting →
        exec .downstreamGrant s = .next (finish { s with
          link := ownIssued s ⟨.compositor, .write, 61, 2, BitVec.ofNat 40 s.blk.image.statusBase, 16,
            s.blk.statusBlock s.cue.slot s.cue.lap, List.replicate 256 true⟩
          blk := { s.blk with rep := { s.blk.rep with status := .inFlight } } })))) ∧
  (∀ (r : Report) (lost lap : Bool),
    ((r.record lost lap).flatMap wordBytes).length = 32 ∧
    ∀ n < 8, ∀ k < 4, (((r.record lost lap).flatMap wordBytes).getD (4 * n + k) 0).toNat =
      (recordWord r lost lap n).toNat / 256 ^ k % 256) ∧
  ∀ (b : Blocks) (e : Fin 32) (l : Bool), b.mode = .active ∨ b.mode = .restarting →
    StatusBytes b e l (b.statusBlock e l)

/-- After those, the next port of the round robin writes a piece of its head line entry: up to 16 beats of the line at its
place in the slot, all enables set; the writes outstanding of the frame rise by 1, and the queue advances (R27, R78, R79,
R80, R148). -/
def Obligations.WritePieceGranted : Prop :=
  ∀ (s : State) (p : Fin 4) (e : LineEntry) (rest : List LineEntry),
    InService s → OwnTurn s → s.blk.fetchQueue = [] → ¬ ReportWaits s → s.blk.rep.status ≠ .waiting →
    NextPort s p → (s.blk.port p).queue = e :: rest →
    let base := s.blk.image.presBase + (16 * p.val + e.slot.val) * s.blk.image.slotBytes
    let beats := min 16 (e.w / 4 - e.beatsDone)
    let piece := (e.content.drop (4 * e.beatsDone)).take (4 * beats)
    let queue :=
      if e.beatsDone + 16 < e.w / 4 then { e with beatsDone := e.beatsDone + 16 } :: rest
      else if e.linesDone + 1 < e.count then { e with linesDone := e.linesDone + 1, beatsDone := 0 } :: rest
      else rest
    let counted := (s.blk.port p).flights.map fun f =>
      if f.slot = e.slot then { f with outstanding := f.outstanding + 1 } else f
    exec .downstreamGrant s = .next (finish { s with
      link := { ownIssued s ⟨.compositor, .write, BitVec.ofNat 6 (56 + p.val), 1,
          BitVec.ofNat 40 (base + (e.first + e.linesDone) * e.w * 4 + 16 * e.beatsDone), beats,
          piece.flatMap fun q => [q.y, q.cb, q.cr, q.k], List.replicate (16 * beats) true⟩ with lastPort := p }
      blk := s.blk.setPort p { s.blk.port p with flights := counted, queue := queue } })

/-- A grant of the upstream response port sends the ready entry of lowest sequence, or the waiting pass response; when
both wait, the one whose kind was not granted last. A delivered entry becomes FREE, or DRAIN while fetch reads are
outstanding. With nothing waiting there is no grant (R40, R41, R42, R149, R150). -/
def Obligations.UpstreamGrantSendsOneResponse : Prop :=
  ∀ s : State, (s.blk.rtt.map Entry.num).Nodup →
    (s.link.passResponse = none → (∀ k, ¬ ReadyAt s.blk.rtt k) → exec .upstreamResponseGrant s = .next (finish s)) ∧
    (∀ (before after : List Entry) (e : Entry), s.blk.rtt = before ++ e :: after →
      ReadyAt s.blk.rtt before.length → (∀ j < before.length, ¬ ReadyAt s.blk.rtt j) →
      s.link.passResponse = none ∨ s.link.lastSource = .pass →
      exec .upstreamResponseGrant s = .next (finish { s with
        link := { s.link with
          lastSource := .entry
          returned := s.link.returned ++ [⟨.read, e.tag, e.oid, e.progData, if e.progError then .error else .ok⟩] }
        blk := (if e.outstanding = 0 then freed s.blk e (before ++ after)
          else { s.blk with rtt := before ++ { e with state := .drain } :: after }) })) ∧
    ∀ r, s.link.passResponse = some r → (s.link.lastSource = .entry ∨ ∀ k, ¬ ReadyAt s.blk.rtt k) →
      s.link.held = [] →
      exec .upstreamResponseGrant s = .next (finish { s with link := { s.link with
        passResponse := none, lastSource := .pass, returned := s.link.returned ++ [r] } })

/-! ## Responses -/

namespace Sys2Proof.Stated

/-- The response a response command brings. -/
def brings : Instr → Option DownResponse
  | .passResponseArrival kind tag oid data status => some (.engine kind tag oid data status)
  | .programmeResponse tag oid data status => some (.engine .read tag oid data status)
  | .fetchResponse n data status => some (.fetch n data status)
  | .lineWriteResponse p status => some (.lineWrite p status)
  | .reportWriteResponse status => some (.reportWrite status)
  | .statusWriteResponse status => some (.statusWrite status)
  | .powerOn | .resetPulse | .bootImageLoad _ | .acceptRead _ _ _ _ | .engineWrite _ _ _ _ _ _
  | .reportConsumerWord _ _ | .startChannel _ _ | .stopChannel _ | .writeLayout _ _ _ _ _ _ _ | .selectLayout _ _
  | .pushLayout _ _ | .popLayout _ | .fade _ _ _ _ | .assignPresenter _ _ _ _ | .setIngest _ _ _ _ _ _ _
  | .setMonitor _ _ | .forceMonitor _ _ _ | .clearMonitor _ _ | .clearFlags _ | .setReports _ | .restart
  | .unknownKind _ _ | .downstreamGrant | .joinLimitExpiry _ | .upstreamResponseGrant | .frameOpen _ _ _
  | .line _ _ _ | .frameClose _ | .damagedUnit _ _ | .lossLimitExpiry _ | .refreshPeriodExpiry
  | .restartCompletion => none

/-- An entry waits for the programme response of a pair. -/
def Awaits (tag : Tag) (oid : OrderId) (e : Entry) : Prop := e.tag = tag ∧ e.oid = oid ∧ e.state = .await

/-- A monitor when an entry's data has been counted in the zone the entry carries for it (R121). -/
def counted (d : Descriptor) (e : Entry) (zone : Option Rect) (m : Monitor) : Monitor :=
  match zone with
  | none => m
  | some z => { m with acc := min 4294967295 (m.acc + entryEdges d e m.cfg.threshold z) }

/-- An entry blended and DONE (R39). -/
def blendedEntry (d : Descriptor) (info : BlendInfo) (e : Entry) : Entry :=
  { e with progData := blendSpans d e info 0 info.spans e.progData, outcome := .blended, state := .done }

/-- An entry DONE and CLEAN. -/
def cleanEntry (e : Entry) : Entry := { e with outcome := .clean, state := .done }

end Sys2Proof.Stated

/-- An ENGINE response that belongs to no entry waits to be sent back: a write response answers the head of its pair's
write record, with ERROR for a null write; a read response lowers its pair's untracked count while that is above 0; in
LOADING and BYPASS every read response, in BYPASS every write response, waits as it came (R142, R144, R149, R151). It is
the model's choice that a response is taken so while its request still stands in the pass slot (log 31), and that a write
response whose pair's record is empty waits as it came (log 9). -/
def Obligations.PassResponsesWait : Prop :=
  ∀ (s : State) (tag : Tag) (oid : OrderId) (status : Status), s.link.passResponse = none →
    (∀ null rest, s.blk.mode ≠ .bypass → s.link.writeRecord tag oid = null :: rest →
      exec (.passResponseArrival .write tag oid [] status) s = .next (finish { s with
        link := { s.link.setWriteRecord tag oid rest with
          passResponse := some ⟨.write, tag, oid, [], if null then .error else status⟩ } })) ∧
    (s.blk.mode = .bypass ∨ s.link.writeRecord tag oid = [] →
      exec (.passResponseArrival .write tag oid [] status) s = .next (finish { s with
        link := { s.link with passResponse := some ⟨.write, tag, oid, [], status⟩ } })) ∧
    ∀ (data : List Byte) (i : Instr), beatsWf data = true →
      (i = .passResponseArrival .read tag oid data status ∨ i = .programmeResponse tag oid data status) →
      (s.blk.mode ≠ .bypass → 0 < s.link.untrackedOf tag oid →
        exec i s = .next (finish { s with
          link := { s.link.setUntracked tag oid (s.link.untrackedOf tag oid - 1) with
            passResponse := some ⟨.read, tag, oid, data, status⟩ } })) ∧
      (s.blk.mode = .bypass ∨ (s.blk.mode = .loading ∧ s.link.untrackedOf tag oid = 0) →
        exec i s = .next (finish { s with
          link := { s.link with passResponse := some ⟨.read, tag, oid, data, status⟩ } }))

/-- While a pass response waits, the downstream response port takes no other: whatever arrives waits behind it, in order,
without effect, and is taken in that order when the pass response has been sent (R149, R150; log 7). -/
def Obligations.ResponsesWaitBehindPassResponse : Prop :=
  ∀ (s : State) (w : UpResponse), s.link.passResponse = some w →
    (∀ (i : Instr) (r : DownResponse), brings i = some r → i.wf = true →
      exec i s = .next (finish { s with link := { s.link with held := s.link.held ++ [r] } })) ∧
    ∀ (r : DownResponse) (rest : List DownResponse) (t : State),
      s.link.held = r :: rest → (s.link.lastSource = .entry ∨ s.blk.readyEntry = none) →
      takeResponse (finish { s with link := { s.link with
        passResponse := none, lastSource := .pass, returned := s.link.returned ++ [w], held := [] } }) r = .ok t →
      exec .upstreamResponseGrant s = answerOf (releaseHeld rest (finish t))

/-- A programme response goes to the oldest AWAIT entry of its pair. With ERROR the entry is DONE and CLEAN. Otherwise its
data is counted for the frame it belongs to, and a PASS, MEASURE or fetch-error entry is DONE and CLEAN, a BLEND entry
with every fetch answered is blended and DONE, and any other enters JOIN with its deadline. A response no entry awaits,
or of another length, breaks what the part relies on (R29, R31, R32, R33, R36, R39, R121, R139; log 9). It is the model's
choice that a response is taken so while its read still stands in the pass slot (log 31). -/
def Obligations.ProgrammeResponseTable : Prop :=
  ∀ (s : State) (tag : Tag) (oid : OrderId) (data : List Byte) (status : Status) (i : Instr),
    InService s → s.link.passResponse = none → s.link.untrackedOf tag oid = 0 → beatsWf data = true →
    (i = .programmeResponse tag oid data status ∨ i = .passResponseArrival .read tag oid data status) →
    ((∀ e ∈ s.blk.rtt, ¬ Awaits tag oid e) → exec i s = .fault .noIssuer) ∧
    ∀ (before after : List Entry) (e : Entry), s.blk.rtt = before ++ e :: after → (s.blk.rtt.map Entry.num).Nodup →
      Awaits tag oid e → (∀ x ∈ before, ¬ Awaits tag oid x) →
      (data.length ≠ 16 * e.beats → exec i s = .fault .wrongBeats) ∧
      (data.length = 16 * e.beats →
        let ch := s.blk.chan e.chan
        let e1 := { e with progData := data }
        (status = .error → exec i s = .next (finish { s with
          blk := { s.blk with rtt := before ++ cleanEntry { e1 with progError := true } :: after } })) ∧
        (status = .ok →
          let b := if (ch.state = .running ∨ ch.state = .stopping) ∧ ch.frame = e.frame then
              s.blk.setChan e.chan { ch with
                monA := counted ch.desc e1 e.zoneA ch.monA, monB := counted ch.desc e1 e.zoneB ch.monB }
            else s.blk
          let e' := match e.kind with
            | .pass | .measure => cleanEntry e1
            | .blend info =>
              if e.fetchError = true then cleanEntry e1
              else if e.outstanding = 0 then blendedEntry ch.desc info e1
              else { e1 with state := .join (s.blk.timeBase + wordOfNat s.blk.image.joinLimit) }
          exec i s = .next (finish { s with blk := { b with rtt := before ++ e' :: after } })))

/-- A fetch response goes to the entry whose number is its tag and answers its next read. Data is kept while the entry is
in AWAIT or JOIN without a fetch error; the last one blends a JOIN entry and frees a DRAIN entry. The first ERROR makes
a JOIN entry DONE and CLEAN and raises a FETCH ERROR report, once per channel frame (R30, R34, R35, R38, R42, R139;
log 9). It is the model's choice that a response is taken so while the read it answers still stands in the fetch queue
(log 31). -/
def Obligations.FetchResponseTable : Prop :=
  ∀ (s : State) (n : Tag) (data : List Byte) (status : Status), s.link.passResponse = none → beatsWf data = true →
    ((∀ e ∈ s.blk.rtt, e.num = n → e.outstanding = 0 ∨ e.kind = .pass ∨ e.kind = .measure) →
      exec (.fetchResponse n data status) s = .fault .noIssuer) ∧
    ∀ (before after : List Entry) (e : Entry) (info : BlendInfo) (m offset beats : Nat),
      s.blk.rtt = before ++ e :: after → (s.blk.rtt.map Entry.num).Nodup → e.num = n → e.kind = .blend info →
      e.outstanding = m + 1 → (blendReads info)[(blendReads info).length - (m + 1)]? = some (offset, beats) →
      (data.length ≠ 16 * beats → exec (.fetchResponse n data status) s = .fault .wrongBeats) ∧
      (data.length = 16 * beats →
        let put := fun x : Entry => { s.blk with rtt := before ++ x :: after }
        let e1 := { e with outstanding := m }
        let e2 := { e1 with presData := e.presData ++ data }
        let failed := { e1 with fetchError := true }
        let marked := decide (status = .error) || e.fetchError
        (status = .ok → e.state = .await → exec (.fetchResponse n data status) s =
          .next (finish { s with blk := put (if e.fetchError = true then e1 else e2) })) ∧
        (∀ deadline, status = .ok → e.state = .join deadline → e.fetchError = false →
          exec (.fetchResponse n data status) s =
            .next (finish { s with blk := put (if m = 0 then blendedEntry (s.blk.chan e.chan).desc info e2 else e2) })) ∧
        (e.state = .done → exec (.fetchResponse n data status) s =
          .next (finish { s with blk := put { e1 with fetchError := marked } })) ∧
        (e.state = .drain →
          let b := if m = 0 then freed s.blk e (before ++ after) else put { e1 with fetchError := marked }
          exec (.fetchResponse n data status) s = .next (finish { s with blk := b })) ∧
        (∀ x, status = .error →
          (e.state = .await ∧ x = failed ∨ (∃ deadline, e.state = .join deadline) ∧ x = cleanEntry failed) →
          let ch := s.blk.chan e.chan
          let reported := ((put x).setChan e.chan { ch with lastFetchError := some e.frame }).raise .fetchError
            (.channel e.chan ch.frame)
            [e.frame, quadWord e.tag.toNat e.oid.toNat 0 0, wordOfNat e.addr.toNat, wordOfNat (e.addr.toNat / 2 ^ 32),
             quadWord info.slot.port.val info.slot.slot.val 0 0]
          let b := if e.fetchError = true ∨ ch.lastFetchError = some e.frame then put x else reported
          exec (.fetchResponse n data status) s = .next (finish { s with blk := b })))

/-- A write response of a port counts against the oldest frame in flight with writes outstanding; an ERROR gives it the
drop reason WRITE ERROR unless it is ABANDONED. A frame that is closed, with nothing queued or outstanding, is complete:
its slot becomes READY with the next capture number, which is the port's latest plus 1, or 1 after 4,294,967,295, or, when
the frame is dropped, FREE, with an INGEST DROP report for a damaged frame or a write error (R80, R81, R86, R90, R91;
log 9). An ERROR sets the slot's damaged mark while the slot is FILLING; that it leaves the mark of a SETTLING slot as it
is, is deduced (log 32). -/
def Obligations.LineWriteResponseCompletesFrames : Prop :=
  ∀ (s : State) (p : Fin 4) (status : Status), s.link.passResponse = none →
    ((∀ f ∈ (s.blk.port p).flights, f.outstanding = 0) → exec (.lineWriteResponse p status) s = .fault .noIssuer) ∧
    ∀ (before after : List Flight) (f : Flight) (m : Nat),
      (s.blk.port p).flights = before ++ f :: after → ((s.blk.port p).flights.map Flight.slot).Nodup →
      (∀ x ∈ before, x.outstanding = 0) → f.outstanding = m + 1 →
      let u := s.blk.port p
      let x := s.blk.slot p f.slot
      let reason := if status = .error ∧ f.reason ≠ .abandoned then .writeError else f.reason
      let damaged := x.damaged || (decide (status = .error) && decide (x.state = .filling))
      let complete := f.closed = true ∧ m = 0 ∧ ∀ e ∈ u.queue, e.slot ≠ f.slot
      (¬ complete → exec (.lineWriteResponse p status) s = .next (finish { s with
        blk := (s.blk.setPort p { u with
          flights := before ++ { f with outstanding := m, reason := reason } :: after }).setSlot p f.slot
            { x with damaged := damaged } })) ∧
      (complete →
        let b := s.blk.setPort p { u with flights := before ++ after }
        let latest := (s.blk.portSlots p).latest
        let number := if latest = 4294967295 then 1 else latest + 1
        let kept := b.setSlot p f.slot { x with state := .ready, capture := number }
        let dropped := b.setSlot p f.slot ⟨.free, 0, 0, 0, x.hold, false⟩
        let b' :=
          if reason = .none ∧ damaged = false then kept.setPortSlots p { kept.portSlots p with latest := number }
          else match reason with
            | .none | .abandoned => dropped
            | .damaged => dropped.raise .ingestDrop (.port p) [2, wordOfNat f.slot.val, pairWord x.w x.h, 0]
            | .writeError => dropped.raise .ingestDrop (.port p) [4, wordOfNat f.slot.val, pairWord x.w x.h, 0]
        exec (.lineWriteResponse p status) s = .next (finish { s with blk := b' }))

/-- A report write's response changes nothing, but an ERROR sets the lost flag; a status write's response returns the
status write to WAITING when it has been asked for again, otherwise to IDLE (R164, R167). It is the model's choice that a
status write response while none is in flight faults as noIssuer, and that a report write response is taken whenever the
part is in service (log 9). -/
def Obligations.ReportAndStatusWriteResponses : Prop :=
  ∀ (s : State) (status : Status), s.link.passResponse = none →
    (InService s → exec (.reportWriteResponse status) s = .next (finish { s with
      blk := { s.blk with rep := { s.blk.rep with lost := s.blk.rep.lost || decide (status = .error) } } })) ∧
    (s.blk.rep.status = .inFlight → exec (.statusWriteResponse status) s = .next (finish { s with
      blk := { s.blk with rep := { s.blk.rep with
        status := if s.blk.rep.again then .waiting else .idle, again := false } } })) ∧
    (s.blk.rep.status ≠ .inFlight → exec (.statusWriteResponse status) s = .fault .noIssuer)

/-! ## Presenter units -/

namespace Sys2Proof.Stated

/-- A port with the time of a good unit recorded (R62). -/
def heard (b : Blocks) (p : Fin 4) : Blocks := b.setPort p { b.port p with lastGood := some b.timeBase }

/-- The command is a unit of port `p`. -/
def IsUnit (p : Fin 4) (i : Instr) : Prop :=
  (∃ w h, i = .frameOpen p w h) ∨ (∃ n samples, i = .line p n samples) ∨ i = .frameClose p

/-- A FRAME OPEN carries a size a frame may have (R61). -/
def SizeGood (w h : Half) : Prop := 16 ≤ w.toNat ∧ w.toNat ≤ 1920 ∧ 16 ≤ h.toNat ∧ h.toNat ≤ 1080

end Sys2Proof.Stated

/-- A damaged unit has no effect, and no unit has any outside ACTIVE; neither has a FRAME OPEN of a size out of range, a
LINE or FRAME CLOSE in IDLE or LOST, or a LINE of the wrong length in RECEIVING (R61, R66, R67). -/
def Obligations.UnitsWithoutEffect : Prop :=
  ∀ (s : State) (p : Fin 4),
    (∀ unit, exec (.damagedUnit p unit) s = .next (finish s)) ∧
    (∀ i, IsUnit p i → s.blk.mode ≠ .active → exec i s = .next (finish s)) ∧
    (∀ w h, ¬ SizeGood w h → exec (.frameOpen p w h) s = .next (finish s)) ∧
    ((s.blk.port p).state = .idle ∨ (s.blk.port p).state = .lost →
      exec (.frameClose p) s = .next (finish s) ∧
      ∀ n samples, exec (.line p n samples) s = .next (finish s)) ∧
    ∀ f n samples, (s.blk.port p).state = .receiving f → samples.length ≠ f.srcW →
      exec (.line p n samples) s = .next (finish s)

/-- A good FRAME OPEN abandons the open frame of a RECEIVING port and ends the loss of a LOST one with an INPUT RESTORED
report. It then opens its frame: the claimed slot is FILLING with the frame's W × H and no capture number, a frame in
flight is added, and the port RECEIVING with the crop, target and steps that its settings give for this source; when no
slot can be claimed the port is DISCARDING, with an INGEST DROP report (R62, R63, R64, R71 to R74, R88). -/
def Obligations.FrameOpenClaimsSlot : Prop :=
  ∀ (s : State) (p : Fin 4) (w h : Half) (b : Blocks), s.blk.mode = .active → SizeGood w h →
    b = heard (match (s.blk.port p).state with
      | .receiving f => s.blk.abandonFrame p f true
      | .lost => s.blk.raise .inputRestored (.port p)
          [(s.blk.port p).lastGood.getD 0, pairWord w.toNat h.toNat]
      | .idle | .waiting | .discarding _ _ => s.blk) p →
    let u := b.port p
    (∀ i, b.claimSlot p = some i →
      let crop := cropOf u.settings w.toNat h.toNat
      let size := targetOf u.settings crop b.image.slotBytes
      exec (.frameOpen p w h) s = .next (finish { s with
        blk := (b.setSlot p i ⟨.filling, size.1, size.2, 0, (b.slot p i).hold, false⟩).setPort p { u with
          state := .receiving { srcW := w.toNat, srcH := h.toNat, crop := crop, w := size.1, h := size.2,
                                stepX := crop.w * 4096 / size.1, stepY := crop.h * 4096 / size.2, slot := i,
                                lastIndex := none, firstLine := none, lastLine := none, nextOut := 0 }
          flights := u.flights ++ [⟨i, size.1, false, .none, 0⟩] } })) ∧
    (b.claimSlot p = none →
      exec (.frameOpen p w h) s = .next (finish { s with
        blk := (b.setPort p { u with state := .discarding w.toNat h.toNat }).raise .ingestDrop (.port p)
          [1, 255, pairWord w.toNat h.toNat, 0] }))

namespace Sys2Proof.Stated

/-- A port's frame in flight of a slot takes the drop reason DAMAGED if it had none, and the slot, while FILLING, is marked
damaged (R77, R78, R80). -/
def damagedFrame (b : Blocks) (p : Fin 4) (i : Fin 16) : Blocks :=
  let u := b.port p
  let x := b.slot p i
  (b.setPort p { u with flights := u.flights.map fun g =>
      if g.slot = i ∧ g.reason = .none then { g with reason := .damaged } else g }).setSlot p i
    { x with damaged := x.damaged || (decide (x.state = .filling) && u.flights.any fun g => decide (g.slot = i)) }

/-- A line entry placed at the tail of a port's write queue, or, when the queue holds 4, discarded (R78). -/
def entryPlaced (b : Blocks) (p : Fin 4) (e : LineEntry) : Blocks :=
  if (b.port p).queue.length < 4 then b.setPort p { b.port p with queue := (b.port p).queue ++ [e] }
  else damagedFrame b p e.slot

end Sys2Proof.Stated

/-- A good LINE in WAITING or DISCARDING is only heard, and so is one of a RECEIVING port that repeats, goes back or lies
outside the crop. One that is taken is scaled, and while output lines remain it is entered and the line entries it makes
are placed in the write queue, one after the other: each goes to the tail while the queue holds fewer than 4 entries, and
otherwise is discarded, its frame's drop reason becoming DAMAGED if it was none, with its slot marked damaged while
FILLING (R62, R67, R70, R73, R75, R76, R78, R80). -/
def Obligations.LineEntersOpenFrame : Prop :=
  ∀ (s : State) (p : Fin 4) (index : Half) (samples : List K8), s.blk.mode = .active →
    ((s.blk.port p).state = .waiting ∨ (∃ w h, (s.blk.port p).state = .discarding w h) →
      exec (.line p index samples) s = .next (finish { s with blk := heard s.blk p })) ∧
    ∀ f, (s.blk.port p).state = .receiving f → samples.length = f.srcW →
      let inCrop := f.crop.y ≤ index.toNat ∧ index.toNat < f.crop.y + f.crop.h
      let rises := ∀ last, f.lastIndex = some last → last < index.toNat
      let u := { s.blk.port p with lastGood := some s.blk.timeBase }
      (¬ (inCrop ∧ rises) → exec (.line p index samples) s = .next (finish { s with blk := heard s.blk p })) ∧
      (inCrop → rises → f.h ≤ f.nextOut →
        exec (.line p index samples) s = .next (finish { s with
          blk := s.blk.setPort p { u with state := .receiving { f with lastIndex := some index.toNat } } })) ∧
      (inCrop → rises → f.nextOut < f.h →
        let r := index.toNat - f.crop.y
        let content := scaleLine f.crop f.w f.stepX samples
        let made := f.produce r content
        exec (.line p index samples) s = .next (finish { s with
          blk := made.1.foldl (fun b e => entryPlaced b p e) (s.blk.setPort p { u with state := .receiving { f with
            lastIndex := some index.toNat
            firstLine := some (f.firstLine.getD (r, content))
            lastLine := some (r, content)
            nextOut := made.2 } }) }))

namespace Sys2Proof.Stated

/-- The two-tap formula on one component (R73, R74). -/
def mixed (a b : Byte) (f : Nat) : Nat := (a.toNat * (4096 - f) + b.toNat * f + 2048) / 4096

/-- A pixel is the two-tap mix of two pixels, component by component. -/
def IsMix (q a b : K8) (f : Nat) : Prop :=
  q.y.toNat = mixed a.y b.y f ∧ q.cb.toNat = mixed a.cb b.cb f ∧ q.cr.toNat = mixed a.cr b.cr f ∧
    q.k.toNat = mixed a.k b.k f

/-- Pixel `i` of a line is the mix of a pixel of one line and a pixel of another. -/
def MixAt (pixels : List K8) (i : Nat) (a b : Option K8) (f : Nat) : Prop :=
  ∃ q, pixels[i]? = some q ∧ ∀ p p', a = some p → b = some p' → IsMix q p p' f

/-- The position of output column or line `i`, in steps of 1/4,096 (R73). -/
def place (step i : Nat) : Nat := i * step + step / 2 - 2048

/-- The clamp of a sample group (R70). -/
def IsClamped (p q : K8) : Prop :=
  q.y.toNat = max 16 (min 235 p.y.toNat) ∧ q.cb.toNat = max 16 (min 240 p.cb.toNat) ∧
    q.cr.toNat = max 16 (min 240 p.cr.toNat) ∧ q.k = p.k

/-- The width and height of a frame, from the target settings, the crop's size and the slot bytes, in the four steps of
R72. -/
def sizeBySteps (tw th cw ch slotBytes : Nat) : Nat × Nat :=
  let w1 := max 16 (min tw 960) - max 16 (min tw 960) % 4
  let h1 := max 16 (min th 1080)
  let w2 := if cw < w1 then cw - cw % 4 else w1
  let h2 := min h1 ch
  let h3 := if slotBytes < w2 * h2 * 4 then slotBytes / (w2 * 4) else h2
  if h3 < 16 then (4 * (slotBytes / 256), 16) else (w2, h3)

end Sys2Proof.Stated

/-- What a received crop line r produces: output lines in order from the next one on, each once, up to the first that needs
a later crop line (R74, R76). The lines that need an earlier one are one run with the content of the last received line,
or of r when none was received before; each line that requires r is an entry of count 1, the mix of its line t, held
where it lies before r, and of r (R76; log 15). The arithmetic of ingest: the sample clamp (R70), the crop (R71), the
target (R72) and the scaling of a line to W columns (R73), with the bounds the rules claim. -/
def Obligations.ReceivedLineProducesOutputLines : Prop :=
  (∀ (f : OpenFrame) (r : Nat) (content : List K8) (entries : List LineEntry) (next : Nat),
    f.nextOut ≤ f.h → f.produce r content = (entries, next) →
    let needs := fun j => min (place f.stepY j / 4096 + 1) (f.crop.h - 1)
    let held := match f.lastLine with
      | none => content
      | some (_, line) => line
    f.nextOut ≤ next ∧ next ≤ f.h ∧
      (∀ j, f.nextOut ≤ j → j < f.h → (j < next ↔ needs j ≤ r)) ∧
      (∀ e ∈ entries, e.slot = f.slot ∧ e.w = f.w ∧ e.linesDone = 0 ∧ e.beatsDone = 0 ∧ 1 ≤ e.count) ∧
      ((entries.flatMap fun e => (List.range e.count).map fun i => e.first + i) =
        (List.range (next - f.nextOut)).map fun i => f.nextOut + i) ∧
      ∃ run single, entries = run ++ single ∧ run.length ≤ 1 ∧
        (∀ e ∈ run, e.content = held ∧ ∀ i < e.count, needs (e.first + i) < r) ∧
        ∀ e ∈ single, e.count = 1 ∧ needs e.first = r ∧ e.content.length = f.w ∧
          ∀ i < f.w, MixAt e.content i ((if place f.stepY e.first / 4096 < r then held else content)[i]?) (content[i]?)
            (place f.stepY e.first % 4096)) ∧
  (∀ p : K8, IsClamped p (clampSample p)) ∧
  (∀ (s : IngestSettings) (w h : Nat), cropOf s w h =
    if s.cropX < w ∧ s.cropY < h ∧ 16 ≤ min s.cropW (w - s.cropX) ∧ 16 ≤ min s.cropH (h - s.cropY) then
      ⟨s.cropX, s.cropY, min s.cropW (w - s.cropX), min s.cropH (h - s.cropY)⟩
    else ⟨0, 0, w, h⟩) ∧
  (∀ (s : IngestSettings) (crop : Rect) (slotBytes : Nat),
    let size := targetOf s crop slotBytes
    size = sizeBySteps s.targetW s.targetH crop.w crop.h slotBytes ∧
      (16 ≤ crop.w → 16 ≤ crop.h → 4096 ≤ slotBytes →
        16 ≤ size.1 ∧ size.1 ≤ 960 ∧ size.1 % 4 = 0 ∧ size.1 ≤ crop.w ∧ 16 ≤ size.2 ∧ size.2 ≤ 1080 ∧
          size.2 ≤ crop.h ∧ size.1 * size.2 * 4 ≤ slotBytes)) ∧
  ∀ (crop : Rect) (w step : Nat) (samples : List K8), (scaleLine crop w step samples).length = w ∧
    ∀ i < w,
      let s := place step i / 4096
      MixAt (scaleLine crop w step samples) i (samples[crop.x + s]?.map clampSample)
        (samples[crop.x + min (s + 1) (crop.w - 1)]?.map clampSample) (place step i % 4096)

/-- FRAME CLOSE in WAITING is only heard, and ends the discarding of a DISCARDING port. In RECEIVING it produces the
output lines that remain, or gives a frame without a crop line the reason DAMAGED; the frame is closed, its slot SETTLING,
with damaged set when the frame is dropped, the port WAITING, and the frame complete if its writes are (R62, R66, R77,
R78, R80, R81, R90). -/
def Obligations.FrameCloseSettlesSlot : Prop :=
  ∀ (s : State) (p : Fin 4), s.blk.mode = .active →
    ((s.blk.port p).state = .waiting → exec (.frameClose p) s = .next (finish { s with blk := heard s.blk p })) ∧
    (∀ w h, (s.blk.port p).state = .discarding w h →
      exec (.frameClose p) s = .next (finish { s with
        blk := s.blk.setPort p { s.blk.port p with lastGood := some s.blk.timeBase, state := .waiting } })) ∧
    ∀ (f : OpenFrame) (b : Blocks) (u : Port), (s.blk.port p).state = .receiving f →
      b = (match f.lastLine with
        | none => damagedFrame (heard s.blk p) p f.slot
        | some (_, content) =>
          if f.nextOut < f.h then
            entryPlaced (heard s.blk p) p ⟨f.slot, f.w, f.nextOut, f.h - f.nextOut, content, 0, 0⟩
          else heard s.blk p) →
      u = b.port p →
      let drops := (u.flights.find? fun g => g.slot = f.slot).any fun g => g.reason ≠ .none
      exec (.frameClose p) s = .next (finish { s with
        blk := ((b.setPort p { u with
            state := .waiting
            flights := u.flights.map fun g => if g.slot = f.slot then { g with closed := true } else g }).setSlot p f.slot
              { b.slot p f.slot with state := .settling, damaged := (b.slot p f.slot).damaged || drops }).completeFlight
                p f.slot })

/-! ## Limits and RESTART -/

/-- The expiry of a JOIN entry's limit marks it late and makes it DONE and CLEAN, with a LATE PRESENTER report once per
channel frame. The expiry of a port's loss limit abandons its open frame and makes it LOST, with an INPUT LOST report.
The expiry of the refresh period asks for a status refresh. A limit that has not been reached has no expiry (R36, R37,
R38, R65, R68, R69, R166; log 2, log 22). -/
def Obligations.LimitsExpireWhenReached : Prop :=
  (∀ (s : State) (n : Tag),
    ((∀ e ∈ s.blk.rtt, e.num = n → ∀ d, e.state = .join d → 2147483648 ≤ (s.blk.timeBase - d).toNat) →
      exec (.joinLimitExpiry n) s = .next (finish s)) ∧
    ∀ (before after : List Entry) (e : Entry) (d : Word), s.blk.rtt = before ++ e :: after →
      (s.blk.rtt.map Entry.num).Nodup → e.num = n → e.state = .join d → (s.blk.timeBase - d).toNat < 2147483648 →
      let ch := s.blk.chan e.chan
      let b := { s.blk with rtt := before ++ cleanEntry { e with late := true } :: after }
      let reported := (b.setChan e.chan { ch with lastLate := some e.frame }).raise .latePresenter
        (.channel e.chan ch.frame)
        [e.frame, quadWord e.tag.toNat e.oid.toNat 0 0, wordOfNat e.addr.toNat, wordOfNat (e.addr.toNat / 2 ^ 32)]
      exec (.joinLimitExpiry n) s = .next (finish { s with
        blk := (if ch.lastLate = some e.frame then b else reported) })) ∧
  (∀ (s : State) (p : Fin 4) (u : Port), u = s.blk.port p →
    (s.blk.mode ≠ .active ∨ u.lastGood = none ∨ u.state = .idle ∨ u.state = .lost ∨
        (∀ t, u.lastGood = some t → (s.blk.timeBase - t).toNat ≤ s.blk.image.lossLimit) →
      exec (.lossLimitExpiry p) s = .next (finish s)) ∧
    ∀ t, s.blk.mode = .active → u.lastGood = some t → u.state ≠ .idle → u.state ≠ .lost →
      s.blk.image.lossLimit < (s.blk.timeBase - t).toNat →
      let b := match u.state with
        | .receiving f => s.blk.abandonFrame p f true
        | .idle | .waiting | .discarding _ _ | .lost => s.blk
      exec (.lossLimitExpiry p) s = .next (finish { s with
        blk := (b.setPort p { b.port p with state := .lost }).raise .inputLost (.port p)
          [t, wordOfNat (match u.state with
            | .idle => 0 | .waiting => 1 | .receiving _ => 2 | .discarding _ _ => 3 | .lost => 4)] })) ∧
  ∀ s : State,
    let due := InService s ∧ s.blk.image.refreshPeriod * 1000 ≤ (s.blk.timeBase - s.blk.rep.lastRefresh).toNat
    (¬ due → exec .refreshPeriodExpiry s = .next (finish s)) ∧
    (due → exec .refreshPeriodExpiry s = .next (finish { s with
      blk := { s.blk with rep := { s.blk.rep with lastRefresh := s.blk.timeBase } }.requestRefresh }))

/-- An abandoned frame is dropped as ABANDONED whatever its reason was, closed, its slot SETTLING and damaged, its port
WAITING; its queued lines stay; the INGEST DROP report carries the source size and the output lines produced; and it is
complete if nothing of it is queued or outstanding (R65, R81). -/
def Obligations.AbandonedFrameIsDropped : Prop :=
  ∀ (b : Blocks) (p : Fin 4) (f : OpenFrame), (b.port p).state = .receiving f →
    let u := b.port p
    b.abandonFrame p f true =
      (((b.setPort p { u with
          state := .waiting
          flights := u.flights.map fun g =>
            if g.slot = f.slot then { g with reason := .abandoned, closed := true } else g }).setSlot p f.slot
        { b.slot p f.slot with state := .settling, damaged := true }).raise .ingestDrop (.port p)
          [3, wordOfNat f.slot.val, pairWord f.srcW f.srcH, wordOfNat f.nextOut]).completeFlight p f.slot

/-- RESTART completes at the end of the first event after which every entry in use is PASS and undelivered, no fetch read
or line entry is queued and no slot is SETTLING: the slot tables are cleared, every channel's layout records and monitors
return to their first values and its deepest line to 0, the part is ACTIVE, RESTART DONE is raised, a refresh is asked
for, and the chain starts at the expected slot. RESTART_COMPLETION itself adds nothing to the end of an event (R19, R38,
R44, R83, R97, R116, R137, R158, R174; log 8, log 33). -/
def Obligations.RestartCompletesInOrder : Prop :=
  ∀ s : State,
    exec .restartCompletion s = .next (finish s) ∧
    (restartDrained s.blk = true ↔
      (∀ e ∈ s.blk.rtt, e.kind = .pass ∧ e.state ≠ .drain) ∧ s.blk.fetchQueue = [] ∧
        (∀ p, (s.blk.port p).queue = []) ∧ ∀ p i, (s.blk.slot p i).state ≠ .settling) ∧
    (s.blk.mode = .restarting → restartDrained s.blk = true →
      ∃ b b' : Blocks, b' = (b.raise .restartDone .none [s.blk.restartTime]).requestRefresh ∧
        b = { s.blk with mode := .active, slotTab := b.slotTab, chans := b.chans } ∧
        (∀ p i, b.slot p i = ⟨.free, 0, 0, 0, 0, false⟩) ∧ (∀ p, (b.portSlots p).latest = 0) ∧
        (∀ c, b.chan c = { s.blk.chan c with
          deepest := 0
          lay := layoutAtRest (s.blk.chan c).desc.home (s.blk.layout (s.blk.chan c).desc.home)
          monA := monitorAtRest (s.blk.chan c).monA.cfg
          monB := monitorAtRest (s.blk.chan c).monB.cfg
          lastLate := none
          lastFetchError := none }) ∧
        ((chain chainFuel s.cue b').2.mode = .active →
          finish s = acceptHead (endEvent { s with
            cue := (chain chainFuel s.cue b').1, blk := (chain chainFuel s.cue b').2 })))

/-! ## Arithmetic and state tables -/

namespace Sys2Proof.Stated

/-- A pixel lies in a span. -/
def InSpan (s : Span) (line column : Nat) : Prop := s.line = line ∧ s.first ≤ column ∧ column < s.first + s.count

/-- The first byte, in its slot, of the presenter pixel of a column of a span (R27). -/
def presenterByte (info : BlendInfo) (s : Span) (c : Nat) : Nat :=
  ((s.line - info.y) * info.slot.w + (c - info.x)) * 4

/-- The start of a span's byte range in its slot, widened to whole beats (R27). -/
def spanStart (info : BlendInfo) (s : Span) : Nat := presenterByte info s s.first / 16 * 16

/-- The beats of a span's widened range (R27). -/
def spanBeats (info : BlendInfo) (s : Span) : Nat :=
  ((presenterByte info s s.first + 4 * s.count + 15) / 16 * 16 - spanStart info s) / 16

/-- The presenter pixel of a column of a span, from the presenter data that holds `held` beats of earlier spans (R27). -/
def pixelOf (info : BlendInfo) (s : Span) (held : Nat) (pres : List Byte) (c : Nat) : K8 :=
  let at' := 16 * held + (presenterByte info s c - spanStart info s)
  ⟨pres.getD at' 0, pres.getD (at' + 1) 0, pres.getD (at' + 2) 0, pres.getD (at' + 3) 0⟩

/-- Bytes per pixel (R3). -/
def pixelBytes (d : Descriptor) : Nat := if d.format = .w10 then 4 else 2

/-- The address of the word of a line that begins at column `c` (R3). -/
def wordAddress (d : Descriptor) (k : Fin 4) (line c : Nat) : Nat := d.bases[k] + line * d.stride + c * pixelBytes d

/-- A word of a span begins at column `c`: each column in W10, each even column in P8 (R57). -/
def IsWordOf (d : Descriptor) (s : Span) (c : Nat) : Prop :=
  s.first ≤ c ∧ c < s.first + s.count ∧ (d.format = .p8 → c % 2 = 0)

end Sys2Proof.Stated

/-- The blend arithmetic: a W10 pixel by its components and the pixel's alpha, its spare bits kept; a P8 pair with each Y
by its own alpha and the shared chroma by the averages of the presenter chroma and of the alphas (R50 to R56). What it is
done to: the spans of a BLEND read are one or two, in line order, and hold exactly the request's pixels inside the inset
(R24); the companion fetches of a span are the beats of its widened byte range in order, in reads of 16 beats, the last
taking what remains, addressed from the slot base (R27); each word of a span is blended with the presenter pixels at the
place R27 gives, and every other byte stays as received (R39, R57, R58). -/
def Obligations.BlendArithmetic : Prop :=
  (∀ (w : Word) (l r : K8) (o : Nat), o ≤ 256 →
    let expanded := fun v : Nat => v * 4 + v / 64
    let blended := fun p s a : Nat => (p * (256 - a) + s * a + 128) / 256
    let a0 := (l.k.toNat * o + 127) / 255
    let a1 := (r.k.toNat * o + 127) / 255
    let half := fun x y : Nat => (x + y + 1) / 2
    let x := (blendW10 w l o).toNat
    let y := blendP8 w l r o
    let byte := fun k : Nat => (wordByte w k).toNat
    x % 1024 = blended (w.toNat % 1024) (expanded l.cb.toNat) a0 ∧
    x / 1024 % 1024 = blended (w.toNat / 1024 % 1024) (expanded l.y.toNat) a0 ∧
    x / 1048576 % 1024 = blended (w.toNat / 1048576 % 1024) (expanded l.cr.toNat) a0 ∧
    x / 1073741824 = w.toNat / 1073741824 ∧
    (wordByte y 0).toNat =
      blended (expanded (byte 0)) (expanded (half l.cb.toNat r.cb.toNat)) (half a0 a1) / 4 ∧
    (wordByte y 1).toNat = blended (expanded (byte 1)) (expanded l.y.toNat) a0 / 4 ∧
    (wordByte y 2).toNat =
      blended (expanded (byte 2)) (expanded (half l.cr.toNat r.cr.toNat)) (half a0 a1) / 4 ∧
    (wordByte y 3).toNat = blended (expanded (byte 3)) (expanded r.y.toNat) a1 / 4) ∧
  (∀ (b : Blocks) (c : Fin 8) (a beats : Nat) (info : BlendInfo) (zoneA zoneB : Option Rect),
    b.classify c a beats = (.blend info, zoneA, zoneB) →
    (info.spans.length = 1 ∨ info.spans.length = 2) ∧ (info.spans.map Span.line).Pairwise (· < ·) ∧
    (∀ s ∈ info.spans, 1 ≤ s.count) ∧
    ∀ line column, (∃ s ∈ info.spans, InSpan s line column) ↔
      (∃ run ∈ (b.chan c).desc.requestRuns a beats, InSpan run line column) ∧
        Inside ⟨info.x, info.y, info.slot.w, info.slot.h⟩ line column) ∧
  (∀ info : BlendInfo, ∃ reads : Span → List (Nat × Nat), blendReads info = info.spans.flatMap reads ∧
    ∀ s, ((reads s).flatMap fun r => (List.range r.2).map fun i => r.1 + 16 * i) =
        ((List.range (spanBeats info s)).map fun i => spanStart info s + 16 * i) ∧
      (∀ r ∈ reads s, 1 ≤ r.2 ∧ r.2 ≤ 16) ∧ ∀ r ∈ (reads s).dropLast, r.2 = 16) ∧
  (∀ (v : ImageValues) (n : Tag) (info : BlendInfo), fetchReads v n info = (blendReads info).map fun r =>
    ⟨n, BitVec.ofNat 40 (v.presBase + (info.slot.port.val * 16 + info.slot.slot.val) * v.slotBytes + r.1), r.2⟩) ∧
  ∀ (d : Descriptor) (e : Entry) (info : BlendInfo) (k : Fin 4) (data : List Byte),
    e.buffer = some k → e.format = d.format → (info.spans.map Span.line).Nodup →
    (∀ s ∈ info.spans, (s.first + s.count) * pixelBytes d ≤ d.stride ∧
      (d.format = .p8 → s.first % 2 = 0 ∧ s.count % 2 = 0)) →
    (∀ s ∈ info.spans, ∀ c, IsWordOf d s c → e.addr.toNat ≤ wordAddress d k s.line c ∧
      wordAddress d k s.line c + 4 ≤ e.addr.toNat + data.length) →
    let out := blendSpans d e info 0 info.spans data
    out.length = data.length ∧
    (∀ j s c, info.spans[j]? = some s → IsWordOf d s c →
      let place := wordAddress d k s.line c - e.addr.toNat
      let held := ((info.spans.take j).map (spanBeats info)).sum
      wordAt out place = match d.format with
        | .w10 => blendW10 (wordAt data place) (pixelOf info s held e.presData c) info.opacity
        | .p8 => blendP8 (wordAt data place) (pixelOf info s held e.presData c)
            (pixelOf info s held e.presData (c + 1)) info.opacity) ∧
    ∀ n, (∀ s ∈ info.spans, ∀ c, IsWordOf d s c → e.addr.toNat + n < wordAddress d k s.line c ∨
        wordAddress d k s.line c + 4 ≤ e.addr.toNat + n) → out.getD n 0 = data.getD n 0

namespace Sys2Proof.Stated

/-- The luma of a pixel of an entry's data: W10 Y as received, or the P8 sample Y0 or Y1 expanded to 10 bits (R50,
R121). -/
def lumaOf (d : Descriptor) (k : Fin 4) (e : Entry) (line c : Nat) : Nat :=
  match d.format with
  | .w10 => (wordAt e.progData (wordAddress d k line c - e.addr.toNat)).toNat / 1024 % 1024
  | .p8 =>
    let v := (wordByte (wordAt e.progData (wordAddress d k line (c / 2 * 2) - e.addr.toNat))
      (if c % 2 = 0 then 1 else 3)).toNat
    v * 4 + v / 64

end Sys2Proof.Stated

/-- An evaluation forms the activity from the accumulator and the zone, which it then clears, finds its effective level
(its own, or the other monitor's level with the offset, within 0..1000) and steps the computed state by a condition: "on"
at or beyond the level, "off" beyond it by more than the hysteresis, neither between (R124, R125, R126). The edges an
entry's data adds to the accumulator are the pairs of neighbouring pixels of one run of the request, both inside the
zone, whose lumas differ by at least the threshold (R121). -/
def Obligations.EvaluationFollowsLevelAndHysteresis : Prop :=
  (∀ (m other : Monitor) (zone : Rect) (above : Bool) (activity level : Nat),
    m.cfg.mode = (if above then .above else .below) → m.cfg.zone = some zone →
    activity = min 1000 (m.acc * 1000 / (zone.w * zone.h)) →
    (m.cfg.tracking = none ∧ level = m.cfg.level ∨
      ∃ offset : Int, m.cfg.tracking = some offset ∧ (level : Int) = min 1000 (max 0 (other.cfg.level + offset))) →
    ∃ c, m.evaluate other = { m with activity := activity, acc := 0 }.stepComputed c ∧
      (above = true → (c = .on ↔ level ≤ activity) ∧
        (c = .off ↔ activity < max 0 ((level : Int) - m.cfg.hysteresis))) ∧
      (above = false → (c = .on ↔ activity ≤ level) ∧ (c = .off ↔ level + m.cfg.hysteresis < activity))) ∧
  ∀ (d : Descriptor) (e : Entry) (k : Fin 4) (threshold : Nat) (zone : Rect), e.buffer = some k →
    e.format = d.format →
    entryEdges d e threshold zone = ((d.runs k e.addr.toNat e.beats).map fun run =>
      (List.range (run.count - 1)).countP fun i => decide (
        zone.y ≤ run.line ∧ run.line < zone.y + zone.h ∧ zone.x ≤ run.first + i ∧
        run.first + i + 1 < zone.x + zone.w ∧
        (threshold : Int) ≤ |(lumaOf d k e run.line (run.first + i) : Int) -
          lumaOf d k e run.line (run.first + i + 1)|)).sum

/-- The next computed state of an evaluation, by the table of 07 section 7.5 (R127 to R130): a make sets the shot count
of a ONE-SHOT monitor; counts that run out move the state on. That the count of a PENDING state that is left is held as 0,
and that a count of 0 there has run out, is the model's choice (log 36). -/
def Obligations.MonitorStateTable : Prop :=
  ∀ (m : Monitor) (c : Condition),
    let made := { m with computed := .active, onCount := 0,
                         shotCount := if m.cfg.delayKind = .oneShot then m.cfg.offDelay else m.shotCount }
    m.stepComputed c = match m.computed, c with
      | .inhibited, .off | .spent, .off => { m with computed := .idle }
      | .inhibited, _ | .spent, _ => m
      | .idle, .on =>
        if m.cfg.onDelay = 0 then made else { m with computed := .pendingOn, onCount := m.cfg.onDelay }
      | .idle, _ => m
      | .pendingOn, .on => if m.onCount ≤ 1 then made else { m with onCount := m.onCount - 1 }
      | .pendingOn, _ => { m with computed := .idle, onCount := 0 }
      | .pendingOff, .off =>
        if m.offCount ≤ 1 then { m with computed := .idle, offCount := 0 } else { m with offCount := m.offCount - 1 }
      | .pendingOff, _ => { m with computed := .active, offCount := 0 }
      | .active, _ => match m.cfg.delayKind with
        | .latched => m
        | .oneShot =>
          if m.shotCount ≤ 1 then { m with computed := .spent, shotCount := 0 }
          else { m with shotCount := m.shotCount - 1 }
        | .steady =>
          if c = .off then
            if m.cfg.offDelay = 0 then { m with computed := .idle }
            else { m with computed := .pendingOff, offCount := m.cfg.offDelay }
          else m

/-! ## Invariants that every step keeps -/

/-- Reset meets every invariant below; the blank layout table, glides and fades that `LayoutsInRange` finds there are the
model's choice (log 11). -/
def Obligations.ResetMeetsTheInvariants : Prop :=
  Rested State.reset ∧ SparseForms State.reset ∧ TablesFit State.reset ∧ QuietOutsideService State.reset ∧
    HoldsCounted State.reset.blk ∧ GeometryInService State.reset.blk ∧ LayoutsInRange State.reset ∧ RingKept State.reset

/-- Every event is finished: after any command that completes, attention, the starvation count, RESTART and the upstream
port stand as R147, R165, R174, R26 and R140 leave them. -/
def Obligations.EveryCommandLeavesThePartRested : Prop :=
  ∀ s t : State, s.pending ≠ [] → step s = .next t → Rested t

/-- The sparse memories keep their canonical form, the shadow its 2,048 bytes and the counts their range (R142, R144,
R153). -/
def Obligations.SparseMemoriesKeepTheirForm : Prop :=
  ∀ s t : State, SparseForms s → step s = .next t → SparseForms t

/-- No table or queue outgrows its size, and no entry number is in use twice (R20, R26, R78, R103, R163). -/
def Obligations.TablesNeverOverflow : Prop :=
  ∀ s t : State, TablesFit s → step s = .next t → TablesFit t

/-- In LOADING and BYPASS nothing is tracked, queued, written or shown (R45, R84, R99, R168, R172). -/
def Obligations.LoadingAndBypassStayQuiet : Prop :=
  ∀ s t : State, QuietOutsideService s → step s = .next t → QuietOutsideService t

/-- A slot's hold count is always the number of latched geometries and BLEND entries that refer to it (R92). -/
def Obligations.HoldsAreCounted : Prop :=
  ∀ s t : State, GeometryInService s.blk → HoldsCounted s.blk → step s = .next t →
    GeometryInService t.blk ∧ HoldsCounted t.blk

/-- The layout table and every channel's glide and fade stay within their ranges (R101, R112, R113, R114). -/
def Obligations.LayoutsStayInRange : Prop :=
  ∀ s t : State, LayoutsInRange s → step s = .next t → LayoutsInRange t

/-- The ring's indexes stay positions of it, never further apart than its size: no record that software has not released
is written over (R162, R164). -/
def Obligations.RingNeverOverruns : Prop :=
  ∀ s t : State, RingKept s → step s = .next t → RingKept t

end
end

