-- ==== Sys2Proof/Laws/Words.lean ====
section
/-! SUPPORT. The bytes of a little-endian word, and words put into a list of bytes. -/

namespace Sys2Proof.Machine

/-- The bits of a word made of four bytes. -/
theorem getLsbD_wordOf (a b c d : Byte) (i : Nat) : (wordOf a b c d).getLsbD i =
    if i < 8 then a.getLsbD i else if i < 16 then b.getLsbD (i - 8) else if i < 24 then c.getLsbD (i - 16)
    else d.getLsbD (i - 24) := by
  unfold wordOf
  change BitVec.getLsbD (w := 8 + 8 + 8 + 8) (d ++ c ++ b ++ a) i = _
  rw [BitVec.getLsbD_append, BitVec.getLsbD_append, BitVec.getLsbD_append]
  have h1 : (i < 16) = (i - 8 < 8 ∨ i < 8) := by apply propext; omega
  have h2 : (i < 24) = (i - 8 - 8 < 8 ∨ i < 16) := by apply propext; omega
  have h3 : i - 8 - 8 = i - 16 := by omega
  have h4 : i - 16 - 8 = i - 24 := by omega
  by_cases e0 : i < 8
  · simp [e0]
  · by_cases e1 : i < 16
    · have : i - 8 < 8 := by omega
      simp [e0, e1, this]
    · by_cases e2 : i < 24
      · have t1 : ¬ i - 8 < 8 := by omega
        have t2 : i - 16 < 8 := by omega
        simp [e0, e1, e2, t1, t2, h3]
      · have t1 : ¬ i - 8 < 8 := by omega
        have t2 : ¬ i - 16 < 8 := by omega
        simp [e0, e1, e2, t1, t2, h3, h4]

/-- A word is made of its bytes. -/
theorem wordOf_wordByte (w : Word) : wordOf (wordByte w 0) (wordByte w 1) (wordByte w 2) (wordByte w 3) = w := by
  apply BitVec.eq_of_getLsbD_eq
  intro i hi
  rw [getLsbD_wordOf]
  simp only [wordByte, BitVec.getLsbD_extractLsb']
  split
  · simp [*]
  · split
    · simp only [show i - 8 < 8 by omega, decide_true, Bool.true_and]; congr 1; omega
    · split
      · simp only [show i - 16 < 8 by omega, decide_true, Bool.true_and]; congr 1; omega
      · simp only [show i - 24 < 8 by omega, decide_true, Bool.true_and]; congr 1; omega

/-- The bytes of a word are those it was made of. -/
theorem wordByte_wordOf (a b c d : Byte) (k : Nat) (hk : k < 4) :
    wordByte (wordOf a b c d) k = [a, b, c, d].getD k 0 := by
  apply BitVec.eq_of_getLsbD_eq
  intro i hi
  simp only [wordByte, BitVec.getLsbD_extractLsb', getLsbD_wordOf, hi, decide_true, Bool.true_and]
  match k, hk with
  | 0, _ => simp [hi]
  | 1, _ => simp [show ¬ 8 + i < 8 by omega, show 8 + i < 16 by omega]
  | 2, _ => simp [show ¬ 16 + i < 8 by omega, show ¬ 16 + i < 16 by omega, show 16 + i < 24 by omega]
  | 3, _ => simp [show ¬ 24 + i < 8 by omega, show ¬ 24 + i < 16 by omega, show ¬ 24 + i < 24 by omega]

/-- The bits of a word made of two halves. -/
theorem getLsbD_halves (hi lo : Half) (i : Nat) :
    BitVec.getLsbD (w := 32) (hi ++ lo) i = if i < 16 then lo.getLsbD i else hi.getLsbD (i - 16) := by
  change BitVec.getLsbD (w := 16 + 16) (hi ++ lo) i = _
  rw [BitVec.getLsbD_append]

/-- The low half of two halves. -/
theorem lowHalf_append (hi lo : Half) : lowHalf (hi ++ lo) = lo := by
  apply BitVec.eq_of_getLsbD_eq
  intro i h
  simp only [lowHalf, BitVec.getLsbD_extractLsb', getLsbD_halves, h, decide_true, Bool.true_and, Nat.zero_add, if_true]

/-- The high half of two halves. -/
theorem highHalf_append (hi lo : Half) : highHalf (hi ++ lo) = hi := by
  apply BitVec.eq_of_getLsbD_eq
  intro i h
  simp only [highHalf, BitVec.getLsbD_extractLsb', getLsbD_halves, h, decide_true, Bool.true_and,
    if_neg (show ¬ 16 + i < 16 by omega), Nat.add_sub_cancel_left]

/-- The lowest byte of two halves, the low one made of two bytes. -/
theorem wordByte_halves (hi : Half) (b1 b0 : Byte) : wordByte (hi ++ (b1 ++ b0 : Half)) 0 = b0 := by
  apply BitVec.eq_of_getLsbD_eq
  intro i h
  unfold wordByte
  rw [BitVec.getLsbD_extractLsb', Nat.mul_zero, Nat.zero_add, getLsbD_halves,
    if_pos (show i < 16 by omega)]
  simp only [h, decide_true, Bool.true_and]
  change BitVec.getLsbD (w := 8 + 8) (b1 ++ b0) i = _
  rw [BitVec.getLsbD_append]
  simp [h]

/-- A byte of a word as a number. -/
theorem wordByte_toNat (w : Word) (k : Nat) : (wordByte w k).toNat = w.toNat / 256 ^ k % 256 := by
  unfold wordByte
  rw [BitVec.extractLsb'_toNat, Nat.shiftRight_eq_div_pow, Nat.pow_mul]

/-- The low half of a word as a number. -/
theorem lowHalf_toNat (w : Word) : (lowHalf w).toNat = w.toNat % 2 ^ 16 := by
  simp [lowHalf]

/-- The high half of a word as a number. -/
theorem highHalf_toNat (w : Word) : (highHalf w).toNat = w.toNat / 2 ^ 16 % 2 ^ 16 := by
  simp [highHalf, Nat.shiftRight_eq_div_pow]

/-- A bit of a word, from the word as a number. -/
theorem getLsbD_toNat (w : Word) (k : Nat) : w.getLsbD k = decide (w.toNat / 2 ^ k % 2 = 1) := by
  rw [← BitVec.testBit_toNat, Nat.testBit_eq_decide_div_mod_eq]

/-- A word made of four bytes as a number. -/
theorem wordOf_toNat (b0 b1 b2 b3 : Byte) : (wordOf b0 b1 b2 b3).toNat =
    b0.toNat + 256 * b1.toNat + 65536 * b2.toNat + 16777216 * b3.toNat := by
  unfold wordOf
  have h0 := b0.isLt
  have h1 := b1.isLt
  have h2 := b2.isLt
  have h3 := b3.isLt
  rw [BitVec.toNat_append, BitVec.toNat_append, BitVec.toNat_append]
  rw [← Nat.shiftLeft_add_eq_or_of_lt (by omega), ← Nat.shiftLeft_add_eq_or_of_lt (by omega),
    ← Nat.shiftLeft_add_eq_or_of_lt (by omega)]
  simp only [Nat.shiftLeft_eq]
  omega

/-! ## Words put into bytes -/

@[simp] theorem putWord_length (bytes : List Byte) (i : Nat) (w : Word) :
    (putWord bytes i w).length = bytes.length := by
  simp [putWord]

/-- The bytes after a word has been put in. -/
theorem byteAt_putWord (bytes : List Byte) (i n : Nat) (w : Word) (h : i + 4 ≤ bytes.length) :
    byteAt (putWord bytes i w) n = if i ≤ n ∧ n < i + 4 then wordByte w (n - i) else byteAt bytes n := by
  unfold byteAt putWord
  simp only [List.getD_eq_getElem?_getD, List.getElem?_set, List.length_set]
  by_cases h0 : i ≤ n ∧ n < i + 4
  · rw [if_pos h0]
    obtain ⟨k, hk, rfl⟩ : ∃ k, k < 4 ∧ n = i + k := ⟨n - i, by omega, by omega⟩
    rw [Nat.add_sub_cancel_left]
    have hl : i + k < bytes.length := by omega
    interval_cases k
    · simp [show i < bytes.length by omega]
    all_goals simp [hl]
  · rw [if_neg h0, if_neg (by omega), if_neg (by omega), if_neg (by omega), if_neg (by omega)]

/-- A word put in reads back. -/
theorem wordAt_putWord_same (bytes : List Byte) (i : Nat) (w : Word) (h : i + 4 ≤ bytes.length) :
    wordAt (putWord bytes i w) i = w := by
  unfold wordAt
  simp only [byteAt_putWord _ _ _ _ h]
  rw [if_pos (by omega), if_pos (by omega), if_pos (by omega), if_pos (by omega)]
  simp only [Nat.sub_self, Nat.add_sub_cancel_left]
  exact wordOf_wordByte w

/-- A word apart from the one put in stays. -/
theorem wordAt_putWord_ne (bytes : List Byte) (i j : Nat) (w : Word) (h : i + 4 ≤ bytes.length)
    (hd : i + 4 ≤ j ∨ j + 4 ≤ i) : wordAt (putWord bytes i w) j = wordAt bytes j := by
  unfold wordAt
  simp only [byteAt_putWord _ _ _ _ h]
  rw [if_neg (by omega), if_neg (by omega), if_neg (by omega), if_neg (by omega)]

/-- Words changed in place, one after another. -/
def putWords (data : List Byte) (changes : List (Nat × (Word → Word))) : List Byte :=
  changes.foldl (fun d w => putWord d w.1 (w.2 (wordAt d w.1))) data

/-- Words changed at places apart from each other: each is changed once, the rest stays. -/
theorem putWords_spec (ws : List (Nat × (Word → Word))) (data : List Byte)
    (hin : ∀ w ∈ ws, w.1 + 4 ≤ data.length) (hd : ws.Pairwise fun a b => a.1 + 4 ≤ b.1 ∨ b.1 + 4 ≤ a.1) :
    (putWords data ws).length = data.length ∧
    (∀ w ∈ ws, wordAt (putWords data ws) w.1 = w.2 (wordAt data w.1)) ∧
    (∀ j, (∀ w ∈ ws, w.1 + 4 ≤ j ∨ j + 4 ≤ w.1) → wordAt (putWords data ws) j = wordAt data j) ∧
    ∀ n, (∀ w ∈ ws, n < w.1 ∨ w.1 + 4 ≤ n) → byteAt (putWords data ws) n = byteAt data n := by
  induction ws generalizing data with
  | nil => exact ⟨rfl, by simp, fun _ _ => rfl, fun _ _ => rfl⟩
  | cons w ws ih =>
    obtain ⟨hw, hd'⟩ := List.pairwise_cons.1 hd
    have hw0 := hin w (by simp)
    have hl := putWord_length data w.1 (w.2 (wordAt data w.1))
    obtain ⟨h1, h2, h3, h4⟩ := ih (putWord data w.1 (w.2 (wordAt data w.1)))
      (fun x hx => by rw [hl]; exact hin x (by simp [hx])) hd'
    rw [show putWords data (w :: ws) = putWords (putWord data w.1 (w.2 (wordAt data w.1))) ws from rfl]
    refine ⟨h1.trans hl, ?_, ?_, ?_⟩
    · intro x hx
      rcases List.mem_cons.1 hx with rfl | hx
      · rw [h3 _ (fun y hy => by have := hw y hy; omega), wordAt_putWord_same _ _ _ hw0]
      · rw [h2 x hx, wordAt_putWord_ne _ _ _ _ hw0 (hw x hx)]
    · intro j hj
      rw [h3 j (fun y hy => hj y (by simp [hy])), wordAt_putWord_ne _ _ _ _ hw0 (hj w (by simp))]
    · intro n hn
      rw [h4 n (fun y hy => hn y (by simp [hy])), byteAt_putWord _ _ _ _ hw0, if_neg]
      have := hn w (by simp)
      omega

end Sys2Proof.Machine
end

