-- ==== Sys2Proof/Laws/Blend.lean ====
section
/-! SUPPORT. The runs of a request and their parts inside a rectangle, the reads of a widened range, and the blending of an entry as
a list of words changed in place. -/

namespace Sys2Proof.Machine

/-! ## Runs and rectangles (R4, R24) -/

/-- The line of a run. -/
theorem runOf_line (d : Descriptor) (o n l : Nat) (s : Span) (h : d.runOf o n l = some s) : s.line = l := by
  unfold Descriptor.runOf at h
  simp only at h
  split at h
  · have := Option.some.inj h
    rw [← this]
  · cases h

/-- A request has at most two runs, in line order (R4). -/
theorem requestRuns_lines (d : Descriptor) (a beats : Nat) :
    ((d.requestRuns a beats).map Span.line).Pairwise (· < ·) ∧ (d.requestRuns a beats).length ≤ 2 := by
  unfold Descriptor.requestRuns
  split
  · simp
  · rename_i k _
    unfold Descriptor.runs
    simp only
    generalize d.offset k a / d.stride = l
    cases h1 : d.runOf (d.offset k a) (beats * 16) l <;> cases h2 : d.runOf (d.offset k a) (beats * 16) (l + 1) <;>
      simp [h1, h2]
    rw [runOf_line _ _ _ _ _ h1, runOf_line _ _ _ _ _ h2]
    omega

/-- The part of a run inside a rectangle: on its line, not empty, the columns of the run that lie inside. -/
theorem inside_some (s t : Span) (r : Rect) (h : s.inside r = some t) : t.line = s.line ∧ 1 ≤ t.count ∧
    ∀ c, (t.first ≤ c ∧ c < t.first + t.count) ↔ (s.first ≤ c ∧ c < s.first + s.count) ∧
      r.y ≤ s.line ∧ s.line < r.y + r.h ∧ r.x ≤ c ∧ c < r.x + r.w := by
  unfold Span.inside at h
  simp only at h
  split at h
  · have := Option.some.inj h
    subst this
    refine ⟨rfl, by simp only; omega, fun c => ?_⟩
    constructor <;> intro _ <;> simp only at * <;> omega
  · cases h

/-- A run with no part inside a rectangle has no column there. -/
theorem inside_none (s : Span) (r : Rect) (h : s.inside r = none) (c : Nat) :
    ¬ ((s.first ≤ c ∧ c < s.first + s.count) ∧ r.y ≤ s.line ∧ s.line < r.y + r.h ∧ r.x ≤ c ∧ c < r.x + r.w) := by
  unfold Span.inside at h
  simp only at h
  split at h
  · cases h
  · omega

/-! ## The reads of a widened range (R27) -/

/-- The reads of a range are its beats in order. -/
theorem rangeReads_beats (start n : Nat) :
    ((rangeReads (start, start + 16 * n)).flatMap fun r => (List.range r.2).map fun i => r.1 + 16 * i) =
      (List.range n).map fun i => start + 16 * i := by
  have key : ∀ m n a, (n + 15) / 16 = m →
      (((List.range m).map fun i => (a + 256 * i, min 16 (n - 16 * i))).flatMap fun r =>
        (List.range r.2).map fun i => r.1 + 16 * i) = (List.range n).map fun i => a + 16 * i := by
    intro m
    induction m with
    | zero =>
      intro n a h
      have : n = 0 := by omega
      subst this
      rfl
    | succ m ih =>
      intro n a h
      rw [List.range_succ_eq_map, List.map_cons, List.flatMap_cons]
      simp only [Nat.mul_zero, Nat.add_zero, Nat.sub_zero, List.map_map]
      have e : ((fun i => (a + 256 * i, min 16 (n - 16 * i))) ∘ Nat.succ) =
          fun i => (a + 256 + 256 * i, min 16 (n - 16 - 16 * i)) := by
        funext i
        simp only [Function.comp, Nat.succ_eq_add_one]
        congr 1
        · ring
        · congr 1
          omega
      rw [e, ih (n - 16) (a + 256) (by omega)]
      have hn : n = min 16 n + (n - 16) := by omega
      conv_rhs => rw [hn, List.range_add]
      rw [List.map_append, List.map_map]
      congr 1
      apply List.map_congr_left
      intro i hi
      rw [List.mem_range] at hi
      simp only [Function.comp]
      omega
  unfold rangeReads
  simp only
  rw [show (start + 16 * n - start) / 16 = n by omega]
  exact key _ n start rfl

/-- Every read has 1 to 16 beats, and all but the last 16. -/
theorem rangeReads_sizes (range : Nat × Nat) : (∀ r ∈ rangeReads range, 1 ≤ r.2 ∧ r.2 ≤ 16) ∧
    ∀ r ∈ (rangeReads range).dropLast, r.2 = 16 := by
  unfold rangeReads
  simp only
  generalize (range.2 - range.1) / 16 = n
  refine ⟨?_, ?_⟩
  · intro r hr
    simp only [List.mem_map, List.mem_range] at hr
    obtain ⟨i, hi, rfl⟩ := hr
    simp only
    omega
  · intro r hr
    rw [← List.map_dropLast] at hr
    simp only [List.mem_map] at hr
    obtain ⟨i, hi, rfl⟩ := hr
    have : i + 1 < (n + 15) / 16 := by
      rcases Nat.eq_zero_or_pos ((n + 15) / 16) with h0 | h0
      · rw [h0] at hi
        simp at hi
      · obtain ⟨m, hm⟩ : ∃ m, (n + 15) / 16 = m + 1 := ⟨_, (Nat.succ_pred_eq_of_pos h0).symm⟩
        rw [hm, List.range_succ, List.dropLast_concat, List.mem_range] at hi
        omega
    simp only
    omega

/-! ## The words an entry blends (R39, R57) -/

/-- The words a span blends: the place of each in the data, and its change. -/
def spanWords (d : Descriptor) (e : Entry) (info : BlendInfo) (s : Span) (held : Nat) : List (Nat × (Word → Word)) :=
  match e.format with
  | .w10 => (List.range s.count).map fun i =>
    (progOffset d e s.line (s.first + i),
      fun w => blendW10 w (presPixel info s held e.presData (s.first + i)) info.opacity)
  | .p8 => (List.range (s.count / 2)).map fun i =>
    (progOffset d e s.line (s.first + 2 * i),
      fun w => blendP8 w (presPixel info s held e.presData (s.first + 2 * i))
        (presPixel info s held e.presData (s.first + 2 * i + 1)) info.opacity)

/-- The words of several spans; `held` counts the presenter beats of earlier ones. -/
def spansWords (d : Descriptor) (e : Entry) (info : BlendInfo) : Nat → List Span → List (Nat × (Word → Word))
  | _, [] => []
  | held, s :: rest =>
    spanWords d e info s held ++
      spansWords d e info (held + ((spanRange info s).2 - (spanRange info s).1) / 16) rest

theorem blendSpan_eq_putWords (d : Descriptor) (e : Entry) (info : BlendInfo) (s : Span) (held : Nat)
    (data : List Byte) : blendSpan d e info s held data = putWords data (spanWords d e info s held) := by
  unfold blendSpan spanWords putWords
  cases e.format <;> simp only [List.foldl_map]

/-- Blending the spans of an entry changes their words in place. -/
theorem blendSpans_eq_putWords (d : Descriptor) (e : Entry) (info : BlendInfo) (spans : List Span) (held : Nat)
    (data : List Byte) : blendSpans d e info held spans data = putWords data (spansWords d e info held spans) := by
  induction spans generalizing held data with
  | nil => rfl
  | cons s rest ih =>
    unfold blendSpans spansWords
    simp only
    rw [ih, blendSpan_eq_putWords]
    unfold putWords
    rw [List.foldl_append]

/-- The words of several spans are the words of each, with the beats of the spans before it. -/
theorem mem_spansWords (d : Descriptor) (e : Entry) (info : BlendInfo) (spans : List Span) (held : Nat)
    (x : Nat × (Word → Word)) : x ∈ spansWords d e info held spans ↔
      ∃ j s, spans[j]? = some s ∧ x ∈ spanWords d e info s (held +
        ((spans.take j).map fun t => ((spanRange info t).2 - (spanRange info t).1) / 16).sum) := by
  induction spans generalizing held with
  | nil => simp [spansWords]
  | cons s rest ih =>
    unfold spansWords
    rw [List.mem_append, ih]
    constructor
    · rintro (h | ⟨j, t, h1, h2⟩)
      · exact ⟨0, s, rfl, by simpa using h⟩
      · exact ⟨j + 1, t, by simpa using h1, by simpa [Nat.add_assoc] using h2⟩
    · rintro ⟨j, t, h1, h2⟩
      cases j with
      | zero =>
        simp at h1
        subst h1
        left
        simpa using h2
      | succ j =>
        right
        exact ⟨j, t, by simpa using h1, by simpa [Nat.add_assoc] using h2⟩

/-! ## Edges (R121) -/

/-- Counting in a range what lies in a window of it. -/
theorem countP_window (n lo m : Nat) (P Q : Nat → Bool)
    (hPQ : ∀ i, Q i = (decide (lo ≤ i ∧ i < lo + m) && P i)) (h : lo + m ≤ n ∨ m = 0) :
    (List.range n).countP Q = (List.range m).countP fun i => P (lo + i) := by
  rcases h with h | h
  · have e : n = lo + (m + (n - lo - m)) := by omega
    rw [e, List.range_add, List.countP_append, List.range_add, List.map_append, List.countP_append, List.countP_map,
      List.map_map, List.countP_map]
    have z1 : (List.range lo).countP Q = 0 := by
      rw [List.countP_eq_zero]
      intro i hi
      rw [List.mem_range] at hi
      rw [hPQ]
      simp
      omega
    have z2 : (List.range (n - lo - m)).countP (Q ∘ ((fun x => lo + x) ∘ fun x => m + x)) = 0 := by
      rw [List.countP_eq_zero]
      intro i hi
      simp only [Function.comp]
      rw [hPQ]
      simp
    rw [z1, z2, Nat.zero_add, Nat.add_zero]
    apply List.countP_congr
    intro i hi
    rw [List.mem_range] at hi
    simp only [Function.comp]
    rw [hPQ]
    simp [hi]
  · subst h
    rw [List.range_zero, List.countP_nil, List.countP_eq_zero]
    intro i _
    rw [hPQ]
    simp

end Sys2Proof.Machine
end

