-- ==== Sys2Proof/Laws/Boot.lean ====
section
/-! SUPPORT. What the clamps of the boot image and of the monitor records give, in numbers. -/

namespace Sys2Proof.Machine

/-- A number lowered to the last layout entry (R2, R118). -/
theorem layoutClamp_eq (n : Nat) : layoutClamp n = ⟨min 31 n, by omega⟩ := by
  unfold layoutClamp layoutOf
  split <;> (apply Fin.ext; simp only [Option.getD_some, Option.getD_none]; omega)

/-- A zone that does not lie wholly outside a raster (R119). -/
theorem zoneOutside_eq (z : Rect) (width height : Nat) : zoneOutside z width height =
    !decide (z.x < width ∧ z.y < height ∧ z.w ≠ 0 ∧ z.h ≠ 0) := by
  unfold zoneOutside
  rw [Bool.eq_iff_iff]
  simp
  omega

/-- The offset of a monitor: the two's-complement number of 16 bits, within −1000..1000 (R118). -/
theorem offsetClamp_eq (h : Half) : offsetClamp h =
    max (-1000) (min 1000 (if h.toNat < 32768 then (h.toNat : Int) else h.toNat - 65536)) := by
  unfold offsetClamp
  rw [BitVec.toInt_eq_toNat_cond]
  congr 2
  split <;> split <;> omega

/-- A layout entry brought into range: what it holds lies in the ranges of its table (R101). -/
theorem layoutInRange_bounds (x y opacity glide fade prescale : Nat) :
    let e := layoutInRange x y opacity glide fade prescale
    e.x ≤ 4094 ∧ e.x % 2 = 0 ∧ e.y ≤ 2302 ∧ e.opacity ≤ 256 ∧ e.glide ≤ 255 ∧ e.fade ≤ 255 ∧ 1 ≤ e.prescale ∧
      e.prescale ≤ 16 := by
  unfold layoutInRange
  simp only
  omega

end Sys2Proof.Machine
end

