-- ==== Sys2Proof/Laws/Memory.lean ====
section
/-! SUPPORT. What a read of the sparse memory gives after a write, and that every write keeps the canonical form. -/

namespace Sys2Proof.Machine

section
variable {α : Type}

theorem Memory.not_mem_remove (m : List (Nat × α)) (a : Nat) : ∀ c ∈ Memory.remove m a, c.1 ≠ a := by
  induction m with
  | nil => simp [Memory.remove]
  | cons c rest ih =>
    by_cases hk : c.1 = a
    · simpa [Memory.remove, hk] using ih
    · simpa [Memory.remove, hk] using ih

theorem Memory.get_remove (d : α) (m : List (Nat × α)) (a b : Nat) :
    Memory.get d (Memory.remove m a) b = if b = a then d else Memory.get d m b := by
  induction m with
  | nil => simp [Memory.get, Memory.remove]
  | cons c rest ih =>
    obtain ⟨k, v⟩ := c
    by_cases hk : k = a
    · subst hk
      by_cases hb : b = k
      · subst hb
        simpa [Memory.remove] using ih
      · have hb' : ¬ k = b := fun h => hb h.symm
        simp [Memory.remove, Memory.get, ih, hb, hb']
    · by_cases hb : k = b
      · subst hb
        simp [Memory.remove, Memory.get, hk]
      · simp [Memory.remove, Memory.get, hk, hb, ih]

theorem Memory.get_insert (d : α) (m : List (Nat × α)) (a b : Nat) (v : α) (h : ∀ c ∈ m, c.1 ≠ a) :
    Memory.get d (Memory.insert m a v) b = if b = a then v else Memory.get d m b := by
  induction m with
  | nil => simp [Memory.get, Memory.insert, eq_comm]
  | cons c rest ih =>
    obtain ⟨k, w⟩ := c
    have hk : ¬ k = a := h (k, w) (by simp)
    have ih := ih fun c hc => h c (List.mem_cons_of_mem _ hc)
    by_cases hlt : a < k
    · simp [Memory.insert, hlt, Memory.get, eq_comm]
    · by_cases hb : k = b
      · subst hb
        simp [Memory.insert, hlt, Memory.get, hk]
      · simp [Memory.insert, hlt, Memory.get, hb, ih]

variable [DecidableEq α]

/-- A read after a write: the value written at its key, the old value elsewhere. -/
theorem Memory.get_set (d : α) (m : List (Nat × α)) (a b : Nat) (v : α) :
    Memory.get d (Memory.set d m a v) b = if b = a then v else Memory.get d m b := by
  unfold Memory.set
  by_cases hv : v = d
  · simp [hv, Memory.get_remove]
  · rw [if_neg hv, Memory.get_insert d _ a b v (Memory.not_mem_remove m a), Memory.get_remove]
    by_cases hb : b = a <;> simp [hb]

theorem Memory.get_set_same (d : α) (m : List (Nat × α)) (a : Nat) (v : α) :
    Memory.get d (Memory.set d m a v) a = v := by simp [Memory.get_set]

theorem Memory.get_set_ne (d : α) (m : List (Nat × α)) (a b : Nat) (v : α) (h : b ≠ a) :
    Memory.get d (Memory.set d m a v) b = Memory.get d m b := by simp [Memory.get_set, h]

theorem Memory.wfFrom_mono (d : α) (m : List (Nat × α)) {lo lo' : Nat} (h : lo' ≤ lo)
    (hm : Memory.wfFrom d lo m = true) : Memory.wfFrom d lo' m = true := by
  cases m with
  | nil => rfl
  | cons c rest =>
    simp only [Memory.wfFrom, Bool.and_eq_true, decide_eq_true_eq] at hm ⊢
    exact ⟨⟨le_trans h hm.1.1, hm.1.2⟩, hm.2⟩

theorem Memory.wfFrom_remove (d : α) (m : List (Nat × α)) (a lo : Nat) (hm : Memory.wfFrom d lo m = true) :
    Memory.wfFrom d lo (Memory.remove m a) = true := by
  induction m generalizing lo with
  | nil => rfl
  | cons c rest ih =>
    simp only [Memory.wfFrom, Bool.and_eq_true, decide_eq_true_eq] at hm
    by_cases hk : c.1 = a
    · simpa [Memory.remove, hk] using ih _ (Memory.wfFrom_mono d rest (by omega) hm.2)
    · simp only [Memory.remove, hk, if_false, Memory.wfFrom, Bool.and_eq_true, decide_eq_true_eq]
      exact ⟨hm.1, ih _ hm.2⟩

theorem Memory.wfFrom_insert (d : α) (m : List (Nat × α)) (a lo : Nat) (v : α) (hv : v ≠ d) (hlo : lo ≤ a)
    (hne : ∀ c ∈ m, c.1 ≠ a) (hm : Memory.wfFrom d lo m = true) :
    Memory.wfFrom d lo (Memory.insert m a v) = true := by
  induction m generalizing lo with
  | nil => simp [Memory.insert, Memory.wfFrom, hlo, hv]
  | cons c rest ih =>
    have hk : c.1 ≠ a := hne c (by simp)
    simp only [Memory.wfFrom, Bool.and_eq_true, decide_eq_true_eq] at hm
    by_cases hlt : a < c.1
    · simp only [Memory.insert, hlt, if_true, Memory.wfFrom, Bool.and_eq_true, decide_eq_true_eq]
      exact ⟨⟨hlo, hv⟩, ⟨by omega, hm.1.2⟩, hm.2⟩
    · simp only [Memory.insert, hlt, if_false, Memory.wfFrom, Bool.and_eq_true, decide_eq_true_eq]
      exact ⟨hm.1, ih _ (by omega) (fun c hc => hne c (List.mem_cons_of_mem _ hc)) hm.2⟩

/-- A write keeps the canonical form. -/
theorem Memory.wf_set (d : α) (m : List (Nat × α)) (a : Nat) (v : α) (hm : Memory.wf d m = true) :
    Memory.wf d (Memory.set d m a v) = true := by
  unfold Memory.set Memory.wf at *
  by_cases hv : v = d
  · simpa [hv] using Memory.wfFrom_remove d m a 0 hm
  · rw [if_neg hv]
    exact Memory.wfFrom_insert d _ a 0 v hv (Nat.zero_le _) (Memory.not_mem_remove m a)
      (Memory.wfFrom_remove d m a 0 hm)

/-- The writes of a list of cells keep the canonical form. -/
theorem Memory.wf_setAll (d : α) (cells : List (Nat × α)) (m : List (Nat × α)) (hm : Memory.wf d m = true) :
    Memory.wf d (Memory.setAll d m cells) = true := by
  unfold Memory.setAll
  induction cells generalizing m with
  | nil => exact hm
  | cons c rest ih => exact ih _ (Memory.wf_set d m c.1 c.2 hm)

theorem Memory.wf_nil (d : α) : Memory.wf d ([] : List (Nat × α)) = true := rfl

/-- A key no cell names keeps its value under the writes of a list of cells. -/
theorem Memory.get_setAll_of_notMem (d : α) (cells : List (Nat × α)) (m : List (Nat × α)) (a : Nat)
    (h : ∀ c ∈ cells, c.1 ≠ a) : Memory.get d (Memory.setAll d m cells) a = Memory.get d m a := by
  unfold Memory.setAll
  induction cells generalizing m with
  | nil => rfl
  | cons c rest ih =>
    rw [List.foldl_cons, ih _ fun c hc => h c (List.mem_cons_of_mem _ hc),
      Memory.get_set_ne d m c.1 a c.2 (Ne.symm (h c (by simp)))]

end

end Sys2Proof.Machine
end

