-- ==== Sys2Proof/Laws/Cues.lean ====
section
/-! SUPPORT. What a stored cue reads back as, and what the chain does. -/

namespace Sys2Proof.Machine

/-! ## Runs of cells -/

theorem mem_cellsFrom {a : Nat} {bytes : List Byte} {c : Host.Cell} (h : c ∈ cellsFrom a bytes) :
    a ≤ c.1 ∧ c.1 < a + bytes.length := by
  induction bytes generalizing a with
  | nil => simp [cellsFrom] at h
  | cons x rest ih =>
    simp only [cellsFrom, List.mem_cons] at h
    rcases h with h | h
    · subst h; simp
    · have := ih h
      simp only [List.length_cons]; omega

/-- A byte of a run written from an address on, and every other byte as it was. -/
theorem get_setAll_cellsFrom (m : List Host.Cell) (a k : Nat) (bytes : List Byte) :
    Memory.get (0 : Byte) (Memory.setAll 0 m (cellsFrom a bytes)) k =
      if a ≤ k ∧ k < a + bytes.length then bytes.getD (k - a) 0 else Memory.get 0 m k := by
  induction bytes generalizing a m with
  | nil =>
    have : ¬ (a ≤ k ∧ k < a + ([] : List Byte).length) := by simp
    rw [if_neg this]; rfl
  | cons x rest ih =>
    have step : Memory.setAll (0 : Byte) m (cellsFrom a (x :: rest)) =
        Memory.setAll 0 (Memory.set 0 m a x) (cellsFrom (a + 1) rest) := rfl
    rw [step, ih]
    by_cases h1 : k = a
    · subst h1
      simp [Memory.get_set_same]
    · by_cases h2 : a + 1 ≤ k ∧ k < a + 1 + rest.length
      · have h3 : a ≤ k ∧ k < a + (x :: rest).length := by simp only [List.length_cons]; omega
        rw [if_pos h2, if_pos h3]
        obtain ⟨j, rfl⟩ : ∃ j, k = a + 1 + j := ⟨k - (a + 1), by omega⟩
        have e1 : a + 1 + j - (a + 1) = j := by omega
        have e2 : a + 1 + j - a = j + 1 := by omega
        rw [e1, e2]; rfl
      · have h3 : ¬ (a ≤ k ∧ k < a + (x :: rest).length) := by simp only [List.length_cons]; omega
        rw [if_neg h2, if_neg h3, Memory.get_set_ne _ _ _ _ _ h1]

/-! ## The stored slot -/

theorem slotBytes_length (r : CueRecord) (lap : Bool) : (r.slotBytes lap).length = 64 := by
  rw [CueRecord.slotBytes, List.length_flatMap]
  have : (r.slotWords lap).map (fun w => (wordBytes w).length) = (r.slotWords lap).map fun _ => 4 := rfl
  rw [this]
  rw [List.map_const', List.sum_replicate]
  simp [CueRecord.slotWords]

theorem byte_store (u : CueUnit) (s : Fin 32) (lap : Bool) (r : CueRecord) (k : Nat) :
    (u.store s lap r).byte k =
      if 64 * s.val ≤ k ∧ k < 64 * s.val + 64 then (r.slotBytes lap).getD (k - 64 * s.val) 0 else u.byte k := by
  have := get_setAll_cellsFrom u.shadow (64 * s.val) k (r.slotBytes lap)
  rw [slotBytes_length] at this
  exact this

@[simp] theorem store_slot (u : CueUnit) (s : Fin 32) (lap : Bool) (r : CueRecord) : (u.store s lap r).slot =
    u.slot := rfl

@[simp] theorem store_lap (u : CueUnit) (s : Fin 32) (lap : Bool) (r : CueRecord) : (u.store s lap r).lap =
    u.lap := rfl

theorem getD_flatMap_wordBytes (ws : List Word) (i k : Nat) (hk : k < 4) :
    (ws.flatMap wordBytes).getD (4 * i + k) 0 = wordByte (ws.getD i 0) k := by
  induction ws generalizing i with
  | nil => simp [wordByte]
  | cons w rest ih =>
    cases i with
    | zero =>
      match k, hk with
      | 0, _ | 1, _ | 2, _ | 3, _ => simp [wordBytes]
    | succ i =>
      have : 4 * (i + 1) + k = (wordBytes w).length + (4 * i + k) := by simp [wordBytes]; omega
      rw [List.flatMap_cons, this]
      simp only [List.getD_eq_getElem?_getD] at ih ⊢
      rw [List.getElem?_append_right (by omega)]
      simpa using ih i

/-- A byte of a slot just stored. -/
theorem byte_store_same (u : CueUnit) (s : Fin 32) (lap : Bool) (r : CueRecord) (i k : Nat) (hi : i < 16)
    (hk : k < 4) :
    (u.store s lap r).byte (64 * s.val + (4 * i + k)) = wordByte ((r.slotWords lap).getD i 0) k := by
  rw [byte_store, if_pos (by omega), Nat.add_sub_cancel_left]
  exact getD_flatMap_wordBytes _ i k hk

/-- A word of a slot just stored. -/
theorem slotWord_store (u : CueUnit) (s : Fin 32) (lap : Bool) (r : CueRecord) (i : Nat) (hi : i < 16) :
    (u.store s lap r).slotWord s i = (r.slotWords lap).getD i 0 := by
  unfold CueUnit.slotWord
  have h0 := byte_store_same u s lap r i 0 hi (by omega)
  have h1 := byte_store_same u s lap r i 1 hi (by omega)
  have h2 := byte_store_same u s lap r i 2 hi (by omega)
  have h3 := byte_store_same u s lap r i 3 hi (by omega)
  simp only [Nat.add_zero, ← Nat.add_assoc] at h0 h1 h2 h3
  simp only [h0, h1, h2, h3, wordOf_wordByte]

/-- A cue with its words 1 to 15 written out. -/
def CueRecord.padded (r : CueRecord) : CueRecord := { r with words := (List.range 15).map fun i => r.words.getD i 0 }

/-- A stored cue reads back as it was stored. -/
theorem record_store (u : CueUnit) (s : Fin 32) (lap : Bool) (r : CueRecord) :
    (u.store s lap r).record s = r.padded := by
  have h0 := byte_store_same u s lap r 0 0 (by omega) (by omega)
  have h1 := byte_store_same u s lap r 0 1 (by omega) (by omega)
  have post : (r.slotWords lap).getD 0 0 = wordOf r.kind r.target 0 (byteOfNat (128 * bitOf lap)) := rfl
  rw [post, wordByte_wordOf _ _ _ _ _ (by omega)] at h0 h1
  have hw : ((List.range 15).map fun i => (u.store s lap r).slotWord s (i + 1)) =
      (List.range 15).map fun i => r.words.getD i 0 := by
    apply List.map_congr_left
    intro i hi
    have hi : i < 15 := by simpa using hi
    rw [slotWord_store u s lap r (i + 1) (by omega)]
    simp [CueRecord.slotWords, List.getD_eq_getElem?_getD, hi]
  unfold CueUnit.record CueRecord.padded
  simp only [Nat.mul_zero, Nat.add_zero, Nat.zero_add] at h0 h1
  rw [h0, h1, hw]
  simp

/-- The lap of a stored cue. -/
theorem slotLap_store (u : CueUnit) (s : Fin 32) (lap : Bool) (r : CueRecord) : (u.store s lap r).slotLap s =
    lap := by
  have h3 := byte_store_same u s lap r 0 3 (by omega) (by omega)
  have post : (r.slotWords lap).getD 0 0 = wordOf r.kind r.target 0 (byteOfNat (128 * bitOf lap)) := rfl
  rw [post, wordByte_wordOf _ _ _ _ _ (by omega)] at h3
  simp only [Nat.mul_zero, Nat.zero_add] at h3
  rw [CueUnit.slotLap, h3]
  change (byteOfNat (128 * bitOf lap)).getLsbD 7 = lap
  cases lap <;> decide

/-- Storing a cue leaves the laps of the other slots. -/
theorem slotLap_store_ne (u : CueUnit) (s s' : Fin 32) (lap : Bool) (r : CueRecord) (h : s' ≠ s) :
    (u.store s lap r).slotLap s' = u.slotLap s' := by
  have : s'.val ≠ s.val := fun e => h (Fin.ext e)
  rw [CueUnit.slotLap, byte_store, if_neg (by omega), CueUnit.slotLap]

/-- The words of a cue written out. -/
theorem word_padded (r : CueRecord) (n : Nat) (h : n ≤ 15) : r.padded.word n = r.word n := by
  have hn : n - 1 < 15 := by omega
  simp [CueRecord.word, CueRecord.padded, List.getD_eq_getElem?_getD, hn]

/-! ## The chain (R157) -/

@[simp] theorem advance_shadow (u : CueUnit) : u.advance.shadow = u.shadow := rfl

/-- One taking, whether or not it is due. -/
def CueUnit.ahead (u : CueUnit) : Nat → CueUnit
  | 0 => u
  | n + 1 => u.advance.ahead n

theorem ahead_shadow (u : CueUnit) (n : Nat) : (u.ahead n).shadow = u.shadow := by
  induction n generalizing u with
  | zero => rfl
  | succ n ih => exact ih u.advance

/-- The slot and lap after `n` takings. -/
def slotAhead : Nat → Fin 32 → Bool → Fin 32 × Bool
  | 0, s, l => (s, l)
  | n + 1, s, l => slotAhead n (nextSlot s l).1 (nextSlot s l).2

theorem ahead_slot (u : CueUnit) (n : Nat) : ((u.ahead n).slot, (u.ahead n).lap) = slotAhead n u.slot u.lap := by
  induction n generalizing u with
  | zero => rfl
  | succ n ih => exact ih u.advance

theorem nextSlot_rank : ∀ (s : Fin 32) (l : Bool),
    (nextSlot s l).1.val + 32 * bitOf (nextSlot s l).2 = (s.val + 32 * bitOf l + 1) % 64 := by decide

theorem slotAhead_rank (n : Nat) (s : Fin 32) (l : Bool) :
    (slotAhead n s l).1.val + 32 * bitOf (slotAhead n s l).2 = (s.val + 32 * bitOf l + n) % 64 := by
  induction n generalizing s l with
  | zero => cases l <;> simp [slotAhead, bitOf] <;> omega
  | succ n ih =>
    rw [slotAhead, ih, nextSlot_rank]
    omega

theorem slotAhead_whole_ring (s : Fin 32) (l : Bool) : slotAhead 32 s l = (s, !l) := by
  have h := slotAhead_rank 32 s l
  generalize slotAhead 32 s l = t at h ⊢
  obtain ⟨s', l'⟩ := t
  have hs := s.isLt
  have hs' := s'.isLt
  cases l <;> cases l' <;> simp only [bitOf] at h <;> norm_num at h <;>
    first
      | omega
      | (have : s' = s := Fin.ext (by omega)
         subst this; rfl)

/-- A posted slot is not posted again a whole ring later (R157). -/
theorem exists_unposted (u : CueUnit) : ∃ j, j ≤ 32 ∧ (u.ahead j).posted = false := by
  by_cases h : u.posted = true
  · refine ⟨32, le_refl _, ?_⟩
    have hs := ahead_slot u 32
    rw [slotAhead_whole_ring] at hs
    have hsh := ahead_shadow u 32
    generalize u.ahead 32 = v at hs hsh ⊢
    have h1 : v.slot = u.slot := (Prod.mk.inj hs).1
    have h2 : v.lap = !u.lap := (Prod.mk.inj hs).2
    have hb : ∀ k, v.byte k = u.byte k := fun k => by simp [CueUnit.byte, hsh]
    simp only [CueUnit.posted, CueUnit.slotLap, h1, h2, hb] at h ⊢
    have e := eq_of_beq h
    rw [e]
    cases u.lap <;> rfl
  · exact ⟨0, by omega, by simpa [CueUnit.ahead] using h⟩

theorem takeSlot_fst (u : CueUnit) (b : Blocks) : (takeSlot u b).1 = u.advance := rfl

theorem chain_succ (n : Nat) (u : CueUnit) (b : Blocks) : chain (n + 1) u b =
    if b.mode = .active ∧ u.posted = true then chain n u.advance (carryOut u.slot (u.record u.slot) b) else (u, b) := rfl

theorem chain_stable_of (n : Nat) (u : CueUnit) (b : Blocks) (h : ∃ j, j ≤ n ∧ (u.ahead j).posted = false) :
    chain (n + 1) u b = chain n u b := by
  induction n generalizing u b with
  | zero =>
    obtain ⟨j, hj, hp⟩ := h
    have : j = 0 := by omega
    subst this
    have hp : u.posted = false := hp
    simp [chain, hp]
  | succ n ih =>
    by_cases hc : b.mode = .active ∧ u.posted = true
    · rw [chain_succ (n + 1), if_pos hc]
      conv_rhs => rw [chain_succ n, if_pos hc]
      refine ih _ _ ?_
      obtain ⟨j, hj, hp⟩ := h
      cases j with
      | zero => exact absurd hc.2 (by simpa [CueUnit.ahead] using hp)
      | succ j => exact ⟨j, by omega, hp⟩
    · rw [chain_succ (n + 1), if_neg hc, chain_succ n, if_neg hc]

theorem chain_ends_of (n : Nat) (u : CueUnit) (b : Blocks) (h : ∃ j, j ≤ n ∧ (u.ahead j).posted = false) :
    ¬ ((chain n u b).2.mode = .active ∧ (chain n u b).1.posted = true) := by
  induction n generalizing u b with
  | zero =>
    obtain ⟨j, hj, hp⟩ := h
    have : j = 0 := by omega
    subst this
    have hp : u.posted = false := hp
    simp [chain, hp]
  | succ n ih =>
    rw [chain_succ]
    by_cases hc : b.mode = .active ∧ u.posted = true
    · rw [if_pos hc]
      refine ih _ _ ?_
      obtain ⟨j, hj, hp⟩ := h
      cases j with
      | zero => exact absurd hc.2 (by simpa [CueUnit.ahead] using hp)
      | succ j => exact ⟨j, by omega, hp⟩
    · rw [if_neg hc]; exact hc

/-- The bound on a chain is never met: one more changes nothing. -/
theorem chain_stable (u : CueUnit) (b : Blocks) : chain 32 u b = chain chainFuel u b :=
  (chain_stable_of 32 u b (exists_unposted u)).symm

/-- What a chain does when the expected slot is posted: it takes it and goes on. -/
theorem chain_posted_taken (u : CueUnit) (b : Blocks) (hm : b.mode = .active) (hp : u.posted = true) :
    chain chainFuel u b = chain chainFuel u.advance (carryOut u.slot (u.record u.slot) b) := by
  have h := chain_succ 32 u b
  rw [if_pos ⟨hm, hp⟩, chain_stable] at h
  exact h

/-- What a chain does when the expected slot is not posted, or the part is not ACTIVE: nothing. -/
theorem chain_idle (n : Nat) (u : CueUnit) (b : Blocks) (h : ¬ (b.mode = .active ∧ u.posted = true)) :
    chain n u b = (u, b) := by
  cases n with
  | zero => rfl
  | succ n => rw [chain, if_neg h]

/-- A chain changes the expected slot and lap alone of the cue unit. -/
theorem chain_shadow (n : Nat) (u : CueUnit) (b : Blocks) : (chain n u b).1.shadow = u.shadow := by
  induction n generalizing u b with
  | zero => rfl
  | succ n ih =>
    rw [chain]
    split
    · exact ih _ _
    · rfl

/-- Storing a posted cue in the expected slot posts it (R155). -/
theorem posted_store (u : CueUnit) (r : CueRecord) : (u.store u.slot u.lap r).posted = true := by
  simp [CueUnit.posted, slotLap_store]

/-- A cue posted in ACTIVE is taken, and the chain goes on behind it (R156, R157). -/
theorem postCue_active (r : CueRecord) (u : CueUnit) (b : Blocks) (hm : b.mode = .active) :
    postCue r u b = chain chainFuel (u.store u.slot u.lap r).advance (carryOut u.slot r.padded b) := by
  unfold postCue
  rw [hm]
  change chain chainFuel (u.store u.slot u.lap r) b = _
  rw [chain_posted_taken _ _ hm (posted_store u r)]
  rw [show (u.store u.slot u.lap r).slot = u.slot from rfl, record_store]

/-! ## The fields of a SET MONITOR cue -/

/-- The fields read from a SET MONITOR record are those it was made from (12 section 12.2). -/
theorem monitorFields_monitorWords (f : MonitorFields) (kind target : Byte) :
    monitorFields (CueRecord.padded ⟨kind, target, monitorWords f⟩).word = f := by
  have h : ∀ n, 1 ≤ n → n ≤ 15 →
      (CueRecord.padded ⟨kind, target, monitorWords f⟩).word n = (monitorWords f).getD (n - 1) 0 :=
    fun n _ hn => word_padded _ n hn
  have ht : wordByte (f.offset ++ (0#8 ++ f.tracking)) 0 = f.tracking := wordByte_halves _ _ _
  have hi : (wordOfNat (bitOf f.inhibit))[0] = f.inhibit := by
    cases f.inhibit <;> decide
  unfold monitorFields
  simp only [h _ (by omega : 1 ≤ 1) (by omega), h 2 (by omega) (by omega), h 3 (by omega) (by omega),
    h 4 (by omega) (by omega), h 5 (by omega) (by omega), h 6 (by omega) (by omega), h 7 (by omega) (by omega),
    h 8 (by omega) (by omega), h 9 (by omega) (by omega), h 10 (by omega) (by omega), h 11 (by omega) (by omega),
    h 12 (by omega) (by omega)]
  simp [monitorWords, wordByte_wordOf, lowHalf_append, highHalf_append, ht, hi]

/-! ## Where a cue is posted in RESTARTING -/

/-- The first slot from the expected one on that does not carry its lap. -/
theorem postPlace_at (u : CueUnit) (s : Fin 32) (l : Bool) (n k : Nat) (hk : k < n)
    (hw : ∀ j < k, u.slotLap (slotAhead j s l).1 = (slotAhead j s l).2)
    (hn : u.slotLap (slotAhead k s l).1 ≠ (slotAhead k s l).2) :
    postPlace u n s l = some (slotAhead k s l) := by
  induction n generalizing s l k with
  | zero => omega
  | succ n ih =>
    rw [postPlace]
    cases k with
    | zero => rw [if_neg (show ¬ u.slotLap s = l from hn)]; rfl
    | succ k =>
      rw [if_pos (show u.slotLap s = l from hw 0 (by omega))]
      exact ih _ _ k (by omega) (fun j hj => hw (j+1) (by omega)) hn

/-- No slot while the whole ring waits. -/
theorem postPlace_none (u : CueUnit) (s : Fin 32) (l : Bool) (n : Nat) 
    (hw : ∀ j < n, u.slotLap (slotAhead j s l).1 = (slotAhead j s l).2) : postPlace u n s l = none := by
  induction n generalizing s l with
  | zero => rfl
  | succ n ih =>
    rw [postPlace, if_pos (show u.slotLap s = l from hw 0 (by omega))]
    exact ih _ _ (fun j hj => hw (j+1) (by omega))

end Sys2Proof.Machine
end

