-- ==== Sys2Proof/Laws/Events.lean ====
section
/-! SUPPORT. What ends an event: the completion of RESTART, the starvation count, the attention output, the acceptance of a
waiting request. -/

namespace Sys2Proof.Machine

/-! ## The chain and the completions of RESTART -/

theorem ahead_add (u : CueUnit) (m n : Nat) : (u.ahead m).ahead n = u.ahead (m + n) := by
  induction m generalizing u with
  | zero => simp [CueUnit.ahead]
  | succ m ih =>
    rw [Nat.add_right_comm m 1 n]
    exact ih u.advance

/-- Where a chain leaves the cue unit: `m` takings on, none of them at a slot that is not posted; with none, the blocks
are as they were. -/
theorem chain_ahead (n : Nat) (u : CueUnit) (b : Blocks) :
    ∃ m, (chain n u b).1 = u.ahead m ∧ (m = 0 → (chain n u b).2 = b) ∧
      ∀ j, (u.ahead j).posted = false → m ≤ j := by
  induction n generalizing u b with
  | zero => exact ⟨0, rfl, fun _ => rfl, fun _ _ => Nat.zero_le _⟩
  | succ n ih =>
    rw [chain_succ]
    by_cases hc : b.mode = .active ∧ u.posted = true
    · rw [if_pos hc]
      obtain ⟨m, h1, _, h3⟩ := ih u.advance (carryOut u.slot (u.record u.slot) b)
      refine ⟨m + 1, h1, fun h => absurd h (Nat.succ_ne_zero m), fun j hj => ?_⟩
      cases j with
      | zero => exact absurd hc.2 (by simpa [CueUnit.ahead] using hj)
      | succ j => exact Nat.succ_le_succ (h3 j hj)
    · rw [if_neg hc]
      exact ⟨0, rfl, fun _ => rfl, fun _ _ => Nat.zero_le _⟩

theorem settle_idle (n : Nat) (u : CueUnit) (b : Blocks) (h : ¬ (b.mode = .restarting ∧ restartDrained b = true)) :
    settle n u b = (u, b) := by
  cases n with
  | zero => rfl
  | succ n => rw [settle, if_neg h]

theorem completeRestart_mode (b : Blocks) : (completeRestart b).mode = .active := by
  simp only [completeRestart, Blocks.requestRefresh, Blocks.raise]
  repeat' split
  all_goals rfl

theorem settle_settled_of (n : Nat) (u : CueUnit) (b : Blocks) (h : ∃ j, j ≤ n ∧ (u.ahead j).posted = false) :
    ¬ ((settle (n + 1) u b).2.mode = .restarting ∧ restartDrained (settle (n + 1) u b).2 = true) := by
  induction n generalizing u b with
  | zero =>
    obtain ⟨j, hj, hp⟩ := h
    have : j = 0 := by omega
    subst this
    have hp : u.posted = false := hp
    rw [settle]
    split
    · rw [chain_idle _ _ _ (by simp [hp])]
      simp [settle, completeRestart_mode]
    · assumption
  | succ n ih =>
    rw [settle]
    split
    · obtain ⟨m, h1, h2, h3⟩ := chain_ahead chainFuel u (completeRestart b)
      by_cases hm : m = 0
      · have hb := h2 hm
        have : ¬ ((chain chainFuel u (completeRestart b)).2.mode = .restarting ∧
            restartDrained (chain chainFuel u (completeRestart b)).2 = true) := by
          rw [hb, completeRestart_mode]; simp
        simp only
        rw [settle_idle _ _ _ this]
        exact this
      · refine ih _ _ ?_
        obtain ⟨j, hj, hp⟩ := h
        have hmj := h3 j hp
        refine ⟨j - m, by omega, ?_⟩
        rw [h1, ahead_add, show m + (j - m) = j by omega]
        exact hp
    · assumption

/-- After the end of an event no drained RESTART is left to complete (R174). -/
theorem settle_settled (u : CueUnit) (b : Blocks) :
    ¬ ((settle chainFuel u b).2.mode = .restarting ∧ restartDrained (settle chainFuel u b).2 = true) :=
  settle_settled_of 32 u b (exists_unposted u)

/-! ## The end of an event -/

/-- The own head does not depend on the starvation count, the pass slot or the waiting requests. -/
theorem ownHead_congr {s t : State} (hb : t.blk = s.blk) (hp : t.link.lastPort = s.link.lastPort) :
    ownHead t = ownHead s := by
  simp [ownHead, hb, hp]

theorem endEvent_eq (s : State) : endEvent s =
    { s with
      cue := (settle chainFuel s.cue s.blk).1
      blk := (settle chainFuel s.cue s.blk).2
      attn := (settle chainFuel s.cue s.blk).2.attention
      link := { s.link with starvation :=
        if (ownHead { s with cue := (settle chainFuel s.cue s.blk).1, blk := (settle chainFuel s.cue s.blk).2,
                             attn := (settle chainFuel s.cue s.blk).2.attention }).isNone then 0
        else s.link.starvation } } := by
  simp only [endEvent]
  split <;> simp_all

@[simp] theorem endEvent_pending (s : State) : (endEvent s).pending = s.pending := by rw [endEvent_eq]
@[simp] theorem endEvent_upstream (s : State) : (endEvent s).link.upstream = s.link.upstream := by rw [endEvent_eq]
@[simp] theorem endEvent_passSlot (s : State) : (endEvent s).link.passSlot = s.link.passSlot := by rw [endEvent_eq]
@[simp] theorem endEvent_lastPort (s : State) : (endEvent s).link.lastPort = s.link.lastPort := by rw [endEvent_eq]
@[simp] theorem endEvent_blk (s : State) : (endEvent s).blk = (settle chainFuel s.cue s.blk).2 := by rw [endEvent_eq]
@[simp] theorem endEvent_cue (s : State) : (endEvent s).cue = (settle chainFuel s.cue s.blk).1 := by rw [endEvent_eq]
@[simp] theorem endEvent_attn (s : State) : (endEvent s).attn = (endEvent s).blk.attention := by rw [endEvent_eq]

theorem endEvent_starvation (s : State) : ownHead (endEvent s) = none → (endEvent s).link.starvation = 0 := by
  intro h
  rw [endEvent_eq] at h ⊢
  rw [if_pos]
  rw [Option.isNone_iff_eq_none, ← h]
  exact ownHead_congr rfl rfl

/-- The end of an event changes nothing where nothing is left to do. -/
theorem endEvent_of_rested (s : State) (ha : s.attn = s.blk.attention)
    (hs : ownHead s = none → s.link.starvation = 0)
    (hr : ¬ (s.blk.mode = .restarting ∧ restartDrained s.blk = true)) : endEvent s = s := by
  have hset := settle_idle chainFuel s.cue s.blk hr
  rw [endEvent_eq]
  simp only [hset]
  have hst : (if (ownHead { s with cue := s.cue, blk := s.blk, attn := s.blk.attention }).isNone then 0
      else s.link.starvation) = s.link.starvation := by
    split
    · rename_i hn
      rw [Option.isNone_iff_eq_none] at hn
      exact (hs (hn ▸ (ownHead_congr rfl rfl).symm)).symm
    · rfl
  rw [hst, ← ha]

theorem finish_of_no_request (s : State) (h : s.link.upstream = []) : finish s = endEvent s := by
  simp [finish, acceptHead, h]

theorem attention_eq (b : Blocks) : b.attention = (decide (0 < b.distance) || decide (b.mode = .bypass)) := rfl

/-! ## Acceptance -/

theorem untrackedOf_congr {k k' : Link} (h : k'.untracked = k.untracked) (t : Tag) (o : OrderId) :
    k'.untrackedOf t o = k.untrackedOf t o := by simp [Link.untrackedOf, h]

/-- Whether a request can be accepted depends on the pass slot, the untracked counts and the blocks. -/
theorem acceptable_congr {s t : State} (r : UpRequest) (hb : t.blk = s.blk) (hp : t.link.passSlot = s.link.passSlot)
    (hu : t.link.untracked = s.link.untracked) : acceptable t r = acceptable s r := by
  simp only [acceptable, hb, hp, untrackedOf_congr hu]

/-- No request is accepted while the pass slot is full (R140). -/
theorem acceptable_full (s : State) (r : UpRequest) (h : s.link.passSlot.isSome = true) : acceptable s r = false := by
  have : s.link.passSlot.isNone = false := by
    cases hp : s.link.passSlot
    · rw [hp] at h; cases h
    · rfl
  simp [acceptable, this]

/-- An accepted request stands in the pass slot (R141). -/
theorem accept_passSlot (s : State) (r : UpRequest) (h : acceptable s r = true) :
    (accept s r).link.passSlot.isSome = true := by
  unfold accept
  cases hm : s.blk.mode <;> cases hk : r.kind <;> simp only
  all_goals try rfl
  all_goals
    first
      | (unfold acceptWrite
         split <;> rfl)
      | (unfold acceptRead
         have h' := h
         simp only [acceptable, hm, hk, Bool.and_eq_true] at h'
         split
         · rfl
         · rename_i c he
           rw [he] at h'
           simp at h'
         · rfl)

theorem accept_upstream (s : State) (r : UpRequest) : (accept s r).link.upstream = s.link.upstream := by
  unfold accept
  cases hm : s.blk.mode <;> cases hk : r.kind <;> simp only
  all_goals try rfl
  all_goals
    first
      | (unfold acceptWrite
         split <;> rfl)
      | (unfold acceptRead
         split <;> rfl)

/-- Every event ends rested. -/
theorem finish_rested (s : State) : Rested (finish s) := by
  have key : ∀ x : State, (∀ r rest, x.link.upstream = r :: rest → acceptable (endEvent x) r = false) →
      Rested (endEvent x) := by
    intro x hx
    refine ⟨by rw [endEvent_attn, attention_eq], endEvent_starvation x, ?_, ?_⟩
    · rw [endEvent_blk]; exact settle_settled x.cue x.blk
    · intro r rest hr
      rw [endEvent_upstream] at hr
      exact hx r rest hr
  unfold finish acceptHead
  split
  · rename_i hu
    rw [endEvent_upstream] at hu
    exact key s (fun r rest hr => absurd (hu.symm.trans hr) (by simp))
  · rename_i r rest hu
    rw [endEvent_upstream] at hu
    split
    · rename_i ha
      refine key _ fun r' rest' _ => acceptable_full _ _ ?_
      rw [endEvent_passSlot]
      exact accept_passSlot _ _ (by rw [← ha]; exact acceptable_congr r rfl rfl rfl)
    · rename_i ha
      refine key s fun r' rest' hr' => ?_
      rw [hu] at hr'
      obtain ⟨rfl, -⟩ := List.cons.inj hr'
      simpa using ha

theorem rested_endEvent {s : State} (h : Rested s) : endEvent s = s :=
  endEvent_of_rested s (by rw [h.1, attention_eq]) h.2.1 h.2.2.1

/-- The end of an event with nothing left to do and no waiting request. -/
theorem rested_finish {s : State} (h : Rested s) : finish s = s := by
  unfold finish acceptHead
  rw [rested_endEvent h]
  split
  · rfl
  · rename_i r rest hu
    rw [h.2.2.2 r rest hu]
    rfl

theorem endEvent_upstream_append {s : State} (h : Rested s) (q : List UpRequest) :
    endEvent { s with link := { s.link with upstream := q } } = { s with link := { s.link with upstream := q } } :=
  endEvent_of_rested _ (by simp only; rw [h.1, attention_eq])
    (fun ho => h.2.1 ((ownHead_congr rfl rfl).trans ho)) h.2.2.1

/-- A request presented when it can be accepted and none waits before it is accepted at once (R140). -/
theorem present_accepts {s : State} (h : Rested s) (hu : s.link.upstream = []) (r : UpRequest)
    (ha : acceptable s r = true) : present s r = finish (accept s r) := by
  have hs : (accept s r).link.upstream = [] := by rw [accept_upstream, hu]
  rw [finish_of_no_request _ hs]
  unfold present finish acceptHead
  rw [endEvent_upstream_append h, hu]
  have ha' : acceptable { s with link := { s.link with upstream := [] ++ [r] } } r = true := by
    rw [← ha]; exact acceptable_congr r rfl rfl rfl
  simp only [List.nil_append] at ha' ⊢
  rw [if_pos ha']
  have : ({ s with link := { s.link with upstream := [] } } : State) = s := by
    rw [← hu]
  rw [this]

/-- A request that cannot be accepted yet, or finds others waiting, waits without any effect (R26, R140). -/
theorem present_waits {s : State} (h : Rested s) (r : UpRequest)
    (ha : s.link.upstream ≠ [] ∨ acceptable s r = false) :
    present s r = { s with link := { s.link with upstream := s.link.upstream ++ [r] } } := by
  unfold present finish acceptHead
  rw [endEvent_upstream_append h]
  cases hu : s.link.upstream with
  | nil =>
    rw [hu] at ha
    have ha : acceptable s r = false := ha.resolve_left fun x => x rfl
    simp only [List.nil_append]
    rw [if_neg]
    intro hc
    have h0 := (acceptable_congr (s := s) r rfl rfl rfl).symm.trans hc
    rw [ha] at h0
    cases h0
  | cons r0 rest =>
    simp only [List.cons_append]
    rw [if_neg]
    intro hc
    have h0 := (acceptable_congr (s := s) r0 rfl rfl rfl).symm.trans hc
    rw [h.2.2.2 r0 rest hu] at h0
    cases h0

end Sys2Proof.Machine
end

