-- ==== Sys2Proof/Laws/Entries.lean ====
section
/-! SUPPORT. The RTT as a list of entries of distinct numbers, the FREE entry, and the link path's records of a pair. -/

namespace Sys2Proof.Machine

/-! ## Entries of distinct numbers -/

/-- Removing an entry by its number takes it alone. -/
theorem filter_entry (before after : List Entry) (e : Entry) (hn : ((before ++ e :: after).map Entry.num).Nodup) :
   ((before ++ e :: after).filter fun x => x.num ≠ e.num) = before ++ after := by
  rw [List.map_append, List.nodup_append] at hn
  rw [List.filter_append]
  simp only [List.map_cons, List.nodup_cons] at hn
  have h1 : (before.filter fun x => x.num ≠ e.num) = before := by
    rw [List.filter_eq_self]; intro x hx; simp; exact hn.2.2 x.num (List.mem_map_of_mem hx) e.num (by simp)
  have h2 : ((e :: after).filter fun x => x.num ≠ e.num) = after := by
    rw [List.filter_cons_of_neg (by simp), List.filter_eq_self]; intro x hx; simp
    intro h; exact hn.2.1.1 (h ▸ List.mem_map_of_mem hx)
  rw [h1, h2]

/-- Replacing an entry by its number changes it alone. -/
theorem map_entry (before after : List Entry) (e e' : Entry) (he : e'.num = e.num)
    (hn : ((before ++ e :: after).map Entry.num).Nodup) :
   ((before ++ e :: after).map fun x => if x.num = e'.num then e' else x) = before ++ e' :: after := by
  rw [List.map_append, List.nodup_append] at hn
  simp only [List.map_cons, List.nodup_cons] at hn
  rw [List.map_append]
  congr 1
  · conv_rhs => rw [← List.map_id before]
    apply List.map_congr_left
    intro x hx; rw [if_neg]; · rfl
    rw [he]; exact hn.2.2 x.num (List.mem_map_of_mem hx) e.num (by simp)
  · rw [List.map_cons, if_pos he.symm]
    congr 1
    conv_rhs => rw [← List.map_id after]
    apply List.map_congr_left
    intro x hx; rw [if_neg]; · rfl
    rw [he]; intro h; exact hn.2.1.1 (h ▸ List.mem_map_of_mem hx)

/-- The entry of a number. -/
theorem entry?_eq (b : Blocks) (before after : List Entry) (e : Entry) (n : Tag)
    (hr : b.rtt = before ++ e :: after) (hn : (b.rtt.map Entry.num).Nodup) (he : e.num = n) : b.entry? n =
    some e := by
  unfold Blocks.entry?
  rw [List.find?_eq_some_iff_append]
  refine ⟨by simp [he], before, after, hr, ?_⟩
  intro x hx
  rw [hr, List.map_append, List.nodup_append] at hn
  have := hn.2.2 x.num (List.mem_map_of_mem hx) e.num (by simp)
  rw [he] at this; simpa using this

/-- The replacement of an entry. -/
theorem setEntry_eq (b : Blocks) (before after : List Entry) (e e' : Entry) (hr : b.rtt = before ++ e :: after)
    (he : e'.num = e.num) (hn : (b.rtt.map Entry.num).Nodup) :
   b.setEntry e' = { b with rtt := before ++ e' :: after } := by
  unfold Blocks.setEntry; rw [hr] at hn ⊢; rw [map_entry _ _ _ _ he hn]

/-- A PASS or MEASURE entry becomes FREE (R42). -/
theorem freeEntryOf_clean (b : Blocks) (before after : List Entry) (e : Entry) (hr : b.rtt = before ++ e :: after)
    (hn : (b.rtt.map Entry.num).Nodup) (hk : e.kind = .pass ∨ e.kind = .measure) :
    b.freeEntryOf e = { b with rtt := before ++ after } := by
  unfold Blocks.freeEntryOf
  rw [hr] at hn ⊢
  rw [filter_entry _ _ _ hn]
  rcases hk with hk | hk <;> rw [hk]

/-- A BLEND entry becomes FREE: its hold is removed (R42). -/
theorem freeEntryOf_blend (b : Blocks) (before after : List Entry) (e : Entry) (info : BlendInfo)
    (hr : b.rtt = before ++ e :: after) (hn : (b.rtt.map Entry.num).Nodup) (hk : e.kind = .blend info) :
    b.freeEntryOf e = ({ b with rtt := before ++ after } : Blocks).dropHold info.slot := by
  unfold Blocks.freeEntryOf
  rw [hr] at hn ⊢
  rw [filter_entry _ _ _ hn, hk]

/-! ## The FREE entry (R20) -/

/-- There is a FREE entry when some number is not in use. -/
theorem freeEntry_isSome (b : Blocks) : b.freeEntry.isSome = true ↔ ∃ n : Tag, ∀ e ∈ b.rtt, e.num ≠ n := by
  unfold Blocks.freeEntry
  rw [List.find?_isSome]
  constructor
  · rintro ⟨n, _, h⟩; exact ⟨n, by simpa using h⟩
  · rintro ⟨n, h⟩
    refine ⟨n, ?_, by simpa using h⟩
    unfold allEntries; rw [List.mem_map]
    exact ⟨n.toNat, by simp; exact n.isLt, by simp⟩

/-- The FREE entry of lowest number. -/
theorem freeEntry_lowest (b : Blocks) (n : Tag) (h1 : ∀ e ∈ b.rtt, e.num ≠ n)
    (h2 : ∀ m : Tag, m.toNat < n.toNat → ∃ e ∈ b.rtt, e.num = m) : b.freeEntry = some n := by
  unfold Blocks.freeEntry allEntries
  rw [List.find?_map]
  have : List.find? ((fun n : Tag => b.rtt.all fun e => decide (e.num ≠ n)) ∘ fun k : Nat => BitVec.ofNat 6 k) (List.range 64) = some n.toNat := by
    rw [List.find?_range_eq_some]
    refine ⟨by simpa using h1, by simp; exact n.isLt, ?_⟩
    intro j hj
    obtain ⟨e, he, hm⟩ := h2 (BitVec.ofNat 6 j) (by rw [BitVec.toNat_ofNat, Nat.mod_eq_of_lt (by have := n.isLt; omega)]; exact hj)
    simp only [Function.comp_apply, Bool.not_eq_true']
    by_contra hh
    have : ∀ x ∈ b.rtt, ¬x.num = BitVec.ofNat 6 j := by simpa using hh
    exact this e he hm
  rw [this]; simp

/-! ## Fetch responses, by the entry's state (R30, R35) -/

theorem storeFetch_ok_await (b : Blocks) (e : Entry) (data) (h : e.state = .await) : b.storeFetch e data .ok =
    if e.fetchError = true then b.setEntry e else b.setEntry { e with presData := e.presData ++ data } := by
  cases e; subst h; rfl

theorem storeFetch_ok_join (b : Blocks) (e : Entry) (data) (d) (h : e.state = .join d) : b.storeFetch e data .ok =
    if e.fetchError = true then b.setEntry e else b.setEntry { e with presData := e.presData ++ data } := by
  cases e; subst h; rfl

theorem storeFetch_ok_done (b : Blocks) (e : Entry) (data) (h : e.state = .done ∨ e.state = .drain) :
    b.storeFetch e data .ok = b.setEntry e := by
  cases e; rcases h with h | h <;> subst h <;> rfl

theorem storeFetch_error_done (b : Blocks) (e : Entry) (data) (h : e.state = .done ∨ e.state = .drain) :
    b.storeFetch e data .error = b.setEntry { e with fetchError := true } := by
  cases e; rcases h with h | h <;> subst h <;> rfl

theorem storeFetch_error_await (b : Blocks) (e : Entry) (data) (h : e.state = .await) :
    b.storeFetch e data .error = if e.fetchError =
    true then b.setEntry { e with fetchError := true } else (b.setEntry { e with fetchError := true }).raiseFetchError e := by
  cases e; subst h; rfl

theorem storeFetch_error_join (b : Blocks) (e : Entry) (data) (d) (h : e.state = .join d) :
    b.storeFetch e data .error = if e.fetchError =
    true then b.setEntry ({ e with fetchError := true } : Entry).clean else (b.setEntry ({ e with fetchError := true } : Entry).clean).raiseFetchError e := by
  cases e; subst h; rfl

/-! ## The records of a pair (R142, R144) -/

/-- The untracked count of a pair after one has been set. -/
theorem untrackedOf_setUntracked (k : Link) (tag tag' : Tag) (oid oid' : OrderId) (n : Nat) :
    (k.setUntracked tag oid n).untrackedOf tag' oid' = if tag' = tag ∧ oid' =
    oid then n else k.untrackedOf tag' oid' := by
  unfold Link.setUntracked Link.untrackedOf
  simp only [Memory.get_set]
  have : pairKey tag' oid' = pairKey tag oid ↔ tag' = tag ∧ oid' = oid := by
    unfold pairKey
    rw [← BitVec.toNat_inj, ← BitVec.toNat_inj]
    have := oid.isLt; have := oid'.isLt; omega
  simp only [this]

/-- The write record of a pair after one has been set. -/
theorem writeRecord_setWriteRecord (k : Link) (tag tag' : Tag) (oid oid' : OrderId) (n : List Bool) :
    (k.setWriteRecord tag oid n).writeRecord tag' oid' = if tag' = tag ∧ oid' =
    oid then n else k.writeRecord tag' oid' := by
  unfold Link.setWriteRecord Link.writeRecord
  simp only [Memory.get_set]
  have : pairKey tag' oid' = pairKey tag oid ↔ tag' = tag ∧ oid' = oid := by
    unfold pairKey
    rw [← BitVec.toNat_inj, ← BitVec.toNat_inj]
    have := oid.isLt; have := oid'.isLt; omega
  simp only [this]

/-- A write covers a byte of a region. -/
theorem covers_iff (a n base size : Nat) : covers a n base size = true ↔ ∃ x, a ≤ x ∧ x < a + n ∧ base ≤ x ∧
    x < base + size := by
  unfold covers
  rw [decide_eq_true_eq]
  constructor
  · intro h; exact ⟨max a base, by omega, by omega, by omega, by omega⟩
  · rintro ⟨x, h1, h2, h3, h4⟩; omega

/-- The end of an event leaves the waiting pass response. -/
theorem finish_passResponse (s : State) : (finish s).link.passResponse = s.link.passResponse := by
  have h1 : ∀ x : State, (endEvent x).link.passResponse = x.link.passResponse := by
    intro x; rw [endEvent_eq]
  have h2 : ∀ (x : State) r, (accept x r).link.passResponse = x.link.passResponse := by
    intro x r
    unfold accept acceptRead acceptWrite
    split <;> try rfl
    all_goals (split <;> rfl)
  unfold finish acceptHead
  split
  · exact h1 s
  · split
    · rw [h1, h2]; exact h1 s
    · exact h1 s

end Sys2Proof.Machine
end

