-- ==== Sys2Proof/Laws/State.lean ====
section
/-! SUPPORT. One lemma for each field of each named update of the blocks: what the update leaves and what it writes. -/

namespace Sys2Proof.Machine

namespace Blocks

@[simp] theorem setChan_mode (b : Blocks) (c : Fin 8) (x : Channel) : (b.setChan c x).mode = b.mode := rfl
@[simp] theorem setChan_cause (b : Blocks) (c : Fin 8) (x : Channel) : (b.setChan c x).cause = b.cause := rfl
@[simp] theorem setChan_timeBase (b : Blocks) (c : Fin 8) (x : Channel) : (b.setChan c x).timeBase = b.timeBase := rfl
@[simp] theorem setChan_restartTime (b : Blocks) (c : Fin 8) (x : Channel) : (b.setChan c x).restartTime =
    b.restartTime := rfl
@[simp] theorem setChan_image (b : Blocks) (c : Fin 8) (x : Channel) : (b.setChan c x).image = b.image := rfl
@[simp] theorem setChan_layouts (b : Blocks) (c : Fin 8) (x : Channel) : (b.setChan c x).layouts = b.layouts := rfl
@[simp] theorem setChan_rtt (b : Blocks) (c : Fin 8) (x : Channel) : (b.setChan c x).rtt = b.rtt := rfl
@[simp] theorem setChan_fetchQueue (b : Blocks) (c : Fin 8) (x : Channel) : (b.setChan c x).fetchQueue =
    b.fetchQueue := rfl
@[simp] theorem setChan_ports (b : Blocks) (c : Fin 8) (x : Channel) : (b.setChan c x).ports = b.ports := rfl
@[simp] theorem setChan_slotTab (b : Blocks) (c : Fin 8) (x : Channel) : (b.setChan c x).slotTab = b.slotTab := rfl
@[simp] theorem setChan_rep (b : Blocks) (c : Fin 8) (x : Channel) : (b.setChan c x).rep = b.rep := rfl

@[simp] theorem setPort_mode (b : Blocks) (p : Fin 4) (x : Port) : (b.setPort p x).mode = b.mode := rfl
@[simp] theorem setPort_cause (b : Blocks) (p : Fin 4) (x : Port) : (b.setPort p x).cause = b.cause := rfl
@[simp] theorem setPort_timeBase (b : Blocks) (p : Fin 4) (x : Port) : (b.setPort p x).timeBase = b.timeBase := rfl
@[simp] theorem setPort_restartTime (b : Blocks) (p : Fin 4) (x : Port) : (b.setPort p x).restartTime =
    b.restartTime := rfl
@[simp] theorem setPort_image (b : Blocks) (p : Fin 4) (x : Port) : (b.setPort p x).image = b.image := rfl
@[simp] theorem setPort_chans (b : Blocks) (p : Fin 4) (x : Port) : (b.setPort p x).chans = b.chans := rfl
@[simp] theorem setPort_layouts (b : Blocks) (p : Fin 4) (x : Port) : (b.setPort p x).layouts = b.layouts := rfl
@[simp] theorem setPort_rtt (b : Blocks) (p : Fin 4) (x : Port) : (b.setPort p x).rtt = b.rtt := rfl
@[simp] theorem setPort_fetchQueue (b : Blocks) (p : Fin 4) (x : Port) : (b.setPort p x).fetchQueue =
    b.fetchQueue := rfl
@[simp] theorem setPort_slotTab (b : Blocks) (p : Fin 4) (x : Port) : (b.setPort p x).slotTab = b.slotTab := rfl
@[simp] theorem setPort_rep (b : Blocks) (p : Fin 4) (x : Port) : (b.setPort p x).rep = b.rep := rfl

@[simp] theorem setPortSlots_mode (b : Blocks) (p : Fin 4) (x : PortSlots) : (b.setPortSlots p x).mode = b.mode := rfl
@[simp] theorem setPortSlots_cause (b : Blocks) (p : Fin 4) (x : PortSlots) : (b.setPortSlots p x).cause =
    b.cause := rfl
@[simp] theorem setPortSlots_timeBase (b : Blocks) (p : Fin 4) (x : PortSlots) : (b.setPortSlots p x).timeBase =
    b.timeBase := rfl
@[simp] theorem setPortSlots_restartTime (b : Blocks) (p : Fin 4) (x : PortSlots) :
    (b.setPortSlots p x).restartTime = b.restartTime := rfl
@[simp] theorem setPortSlots_image (b : Blocks) (p : Fin 4) (x : PortSlots) : (b.setPortSlots p x).image =
    b.image := rfl
@[simp] theorem setPortSlots_chans (b : Blocks) (p : Fin 4) (x : PortSlots) : (b.setPortSlots p x).chans =
    b.chans := rfl
@[simp] theorem setPortSlots_layouts (b : Blocks) (p : Fin 4) (x : PortSlots) : (b.setPortSlots p x).layouts =
    b.layouts := rfl
@[simp] theorem setPortSlots_rtt (b : Blocks) (p : Fin 4) (x : PortSlots) : (b.setPortSlots p x).rtt = b.rtt := rfl
@[simp] theorem setPortSlots_fetchQueue (b : Blocks) (p : Fin 4) (x : PortSlots) :
    (b.setPortSlots p x).fetchQueue = b.fetchQueue := rfl
@[simp] theorem setPortSlots_ports (b : Blocks) (p : Fin 4) (x : PortSlots) : (b.setPortSlots p x).ports =
    b.ports := rfl
@[simp] theorem setPortSlots_rep (b : Blocks) (p : Fin 4) (x : PortSlots) : (b.setPortSlots p x).rep = b.rep := rfl

@[simp] theorem setSlot_mode (b : Blocks) (p : Fin 4) (i : Fin 16) (x : Slot) : (b.setSlot p i x).mode = b.mode := rfl
@[simp] theorem setSlot_cause (b : Blocks) (p : Fin 4) (i : Fin 16) (x : Slot) : (b.setSlot p i x).cause =
    b.cause := rfl
@[simp] theorem setSlot_timeBase (b : Blocks) (p : Fin 4) (i : Fin 16) (x : Slot) : (b.setSlot p i x).timeBase =
    b.timeBase := rfl
@[simp] theorem setSlot_restartTime (b : Blocks) (p : Fin 4) (i : Fin 16) (x : Slot) :
    (b.setSlot p i x).restartTime = b.restartTime := rfl
@[simp] theorem setSlot_image (b : Blocks) (p : Fin 4) (i : Fin 16) (x : Slot) : (b.setSlot p i x).image =
    b.image := rfl
@[simp] theorem setSlot_chans (b : Blocks) (p : Fin 4) (i : Fin 16) (x : Slot) : (b.setSlot p i x).chans =
    b.chans := rfl
@[simp] theorem setSlot_layouts (b : Blocks) (p : Fin 4) (i : Fin 16) (x : Slot) : (b.setSlot p i x).layouts =
    b.layouts := rfl
@[simp] theorem setSlot_rtt (b : Blocks) (p : Fin 4) (i : Fin 16) (x : Slot) : (b.setSlot p i x).rtt = b.rtt := rfl
@[simp] theorem setSlot_fetchQueue (b : Blocks) (p : Fin 4) (i : Fin 16) (x : Slot) :
    (b.setSlot p i x).fetchQueue = b.fetchQueue := rfl
@[simp] theorem setSlot_ports (b : Blocks) (p : Fin 4) (i : Fin 16) (x : Slot) : (b.setSlot p i x).ports =
    b.ports := rfl
@[simp] theorem setSlot_rep (b : Blocks) (p : Fin 4) (i : Fin 16) (x : Slot) : (b.setSlot p i x).rep = b.rep := rfl

@[simp] theorem mapChans_mode (b : Blocks) (f : Fin 8 → Channel → Channel) : (b.mapChans f).mode = b.mode := rfl
@[simp] theorem mapChans_cause (b : Blocks) (f : Fin 8 → Channel → Channel) : (b.mapChans f).cause = b.cause := rfl
@[simp] theorem mapChans_timeBase (b : Blocks) (f : Fin 8 → Channel → Channel) : (b.mapChans f).timeBase =
    b.timeBase := rfl
@[simp] theorem mapChans_restartTime (b : Blocks) (f : Fin 8 → Channel → Channel) : (b.mapChans f).restartTime =
    b.restartTime := rfl
@[simp] theorem mapChans_image (b : Blocks) (f : Fin 8 → Channel → Channel) : (b.mapChans f).image = b.image := rfl
@[simp] theorem mapChans_layouts (b : Blocks) (f : Fin 8 → Channel → Channel) : (b.mapChans f).layouts =
    b.layouts := rfl
@[simp] theorem mapChans_rtt (b : Blocks) (f : Fin 8 → Channel → Channel) : (b.mapChans f).rtt = b.rtt := rfl
@[simp] theorem mapChans_fetchQueue (b : Blocks) (f : Fin 8 → Channel → Channel) : (b.mapChans f).fetchQueue =
    b.fetchQueue := rfl
@[simp] theorem mapChans_ports (b : Blocks) (f : Fin 8 → Channel → Channel) : (b.mapChans f).ports = b.ports := rfl
@[simp] theorem mapChans_slotTab (b : Blocks) (f : Fin 8 → Channel → Channel) : (b.mapChans f).slotTab =
    b.slotTab := rfl
@[simp] theorem mapChans_rep (b : Blocks) (f : Fin 8 → Channel → Channel) : (b.mapChans f).rep = b.rep := rfl

@[simp] theorem addHold_mode (b : Blocks) (r : SlotRef) : (b.addHold r).mode = b.mode := rfl
@[simp] theorem addHold_cause (b : Blocks) (r : SlotRef) : (b.addHold r).cause = b.cause := rfl
@[simp] theorem addHold_timeBase (b : Blocks) (r : SlotRef) : (b.addHold r).timeBase = b.timeBase := rfl
@[simp] theorem addHold_restartTime (b : Blocks) (r : SlotRef) : (b.addHold r).restartTime = b.restartTime := rfl
@[simp] theorem addHold_image (b : Blocks) (r : SlotRef) : (b.addHold r).image = b.image := rfl
@[simp] theorem addHold_chans (b : Blocks) (r : SlotRef) : (b.addHold r).chans = b.chans := rfl
@[simp] theorem addHold_layouts (b : Blocks) (r : SlotRef) : (b.addHold r).layouts = b.layouts := rfl
@[simp] theorem addHold_rtt (b : Blocks) (r : SlotRef) : (b.addHold r).rtt = b.rtt := rfl
@[simp] theorem addHold_fetchQueue (b : Blocks) (r : SlotRef) : (b.addHold r).fetchQueue = b.fetchQueue := rfl
@[simp] theorem addHold_ports (b : Blocks) (r : SlotRef) : (b.addHold r).ports = b.ports := rfl
@[simp] theorem addHold_rep (b : Blocks) (r : SlotRef) : (b.addHold r).rep = b.rep := rfl

@[simp] theorem dropHold_mode (b : Blocks) (r : SlotRef) : (b.dropHold r).mode = b.mode := rfl
@[simp] theorem dropHold_cause (b : Blocks) (r : SlotRef) : (b.dropHold r).cause = b.cause := rfl
@[simp] theorem dropHold_timeBase (b : Blocks) (r : SlotRef) : (b.dropHold r).timeBase = b.timeBase := rfl
@[simp] theorem dropHold_restartTime (b : Blocks) (r : SlotRef) : (b.dropHold r).restartTime = b.restartTime := rfl
@[simp] theorem dropHold_image (b : Blocks) (r : SlotRef) : (b.dropHold r).image = b.image := rfl
@[simp] theorem dropHold_chans (b : Blocks) (r : SlotRef) : (b.dropHold r).chans = b.chans := rfl
@[simp] theorem dropHold_layouts (b : Blocks) (r : SlotRef) : (b.dropHold r).layouts = b.layouts := rfl
@[simp] theorem dropHold_rtt (b : Blocks) (r : SlotRef) : (b.dropHold r).rtt = b.rtt := rfl
@[simp] theorem dropHold_fetchQueue (b : Blocks) (r : SlotRef) : (b.dropHold r).fetchQueue = b.fetchQueue := rfl
@[simp] theorem dropHold_ports (b : Blocks) (r : SlotRef) : (b.dropHold r).ports = b.ports := rfl
@[simp] theorem dropHold_rep (b : Blocks) (r : SlotRef) : (b.dropHold r).rep = b.rep := rfl

@[simp] theorem dropHoldOpt_mode (b : Blocks) (r : Option SlotRef) : (b.dropHold? r).mode =
    b.mode := by cases r <;> rfl
@[simp] theorem dropHoldOpt_cause (b : Blocks) (r : Option SlotRef) : (b.dropHold? r).cause =
    b.cause := by cases r <;> rfl
@[simp] theorem dropHoldOpt_timeBase (b : Blocks) (r : Option SlotRef) : (b.dropHold? r).timeBase =
    b.timeBase := by cases r <;> rfl
@[simp] theorem dropHoldOpt_restartTime (b : Blocks) (r : Option SlotRef) : (b.dropHold? r).restartTime =
    b.restartTime := by cases r <;> rfl
@[simp] theorem dropHoldOpt_image (b : Blocks) (r : Option SlotRef) : (b.dropHold? r).image =
    b.image := by cases r <;> rfl
@[simp] theorem dropHoldOpt_chans (b : Blocks) (r : Option SlotRef) : (b.dropHold? r).chans =
    b.chans := by cases r <;> rfl
@[simp] theorem dropHoldOpt_layouts (b : Blocks) (r : Option SlotRef) : (b.dropHold? r).layouts =
    b.layouts := by cases r <;> rfl
@[simp] theorem dropHoldOpt_rtt (b : Blocks) (r : Option SlotRef) : (b.dropHold? r).rtt = b.rtt := by cases r <;> rfl
@[simp] theorem dropHoldOpt_fetchQueue (b : Blocks) (r : Option SlotRef) : (b.dropHold? r).fetchQueue =
    b.fetchQueue := by cases r <;> rfl
@[simp] theorem dropHoldOpt_ports (b : Blocks) (r : Option SlotRef) : (b.dropHold? r).ports =
    b.ports := by cases r <;> rfl
@[simp] theorem dropHoldOpt_rep (b : Blocks) (r : Option SlotRef) : (b.dropHold? r).rep = b.rep := by cases r <;> rfl

@[simp] theorem raise_mode (b : Blocks) (k : ReportKind) (u : Subject) (w : List Word) : (b.raise k u w).mode =
    b.mode := by
  unfold raise; split <;> [split <;> rfl; rfl]
@[simp] theorem raise_cause (b : Blocks) (k : ReportKind) (u : Subject) (w : List Word) : (b.raise k u w).cause =
    b.cause := by
  unfold raise; split <;> [split <;> rfl; rfl]
@[simp] theorem raise_timeBase (b : Blocks) (k : ReportKind) (u : Subject) (w : List Word) :
    (b.raise k u w).timeBase = b.timeBase := by
  unfold raise; split <;> [split <;> rfl; rfl]
@[simp] theorem raise_restartTime (b : Blocks) (k : ReportKind) (u : Subject) (w : List Word) :
    (b.raise k u w).restartTime = b.restartTime := by
  unfold raise; split <;> [split <;> rfl; rfl]
@[simp] theorem raise_image (b : Blocks) (k : ReportKind) (u : Subject) (w : List Word) : (b.raise k u w).image =
    b.image := by
  unfold raise; split <;> [split <;> rfl; rfl]
@[simp] theorem raise_chans (b : Blocks) (k : ReportKind) (u : Subject) (w : List Word) : (b.raise k u w).chans =
    b.chans := by
  unfold raise; split <;> [split <;> rfl; rfl]
@[simp] theorem raise_layouts (b : Blocks) (k : ReportKind) (u : Subject) (w : List Word) :
    (b.raise k u w).layouts = b.layouts := by
  unfold raise; split <;> [split <;> rfl; rfl]
@[simp] theorem raise_rtt (b : Blocks) (k : ReportKind) (u : Subject) (w : List Word) : (b.raise k u w).rtt =
    b.rtt := by
  unfold raise; split <;> [split <;> rfl; rfl]
@[simp] theorem raise_fetchQueue (b : Blocks) (k : ReportKind) (u : Subject) (w : List Word) :
    (b.raise k u w).fetchQueue = b.fetchQueue := by
  unfold raise; split <;> [split <;> rfl; rfl]
@[simp] theorem raise_ports (b : Blocks) (k : ReportKind) (u : Subject) (w : List Word) : (b.raise k u w).ports =
    b.ports := by
  unfold raise; split <;> [split <;> rfl; rfl]
@[simp] theorem raise_slotTab (b : Blocks) (k : ReportKind) (u : Subject) (w : List Word) :
    (b.raise k u w).slotTab = b.slotTab := by
  unfold raise; split <;> [split <;> rfl; rfl]

@[simp] theorem raiseChan_mode (b : Blocks) (k : ReportKind) (c : Fin 8) (w : List Word) :
    (b.raiseChan k c w).mode = b.mode := by simp [raiseChan]
@[simp] theorem raiseChan_cause (b : Blocks) (k : ReportKind) (c : Fin 8) (w : List Word) :
    (b.raiseChan k c w).cause = b.cause := by simp [raiseChan]
@[simp] theorem raiseChan_timeBase (b : Blocks) (k : ReportKind) (c : Fin 8) (w : List Word) :
    (b.raiseChan k c w).timeBase = b.timeBase := by simp [raiseChan]
@[simp] theorem raiseChan_restartTime (b : Blocks) (k : ReportKind) (c : Fin 8) (w : List Word) :
    (b.raiseChan k c w).restartTime = b.restartTime := by simp [raiseChan]
@[simp] theorem raiseChan_image (b : Blocks) (k : ReportKind) (c : Fin 8) (w : List Word) :
    (b.raiseChan k c w).image = b.image := by simp [raiseChan]
@[simp] theorem raiseChan_chans (b : Blocks) (k : ReportKind) (c : Fin 8) (w : List Word) :
    (b.raiseChan k c w).chans = b.chans := by simp [raiseChan]
@[simp] theorem raiseChan_layouts (b : Blocks) (k : ReportKind) (c : Fin 8) (w : List Word) :
    (b.raiseChan k c w).layouts = b.layouts := by simp [raiseChan]
@[simp] theorem raiseChan_rtt (b : Blocks) (k : ReportKind) (c : Fin 8) (w : List Word) : (b.raiseChan k c w).rtt =
    b.rtt := by simp [raiseChan]
@[simp] theorem raiseChan_fetchQueue (b : Blocks) (k : ReportKind) (c : Fin 8) (w : List Word) :
    (b.raiseChan k c w).fetchQueue = b.fetchQueue := by simp [raiseChan]
@[simp] theorem raiseChan_ports (b : Blocks) (k : ReportKind) (c : Fin 8) (w : List Word) :
    (b.raiseChan k c w).ports = b.ports := by simp [raiseChan]
@[simp] theorem raiseChan_slotTab (b : Blocks) (k : ReportKind) (c : Fin 8) (w : List Word) :
    (b.raiseChan k c w).slotTab = b.slotTab := by simp [raiseChan]

@[simp] theorem requestRefresh_mode (b : Blocks) : (b.requestRefresh).mode =
    b.mode := by unfold requestRefresh; split <;> rfl
@[simp] theorem requestRefresh_cause (b : Blocks) : (b.requestRefresh).cause =
    b.cause := by unfold requestRefresh; split <;> rfl
@[simp] theorem requestRefresh_timeBase (b : Blocks) : (b.requestRefresh).timeBase =
    b.timeBase := by unfold requestRefresh; split <;> rfl
@[simp] theorem requestRefresh_restartTime (b : Blocks) : (b.requestRefresh).restartTime =
    b.restartTime := by unfold requestRefresh; split <;> rfl
@[simp] theorem requestRefresh_image (b : Blocks) : (b.requestRefresh).image =
    b.image := by unfold requestRefresh; split <;> rfl
@[simp] theorem requestRefresh_chans (b : Blocks) : (b.requestRefresh).chans =
    b.chans := by unfold requestRefresh; split <;> rfl
@[simp] theorem requestRefresh_layouts (b : Blocks) : (b.requestRefresh).layouts =
    b.layouts := by unfold requestRefresh; split <;> rfl
@[simp] theorem requestRefresh_rtt (b : Blocks) : (b.requestRefresh).rtt =
    b.rtt := by unfold requestRefresh; split <;> rfl
@[simp] theorem requestRefresh_fetchQueue (b : Blocks) : (b.requestRefresh).fetchQueue =
    b.fetchQueue := by unfold requestRefresh; split <;> rfl
@[simp] theorem requestRefresh_ports (b : Blocks) : (b.requestRefresh).ports =
    b.ports := by unfold requestRefresh; split <;> rfl
@[simp] theorem requestRefresh_slotTab (b : Blocks) : (b.requestRefresh).slotTab =
    b.slotTab := by unfold requestRefresh; split <;> rfl

/-! ## Reads after writes -/

@[simp] theorem chan_setChan_same (b : Blocks) (c : Fin 8) (x : Channel) : (b.setChan c x).chan c = x := by
  simp [chan, setChan]

theorem chan_setChan_ne (b : Blocks) (c c' : Fin 8) (x : Channel) (h : c' ≠ c) :
    (b.setChan c x).chan c' = b.chan c' := by
  have : c.val ≠ c'.val := fun e => h (Fin.ext e.symm)
  simp [chan, setChan, this]

theorem chan_setChan (b : Blocks) (c c' : Fin 8) (x : Channel) :
    (b.setChan c x).chan c' = if c' = c then x else b.chan c' := by
  by_cases h : c' = c
  · subst h; simp
  · simp [h, chan_setChan_ne b c c' x h]

@[simp] theorem port_setPort_same (b : Blocks) (p : Fin 4) (x : Port) : (b.setPort p x).port p = x := by
  simp [port, setPort]

theorem port_setPort_ne (b : Blocks) (p p' : Fin 4) (x : Port) (h : p' ≠ p) :
    (b.setPort p x).port p' = b.port p' := by
  have : p.val ≠ p'.val := fun e => h (Fin.ext e.symm)
  simp [port, setPort, this]

theorem port_setPort (b : Blocks) (p p' : Fin 4) (x : Port) :
    (b.setPort p x).port p' = if p' = p then x else b.port p' := by
  by_cases h : p' = p
  · subst h; simp
  · simp [h, port_setPort_ne b p p' x h]

@[simp] theorem portSlots_setPortSlots_same (b : Blocks) (p : Fin 4) (x : PortSlots) :
    (b.setPortSlots p x).portSlots p = x := by
  simp [portSlots, setPortSlots]

theorem portSlots_setPortSlots_ne (b : Blocks) (p p' : Fin 4) (x : PortSlots) (h : p' ≠ p) :
    (b.setPortSlots p x).portSlots p' = b.portSlots p' := by
  have : p.val ≠ p'.val := fun e => h (Fin.ext e.symm)
  simp [portSlots, setPortSlots, this]

@[simp] theorem slot_setSlot_same (b : Blocks) (p : Fin 4) (i : Fin 16) (x : Slot) : (b.setSlot p i x).slot p i =
    x := by
  simp [slot, setSlot]

theorem slot_setSlot (b : Blocks) (p p' : Fin 4) (i i' : Fin 16) (x : Slot) :
    (b.setSlot p i x).slot p' i' = if p' = p ∧ i' = i then x else b.slot p' i' := by
  by_cases hp : p' = p
  · subst hp
    by_cases hi : i' = i
    · subst hi; simp
    · have : i.val ≠ i'.val := fun e => hi (Fin.ext e.symm)
      simp [slot, setSlot, hi, this]
  · simp [slot, setSlot, hp, portSlots_setPortSlots_ne b p p' _ hp]

@[simp] theorem latest_setSlot (b : Blocks) (p p' : Fin 4) (i : Fin 16) (x : Slot) :
    ((b.setSlot p i x).portSlots p').latest = (b.portSlots p').latest := by
  by_cases hp : p' = p
  · subst hp; simp [setSlot]
  · simp [setSlot, portSlots_setPortSlots_ne b p p' _ hp]

@[simp] theorem chan_mapChans (b : Blocks) (f : Fin 8 → Channel → Channel) (c : Fin 8) :
    (b.mapChans f).chan c = f c (b.chan c) := by
  simp [chan, mapChans]

/-- The accessors of channels, ports and slots read one field of the blocks each. -/
theorem chan_congr {b b' : Blocks} (h : b'.chans = b.chans) (c : Fin 8) : b'.chan c = b.chan c := by
  simp [chan, h]

theorem port_congr {b b' : Blocks} (h : b'.ports = b.ports) (p : Fin 4) : b'.port p = b.port p := by
  simp [port, h]

theorem portSlots_congr {b b' : Blocks} (h : b'.slotTab = b.slotTab) (p : Fin 4) : b'.portSlots p =
    b.portSlots p := by
  simp [portSlots, h]

theorem slot_congr {b b' : Blocks} (h : b'.slotTab = b.slotTab) (p : Fin 4) (i : Fin 16) : b'.slot p i =
    b.slot p i := by
  simp [slot, portSlots, h]

/-! ## Reads past updates of other parts -/

@[simp] theorem chan_setPort (b : Blocks) (p' : Fin 4) (x : Port) (c : Fin 8) :
    (b.setPort p' x).chan c = b.chan c := chan_congr (setPort_chans b p' x) c
@[simp] theorem chan_setPortSlots (b : Blocks) (p' : Fin 4) (x : PortSlots) (c : Fin 8) :
    (b.setPortSlots p' x).chan c = b.chan c := chan_congr (setPortSlots_chans b p' x) c
@[simp] theorem chan_setSlot (b : Blocks) (p' : Fin 4) (i' : Fin 16) (x : Slot) (c : Fin 8) :
    (b.setSlot p' i' x).chan c = b.chan c := chan_congr (setSlot_chans b p' i' x) c
@[simp] theorem chan_addHold (b : Blocks) (r : SlotRef) (c : Fin 8) :
    (b.addHold r).chan c = b.chan c := chan_congr (addHold_chans b r) c
@[simp] theorem chan_dropHold (b : Blocks) (r : SlotRef) (c : Fin 8) :
    (b.dropHold r).chan c = b.chan c := chan_congr (dropHold_chans b r) c
@[simp] theorem chan_dropHoldOpt (b : Blocks) (r : Option SlotRef) (c : Fin 8) :
    (b.dropHold? r).chan c = b.chan c := chan_congr (dropHoldOpt_chans b r) c
@[simp] theorem chan_raise (b : Blocks) (k : ReportKind) (u : Subject) (w : List Word) (c : Fin 8) :
    (b.raise k u w).chan c = b.chan c := chan_congr (raise_chans b k u w) c
@[simp] theorem chan_raiseChan (b : Blocks) (k : ReportKind) (d : Fin 8) (w : List Word) (c : Fin 8) :
    (b.raiseChan k d w).chan c = b.chan c := chan_congr (raiseChan_chans b k d w) c
@[simp] theorem chan_requestRefresh (b : Blocks) (c : Fin 8) :
    (b.requestRefresh).chan c = b.chan c := chan_congr (requestRefresh_chans b) c

@[simp] theorem port_setChan (b : Blocks) (c' : Fin 8) (x : Channel) (p : Fin 4) :
    (b.setChan c' x).port p = b.port p := port_congr (setChan_ports b c' x) p
@[simp] theorem port_setPortSlots (b : Blocks) (p' : Fin 4) (x : PortSlots) (p : Fin 4) :
    (b.setPortSlots p' x).port p = b.port p := port_congr (setPortSlots_ports b p' x) p
@[simp] theorem port_setSlot (b : Blocks) (p' : Fin 4) (i' : Fin 16) (x : Slot) (p : Fin 4) :
    (b.setSlot p' i' x).port p = b.port p := port_congr (setSlot_ports b p' i' x) p
@[simp] theorem port_mapChans (b : Blocks) (f : Fin 8 → Channel → Channel) (p : Fin 4) :
    (b.mapChans f).port p = b.port p := port_congr (mapChans_ports b f) p
@[simp] theorem port_addHold (b : Blocks) (r : SlotRef) (p : Fin 4) :
    (b.addHold r).port p = b.port p := port_congr (addHold_ports b r) p
@[simp] theorem port_dropHold (b : Blocks) (r : SlotRef) (p : Fin 4) :
    (b.dropHold r).port p = b.port p := port_congr (dropHold_ports b r) p
@[simp] theorem port_dropHoldOpt (b : Blocks) (r : Option SlotRef) (p : Fin 4) :
    (b.dropHold? r).port p = b.port p := port_congr (dropHoldOpt_ports b r) p
@[simp] theorem port_raise (b : Blocks) (k : ReportKind) (u : Subject) (w : List Word) (p : Fin 4) :
    (b.raise k u w).port p = b.port p := port_congr (raise_ports b k u w) p
@[simp] theorem port_raiseChan (b : Blocks) (k : ReportKind) (d : Fin 8) (w : List Word) (p : Fin 4) :
    (b.raiseChan k d w).port p = b.port p := port_congr (raiseChan_ports b k d w) p
@[simp] theorem port_requestRefresh (b : Blocks) (p : Fin 4) :
    (b.requestRefresh).port p = b.port p := port_congr (requestRefresh_ports b) p

@[simp] theorem slot_setChan (b : Blocks) (c' : Fin 8) (x : Channel) (p : Fin 4) (i : Fin 16) :
    (b.setChan c' x).slot p i = b.slot p i := slot_congr (setChan_slotTab b c' x) p i
@[simp] theorem slot_setPort (b : Blocks) (p' : Fin 4) (x : Port) (p : Fin 4) (i : Fin 16) :
    (b.setPort p' x).slot p i = b.slot p i := slot_congr (setPort_slotTab b p' x) p i
@[simp] theorem slot_mapChans (b : Blocks) (f : Fin 8 → Channel → Channel) (p : Fin 4) (i : Fin 16) :
    (b.mapChans f).slot p i = b.slot p i := slot_congr (mapChans_slotTab b f) p i
@[simp] theorem slot_raise (b : Blocks) (k : ReportKind) (u : Subject) (w : List Word) (p : Fin 4) (i : Fin 16) :
    (b.raise k u w).slot p i = b.slot p i := slot_congr (raise_slotTab b k u w) p i
@[simp] theorem slot_raiseChan (b : Blocks) (k : ReportKind) (d : Fin 8) (w : List Word) (p : Fin 4) (i : Fin 16) :
    (b.raiseChan k d w).slot p i = b.slot p i := slot_congr (raiseChan_slotTab b k d w) p i
@[simp] theorem slot_requestRefresh (b : Blocks) (p : Fin 4) (i : Fin 16) :
    (b.requestRefresh).slot p i = b.slot p i := slot_congr (requestRefresh_slotTab b) p i

@[simp] theorem portSlots_setChan (b : Blocks) (c' : Fin 8) (x : Channel) (p : Fin 4) :
    (b.setChan c' x).portSlots p = b.portSlots p := portSlots_congr (setChan_slotTab b c' x) p
@[simp] theorem portSlots_setPort (b : Blocks) (p' : Fin 4) (x : Port) (p : Fin 4) :
    (b.setPort p' x).portSlots p = b.portSlots p := portSlots_congr (setPort_slotTab b p' x) p
@[simp] theorem portSlots_mapChans (b : Blocks) (f : Fin 8 → Channel → Channel) (p : Fin 4) :
    (b.mapChans f).portSlots p = b.portSlots p := portSlots_congr (mapChans_slotTab b f) p
@[simp] theorem portSlots_raise (b : Blocks) (k : ReportKind) (u : Subject) (w : List Word) (p : Fin 4) :
    (b.raise k u w).portSlots p = b.portSlots p := portSlots_congr (raise_slotTab b k u w) p
@[simp] theorem portSlots_raiseChan (b : Blocks) (k : ReportKind) (d : Fin 8) (w : List Word) (p : Fin 4) :
    (b.raiseChan k d w).portSlots p = b.portSlots p := portSlots_congr (raiseChan_slotTab b k d w) p
@[simp] theorem portSlots_requestRefresh (b : Blocks) (p : Fin 4) :
    (b.requestRefresh).portSlots p = b.portSlots p := portSlots_congr (requestRefresh_slotTab b) p

@[simp] theorem setPort_setPort (b : Blocks) (p : Fin 4) (x y : Port) : (b.setPort p x).setPort p y =
    b.setPort p y := by
  unfold Blocks.setPort; simp

@[simp] theorem setSlot_setSlot (b : Blocks) (p : Fin 4) (i : Fin 16) (x y : Slot) :
    (b.setSlot p i x).setSlot p i y = b.setSlot p i y := by
  unfold Blocks.setSlot Blocks.setPortSlots Blocks.portSlots; simp

@[simp] theorem setSlot_self (b : Blocks) (p : Fin 4) (i : Fin 16) : b.setSlot p i (b.slot p i) = b := by
  have h1 : (b.portSlots p).slots.set i (b.slot p i) = (b.portSlots p).slots := by
    unfold slot
    simp
  have h2 : b.slotTab.set p (b.portSlots p) = b.slotTab := by
    unfold portSlots
    simp
  show { b with slotTab := b.slotTab.set p { b.portSlots p with slots := (b.portSlots p).slots.set i (b.slot p i) } } = b
  rw [h1]
  show { b with slotTab := b.slotTab.set p (b.portSlots p) } = b
  rw [h2]

theorem setSlot_setPort (b : Blocks) (p : Fin 4) (i : Fin 16) (x : Slot) (y : Port) :
    (b.setSlot p i x).setPort p y = (b.setPort p y).setSlot p i x := rfl

end Blocks

namespace Channel

@[simp] theorem mon_setMon_same (ch : Channel) (i : MonId) (m : Monitor) : (ch.setMon i m).mon i = m := by
  cases i <;> rfl

theorem mon_setMon_ne (ch : Channel) (i j : MonId) (m : Monitor) (h : j ≠ i) : (ch.setMon i m).mon j = ch.mon j := by
  cases i <;> cases j <;> first | rfl | exact absurd rfl h

@[simp] theorem setMon_desc (ch : Channel) (i : MonId) (m : Monitor) : (ch.setMon i m).desc = ch.desc := by
  cases i <;> rfl

@[simp] theorem setMon_state (ch : Channel) (i : MonId) (m : Monitor) : (ch.setMon i m).state = ch.state := by
  cases i <;> rfl

@[simp] theorem setMon_frame (ch : Channel) (i : MonId) (m : Monitor) : (ch.setMon i m).frame = ch.frame := by
  cases i <;> rfl

@[simp] theorem setMon_buffer (ch : Channel) (i : MonId) (m : Monitor) : (ch.setMon i m).buffer = ch.buffer := by
  cases i <;> rfl

@[simp] theorem setMon_deepest (ch : Channel) (i : MonId) (m : Monitor) : (ch.setMon i m).deepest = ch.deepest := by
  cases i <;> rfl

@[simp] theorem setMon_geom (ch : Channel) (i : MonId) (m : Monitor) : (ch.setMon i m).geom = ch.geom := by
  cases i <;> rfl

@[simp] theorem setMon_lay (ch : Channel) (i : MonId) (m : Monitor) : (ch.setMon i m).lay = ch.lay := by
  cases i <;> rfl

@[simp] theorem setMon_lastLate (ch : Channel) (i : MonId) (m : Monitor) : (ch.setMon i m).lastLate =
    ch.lastLate := by
  cases i <;> rfl

@[simp] theorem setMon_lastFetchError (ch : Channel) (i : MonId) (m : Monitor) : (ch.setMon i m).lastFetchError =
    ch.lastFetchError := by
  cases i <;> rfl

end Channel

end Sys2Proof.Machine
end

