-- ==== Sys2Proof/Laws/Ingest.lean ====
section
/-! SUPPORT. The frames in flight as a list of frames of distinct slots, the completion of a dropped frame, what RESTART leaves
of a port, and the order of output lines: required lines rise with the output line, so what a received crop line produces is a
run of output lines from the next one on. -/

namespace Sys2Proof.Machine

/-- Positions rise with the output column or line (R73). -/
theorem posOf_mono (step i j : Nat) (h : i ≤ j) : posOf step i ≤ posOf step j := by
  have := Nat.mul_le_mul_right step h
  unfold posOf
  omega

/-- Required lines rise with the output line (R74). -/
theorem required_mono (f : OpenFrame) (i j : Nat) (h : i ≤ j) : f.required i ≤ f.required j := by
  have := Nat.div_le_div_right (c := 4096) (posOf_mono f.stepY i j h)
  unfold OpenFrame.required OpenFrame.source
  omega

/-- The count of output lines from `j` on that lie below `r`: a bound, and which lines it covers (R76). -/
theorem countBelow_spec (f : OpenFrame) (r : Nat) : ∀ n j, f.countBelow r n j ≤ n ∧
    ∀ i, j ≤ i → i < j + n → (i < j + f.countBelow r n j ↔ f.required i < r) := by
  intro n
  induction n with
  | zero => exact fun j => ⟨Nat.le_refl _, fun i h1 h2 => by omega⟩
  | succ n ih =>
    intro j
    obtain ⟨h1, h2⟩ := ih (j + 1)
    unfold OpenFrame.countBelow
    split
    · refine ⟨by omega, fun i a b => ?_⟩
      by_cases hij : i = j
      · subst hij
        constructor <;> intro _ <;> omega
      · rw [← h2 i (by omega) (by omega)]
        omega
    · refine ⟨by omega, fun i a b => ?_⟩
      have := required_mono f j i a
      constructor <;> intro _ <;> omega

/-- The count of output lines from `j` on that require `r`, where none from `j` on lies below `r` (R76). -/
theorem countAt_spec (f : OpenFrame) (r : Nat) : ∀ n j, (∀ i, j ≤ i → i < j + n → r ≤ f.required i) →
    f.countAt r n j ≤ n ∧ ∀ i, j ≤ i → i < j + n → (i < j + f.countAt r n j ↔ f.required i ≤ r) := by
  intro n
  induction n with
  | zero => exact fun j _ => ⟨Nat.le_refl _, fun i h1 h2 => by omega⟩
  | succ n ih =>
    intro j hj
    obtain ⟨h1, h2⟩ := ih (j + 1) fun i a b => hj i (by omega) (by omega)
    have hjj := hj j (Nat.le_refl _) (by omega)
    unfold OpenFrame.countAt
    split
    · refine ⟨by omega, fun i a b => ?_⟩
      by_cases hij : i = j
      · subst hij
        constructor <;> intro _ <;> omega
      · rw [← h2 i (by omega) (by omega)]
        omega
    · refine ⟨by omega, fun i a b => ?_⟩
      have := required_mono f j i a
      constructor <;> intro _ <;> omega

/-! ## Frames in flight of distinct slots -/

/-- Changing a frame in flight by its slot changes it alone. -/
theorem flight_map (before after : List Flight) (f : Flight) (g : Flight → Flight)
    (hn : ((before ++ f :: after).map Flight.slot).Nodup) :
   ((before ++ f :: after).map fun x => if x.slot = f.slot then g x else x) = before ++ g f :: after := by
  rw [List.map_append, List.nodup_append] at hn
  simp only [List.map_cons, List.nodup_cons] at hn
  rw [List.map_append]
  congr 1
  · conv_rhs => rw [← List.map_id before]
    apply List.map_congr_left
    intro x hx; rw [if_neg]; · rfl
    exact hn.2.2 x.slot (List.mem_map_of_mem hx) f.slot (by simp)
  · rw [List.map_cons, if_pos rfl]
    congr 1
    conv_rhs => rw [← List.map_id after]
    apply List.map_congr_left
    intro x hx; rw [if_neg]; · rfl
    intro h; exact hn.2.1.1 (h ▸ List.mem_map_of_mem hx)

/-- The frame in flight of a slot. -/
theorem flight_find (before after : List Flight) (f : Flight) (i : Fin 16) (hi : f.slot = i)
    (hn : ((before ++ f :: after).map Flight.slot).Nodup) :
   (before ++ f :: after).find? (fun x => x.slot = i) = some f := by
  rw [List.find?_eq_some_iff_append]
  refine ⟨by simpa using hi, before, after, rfl, ?_⟩
  intro x hx
  rw [List.map_append, List.nodup_append] at hn
  have := hn.2.2 x.slot (List.mem_map_of_mem hx) f.slot (by simp)
  subst hi; simpa using this

/-- Removing a frame in flight by its slot takes it alone. -/
theorem flight_filter (before after : List Flight) (f : Flight) (i : Fin 16) (hi : f.slot = i)
    (hn : ((before ++ f :: after).map Flight.slot).Nodup) :
   ((before ++ f :: after).filter fun x => x.slot ≠ i) = before ++ after := by
  subst hi
  rw [List.map_append, List.nodup_append] at hn
  rw [List.filter_append]
  simp only [List.map_cons, List.nodup_cons] at hn
  have h1 : (before.filter fun x => x.slot ≠ f.slot) = before := by
    rw [List.filter_eq_self]; intro x hx; simp; exact hn.2.2 x.slot (List.mem_map_of_mem hx) f.slot (by simp)
  have h2 : ((f :: after).filter fun x => x.slot ≠ f.slot) = after := by
    rw [List.filter_cons_of_neg (by simp), List.filter_eq_self]; intro x hx; simp
    intro h; exact hn.2.1.1 (h ▸ List.mem_map_of_mem hx)
  rw [h1, h2]

/-! ## Abandoned frames, and a port at RESTART (R65, R81, R83) -/

/-- Whether the frame in flight of an open frame is complete as soon as it is closed: nothing of it queued or
outstanding. -/
def closesComplete (u : Port) (f : OpenFrame) : Bool :=
  ((u.flight? f.slot).any fun g => g.outstanding = 0) && u.queue.all fun e => e.slot ≠ f.slot

theorem find_map_slot (l : List Flight) (i : Fin 16) (h : Flight → Flight) (hs : ∀ g, (h g).slot = g.slot) :
    (l.map fun g => if g.slot = i then h g else g).find? (fun g => g.slot = i) =
      (l.find? fun g => g.slot = i).map h := by
  induction l with
  | nil => rfl
  | cons x l ih =>
    rw [List.map_cons, List.find?_cons, List.find?_cons]
    by_cases hx : x.slot = i
    · simp [hx, hs]
    · simp [hx, ih]

theorem filter_map_slot (l : List Flight) (i : Fin 16) (h : Flight → Flight) (hs : ∀ g, (h g).slot = g.slot) :
    (l.map fun g => if g.slot = i then h g else g).filter (fun g => g.slot ≠ i) = l.filter fun g => g.slot ≠ i := by
  induction l with
  | nil => rfl
  | cons x l ih =>
    rw [List.map_cons]
    by_cases hx : x.slot = i
    · simp [hx, hs] at ih ⊢
      exact ih
    · simp [hx] at ih ⊢
      exact ih

/-- An open frame abandoned without a report: its frame in flight is gone and its slot FREE when it is complete at once,
otherwise the frame is abandoned and closed and its slot SETTLING and damaged. -/
theorem abandonFrame_eq (b : Blocks) (p : Fin 4) (f : OpenFrame) :
    b.abandonFrame p f false =
      if closesComplete (b.port p) f = true then
        (b.setPort p { b.port p with
          state := .waiting, flights := (b.port p).flights.filter fun g => g.slot ≠ f.slot }).setSlot p f.slot
          { Slot.reset with hold := (b.slot p f.slot).hold }
      else
        (b.setPort p { b.port p with
          state := .waiting
          flights := (b.port p).flights.map fun g =>
            if g.slot = f.slot then { g with reason := .abandoned, closed := true } else g }).setSlot p f.slot
          { b.slot p f.slot with state := .settling, damaged := true } := by
  unfold Blocks.abandonFrame
  simp only [Bool.false_eq_true, if_false]
  unfold Blocks.settleSlot
  simp only [Bool.or_true, Blocks.slot_setPort]
  unfold Blocks.completeFlight closesComplete
  simp only [Blocks.port_setSlot, Blocks.port_setPort_same]
  unfold Port.flight? Port.setFlight Blocks.flightDone
  simp only
  rw [find_map_slot _ _ (fun g => { g with reason := .abandoned, closed := true }) (fun _ => rfl)]
  cases hf : (b.port p).flights.find? fun g => g.slot = f.slot with
  | none => simp
  | some g =>
    have hg : g.slot = f.slot := by simpa using List.find?_some hf
    simp only [Option.map_some, Option.any_some, Bool.true_and, reduceCtorEq, decide_false, hg]
    by_cases hd : (decide (g.outstanding = 0) && (b.port p).queue.all fun e => decide (e.slot ≠ f.slot)) = true
    · rw [if_pos hd, if_pos hd,
        filter_map_slot _ _ (fun g => { g with reason := .abandoned, closed := true }) (fun _ => rfl)]
      simp only [Blocks.completeSlot, Bool.false_and, Bool.false_eq_true, if_false]
      rw [← Blocks.setSlot_setPort]
      simp only [Blocks.setSlot_setSlot, Blocks.slot_setPort, Blocks.slot_setSlot_same]
      rw [Blocks.setSlot_setPort, Blocks.setPort_setPort]
    · rw [if_neg hd, if_neg hd]

/-- RESTART's effect on a port: IDLE, no last good unit, settings and queue kept, no report; its open frame abandoned
(R83). -/
theorem restartPort_eq (b : Blocks) (p : Fin 4) : restartPort b p =
    match (b.port p).state with
    | .receiving f =>
      if closesComplete (b.port p) f = true then
        (b.setPort p { b.port p with
          state := .idle, lastGood := none
          flights := (b.port p).flights.filter fun g => g.slot ≠ f.slot }).setSlot p f.slot
          { Slot.reset with hold := (b.slot p f.slot).hold }
      else
        (b.setPort p { b.port p with
          state := .idle, lastGood := none
          flights := (b.port p).flights.map fun g =>
            if g.slot = f.slot then { g with reason := .abandoned, closed := true } else g }).setSlot p f.slot
          { b.slot p f.slot with state := .settling, damaged := true }
    | .idle | .waiting | .discarding _ _ | .lost => b.setPort p { b.port p with state := .idle, lastGood := none } := by
  unfold restartPort
  cases (b.port p).state with
  | receiving f =>
    simp only [abandonFrame_eq]
    split <;> simp only [Blocks.port_setSlot, Blocks.port_setPort_same] <;>
      rw [Blocks.setSlot_setPort, Blocks.setPort_setPort]
  | idle | waiting | discarding | lost => rfl

/-! ## The arithmetic of ingest (R70, R72 to R74) -/

/-- The two-tap formula stays a byte (R73). -/
theorem tap_toNat (a b : Byte) (f : Nat) (h : f ≤ 4096) :
    (tap a b f).toNat = (a.toNat * (4096 - f) + b.toNat * f + 2048) / 4096 := by
  unfold tap byteOfNat
  rw [BitVec.toNat_ofNat, Nat.mod_eq_of_lt]
  have ha := a.isLt
  have hb := b.isLt
  have h1 : a.toNat * (4096 - f) ≤ 255 * (4096 - f) := Nat.mul_le_mul_right _ (by omega)
  have h2 : b.toNat * f ≤ 255 * f := Nat.mul_le_mul_right _ (by omega)
  omega

/-- The clamp of a component (R70). -/
theorem clampByte_toNat (v : Byte) (lo hi : Nat) (h : lo ≤ hi) (hh : hi ≤ 255) :
    (clampByte v lo hi).toNat = max lo (min hi v.toNat) := by
  unfold clampByte byteOfNat
  rw [BitVec.toNat_ofNat, Nat.mod_eq_of_lt (by omega)]
  omega

/-- The size of a frame fits its crop, the limits of a target and its slot (R72). -/
theorem targetOf_bounds (s : IngestSettings) (crop : Rect) (slotBytes : Nat) (hw : 16 ≤ crop.w) (hh : 16 ≤ crop.h)
    (hb : 4096 ≤ slotBytes) :
    16 ≤ (targetOf s crop slotBytes).1 ∧ (targetOf s crop slotBytes).1 ≤ 960 ∧
      (targetOf s crop slotBytes).1 % 4 = 0 ∧ (targetOf s crop slotBytes).1 ≤ crop.w ∧
      16 ≤ (targetOf s crop slotBytes).2 ∧ (targetOf s crop slotBytes).2 ≤ 1080 ∧
      (targetOf s crop slotBytes).2 ≤ crop.h ∧
      (targetOf s crop slotBytes).1 * (targetOf s crop slotBytes).2 * 4 ≤ slotBytes := by
  unfold targetOf
  simp only
  generalize hw1 : max 16 (min s.targetW 960) / 4 * 4 = w1
  generalize hh1 : max 16 (min s.targetH 1080) = h1
  generalize hw2 : (if crop.w < w1 then crop.w / 4 * 4 else w1) = w2
  generalize hh2 : (if crop.h < h1 then crop.h else h1) = h2
  have b1 : 16 ≤ w2 ∧ w2 ≤ 960 ∧ w2 % 4 = 0 ∧ w2 ≤ crop.w := by
    subst hw2
    split <;> omega
  have b2 : 16 ≤ h2 ∧ h2 ≤ 1080 ∧ h2 ≤ crop.h := by
    subst hh2
    split <;> omega
  have k1 := Nat.div_mul_le_self slotBytes (w2 * 4)
  have k2 := Nat.lt_mul_div_succ slotBytes (show 0 < w2 * 4 by omega)
  rw [Nat.mul_comm] at k2
  generalize slotBytes / (w2 * 4) = q at k1 k2 ⊢
  by_cases h : slotBytes < w2 * h2 * 4
  · rw [if_pos h]
    have hq : q < h2 := by
      by_contra hc
      have : w2 * 4 * h2 ≤ w2 * 4 * q := Nat.mul_le_mul_left _ (by omega)
      have e1 : w2 * 4 * h2 = w2 * h2 * 4 := by ring
      have e2 : w2 * 4 * q = q * (w2 * 4) := by ring
      omega
    by_cases h3 : q < 16
    · rw [if_pos h3]
      simp only
      have : (q + 1) * (w2 * 4) ≤ 16 * (w2 * 4) := Nat.mul_le_mul_right _ (by omega)
      omega
    · rw [if_neg h3]
      simp only
      have e2 : w2 * q * 4 = q * (w2 * 4) := by ring
      omega
  · rw [if_neg h, if_neg (by omega)]
    simp only
    omega

/-! ## Dropping a frame, placing a line entry (R77, R78, R80) -/

/-- The slot of a frame in flight that has a drop reason is marked damaged while FILLING. -/
theorem markDamaged_eq (b : Blocks) (p : Fin 4) (i : Fin 16) : b.markDamaged p i =
    b.setSlot p i { b.slot p i with
      damaged := (b.slot p i).damaged || decide ((b.slot p i).state = .filling) } := by
  unfold Blocks.markDamaged
  split
  · rename_i h
    simp [h]
  · rename_i h
    rw [decide_eq_false h, Bool.or_false]
    exact (Blocks.setSlot_self b p i).symm

/-- The DAMAGED reason given to a frame in flight: its reason if it had none, and its slot marked while FILLING; where the
slot has no frame in flight nothing changes. -/
theorem dropFlight_damaged (b : Blocks) (p : Fin 4) (i : Fin 16) : b.dropFlight p i Blocks.damagedIfNone =
    (b.setPort p { b.port p with flights := (b.port p).flights.map fun g =>
        if g.slot = i ∧ g.reason = .none then { g with reason := .damaged } else g }).setSlot p i
      { b.slot p i with damaged := (b.slot p i).damaged ||
        (decide ((b.slot p i).state = .filling) && (b.port p).flights.any fun g => decide (g.slot = i)) } := by
  have e : ((b.port p).setFlight i fun f => { f with reason := Blocks.damagedIfNone f.reason }) =
      { b.port p with flights := (b.port p).flights.map fun g =>
        if g.slot = i ∧ g.reason = .none then { g with reason := .damaged } else g } := by
    unfold Port.setFlight
    congr 1
    apply List.map_congr_left
    rintro ⟨s, w, c, r, o⟩ -
    by_cases h : s = i <;> by_cases hr : r = .none <;> simp [h, hr, Blocks.damagedIfNone]
  have hf : ((b.port p).setFlight i fun f => { f with reason := Blocks.damagedIfNone f.reason }).flight? i =
      ((b.port p).flights.find? fun f => f.slot = i).map fun f =>
        { f with reason := Blocks.damagedIfNone f.reason } :=
    find_map_slot (b.port p).flights i (fun f => { f with reason := Blocks.damagedIfNone f.reason }) fun _ => rfl
  unfold Blocks.dropFlight
  simp only
  rw [hf, e]
  cases h : (b.port p).flights.find? fun f => f.slot = i with
  | none =>
    rw [List.find?_eq_none] at h
    have ha : ((b.port p).flights.any fun g => decide (g.slot = i)) = false := by
      rw [List.any_eq_false]
      exact h
    rw [ha, Bool.and_false, Bool.or_false]
    exact (Blocks.setSlot_self _ p i).symm
  | some f =>
    have ha : ((b.port p).flights.any fun g => decide (g.slot = i)) = true := by
      rw [List.any_eq_true]
      exact ⟨f, List.mem_of_find?_eq_some h, by simpa using List.find?_some h⟩
    have hr : Blocks.damagedIfNone f.reason ≠ .none := by
      unfold Blocks.damagedIfNone
      split <;> simp_all
    simp only [Option.map_some, if_neg hr]
    rw [markDamaged_eq, ha, Bool.and_true]
    rfl

end Sys2Proof.Machine
end

