-- ==== Sys2Proof/Laws/Layouts.lean ====
section
/-! SUPPORT. The rounding of a transition in natural numbers, upward and downward. -/

namespace Sys2Proof.Machine

/-- A transition of no steps stands at its target (R112, R113). -/
theorem along_zero (start target k : Nat) : along start target k 0 = target := by
  simp [along]

/-- An upward transition: the start plus the rounded part of the way (R112, R113). -/
theorem along_up (start target k n : Nat) (hn : n ≠ 0) (h : start ≤ target) :
    along start target k n = start + (2 * ((target - start) * k) + n) / (2 * n) := by
  unfold along roundAway
  have e : ((target : Int) - start) * k = (((target - start) * k : Nat) : Int) := by
    push_cast [h]
    rfl
  rw [if_neg hn, e, Int.natAbs_natCast]
  generalize (target - start) * k = m
  simp only
  rw [if_neg (by omega)]
  generalize (2 * m + n) / (2 * n) = q
  omega

/-- A downward transition: the start less the rounded part of the way (R112, R113). -/
theorem along_down (start target k n : Nat) (hn : n ≠ 0) (h : target ≤ start) :
    along start target k n = start - (2 * ((start - target) * k) + n) / (2 * n) := by
  unfold along roundAway
  have e : ((target : Int) - start) * k = -(((start - target) * k : Nat) : Int) := by
    push_cast [h]
    ring
  rw [if_neg hn, e, Int.natAbs_neg, Int.natAbs_natCast]
  generalize (start - target) * k = m
  simp only
  by_cases hz : m = 0
  · subst hz
    have : (2 * 0 + n) / (2 * n) = 0 := Nat.div_eq_of_lt (by omega)
    rw [this]
    simp
  · rw [if_pos (by omega)]
    generalize (2 * m + n) / (2 * n) = q
    omega

end Sys2Proof.Machine
end

