-- ==== Sys2Proof/Laws/Pixels.lean ====
section
/-! SUPPORT. Addresses and pixels: the buffer of an address, the pixels of a run, and the runs of a request as the pixels of its
bytes (R3, R4). -/

namespace Sys2Proof.Machine.Descriptor

/-- The word of a line that holds the pixel of a column (R3). -/
def wordOfColumn (d : Descriptor) (c : Nat) : Nat :=
  match d.format with
  | .w10 => c
  | .p8 => c / 2

/-- The buffer of an address is the first whose span contains it. -/
theorem bufferOf_eq_some (d : Descriptor) (a : Nat) (k : Fin 4) :
    d.bufferOf a = some k ↔ d.spanHas k a = true ∧ ∀ j < k, d.spanHas j a = false := by
  unfold bufferOf
  have hj : (∀ j < k, d.spanHas j a = false) ↔ (0 < k → d.spanHas 0 a = false) ∧ (1 < k → d.spanHas 1 a = false) ∧
      (2 < k → d.spanHas 2 a = false) := by
    constructor
    · exact fun h => ⟨h 0, h 1, h 2⟩
    · rintro ⟨h0, h1, h2⟩ j hj
      fin_cases j
      · exact h0 hj
      · exact h1 hj
      · exact h2 hj
      · exact absurd hj (by have := k.isLt; simp [Fin.lt_def]; omega)
  rw [hj]
  cases h0 : d.spanHas 0 a <;> cases h1 : d.spanHas 1 a <;> cases h2 : d.spanHas 2 a <;> cases h3 : d.spanHas 3 a <;>
    fin_cases k <;> simp [List.find?, h0, h1, h2, h3]

/-- The columns of the run of a line: those whose word has a byte that is covered and lies below the row width. -/
theorem mem_runOf (d : Descriptor) (o n l c : Nat) :
    (∃ s, d.runOf o n l = some s ∧ s.first ≤ c ∧ c < s.first + s.count) ↔
      l < d.height ∧ ∃ y, o ≤ l * d.stride + y ∧ l * d.stride + y < o + n ∧ y < d.rowWidth ∧ y / 4 = d.wordOfColumn c := by
  unfold runOf wordOfColumn
  simp only
  generalize l * d.stride = q
  constructor
  · rintro ⟨s, hs, h1, h2⟩
    split at hs
    · rename_i hc
      obtain rfl := Option.some.inj hs
      refine ⟨hc.1, ?_⟩
      cases hf : d.format <;> simp only [hf] at h1 h2 ⊢
      · by_cases hlow : (max o q - q) / 4 = c
        · exact ⟨max o q - q, by omega, by omega, by omega, hlow⟩
        · exact ⟨4 * c, by omega, by omega, by omega, by omega⟩
      · by_cases hlow : (max o q - q) / 4 = c / 2
        · exact ⟨max o q - q, by omega, by omega, by omega, hlow⟩
        · exact ⟨4 * (c / 2), by omega, by omega, by omega, by omega⟩
    · cases hs
  · rintro ⟨hl, y, h1, h2, h3, h4⟩
    rw [if_pos ⟨hl, by omega⟩]
    refine ⟨_, rfl, ?_⟩
    cases hf : d.format <;> simp only [hf] at h4 ⊢ <;> omega

/-- The line and the size of a run. -/
theorem runOf_some (d : Descriptor) (o n l : Nat) (s : Span) (h : d.runOf o n l = some s) : s.line = l ∧ 1 ≤ s.count := by
  unfold runOf at h
  simp only at h
  split at h
  · rename_i hc
    obtain rfl := Option.some.inj h
    refine ⟨rfl, ?_⟩
    cases d.format <;> simp only <;> omega
  · cases h

/-- The runs of a request are the run of its first byte's line, then the run of the next line, where there are such. -/
theorem runs_eq (d : Descriptor) (k : Fin 4) (a beats : Nat) :
    d.runs k a beats = (d.runOf (a - d.base k) (beats * 16) ((a - d.base k) / d.stride)).toList ++
      (d.runOf (a - d.base k) (beats * 16) ((a - d.base k) / d.stride + 1)).toList := by
  unfold runs offset
  simp only
  cases h1 : d.runOf (a - d.base k) (beats * 16) ((a - d.base k) / d.stride) <;>
    cases h2 : d.runOf (a - d.base k) (beats * 16) ((a - d.base k) / d.stride + 1) <;> simp [h1, h2]

/-- A request has no run, one, or two on consecutive lines. -/
theorem runs_shape (d : Descriptor) (k : Fin 4) (a beats : Nat) :
    d.runs k a beats = [] ∨ (∃ r, d.runs k a beats = [r]) ∨ ∃ r r', d.runs k a beats = [r, r'] ∧ r'.line = r.line + 1 := by
  rw [runs_eq]
  cases h1 : d.runOf (a - d.base k) (beats * 16) ((a - d.base k) / d.stride) with
  | none =>
    cases h2 : d.runOf (a - d.base k) (beats * 16) ((a - d.base k) / d.stride + 1) with
    | none => left; rfl
    | some r' => right; left; exact ⟨r', rfl⟩
  | some r =>
    cases h2 : d.runOf (a - d.base k) (beats * 16) ((a - d.base k) / d.stride + 1) with
    | none => right; left; exact ⟨r, rfl⟩
    | some r' =>
      right; right
      exact ⟨r, r', rfl, by rw [(runOf_some _ _ _ _ _ h1).1, (runOf_some _ _ _ _ _ h2).1]⟩

/-- A pixel is in a run of a request from inside buffer `k` exactly when a byte the request covers lies inside the buffer
and in the pixel's word. -/
theorem mem_runs (d : Descriptor) (k : Fin 4) (a beats line column : Nat) (hrow : 256 ≤ d.rowWidth)
    (hstride : d.rowWidth ≤ d.stride) (hheight : 1 ≤ d.height) (hbeats : beats ≤ 16) (hbase : d.base k ≤ a) :
    (∃ s ∈ d.runs k a beats, s.line = line ∧ s.first ≤ column ∧ column < s.first + s.count) ↔
      ∃ x, a ≤ x ∧ x < a + beats * 16 ∧ x < d.base k + d.spanBytes ∧ (x - d.base k) / d.stride = line ∧
        (x - d.base k) % d.stride < d.rowWidth ∧ (x - d.base k) % d.stride / 4 = d.wordOfColumn column := by
  have key : (∃ s ∈ d.runs k a beats, s.line = line ∧ s.first ≤ column ∧ column < s.first + s.count) ↔
      (line = (a - d.base k) / d.stride ∨ line = (a - d.base k) / d.stride + 1) ∧
        ∃ s, d.runOf (a - d.base k) (beats * 16) line = some s ∧ s.first ≤ column ∧ column < s.first + s.count := by
    rw [runs_eq]
    constructor
    · rintro ⟨s, hs, hl, hc⟩
      rw [List.mem_append, Option.mem_toList, Option.mem_toList] at hs
      rcases hs with hs | hs
      · have := (runOf_some _ _ _ _ _ hs).1
        exact ⟨.inl (by omega), s, by rw [← hl, this]; exact hs, hc⟩
      · have := (runOf_some _ _ _ _ _ hs).1
        exact ⟨.inr (by omega), s, by rw [← hl, this]; exact hs, hc⟩
    · rintro ⟨hl, s, hs, hc⟩
      refine ⟨s, ?_, (runOf_some _ _ _ _ _ hs).1, hc⟩
      rw [List.mem_append, Option.mem_toList, Option.mem_toList]
      rcases hl with rfl | rfl
      · exact .inl hs
      · exact .inr hs
  rw [key, mem_runOf]
  obtain ⟨o, rfl⟩ : ∃ o, a = d.base k + o := ⟨a - d.base k, by omega⟩
  rw [Nat.add_sub_cancel_left]
  have hspos : 0 < d.stride := by omega
  have hspan : ∀ y, y % d.stride < d.rowWidth → (y < d.spanBytes ↔ y / d.stride < d.height) := by
    intro y hy
    unfold spanBytes
    have e := Nat.div_add_mod y d.stride
    rw [Nat.mul_comm] at e
    constructor
    · intro h
      by_contra hge
      have : d.height * d.stride ≤ y / d.stride * d.stride := Nat.mul_le_mul_right _ (by omega)
      have e2 : d.height * d.stride = (d.height - 1) * d.stride + d.stride := by
        conv_lhs => rw [show d.height = d.height - 1 + 1 by omega]
        rw [Nat.add_mul, Nat.one_mul]
      omega
    · intro h
      have : y / d.stride * d.stride ≤ (d.height - 1) * d.stride := Nat.mul_le_mul_right _ (by omega)
      omega
  constructor
  · rintro ⟨-, hlh, y, h1, h2, h3, h4⟩
    have hd : (line * d.stride + y) / d.stride = line := by
      rw [Nat.mul_comm, Nat.mul_add_div hspos, Nat.div_eq_of_lt (by omega), Nat.add_zero]
    have hm : (line * d.stride + y) % d.stride = y := by
      rw [Nat.mul_comm, Nat.mul_add_mod, Nat.mod_eq_of_lt (by omega)]
    have hlt := (hspan (line * d.stride + y) (by rw [hm]; exact h3)).2 (by rw [hd]; exact hlh)
    refine ⟨d.base k + (line * d.stride + y), by omega, by omega, by omega, ?_⟩
    rw [Nat.add_sub_cancel_left, hd, hm]
    exact ⟨rfl, h3, h4⟩
  · rintro ⟨x, h1, h2, h3, h4, h5, h6⟩
    obtain ⟨y, rfl⟩ : ∃ y, x = d.base k + y := ⟨x - d.base k, by omega⟩
    rw [Nat.add_sub_cancel_left] at h4 h5 h6
    subst h4
    have e := Nat.div_add_mod y d.stride
    rw [Nat.mul_comm] at e
    have hlo : o / d.stride ≤ y / d.stride := Nat.div_le_div_right (by omega)
    have hhi : y / d.stride ≤ (o + d.stride) / d.stride := Nat.div_le_div_right (by omega)
    rw [Nat.add_div_right _ hspos] at hhi
    exact ⟨by omega, (hspan y h5).1 (by omega), y % d.stride, by omega, by omega, h5, h6⟩

end Sys2Proof.Machine.Descriptor
end

