-- ==== Sys2Proof/Laws/Reports.lean ====
section
/-! SUPPORT. The report unit: what raising a report and asking for a refresh do and what they rest on, the distance of the ring,
and where the bytes of a report record and of the status block come from. -/

namespace Sys2Proof.Machine

namespace Blocks

/-! ## Raising a report, asking for a refresh (R163, R167) -/

/-- A raise changes the report unit alone. -/
theorem raise_eq_rep (b : Blocks) (k : ReportKind) (u : Subject) (w : List Word) :
    b.raise k u w = { b with rep := (b.raise k u w).rep } := by
  unfold raise
  split <;> [split <;> rfl; rfl]

/-- What a raise does to the report unit rests on the report unit, the image and the time base alone. -/
theorem raise_rep_congr {b b' : Blocks} (h : b'.rep = b.rep) (hi : b'.image = b.image)
    (ht : b'.timeBase = b.timeBase) (k : ReportKind) (u : Subject) (w : List Word) :
    (b'.raise k u w).rep = (b.raise k u w).rep := by
  unfold raise enabled reportsFull distance
  rw [h, hi, ht]
  split <;> [split <;> rfl; exact h]

/-- A disabled kind is not raised (R163). -/
theorem raise_disabled (b : Blocks) (k : ReportKind) (u : Subject) (w : List Word) (h : b.enabled k = false) :
    b.raise k u w = b := by
  unfold raise
  rw [h]
  rfl

/-- With no room, an enabled report is lost (R163). -/
theorem raise_full (b : Blocks) (k : ReportKind) (u : Subject) (w : List Word) (h : b.enabled k = true)
    (hf : b.reportsFull = true) : b.raise k u w = { b with rep := { b.rep with lost := true } } := by
  unfold raise
  rw [if_pos h, if_pos hf]

/-- With room, an enabled report joins the queue (R163). -/
theorem raise_queued (b : Blocks) (k : ReportKind) (u : Subject) (w : List Word) (h : b.enabled k = true)
    (hf : b.reportsFull = false) :
    b.raise k u w = { b with rep := { b.rep with queue := b.rep.queue ++ [⟨k, u, b.timeBase, w⟩] } } := by
  unfold raise
  rw [if_pos h, if_neg (by rw [hf]; decide)]

/-- The status write and its "again" mark after a refresh request (R167). -/
theorem requestRefresh_eq (b : Blocks) : b.requestRefresh = { b with rep := { b.rep with
    status := if b.rep.status = .idle then .waiting else b.rep.status
    again := b.rep.again || decide (b.rep.status = .inFlight) } } := by
  obtain ⟨_, _, _, _, _, _, _, _, _, _, _, rep⟩ := b
  obtain ⟨_, _, _, _, _, _, _, status, _, _⟩ := rep
  cases status <;> simp [requestRefresh]

end Blocks

/-- The distance is the difference of the indexes with their laps, modulo twice the ring (R162). -/
theorem distance_eq_emod (r : ReportUnit) (n : Nat) (h : r.cons < n) :
    (r.distance n : Int) = (((r.prod : Int) + n * bitOf r.prodLap) - (r.cons + n * bitOf r.consLap)) % (2 * n) := by
  unfold ReportUnit.distance
  cases r.prodLap <;> cases r.consLap <;>
    simp only [bitOf, if_true, if_false, Bool.false_eq_true, Nat.mul_one, Nat.mul_zero, Nat.add_zero] <;>
    (rw [Int.natCast_mod, Nat.cast_sub (by omega)]; push_cast)
  all_goals (conv_lhs => rw [← Int.add_mul_emod_self_left _ _ (-1)]); congr 1; ring

/-! ## The bytes of a record (12 section 12.3) -/

/-- Byte `k` of word `n` of a record. -/
theorem byte_record (r : Report) (lost lap : Bool) (n k : Nat) (hn : n < 8) (hk : k < 4) :
    ((r.record lost lap).flatMap wordBytes).getD (4 * n + k) 0 = wordByte ((r.record lost lap).getD n 0) k := by
  interval_cases n <;> interval_cases k <;> rfl

/-! ## The bytes of the status block (12 section 12.4) -/

theorem getD_append_left' {α : Type} (l r : List α) (n : Nat) (d : α) (h : n < l.length) :
    (l ++ r).getD n d = l.getD n d := by
  simp [List.getD_eq_getElem?_getD, List.getElem?_append_left h]

theorem getD_append_right' {α : Type} (l r : List α) (n : Nat) (d : α) :
    (l ++ r).getD (l.length + n) d = r.getD n d := by
  simp [List.getD_eq_getElem?_getD, List.getElem?_append_right]

/-- The length of parts of one size, joined. -/
theorem length_flatMap_const {α β : Type} (l : List α) (f : α → List β) (n : Nat) (h : ∀ x, (f x).length = n) :
    (l.flatMap f).length = l.length * n := by
  induction l with
  | nil => simp
  | cons x l ih => rw [List.flatMap_cons, List.length_append, ih, h, List.length_cons]; ring

/-- Place `k` of part `i` of parts of one size, joined. -/
theorem getD_flatMap_const {α β : Type} (l : List α) (f : α → List β) (n : Nat) (h : ∀ x, (f x).length = n)
    (i k : Nat) (d : β) (x : α) (hx : l[i]? = some x) (hk : k < n) :
    (l.flatMap f).getD (n * i + k) d = (f x).getD k d := by
  induction l generalizing i with
  | nil => simp at hx
  | cons y l ih =>
    rw [List.flatMap_cons]
    cases i with
    | zero =>
      simp at hx
      subst hx
      rw [Nat.mul_zero, Nat.zero_add, getD_append_left' _ _ _ _ (by rw [h]; exact hk)]
    | succ i =>
      rw [show n * (i + 1) + k = (f y).length + (n * i + k) by rw [h]; ring, getD_append_right']
      exact ih i (by simpa using hx)

namespace Blocks

@[simp] theorem channelRecord_length (b : Blocks) (c : Fin 8) : (b.channelRecord c).length = 24 := by
  simp [channelRecord, wordBytes, halfBytes]

@[simp] theorem portRecord_length (b : Blocks) (p : Fin 4) : (b.portRecord p).length = 8 := by
  simp [portRecord, wordBytes]

/-- The first 16 bytes of the status block. -/
def statusHead (b : Blocks) (e : Fin 32) (l : Bool) : List Byte :=
  [byteOfNat b.mode.code, byteOfNat (causeCode b.cause), byteOfNat (e.val + 128 * bitOf l),
    byteOfNat (bitOf b.rep.lost + 128 * bitOf b.rep.prodLap), byteOfNat b.rep.prod, byteOfNat (b.rep.prod / 256)] ++
    List.replicate 10 0

theorem statusBlock_parts (b : Blocks) (e : Fin 32) (l : Bool) : b.statusBlock e l =
    b.statusHead e l ++
      (allPorts.flatMap b.portRecord ++ (allChans.flatMap b.channelRecord ++ List.replicate 16 0)) := by
  unfold statusBlock halfBytes statusHead
  simp only [List.append_assoc, List.cons_append, List.nil_append]

theorem ports_length (b : Blocks) : (allPorts.flatMap b.portRecord).length = 32 :=
  length_flatMap_const _ _ _ b.portRecord_length

theorem channels_length (b : Blocks) : (allChans.flatMap b.channelRecord).length = 192 :=
  length_flatMap_const _ _ _ b.channelRecord_length

/-- The status block has 256 bytes (R177). -/
theorem statusBlock_length (b : Blocks) (e : Fin 32) (l : Bool) : (b.statusBlock e l).length = 256 := by
  rw [statusBlock_parts]
  simp only [List.length_append, ports_length, channels_length, List.length_replicate]
  rfl

/-- Bytes 0 to 15: the part's. -/
theorem statusBlock_head (b : Blocks) (e : Fin 32) (l : Bool) (k : Nat) (hk : k < 16) :
    (b.statusBlock e l).getD k 0 = (b.statusHead e l).getD k 0 := by
  rw [statusBlock_parts, getD_append_left' _ _ _ _ hk]

/-- Bytes 16 to 47: the ports', 8 each. -/
theorem statusBlock_port (b : Blocks) (e : Fin 32) (l : Bool) (p : Fin 4) (k : Nat) (hk : k < 8) :
    (b.statusBlock e l).getD (16 + 8 * p.val + k) 0 = (b.portRecord p).getD k 0 := by
  have hh : (b.statusHead e l).length = 16 := rfl
  rw [statusBlock_parts, show 16 + 8 * p.val + k = (b.statusHead e l).length + (8 * p.val + k) by rw [hh]; omega,
    getD_append_right', getD_append_left' _ _ _ _ (by rw [ports_length]; omega)]
  exact getD_flatMap_const _ _ _ b.portRecord_length p.val k 0 p (by fin_cases p <;> rfl) hk

/-- Bytes 48 to 239: the channels', 24 each. -/
theorem statusBlock_channel (b : Blocks) (e : Fin 32) (l : Bool) (c : Fin 8) (k : Nat) (hk : k < 24) :
    (b.statusBlock e l).getD (48 + 24 * c.val + k) 0 = (b.channelRecord c).getD k 0 := by
  have hh : (b.statusHead e l).length = 16 := rfl
  rw [statusBlock_parts, show 48 + 24 * c.val + k =
      (b.statusHead e l).length + ((allPorts.flatMap b.portRecord).length + (24 * c.val + k)) by
    rw [hh, ports_length]; omega, getD_append_right', getD_append_right',
    getD_append_left' _ _ _ _ (by rw [channels_length]; omega)]
  exact getD_flatMap_const _ _ _ b.channelRecord_length c.val k 0 c (by fin_cases c <;> rfl) hk

/-- Bytes 240 to 255 are 0. -/
theorem statusBlock_tail (b : Blocks) (e : Fin 32) (l : Bool) (k : Nat) (hk : k < 256) (hl : 240 ≤ k) :
    (b.statusBlock e l).getD k 0 = 0 := by
  have hh : (b.statusHead e l).length = 16 := rfl
  rw [statusBlock_parts, show k = (b.statusHead e l).length + ((allPorts.flatMap b.portRecord).length +
      ((allChans.flatMap b.channelRecord).length + (k - 240))) by
    rw [hh, ports_length, channels_length]; omega, getD_append_right', getD_append_right', getD_append_right']
  have hm : k - 240 < 16 := by omega
  generalize k - 240 = m at hm
  interval_cases m <;> rfl

end Blocks

end Sys2Proof.Machine
end

