-- ==== Sys2Proof/Laws/Slots.lean ====
section
/-! SUPPORT. Ages, the oldest and the newest slot of a list, the retention depth; what holds and reports leave of the blocks. -/

namespace Sys2Proof.Machine

/-! ## Ages, the oldest and the newest (R86 to R88, R93) -/

/-- Every slot index is in the list of them. -/
theorem mem_allSlots (i : Fin 16) : i ∈ allSlots := by revert i; decide

/-- The READY slots. -/
theorem mem_readySlots (b : Blocks) (p : Fin 4) (i : Fin 16) : i ∈ b.readySlots p ↔ (b.slot p i).state = .ready := by
  unfold Blocks.readySlots; rw [List.mem_filter]; simp [mem_allSlots]

/-- The slot of smallest age. -/
theorem newest_spec (b : Blocks) (p : Fin 4) (l : List (Fin 16)) : (b.newest p l = none ↔ l = []) ∧
    ∀ i, b.newest p l = some i → i ∈ l ∧ ∀ j ∈ l, b.age p i ≤ b.age p j := by
  induction l with
  | nil => simp [Blocks.newest]
  | cons x l ih =>
    unfold Blocks.newest
    cases h : b.newest p l with
    | none =>
      have := ih.1.1 h; subst this; simp
    | some j =>
      have hj := ih.2 j h
      simp only
      refine ⟨by split <;> simp, ?_⟩
      intro i hi
      split at hi
      · rename_i hlt; cases hi
        refine ⟨by simp [hj.1], ?_⟩
        intro y hy; rcases List.mem_cons.1 hy with rfl | hy
        · omega
        · exact hj.2 y hy
      · rename_i hlt; cases hi
        refine ⟨by simp, ?_⟩
        intro y hy; rcases List.mem_cons.1 hy with rfl | hy
        · exact le_refl _
        · have := hj.2 y hy; omega

/-- The slot of greatest age. -/
theorem oldest_spec (b : Blocks) (p : Fin 4) (l : List (Fin 16)) : (b.oldest p l = none ↔ l = []) ∧
    ∀ i, b.oldest p l = some i → i ∈ l ∧ ∀ j ∈ l, b.age p j ≤ b.age p i := by
  induction l with
  | nil => simp [Blocks.oldest]
  | cons x l ih =>
    unfold Blocks.oldest
    cases h : b.oldest p l with
    | none =>
      have := ih.1.1 h; subst this; simp
    | some j =>
      have hj := ih.2 j h
      simp only
      refine ⟨by split <;> simp, ?_⟩
      intro i hi
      split at hi
      · rename_i hlt; cases hi
        refine ⟨by simp [hj.1], ?_⟩
        intro y hy; rcases List.mem_cons.1 hy with rfl | hy
        · omega
        · exact hj.2 y hy
      · rename_i hlt; cases hi
        refine ⟨by simp, ?_⟩
        intro y hy; rcases List.mem_cons.1 hy with rfl | hy
        · exact le_refl _
        · have := hj.2 y hy; omega

/-- The largest delay of a fold over channels that count. -/
theorem retention_fold (b : Blocks) (p : Fin 4) (l : List (Fin 8)) (d0 : Nat) :
   let r := l.foldl (fun d c => if b.retains p c then max d (b.chan c).desc.delay else d) d0
   d0 ≤ r ∧ (∀ c ∈ l, b.retains p c = true → (b.chan c).desc.delay ≤ r) ∧
    (r = d0 ∨ ∃ c ∈ l, b.retains p c = true ∧ (b.chan c).desc.delay = r) := by
  induction l generalizing d0 with
  | nil => simp
  | cons c l ih =>
    intro r
    have h := ih (if b.retains p c then max d0 (b.chan c).desc.delay else d0)
    have hr : r = l.foldl (fun d c => if b.retains p c then max d (b.chan c).desc.delay else d) (if b.retains p c then max d0 (b.chan c).desc.delay else d0) := rfl
    simp only at h
    rw [← hr] at h
    obtain ⟨h1, h2, h3⟩ := h
    by_cases hc : b.retains p c = true
    · rw [if_pos hc] at h1 h3
      refine ⟨by omega, ?_, ?_⟩
      · intro c' hc' hr'
        rcases List.mem_cons.1 hc' with rfl | hc'
        · omega
        · exact h2 c' hc' hr'
      · rcases h3 with h3 | ⟨c', hc', h3⟩
        · rcases le_total d0 (b.chan c).desc.delay with hle | hle
          · right; exact ⟨c, by simp, hc, by omega⟩
          · left; omega
        · right; exact ⟨c', by simp [hc'], h3⟩
    · rw [if_neg hc] at h1 h3
      refine ⟨h1, ?_, ?_⟩
      · intro c' hc' hr'
        rcases List.mem_cons.1 hc' with rfl | hc'
        · exact absurd hr' hc
        · exact h2 c' hc' hr'
      · rcases h3 with h3 | ⟨c', hc', h3⟩
        · exact .inl h3
        · right; exact ⟨c', by simp [hc'], h3⟩

theorem age_congr {b b' : Blocks} (h : b'.slotTab = b.slotTab) (p : Fin 4) (i : Fin 16) : b'.age p i = b.age p i := by
  unfold Blocks.age; rw [Blocks.portSlots_congr h, Blocks.slot_congr h]

theorem oldest_congr {b b' : Blocks} (h : b'.slotTab = b.slotTab) (p : Fin 4) (l : List (Fin 16)) : b'.oldest p l =
    b.oldest p l := by
  induction l with
  | nil => rfl
  | cons i l ih => unfold Blocks.oldest; rw [ih]; simp only [age_congr h]

theorem newest_congr {b b' : Blocks} (h : b'.slotTab = b.slotTab) (p : Fin 4) (l : List (Fin 16)) : b'.newest p l =
    b.newest p l := by
  induction l with
  | nil => rfl
  | cons i l ih => unfold Blocks.newest; rw [ih]; simp only [age_congr h]

theorem pick_congr {b b' : Blocks} (c : Fin 8) (hs : b'.slotTab = b.slotTab) (hp : b'.ports = b.ports)
    (hd : (b'.chan c).desc = (b.chan c).desc) : b'.pick c = b.pick c := by
  unfold Blocks.pick
  simp only [hd]
  cases (b.chan c).desc.port with
  | none => rfl
  | some p =>
    simp only [Blocks.port_congr hp]
    have hr : b'.readySlots p = b.readySlots p := by unfold Blocks.readySlots; simp only [Blocks.slot_congr hs]
    have : b'.pickSlot p (b.chan c).desc.delay = b.pickSlot p (b.chan c).desc.delay := by
      unfold Blocks.pickSlot; simp only [hr, newest_congr hs, oldest_congr hs, age_congr hs]
    rw [this]
    have : ∀ i, b'.refOf p i = b.refOf p i := by intro i; unfold Blocks.refOf; rw [Blocks.slot_congr hs]
    simp only [this]

/-! ## What the work of a frame start leaves -/

@[simp] theorem latest_addHold (b : Blocks) (r : SlotRef) (p : Fin 4) :
    ((b.addHold r).portSlots p).latest = (b.portSlots p).latest := by
  unfold Blocks.addHold
  simp

@[simp] theorem latest_dropHold (b : Blocks) (r : SlotRef) (p : Fin 4) :
    ((b.dropHold r).portSlots p).latest = (b.portSlots p).latest := by
  unfold Blocks.dropHold
  simp

/-- From `b` to `b'` nothing changed but channel `c`, slot holds and the report unit. -/
structure ChannelOnly (c : Fin 8) (b b' : Blocks) : Prop where
  rest : b' = { b with chans := b'.chans, slotTab := b'.slotTab, rep := b'.rep }
  others : ∀ c', c' ≠ c → b'.chan c' = b.chan c'
  latest : ∀ p, (b'.portSlots p).latest = (b.portSlots p).latest
  slots : ∀ p i, b'.slot p i = { b.slot p i with hold := (b'.slot p i).hold }

namespace ChannelOnly

variable {c : Fin 8} {a b d : Blocks}

theorem layouts (h : ChannelOnly c a b) : b.layouts = a.layouts := by rw [h.rest]
theorem rtt (h : ChannelOnly c a b) : b.rtt = a.rtt := by rw [h.rest]
theorem fetchQueue (h : ChannelOnly c a b) : b.fetchQueue = a.fetchQueue := by rw [h.rest]
theorem ports (h : ChannelOnly c a b) : b.ports = a.ports := by rw [h.rest]
theorem mode (h : ChannelOnly c a b) : b.mode = a.mode := by rw [h.rest]
theorem image (h : ChannelOnly c a b) : b.image = a.image := by rw [h.rest]
theorem timeBase (h : ChannelOnly c a b) : b.timeBase = a.timeBase := by rw [h.rest]

theorem refl (c : Fin 8) (b : Blocks) : ChannelOnly c b b := ⟨rfl, fun _ _ => rfl, fun _ => rfl, fun _ _ => rfl⟩

theorem trans (h : ChannelOnly c a b) (g : ChannelOnly c b d) : ChannelOnly c a d := by
  refine ⟨?_, fun c' hc => (g.others c' hc).trans (h.others c' hc), fun p => (g.latest p).trans (h.latest p), ?_⟩
  · rw [g.rest, h.rest]
  · intro p i
    rw [g.slots, h.slots]

theorem setChan (c : Fin 8) (b : Blocks) (x : Channel) : ChannelOnly c b (b.setChan c x) :=
  ⟨rfl, fun c' hc => Blocks.chan_setChan_ne _ _ _ _ hc, fun p => by simp, fun p i => by simp⟩

theorem raise (c : Fin 8) (b : Blocks) (k : ReportKind) (u : Subject) (w : List Word) :
    ChannelOnly c b (b.raise k u w) := by
  refine ⟨?_, fun c' _ => by simp, fun p => by simp, fun p i => by simp⟩
  rw [Blocks.raise_eq_rep]

theorem dropHold (c : Fin 8) (b : Blocks) (r : SlotRef) : ChannelOnly c b (b.dropHold r) := by
  refine ⟨rfl, fun c' _ => by simp, fun p => by simp, fun p i => ?_⟩
  unfold Blocks.dropHold
  rw [Blocks.slot_setSlot]
  split
  · rename_i h
    obtain ⟨rfl, rfl⟩ := h
    rfl
  · rfl

theorem addHold (c : Fin 8) (b : Blocks) (r : SlotRef) : ChannelOnly c b (b.addHold r) := by
  refine ⟨rfl, fun c' _ => by simp, fun p => by simp, fun p i => ?_⟩
  unfold Blocks.addHold
  rw [Blocks.slot_setSlot]
  split
  · rename_i h
    obtain ⟨rfl, rfl⟩ := h
    rfl
  · rfl

theorem moveHold (c : Fin 8) (b : Blocks) (x y : Option SlotRef) : ChannelOnly c b (b.moveHold x y) := by
  unfold Blocks.moveHold
  split
  · exact .refl _ _
  · exact .dropHold _ _ _
  · exact .addHold _ _ _
  · split
    · exact .refl _ _
    · exact (ChannelOnly.dropHold _ _ _).trans (.addHold _ _ _)

theorem raisePresence (c e : Fin 8) (b : Blocks) (x : Option SlotRef) (y : Except AbsentCause SlotRef) :
    ChannelOnly c b (b.raisePresence e x y) := by
  unfold Blocks.raisePresence
  split
  · exact .raise _ _ _ _ _
  · exact .refl _ _
  · split
    · exact .refl _ _
    · exact .raise _ _ _ _ _

theorem raiseEdge (c e : Fin 8) (i : MonId) (v : Bool) (b : Blocks) : ChannelOnly c b (raiseEdge e i v b) := by
  unfold Machine.raiseEdge
  simp only
  split
  · exact .raise _ _ _ _ _
  · split
    · exact .raise _ _ _ _ _
    · exact .refl _ _

end ChannelOnly

/-- A hold after a move: one less where only the old reference points, one more where only the new one does (R94). -/
theorem hold_moveHold (b : Blocks) (x y : Option SlotRef) (p : Fin 4) (i : Fin 16) :
    let at' := fun r : Option SlotRef => r.any fun r => decide (r.port = p ∧ r.slot = i)
    ((b.moveHold x y).slot p i).hold =
      if at' x = at' y then (b.slot p i).hold
      else if at' y = true then (b.slot p i).hold + 1 else (b.slot p i).hold - 1 := by
  have eq : ∀ r : SlotRef, (r.port = p ∧ r.slot = i) = (p = r.port ∧ i = r.slot) := fun r =>
    propext ⟨fun h => ⟨h.1.symm, h.2.symm⟩, fun h => ⟨h.1.symm, h.2.symm⟩⟩
  unfold Blocks.moveHold
  rcases x with _ | x <;> rcases y with _ | y
  · simp
  · simp only [Blocks.addHold, Blocks.slot_setSlot, Option.any_none, Option.any_some, eq]
    by_cases h : p = y.port ∧ i = y.slot
    · simp [h]
    · simp [h]
  · simp only [Blocks.dropHold, Blocks.slot_setSlot, Option.any_none, Option.any_some, eq]
    by_cases h : p = x.port ∧ i = x.slot
    · simp [h]
    · simp [h]
  · simp only [Option.any_some, eq]
    by_cases e : x.port = y.port ∧ x.slot = y.slot
    · rw [if_pos e, if_pos (by simp only [e])]
    · rw [if_neg e]
      simp only [Blocks.dropHold, Blocks.addHold, Blocks.slot_setSlot]
      by_cases hy : p = y.port ∧ i = y.slot
      · have hx : ¬ (p = x.port ∧ i = x.slot) := fun h => e ⟨h.1.symm.trans hy.1, h.2.symm.trans hy.2⟩
        have hx' : ¬ (y.port = x.port ∧ y.slot = x.slot) := fun h => e ⟨h.1.symm, h.2.symm⟩
        simp only [hy, hx', and_self, if_true, if_false, decide_true, decide_false, Bool.false_eq_true]
      · by_cases hx : p = x.port ∧ i = x.slot
        · have hn : ¬ (x.port = y.port ∧ x.slot = y.slot) := e
          simp only [hx, hn, and_self, if_true, if_false, decide_true, decide_false, Bool.false_eq_true]
          simp
        · simp [hx, hy]

theorem chan_moveHold (c : Fin 8) (b : Blocks) (x y) : (b.moveHold x y).chan c = b.chan c := by
  unfold Blocks.moveHold
  split
  · rfl
  · simp
  · simp
  · split <;> simp

theorem chan_raisePresence (c d : Fin 8) (b : Blocks) (x y) : (b.raisePresence d x y).chan c = b.chan c := by
  unfold Blocks.raisePresence
  split
  · simp
  · rfl
  · split
    · rfl
    · simp

theorem chan_raiseEdge (c d : Fin 8) (i v) (b : Blocks) : (raiseEdge d i v b).chan c = b.chan c := by
  unfold Machine.raiseEdge; simp only
  split
  · simp
  · split <;> simp

theorem slotTab_raiseEdge (d : Fin 8) (i v) (b : Blocks) : (raiseEdge d i v b).slotTab = b.slotTab := by
  unfold Machine.raiseEdge; simp only
  split
  · simp
  · split <;> simp

theorem slotTab_raisePresence (c : Fin 8) (b : Blocks) (x y) : (b.raisePresence c x y).slotTab = b.slotTab := by
  unfold Blocks.raisePresence
  split
  · simp
  · rfl
  · split <;> simp

/-! ## RESTART's effect on the channels (R16, R18) -/

/-- RESTART's effect on one channel. -/
def restartChannel (b : Blocks) (c : Fin 8) : Blocks :=
  if (b.chan c).state = .off then b else b.channelOff c .restart

theorem restartChannels_eq (b : Blocks) : restartChannels b = allChans.foldl restartChannel b := rfl

/-- A channel that is not OFF shows a slot. -/
def shows (b : Blocks) (p : Fin 4) (i : Fin 16) (c : Fin 8) : Bool :=
  decide ((b.chan c).state ≠ .off) &&
    ((b.chan c).geom.bind Geometry.slot).any fun r => decide (r.port = p ∧ r.slot = i)

theorem restartChannel_rest (b : Blocks) (c : Fin 8) : restartChannel b c = { b with
    chans := (restartChannel b c).chans, slotTab := (restartChannel b c).slotTab, rep := (restartChannel b c).rep } := by
  unfold restartChannel
  split
  · rfl
  · unfold Blocks.channelOff Blocks.raiseState Blocks.raiseChan
    simp only
    rw [Blocks.raise_eq_rep]
    cases b.latchedRef c <;> rfl

theorem restartChannel_chan (b : Blocks) (c c' : Fin 8) : (restartChannel b c).chan c' =
    if c' = c ∧ (b.chan c).state ≠ .off then
      { b.chan c with state := .off, geom := none, buffer := none, deepest := 0 }
    else b.chan c' := by
  unfold restartChannel
  by_cases h : (b.chan c).state = .off
  · simp [h]
  · rw [if_neg h]
    simp only [Blocks.channelOff, Blocks.raiseState, Blocks.latchedRef, Blocks.chan_raiseChan, Blocks.chan_setChan,
      Blocks.chan_dropHoldOpt]
    by_cases hc : c' = c
    · subst hc
      simp [h]
    · simp [hc]

theorem restartChannel_rep (b : Blocks) (c : Fin 8) : (restartChannel b c).rep =
    if (b.chan c).state = .off then b.rep
    else (b.raise .channelState (.channel c (b.chan c).frame) [quadWord 0 4 0 0]).rep := by
  unfold restartChannel
  split
  · rfl
  · simp only [Blocks.channelOff, Blocks.raiseState, Blocks.raiseChan, Blocks.chan_setChan_same,
      Blocks.chan_dropHoldOpt]
    exact Blocks.raise_rep_congr (by simp) (by simp) (by simp) _ _ _

theorem restartChannel_latest (b : Blocks) (c : Fin 8) (p : Fin 4) :
    ((restartChannel b c).portSlots p).latest = (b.portSlots p).latest := by
  unfold restartChannel
  split
  · rfl
  · simp only [Blocks.channelOff, Blocks.raiseState, Blocks.portSlots_raiseChan, Blocks.portSlots_setChan]
    cases b.latchedRef c with
    | none => rfl
    | some r => simp [Blocks.dropHold?]

theorem restartChannel_slot (b : Blocks) (c : Fin 8) (p : Fin 4) (i : Fin 16) : (restartChannel b c).slot p i =
    { b.slot p i with hold := (b.slot p i).hold - if shows b p i c = true then 1 else 0 } := by
  unfold restartChannel shows
  split
  · rename_i h
    simp [h]
  · rename_i h
    simp only [Blocks.channelOff, Blocks.raiseState, Blocks.slot_raiseChan, Blocks.slot_setChan, Blocks.latchedRef]
    cases (b.chan c).geom.bind Geometry.slot with
    | none => simp [Blocks.dropHold?]
    | some r =>
      simp only [Blocks.dropHold?, Blocks.dropHold, Blocks.slot_setSlot]
      by_cases e : p = r.port ∧ i = r.slot
      · simp [e, h]
      · have : ¬ (r.port = p ∧ r.slot = i) := fun hh => e ⟨hh.1.symm, hh.2.symm⟩
        simp [e, this]

/-- The channels of a list without repetition at RESTART: their holds go, everything else of the slots stays. -/
theorem restartChannel_fold (cs : List (Fin 8)) (hn : cs.Nodup) (b : Blocks) :
    let b' := cs.foldl restartChannel b
    b' = { b with chans := b'.chans, slotTab := b'.slotTab, rep := b'.rep } ∧
    (∀ p, (b'.portSlots p).latest = (b.portSlots p).latest) ∧
    (∀ p i, b'.slot p i = { b.slot p i with hold := (b.slot p i).hold - cs.countP (shows b p i) }) ∧
    ∀ c, b'.chan c = if c ∈ cs ∧ (b.chan c).state ≠ .off then
        { b.chan c with state := .off, geom := none, buffer := none, deepest := 0 }
      else b.chan c := by
  induction cs generalizing b with
  | nil => exact ⟨rfl, fun _ => rfl, fun _ _ => by simp, by simp⟩
  | cons c cs ih =>
    obtain ⟨hc, hn⟩ := List.nodup_cons.1 hn
    obtain ⟨h1, h2, h3, h4⟩ := ih hn (restartChannel b c)
    simp only [List.foldl_cons]
    refine ⟨by rw [h1, restartChannel_rest], fun p => by rw [h2, restartChannel_latest], ?_, ?_⟩
    · intro p i
      rw [h3, restartChannel_slot]
      have : cs.countP (shows (restartChannel b c) p i) = cs.countP (shows b p i) := by
        apply List.countP_congr
        intro c' h
        unfold shows
        rw [restartChannel_chan, if_neg fun e : c' = c ∧ _ => hc (e.1 ▸ h)]
      rw [this, List.countP_cons]
      simp only [Nat.sub_sub]
      congr 2
      omega
    · intro c'
      rw [h4 c', restartChannel_chan]
      by_cases e : c' = c
      · subst e
        simp [hc]
      · simp [e]

/-! ## A monitor's record is not changed by its work -/

theorem make_cfg (m : Monitor) : m.make.cfg = m.cfg := by unfold Monitor.make; simp only; split <;> rfl

theorem stepComputed_cfg (m : Monitor) (c : Condition) : (m.stepComputed c).cfg = m.cfg := by
  unfold Monitor.stepComputed Monitor.stepActive
  repeat' split
  all_goals first | rfl | exact make_cfg _ | (simp only; split <;> rfl)

theorem frameStart_cfg (m o : Monitor) (w : Bool) : (m.frameStart o w).cfg = m.cfg := by
  unfold Monitor.frameStart Monitor.evaluate; simp only
  split
  · rfl
  · split
    · exact stepComputed_cfg _ _
    · rfl

end Sys2Proof.Machine
end

