-- ==== Sys2Proof/Tests/Slice0.lean ====
section
/-! SUPPORT. The model's own tests: the well-formedness checks, the worked cases and sequences of the spec, one step of the
commands on small states, and for every statement with hypotheses a state and operands that meet them. -/

namespace Sys2Proof.Tests

set_option Elab.async false

open Sys2Proof Sys2Proof.Machine Sys2Proof.Stated

/-! ## Small states -/

/-- What a next state is asked; false on a fault or a refusal. -/
def after (a : Answer) (q : State → Bool) : Bool :=
  match a with
  | .next s => q s
  | .fault _ | .refused _ => false

/-- A W10 channel of 256 × 32 with tag 5, one buffer at 0x100000 and port 0. -/
def smallDesc : Descriptor :=
  { Descriptor.reset with
    enabled := true, aoTag := 5, width := 256, height := 32, stride := 1024, bufferCount := 1
    bases := #v[0x100000, 0, 0, 0], port := some 0 }

/-- The slot a channel shows: port 0, slot 0, 16 × 16. -/
def smallRef : SlotRef := ⟨0, 0, 16, 16⟩

/-- A geometry with the inset at the top left. -/
def smallGeom : Geometry := ⟨0, 0, 256, some smallRef, none, none⟩

/-- A channel in a state. -/
def channelIn (st : ChanState) : Channel := { Channel.reset with desc := smallDesc, state := st }

/-- A channel in the middle of a frame that shows the inset. -/
def showing : Channel :=
  { channelIn .running with frame := 7, buffer := some 0, deepest := 3, geom := some smallGeom }

/-- Image values. -/
def smallImage : ImageValues where
  cueBase := 0x1000
  statusBase := 0x2000
  ringBase := 0x3000
  ringSize := 64
  presBase := 0x10000
  slotBytes := 4096
  starvationLimit := 2
  joinLimit := 20
  lossLimit := 1000
  refreshPeriod := 20

/-- A slot the channel's geometry holds. -/
def heldSlot : Slot := ⟨.ready, 16, 16, 1, 1, false⟩

/-- The slots of a port, the first as given. -/
def slotsWith (x : Slot) (latest : Nat) : PortSlots := ⟨(Vector.replicate 16 Slot.reset).set 0 x, latest⟩

/-- Blocks in a mode, with channel 0 as given. -/
def blocksOf (mode : PartMode) (ch : Channel) : Blocks :=
  { Blocks.resetWith .powerOn with
    mode := mode, image := smallImage, timeBase := 5000, chans := (Vector.replicate 8 Channel.reset).set 0 ch }

/-- Blocks in ACTIVE with the showing channel and its slot. -/
def showingBlocks : Blocks :=
  { blocksOf .active showing with slotTab := (Vector.replicate 4 PortSlots.reset).set 0 (slotsWith heldSlot 1) }

/-- The part with blocks, everything else as after reset. -/
def partOf (b : Blocks) : State := { State.reset with blk := b, attn := b.attention }

/-- The part in a mode, with channel 0 in a state. -/
def partIn (mode : PartMode) (st : ChanState) : State := partOf (blocksOf mode (channelIn st))

/-- A port in a state. -/
def withPort (s : State) (u : Port) : State := { s with blk := s.blk.setPort 0 u }

/-- A state with an RTT. -/
def withRtt (s : State) (rtt : List Entry) : State := { s with blk := { s.blk with rtt := rtt } }

/-- A BLEND entry's copy of the small geometry: four pixels of line 0. -/
def smallBlend : BlendInfo := ⟨0, 0, 256, smallRef, [⟨0, 0, 4⟩]⟩

/-- An entry of a kind in a state, for one beat at the buffer's start. -/
def entryOf (kind : EntryKind) (st : EntryState) : Entry where
  num := 0
  state := st
  kind := kind
  tag := 5
  oid := 0
  addr := 0x100000
  beats := 1
  chan := 0
  frame := 7
  format := .w10
  buffer := some 0
  zoneA := none
  zoneB := none
  outstanding := kind.reads
  presData := []
  progData := []
  progError := false
  fetchError := false
  late := false
  outcome := .pending

/-- Some bytes. -/
def bytes (n : Nat) : List Byte := List.replicate n 7

/-! ## The well-formedness check refuses an ill-formed command of each kind -/

theorem test_wf_image_needs_two_words : (Instr.bootImageLoad [0]).wf = false ∧
    ∀ s, exec (.bootImageLoad [0]) s = .refused .malformed := ⟨by decide, fun _ => rfl⟩

theorem test_wf_image_as_long_as_it_says : (Instr.bootImageLoad [0, 422]).wf = false := by decide

theorem test_wf_request_aligned : (Instr.acceptRead 0 0 8 1).wf = false ∧
    ∀ s, exec (.acceptRead 0 0 8 1) s = .refused .malformed := ⟨by decide, fun _ => rfl⟩

theorem test_wf_request_has_a_beat : (Instr.acceptRead 0 0 16 0).wf = false := by decide

theorem test_wf_request_of_at_most_16_beats : (Instr.acceptRead 0 0 16 17).wf = false := by decide

theorem test_wf_write_data : (Instr.engineWrite 0 0 16 1 (bytes 15) (List.replicate 16 true)).wf = false ∧
    ∀ s, exec (.engineWrite 0 0 16 1 (bytes 15) (List.replicate 16 true)) s = .refused .malformed :=
  ⟨by decide, fun _ => rfl⟩

theorem test_wf_write_enables : (Instr.engineWrite 0 0 16 1 (bytes 16) []).wf = false := by decide

theorem test_wf_kind_unknown : (Instr.unknownKind 15 0).wf = false ∧ (Instr.unknownKind 16 0).wf = true ∧
    (Instr.unknownKind 0 0).wf = true := by decide

theorem test_wf_pass_response : (Instr.passResponseArrival .read 0 0 (bytes 8) .ok).wf = false ∧
    (Instr.passResponseArrival .write 0 0 (bytes 16) .ok).wf = false := by decide

theorem test_wf_programme_response : (Instr.programmeResponse 0 0 [] .ok).wf = false ∧
    ∀ s, exec (.programmeResponse 0 0 [] .ok) s = .refused .malformed := ⟨by decide, fun _ => rfl⟩

theorem test_wf_fetch_response : (Instr.fetchResponse 0 (bytes 272) .ok).wf = false := by decide +kernel

/-! ## The commands' words and the queue -/

theorem test_no_word_spells_a_command : decodeTableWord 32 1 = none := rfl

theorem test_fetch_word_changes_nothing : ∀ s, State.withFetchWord s 32 1 = s := fun _ => rfl

theorem test_reset_queue_empty : State.reset.pending = [] := rfl

/-! ## Channels (01) -/

/-- The P8 channel of the worked cases of 1.2, 2.4 and 3.7. -/
def p8Desc : Descriptor :=
  { Descriptor.reset with
    enabled := true, aoTag := 21, format := .p8, width := 720, height := 576, stride := 1536, bufferCount := 1
    bases := #v[0x10000000, 0, 0, 0] }

theorem test_p8_span_size : p8Desc.spanBytes = 884640 := by decide

theorem test_p8_request_across_line_end : p8Desc.requestRuns (0x10000000 + 3040) 16 = [⟨2, 0, 112⟩] := by decide +kernel

/-- The double-buffered channel of the worked sequence of 1.5. -/
def doubleDesc : Descriptor :=
  { Descriptor.reset with
    enabled := true, width := 1920, height := 1080, stride := 7680, bufferCount := 2
    bases := #v[0x40000000, 0x40800000, 0, 0] }

/-- What the sequence's table shows of a channel. -/
def tracking (b : Blocks) : ChanState × Word × Option (Fin 4) × Nat :=
  ((b.chan 0).state, (b.chan 0).frame, (b.chan 0).buffer, (b.chan 0).deepest)

/-- A channel of the sequence. -/
def doubleIn (st : ChanState) (frame : Word) (buffer : Option (Fin 4)) (deepest : Nat) : Blocks :=
  blocksOf .active { Channel.reset with desc := doubleDesc, state := st, frame := frame, buffer := buffer, deepest := deepest }

theorem test_first_frame_start :
    tracking ((doubleIn .armed 0 none 0).examine 0 0x40000000 16) = (.running, 1, some 0, 0) := by decide +kernel

theorem test_last_line_read :
    tracking ((doubleIn .running 1 (some 0) 0).examine 0 (0x40000000 + 8286720 + 7424) 16) =
      (.running, 1, some 0, 1079) := by decide +kernel

theorem test_other_buffer_starts_frame :
    tracking ((doubleIn .running 1 (some 0) 1079).examine 0 0x40800000 16) = (.running, 2, some 1, 0) := by decide +kernel

theorem test_restart_before_half_height :
    tracking ((doubleIn .running 2 (some 1) 299).examine 0 0x40800000 16) = (.running, 2, some 1, 299) := by decide +kernel

theorem test_same_buffer_past_half_height :
    tracking ((doubleIn .running 2 (some 1) 1079).examine 0 0x40800000 16) = (.running, 3, some 1, 0) := by decide +kernel

theorem test_frame_start_ends_stop :
    tracking ((doubleIn .stopping 3 (some 1) 1079).examine 0 0x40000000 16) = (.off, 3, none, 0) := by decide +kernel

/-! ## Composition (02) -/

/-- The BLEND copy of the worked case of 2.4. -/
def p8Geom : Geometry := ⟨0, 36, 256, some ⟨2, 9, 960, 540⟩, none, none⟩

theorem test_p8_blend_spans :
    (blendInfoOf p8Geom (p8Desc.requestRuns (0x10000000 + 155008) 16)).map BlendInfo.spans =
      some [⟨100, 704, 16⟩, ⟨101, 0, 64⟩] := by decide +kernel

theorem test_p8_fetch_reads :
    (fetchReads { smallImage with presBase := 0x200000000, slotBytes := 2097152 } 5
      ⟨0, 36, 256, ⟨2, 9, 960, 540⟩, [⟨100, 704, 16⟩, ⟨101, 0, 64⟩]⟩) =
      [⟨5, 0x20523CB00, 4⟩, ⟨5, 0x20523CF00, 16⟩] := by decide +kernel

theorem test_misaligned_span_widens :
    rangeReads (spanRange ⟨0, 0, 256, ⟨0, 0, 480, 540⟩, []⟩ ⟨10, 2, 128⟩) =
      [(19200, 16), (19456, 16), (19712, 1)] := by decide +kernel

/-! ## Blend arithmetic (03) -/

theorem test_w10_half_opacity :
    blendW10 (w10Word 300 500 700 3) ⟨200, 100, 150, 191⟩ 128 = w10Word 338 614 663 3 := by decide +kernel

theorem test_p8_key_edge :
    blendP8 (wordOf 90 60 200 70) ⟨180, 110, 140, 255⟩ ⟨190, 120, 130, 0⟩ 256 = wordOf 102 180 168 70 := by
  decide +kernel

theorem test_fully_opaque : mix 0 (expand 255) (alpha 255 256) = 1023 ∧ mix 514 1023 (alpha 0 256) = 514 := by decide

/-! ## Ingest (04) -/

/-- Crop, then W × H, of a source under settings. -/
def cropTarget (s : IngestSettings) (w h slotBytes : Nat) : Rect × Nat × Nat :=
  (cropOf s w h, targetOf s (cropOf s w h) slotBytes)

theorem test_crop_row_1 : cropTarget ⟨320, 180, 1280, 720, 480, 270⟩ 1920 1080 2097152 =
    (⟨320, 180, 1280, 720⟩, 480, 270) := by decide
theorem test_crop_row_2 : cropTarget ⟨1800, 0, 400, 1200, 482, 300⟩ 1920 1080 2097152 =
    (⟨1800, 0, 120, 1080⟩, 120, 300) := by decide
theorem test_crop_row_3 : cropTarget ⟨2000, 0, 100, 100, 480, 270⟩ 1920 1080 2097152 =
    (⟨0, 0, 1920, 1080⟩, 480, 270) := by decide
theorem test_crop_row_4 : cropTarget ⟨0, 0, 10, 576, 480, 270⟩ 720 576 2097152 =
    (⟨0, 0, 720, 576⟩, 480, 270) := by decide
theorem test_crop_row_5 : cropTarget ⟨320, 180, 1280, 720, 1000, 1000⟩ 1920 1080 2097152 =
    (⟨320, 180, 1280, 720⟩, 960, 546) := by decide
theorem test_crop_row_6 : cropTarget ⟨0, 0, 1920, 1080, 480, 270⟩ 1920 1080 4096 =
    (⟨0, 0, 1920, 1080⟩, 64, 16) := by decide

/-- The open frame of the worked case of 4.6. -/
def bigFrame : OpenFrame := openFrameOf ⟨320, 180, 1280, 720, 480, 270⟩ 2097152 1920 1080 3

theorem test_steps : bigFrame.stepX = 10922 ∧ bigFrame.stepY = 10922 := by decide +kernel

theorem test_positions : posOf 10922 0 = 3413 ∧ posOf 10922 479 = 5235051 ∧ posOf 10922 269 = 2941431 := by decide

theorem test_taps : (tap 100 130 3413).toNat = 125 ∧ (tap 125 141 3413).toNat = 138 := by decide

theorem test_required_lines : [0, 1, 2, 3, 4, 10, 11, 269].map bigFrame.required = [1, 4, 7, 9, 12, 28, 31, 719] := by
  decide +kernel

/-- The burst of missing lines: crop line 30 after crop line 9 produces the run of output lines 4 to 10. -/
theorem test_burst_run :
    ((({ bigFrame with w := 0, lastLine := some (9, []), nextOut := 4 } : OpenFrame).produce 30 []).1.map
      fun e : LineEntry => (e.first, e.count)) = [(4, 7)] := by decide +kernel

/-! ## Slots (05) -/

/-- Port 0 at the start of the worked sequence of 5.9: slots 0 to 11 READY with captures 30 to 41, slot 12 FILLING. -/
def sequenceSlots : PortSlots :=
  ⟨#v[⟨.ready, 480, 270, 30, 0, false⟩, ⟨.ready, 480, 270, 31, 0, false⟩, ⟨.ready, 480, 270, 32, 0, false⟩,
      ⟨.ready, 480, 270, 33, 0, false⟩, ⟨.ready, 480, 270, 34, 0, false⟩, ⟨.ready, 480, 270, 35, 0, false⟩,
      ⟨.ready, 480, 270, 36, 0, false⟩, ⟨.ready, 480, 270, 37, 0, false⟩, ⟨.ready, 480, 270, 38, 1, false⟩,
      ⟨.ready, 480, 270, 39, 0, false⟩, ⟨.ready, 480, 270, 40, 1, false⟩, ⟨.ready, 480, 270, 41, 1, false⟩,
      ⟨.filling, 480, 270, 0, 0, false⟩, Slot.reset, Slot.reset, Slot.reset], 41⟩

/-- Blocks with those slots and channel 0 of delay 3. -/
def sequenceBlocks : Blocks :=
  { blocksOf .active { channelIn .running with desc := { smallDesc with delay := 3 } } with
    slotTab := (Vector.replicate 4 PortSlots.reset).set 0 sequenceSlots }

theorem test_claim_lowest_free : sequenceBlocks.claimSlot 0 = some 13 := by decide +kernel

theorem test_completion_takes_next_capture :
    let b := sequenceBlocks.completeSlot 0 12 true
    (b.slot 0 12).state = .ready ∧ (b.slot 0 12).capture = 42 ∧ (b.portSlots 0).latest = 42 ∧ b.age 0 0 = 12 := by
  decide +kernel

theorem test_pick_with_delay :
    (Blocks.pickRef ((sequenceBlocks.completeSlot 0 12 true).pick 0)).map SlotRef.slot = some 9 := by decide +kernel

/-- The claim of step 11: no slot FREE, retention depth 3, the oldest unheld slot is slot 0. -/
theorem test_claim_recycles_oldest :
    let b := ([13, 14, 15] : List (Fin 16)).foldl
      (fun b i => b.setSlot 0 i ⟨.settling, 480, 270, 0, 0, false⟩) sequenceBlocks
    b.retentionDepth 0 = 3 ∧ b.claimSlot 0 = some 0 := by decide +kernel

theorem test_capture_wraps : nextCapture 4294967295 = 1 ∧ ageOf 2 4294967294 = 3 := by decide

/-! ## Layouts (06) -/

/-- Frames of a glide. -/
def glideAfter (g : Glide) : Nat → Nat × Nat
  | 0 => (g.x, g.y)
  | n + 1 => glideAfter (glideStep g) n

/-- The glide of the worked case of 6.4. -/
def bigGlide : Glide := glideBegin (glideAt 1400 900) ⟨120, 60, 256, 25, 0, 1⟩

theorem test_glide_table : [1, 2, 3, 10, 24, 25, 26].map (glideAfter bigGlide) =
    [(1348, 866), (1298, 833), (1246, 799), (888, 564), (170, 94), (120, 60), (120, 60)] := by decide +kernel

theorem test_glide_rounds_away : along 100 105 1 2 = 103 ∧ along 105 100 1 2 = 102 := by decide +kernel

/-- Frames of a fade. -/
def fadeAfter (f : Fade) : Nat → Nat
  | 0 => f.opacity
  | n + 1 => fadeAfter (fadeStep f) n

theorem test_fade_table : [1, 2, 3, 4, 6, 8, 10, 12, 16, 20, 21].map (fadeAfter (fadeToward fadeAtZero 256 10 2)) =
    [0, 26, 26, 51, 77, 102, 128, 154, 205, 256, 256] := by decide +kernel

/-- The channel of the worked case of 6.2 under a stack policy: the stack full, SL 20, home 2. -/
def fullStack (policy : StackPolicy) : State :=
  partOf (blocksOf .active { channelIn .running with
    desc := { smallDesc with home := 2, stackPolicy := policy }
    lay := { LayoutState.reset with sl := 20, stack := [4, 9, 9, 5, 12, 6] } })

theorem test_full_stack_hold : after (exec (.pushLayout 0 15) (fullStack .hold)) (fun s =>
    (s.blk.chan 0).lay.sl = 20 ∧ (s.blk.chan 0).lay.stack = [4, 9, 9, 5, 12, 6] ∧ (s.blk.chan 0).lay.overflow) = true := by
  decide +kernel

theorem test_full_stack_revert : after (exec (.pushLayout 0 15) (fullStack .revert)) (fun s =>
    (s.blk.chan 0).lay.sl = 2 ∧ (s.blk.chan 0).lay.stack = [] ∧ (s.blk.chan 0).lay.overflow) = true := by
  decide +kernel

/-! ## Monitors (07) -/

theorem test_levels : conditionOf .above 100 100 40 = .on ∧ conditionOf .above 59 100 40 = .off ∧
    conditionOf .above 60 100 40 = .neither ∧ conditionOf .below 0 1000 40 = .on := by decide

theorem test_tracked_level :
    let a := { Monitor.reset with cfg := { MonRecord.reset with level := 100 } }
    let b := { Monitor.reset with cfg := { MonRecord.reset with level := 7, tracking := some (-20) } }
    b.effectiveLevel a = 80 ∧
      ({ b with cfg := { b.cfg with tracking := some (-1000) } } : Monitor).effectiveLevel a = 0 := by decide +kernel

theorem test_activity :
    let m := { Monitor.reset with cfg := { MonRecord.reset with zone := some ⟨0, 0, 480, 120⟩ } }
    ({ m with acc := 8064 } : Monitor).measured = 140 ∧ ({ m with acc := 7000 } : Monitor).measured = 121 := by
  decide +kernel

/-- The two words of the P8 worked case of 7.2: one edge. -/
theorem test_p8_edges :
    entryEdges p8Desc { entryOf .measure .await with
        addr := 0x10000000, format := .p8
        progData := wordBytes (wordOf 0 40 0 56) ++ wordBytes (wordOf 0 57 0 57) ++ bytes 8 }
      64 ⟨0, 0, 4, 1⟩ = 1 := by decide +kernel

/-! ## Arbiter, ring and cues (08, 09, 10) -/

/-- The part of the worked sequence of 8.4: the pass slot full, pieces of ports 1 and 3, last port 1. -/
def twoPieces (starvation : Nat) : State :=
  let s := partIn .active .off
  let piece : LineEntry := ⟨0, 16, 0, 1, List.replicate 16 ⟨1, 2, 3, 4⟩, 0, 0⟩
  { s with
    blk := (s.blk.setPort 1 { Port.reset with queue := [piece] }).setPort 3 { Port.reset with queue := [piece] }
    link := { s.link with
      starvation := starvation, lastPort := 1, passSlot := some ⟨.read, 5, 0, 0x100000, 1, [], []⟩ } }

theorem test_starved_part_waits : after (exec .downstreamGrant (twoPieces 1)) (fun s =>
    s.link.starvation = 2 ∧ s.link.lastPort = 1 ∧ s.link.issued.map DownRequest.source = [.engine]) = true := by
  decide +kernel

theorem test_starvation_limit_reached : after (exec .downstreamGrant (twoPieces 2)) (fun s =>
    s.link.starvation = 0 ∧ s.link.lastPort = 3 ∧ s.link.issued.map DownRequest.source = [.compositor]) = true := by
  decide +kernel

/-- The ring of the worked sequence of 10.2: p at 60, q at 0, three records pending. -/
def fullRing : Blocks :=
  let r : Report := ⟨.channelState, .none, 0, []⟩
  { blocksOf .active (channelIn .running) with
    rep := { ReportUnit.reset with prod := 60, mask := 8191, queue := [r, r, r] } }

theorem test_full_ring :
    let b := (fullRing.raise .monitorEdge .none []).raise .inputLost .none []
    b.rep.queue.length = 4 ∧ b.rep.lost = true := by decide +kernel

theorem test_ring_wraps_and_is_released :
    let s := partOf { fullRing with rep := { fullRing.rep with prod := 63 } }
    after (exec .downstreamGrant s) (fun t => t.blk.rep.prod = 0 ∧ t.blk.rep.prodLap = false ∧ t.blk.distance = 64 ∧
      after (exec (.reportConsumerWord 0x80000014 15) t) (fun u => u.blk.rep.cons = 20 ∧ u.blk.distance = 44)) = true := by
  decide +kernel

/-- The part of the worked sequence of 9.5 at its start: e is 30, l is 1. -/
def slot30 : State :=
  { partIn .active .running with cue := { CueUnit.reset with slot := 30 } }

theorem test_cue_taken : after (exec (.selectLayout 0 7) slot30) (fun s =>
    s.cue.slot = 31 ∧ s.cue.lap ∧ (s.blk.chan 0).lay.sl = 7 ∧ s.blk.rep.status = .waiting) = true := by decide +kernel

/-- A cue posted out of order is taken by the chain after the one before it; the lap toggles at the wrap. -/
theorem test_chain_takes_waiting_cue :
    after (exec (.stopChannel 9)
      { slot30 with cue :=
          { (CueUnit.reset.store 0 false ⟨5, 0, [5]⟩).store 1 true ⟨2, 0, []⟩ with slot := 31 } }) (fun s =>
      s.cue.slot = 1 ∧ !s.cue.lap ∧ (s.blk.chan 0).lay.sl = 5 ∧ (s.blk.chan 0).lay.stack = [0]) = true := by
  decide +kernel

theorem test_restart_and_completion : after (exec .restart slot30) (fun s =>
    s.blk.mode = .active ∧ (s.blk.chan 0).state = .off ∧ s.cue.slot = 31) = true := by decide +kernel

/-! ## A late presenter and the order of one list (02 section 2.8) -/

/-- A BLEND entry in JOIN with one read answered of one, before a DONE entry of its pair. -/
def lateState : State :=
  { withRtt (partOf showingBlocks) [
      { entryOf (.blend smallBlend) (.join 4990) with num := 1, progData := bytes 16 },
      { entryOf .pass .done with num := 2, progData := bytes 16, outcome := .clean }] with pending := [] }

theorem test_done_waits_for_its_list : lateState.blk.readyEntry = none := by decide +kernel

theorem test_late_entry_delivered_then_drains : after (exec (.joinLimitExpiry 1) lateState) (fun s =>
    (s.blk.rtt.map Entry.late) = [true, false] ∧
    after (exec .upstreamResponseGrant s) (fun t =>
      t.blk.rtt.map Entry.state = [.drain, .done] ∧
      after (exec .upstreamResponseGrant t) (fun u => u.blk.rtt.map Entry.num = [1] ∧
        after (exec (.fetchResponse 1 (bytes 16) .ok) u) (fun v =>
          v.blk.rtt = [] ∧ (v.blk.slot 0 0).hold = 0)))) = true := by decide +kernel

/-! ## Witnesses: states and operands that meet the hypotheses of each statement

A theorem `witness_<Statement>` stands for each statement of `Obligations.lean` that has hypotheses, with a conjunct for
each of its clauses. -/

/-- A state with nothing left to do and no waiting request is rested. -/
theorem rested_of {s : State} (ha : s.attn = s.blk.attention) (hs : s.link.starvation = 0)
    (hr : ¬ (s.blk.mode = .restarting ∧ restartDrained s.blk = true)) (hu : s.link.upstream = []) : Rested s :=
  ⟨ha.trans (attention_eq s.blk), fun _ => hs, hr, fun r rest h => by rw [hu] at h; cases h⟩

/-- A read of one beat of a tag that no channel has. -/
def someRead : UpRequest := ⟨.read, 9, 0, 0x100000, 1, [], []⟩

/-- A state with waiting requests. -/
def withUpstream (s : State) (q : List UpRequest) : State := { s with link := { s.link with upstream := q } }

/-- A state with a full pass slot. -/
def withPassSlot (s : State) : State := { s with link := { s.link with passSlot := some someRead } }

/-- A state with the untracked count of tag 5, order id 0. -/
def withUntracked (s : State) (n : Nat) : State := { s with link := { s.link with untracked := [(80, n)] } }

theorem witness_EmptyQueueCountsMicrosecond : State.reset.pending = [] ∧ (1 : Word) = State.reset.blk.timeBase + 1 ∧
    pastDeadline 5001 (entryOf .pass (.join 5001)) = true ∧ pastDeadline 5001 (entryOf .pass (.join 5002)) = false ∧
    (let waits := fun t => (blocksOf .active Channel.reset).setPort 0
        { Port.reset with state := .waiting, lastGood := some t };
      gapTooLong (waits 4000) 5001 0 = true ∧ gapTooLong (waits 4001) 5001 0 = false) ∧
    periodOver (blocksOf .active Channel.reset) 20000 = true ∧
    periodOver (blocksOf .active Channel.reset) 19999 = false := by decide +kernel

theorem witness_EventEndServesTheUpstreamPort :
    ¬ ((partIn .active .off).blk.mode = .restarting ∧ restartDrained (partIn .active .off).blk = true) ∧
    (partIn .active .off).link.upstream = [] ∧
    (withUpstream (partIn .active .off) [someRead]).link.upstream = someRead :: [] ∧
    acceptable (withUpstream (partIn .active .off) [someRead]) someRead = true ∧
    acceptable (withPassSlot (withUpstream (partIn .active .off) [someRead])) someRead = false := by decide +kernel

theorem witness_ResetClearsEveryBlock :
    (∃ (c : Instr) (cause : ResetCause), c = .powerOn ∧ cause = .powerOn) ∧
      ∃ (c : Instr) (cause : ResetCause), c = .resetPulse ∧ cause = .pin := ⟨⟨_, _, rfl, rfl⟩, ⟨_, _, rfl, rfl⟩⟩

/-- A good image without its last word: regions, limits, one enabled auto-start channel, the rest 0. -/
def imageBody : List Word :=
  [0x4D534B31, 422, 0x1000, 0, 0x2000, 0, 0x3000, 0, 64, 0x10000, 0, 4096, 2, 20, 1000, 20, 8191] ++
  [0x00000503, 0x00200100, 1024, 1, 0, 0x100000, 0, 0, 0, 0, 0, 0, 0] ++ List.replicate 391 0

/-- A good image: its words sum to 0. -/
def goodImage : List Word := imageBody ++ [0 - imageSum imageBody]

theorem test_good_image_enters_active : after (exec (.bootImageLoad goodImage) State.reset) (fun s =>
    s.blk.mode = .active ∧ (s.blk.chan 0).state = .armed ∧ (s.blk.chan 0).desc = { smallDesc with autoStart := true } ∧
      (s.blk.chan 1).state = .off ∧ s.blk.image = smallImage ∧ s.blk.rep.status = .waiting) = true := by decide +kernel

theorem test_bad_sum_enters_bypass : after (exec (.bootImageLoad (imageBody ++ [1])) State.reset) (fun s =>
    s.blk.mode = .bypass ∧ s.attn) = true := by decide +kernel

theorem only_channel_0 : ∀ c : Fin 8, (descriptorIn goodImage c).enabled = true → c = 0 := by decide +kernel

theorem goodImage_channel : ChannelChecks goodImage (descriptorIn goodImage 0) := by
  unfold ChannelChecks Apart regions span
  decide +kernel

theorem goodImage_checks : ImageChecks goodImage := by
  refine ⟨by decide +kernel, by decide +kernel, by decide +kernel, by decide +kernel, by decide +kernel,
    by decide +kernel, by decide +kernel, ⟨6, by decide +kernel⟩, by decide +kernel, by decide +kernel, by decide +kernel,
    by decide +kernel, ?_, ?_⟩
  · unfold Apart
    decide +kernel
  · intro c h
    obtain rfl := only_channel_0 c h
    exact ⟨goodImage_channel, fun c' hc' h' => absurd (only_channel_0 c' h') hc'⟩

theorem witness_GoodImageEntersActive :
    State.reset.blk.mode = .loading ∧ imageWf goodImage = true ∧ ImageChecks goodImage ∧
    ((descriptorIn goodImage 0).enabled = true ∧ (descriptorIn goodImage 0).autoStart = true) ∧
    (descriptorIn goodImage 1).enabled = false ∧ State.reset.blk.rep.status = .idle :=
  ⟨rfl, by decide +kernel, goodImage_checks, by decide +kernel, by decide +kernel, rfl⟩

theorem witness_BadImageEntersBypass :
    imageWf [0, 0] = true ∧ State.reset.blk.mode = .loading ∧ ¬ ImageChecks [0, 0] ∧
      (partIn .active .off).blk.mode ≠ .loading :=
  ⟨by decide, rfl, fun h => absurd h.1 (by decide), by decide⟩

theorem witness_MalformedCommandsRefused : (Instr.acceptRead 5 0 0 0).wf = false ∧
    ∀ kind target, Instr.acceptRead 5 0 0 0 ≠ .unknownKind kind target :=
  ⟨by decide, fun _ _ h => Instr.noConfusion h⟩

theorem rested_part (mode : PartMode) (st : ChanState) (h : mode ≠ .restarting) : Rested (partIn mode st) :=
  rested_of rfl rfl (fun hc => h hc.1) rfl

theorem witness_RequestsWaitWithoutEffect :
    Rested (withPassSlot (partIn .active .off)) ∧ requestWf 0x100000 1 = true ∧
    acceptable (withPassSlot (partIn .active .off)) someRead = false ∧
    writeWf 1 (bytes 16) (List.replicate 16 true) = true ∧
    acceptable (withPassSlot (partIn .active .off)) ⟨.write, 9, 0, 0x100000, 1, bytes 16, List.replicate 16 true⟩ = false ∧
    Rested (withUpstream (withPassSlot (partIn .active .off)) [someRead]) ∧
    (withUpstream (withPassSlot (partIn .active .off)) [someRead]).link.upstream ≠ [] := by
  refine ⟨rested_of rfl rfl (by decide +kernel) rfl, by decide, by decide +kernel, by decide, by decide +kernel,
    ⟨rfl, fun _ => rfl, by decide +kernel, fun r rest h => ?_⟩, by decide +kernel⟩
  obtain ⟨rfl, -⟩ := List.cons.inj (show [someRead] = r :: rest from h)
  decide +kernel

theorem witness_PassRequestsForwarded :
    (UpstreamFree (withUntracked State.reset 254) ∧ (withUntracked State.reset 254).blk.mode = .loading ∧
      (withUntracked State.reset 254).link.untrackedOf 5 0 < 255) ∧
    (UpstreamFree (withUntracked (partIn .active .off) 254) ∧ InService (withUntracked (partIn .active .off) 254) ∧
      ¬ Tracked (withUntracked (partIn .active .off) 254).blk 5 ∧
      (withUntracked (partIn .active .off) 254).link.untrackedOf 5 0 < 255) ∧
    (UpstreamFree (partIn .bypass .off) ∧ (partIn .bypass .off).blk.mode = .bypass) ∧
    requestWf 0x100000 1 = true ∧ writeWf 1 (bytes 16) (List.replicate 16 true) = true := by
  refine ⟨⟨⟨rested_of (by decide +kernel) rfl (by decide +kernel) rfl, rfl, rfl⟩, rfl, by decide +kernel⟩,
    ⟨⟨rested_of rfl rfl (by decide +kernel) rfl, rfl, rfl⟩, Or.inl rfl, ?_, by decide +kernel⟩,
    ⟨⟨rested_of rfl rfl (by decide +kernel) rfl, rfl, rfl⟩, rfl⟩, by decide, by decide⟩
  unfold Tracked
  decide +kernel

/-- The showing part with entry 0 in use and room for one fetch read. -/
def trackedPart : State :=
  let s := partOf { showingBlocks with fetchQueue := List.replicate 31 ⟨0, 0, 1⟩ };
  withRtt s [entryOf .pass .await]

theorem witness_TrackedReadTakesEntry :
    UpstreamFree trackedPart ∧ requestWf 0x100000 1 = true ∧ InService trackedPart ∧ Owns trackedPart.blk 5 0 ∧
    Tracked trackedPart.blk 5 ∧ (∀ e ∈ trackedPart.blk.rtt, e.num ≠ (1 : Tag)) ∧
    (∀ m : Tag, m.toNat < (1 : Tag).toNat → ∃ e ∈ trackedPart.blk.rtt, e.num = m) ∧
    (∃ b kz, b = (if trackedPart.blk.mode = .active then trackedPart.blk.examine 0 (0x100000 : Addr).toNat 1
        else trackedPart.blk) ∧ kz = b.classify 0 (0x100000 : Addr).toNat 1 ∧
      trackedPart.blk.fetchQueue.length + kz.1.reads ≤ 32 ∧ kz.1.reads = 1) ∧
    ∃ b kz, b = (if trackedPart.blk.mode = .active then trackedPart.blk.examine 0 (0x104000 : Addr).toNat 1
        else trackedPart.blk) ∧ kz = b.classify 0 (0x104000 : Addr).toNat 1 ∧
      trackedPart.blk.fetchQueue.length + kz.1.reads ≤ 32 ∧ kz.1 = .pass := by
  refine ⟨⟨rested_of rfl rfl (by decide +kernel) rfl, rfl, rfl⟩, by decide, Or.inl rfl, ?_, ?_, by decide +kernel,
    fun m h => ⟨entryOf .pass .await, by simp [trackedPart, withRtt], ?_⟩, ⟨_, _, rfl, rfl, by decide +kernel⟩,
    ⟨_, _, rfl, rfl, by decide +kernel⟩⟩
  · unfold Owns
    decide +kernel
  · unfold Tracked
    decide +kernel
  · apply BitVec.eq_of_toNat_eq
    have h0 : (entryOf .pass .await).num.toNat = 0 := rfl
    have h1 : (1 : Tag).toNat = 1 := rfl
    omega

theorem witness_GuardedWriteBecomesNull :
    UpstreamFree (partIn .active .off) ∧ InService (partIn .active .off) ∧ requestWf 0x2000 1 = true ∧
    requestWf 0x37F0 1 = true ∧ requestWf 0x4FFF0 1 = true ∧ writeWf 1 (bytes 16) (List.replicate 16 false) = true ∧
    Guarded (partIn .active .off).blk.image 0x2000 1 1 ∧ Guarded (partIn .active .off).blk.image 0x37F0 1 2 ∧
    Guarded (partIn .active .off).blk.image 0x4FFF0 1 3 := by
  refine ⟨⟨rested_of rfl rfl (by decide +kernel) rfl, rfl, rfl⟩, Or.inl rfl, by decide, by decide, by decide, by decide,
    ⟨0x2000, by decide +kernel⟩, ⟨?_, ⟨0x37F0, by decide +kernel⟩⟩, ?_, ?_, ⟨0x4FFF0, by decide +kernel⟩⟩
  all_goals
    rintro ⟨x, h1, h2, h3, h4⟩
    simp [partIn, partOf, blocksOf, smallImage] at h1 h2 h3 h4
    omega

/-- A write into the cue area touches no guarded region. -/
theorem cue_write_unguarded (addr : Addr) (h1 : 0x1000 ≤ addr.toNat) (h2 : addr.toNat + 16 * 16 ≤ 0x2000) :
    ∀ region, ¬ Guarded smallImage addr 4 region := by
  have h : ∀ base size, 0x2000 ≤ base → ¬ Touches addr 4 base size := by
    rintro base size hb ⟨x, h3, h4, h5, h6⟩
    omega
  intro region hg
  match region, hg with
  | 1, hg => exact h _ _ (by decide) hg
  | 2, hg => exact h _ _ (by decide) hg.2
  | 3, hg => exact h _ _ (by decide) hg.2.2

theorem witness_EngineWriteCopiedAndForwarded :
    UpstreamFree (partIn .active .off) ∧ InService (partIn .active .off) ∧ requestWf 0x1000 4 = true ∧
    requestWf 0x1800 4 = true ∧ writeWf 4 (bytes 64) (List.replicate 64 true) = true ∧
    (∀ region, ¬ Guarded (partIn .active .off).blk.image 0x1000 4 region) ∧
    ∀ region, ¬ Guarded (partIn .active .off).blk.image 0x1800 4 region :=
  ⟨⟨rested_of rfl rfl (by decide +kernel) rfl, rfl, rfl⟩, Or.inl rfl, by decide, by decide, by decide,
    cue_write_unguarded _ (by decide) (by decide), cue_write_unguarded _ (by decide) (by decide)⟩

/-- A cue posted by one engine write of its slot is taken. -/
theorem test_engine_write_posts_cue :
    after (exec (.engineWrite 1 0 0x1000 4 ([4, 0, 0, 128, 9] ++ List.replicate 59 0) (List.replicate 64 true))
      (partIn .active .running)) (fun s =>
        s.cue.slot = 1 ∧ (s.blk.chan 0).lay.sl = 9 ∧ s.link.passSlot.isSome) = true := by decide +kernel

/-- A guarded write reaches neither the shadow nor the frame store. -/
theorem test_guarded_write :
    after (exec (.engineWrite 1 0 0x1FF0 2 (bytes 32) (List.replicate 32 true)) (partIn .active .running)) (fun s =>
      s.cue.shadow = [] ∧ (s.link.passSlot.map UpRequest.enables) = some (List.replicate 32 false) ∧
      s.link.writeRecord 1 0 = [true]) = true := by decide +kernel

theorem witness_ConsumerWordSetsReadIndex :
    ¬ InService State.reset ∧ InService (partIn .active .off) ∧ InService (partIn .restarting .off) ∧
      (0 : BitVec 4) = 0 ∧ (8 : BitVec 4) ≠ 0 := by
  unfold InService
  decide +kernel

/-! ### Frames -/

theorem candidate_small : IsCandidate smallDesc 0x100000 0 ∧ IsCandidate smallDesc 0x1003F0 0 ∧
    ∀ k, ¬ IsCandidate smallDesc 0x100400 k := by
  unfold IsCandidate
  decide +kernel

theorem witness_FrameStartLatchesGeometry :
    0 < smallDesc.stride ∧ IsCandidate smallDesc 0x100000 0 ∧
    (channelIn .armed).state = .armed ∧
    ((channelIn .running).state = .running ∧ (channelIn .running).buffer ≠ some 0) ∧
    ({ showing with deepest := 16 }.state = .running ∧ { showing with deepest := 16 }.buffer = some 0 ∧
      { showing with deepest := 16 }.desc.height / 2 ≤ { showing with deepest := 16 }.deepest) :=
  ⟨by decide, candidate_small.1, by decide +kernel⟩

theorem witness_OtherReadsKeepTheFrame :
    0 < smallDesc.stride ∧ (channelIn .off).state = .off ∧
    (showing.state ≠ .off ∧ ∀ k, IsCandidate showing.desc 0x100000 k →
      showing.state ≠ .armed ∧ showing.buffer = some k ∧ showing.deepest < showing.desc.height / 2) ∧
    ((channelIn .armed).state ≠ .off ∧ ∀ k, ¬ IsCandidate (channelIn .armed).desc 0x100400 k) ∧
    ((channelIn .stopping).state = .stopping ∧ IsCandidate (channelIn .stopping).desc 0x100000 0 ∧
      (channelIn .stopping).buffer ≠ some 0) := by
  refine ⟨by decide, rfl, ⟨by decide, ?_⟩, ⟨by decide, candidate_small.2.2⟩, rfl, candidate_small.1, by decide⟩
  unfold IsCandidate
  decide +kernel

/-- The showing blocks with a zone latched and no inset. -/
def measuringBlocks : Blocks :=
  showingBlocks.setChan 0 { showing with geom := some ⟨0, 0, 0, none, some ⟨0, 0, 8, 8⟩, none⟩ }

/-- Channel 6 of the worked case of 01 section 1.2, with a second buffer that begins where the span of the first ends. -/
def paddedDesc : Descriptor :=
  { Descriptor.reset with
    format := .p8, width := 720, height := 576, stride := 1536, bufferCount := 2
    bases := #v[0x10000000, 0x10000000 + 884640, 0, 0] }

/-- The buffers of the worked case at the ends of their spans, and the one run of its request (R3, R4). -/
theorem witness_RequestPixels : RasterChecked paddedDesc ∧ RasterChecked smallDesc ∧
    paddedDesc.bufferOf (0x10000000 + 884639) = some 0 ∧ paddedDesc.bufferOf (0x10000000 + 884640) = some 1 ∧
    paddedDesc.bufferOf (0x10000000 - 1) = none ∧
    paddedDesc.requestRuns (0x10000000 + 3040) 16 = [⟨2, 0, 112⟩] ∧
    smallDesc.requestRuns (0x100000 + 1008) 2 = [⟨0, 252, 4⟩, ⟨1, 0, 4⟩] := by
  unfold RasterChecked Apart span
  decide +kernel

theorem witness_ReadClassification :
    (∃ info za zb, showingBlocks.classify 0 0x100000 1 = (.blend info, za, zb)) ∧
    (∃ za zb, measuringBlocks.classify 0 0x100000 1 = (.measure, za, zb)) ∧
    ∃ za zb, showingBlocks.classify 0 0x104000 1 = (.pass, za, zb) :=
  ⟨⟨_, _, _, rfl⟩, ⟨_, _, rfl⟩, ⟨_, _, rfl⟩⟩

/-- The showing blocks with port 0 LOST and the loss policy HIDE. -/
def hidingBlocks : Blocks :=
  (showingBlocks.setChan 0 { showing with desc := { smallDesc with loss := .hide } }).setPort 0 { Port.reset with state := .lost }

theorem witness_PickFollowsDelay :
    ((Blocks.resetWith .powerOn).chan 0).desc.port = none ∧
    ((showingBlocks.chan 0).desc.port = some 0 ∧
      ¬ ((showingBlocks.port 0).state.isLost = true ∧ (showingBlocks.chan 0).desc.loss = .hide) ∧
      (∃ i, (showingBlocks.slot 0 i).state = .ready) ∧
      ∃ j, (showingBlocks.slot 0 j).state = .ready ∧ (showingBlocks.chan 0).desc.delay ≤ showingBlocks.age 0 j) ∧
    ((hidingBlocks.port 0).state.isLost = true ∧ (hidingBlocks.chan 0).desc.loss = .hide ∧
      (hidingBlocks.chan 0).desc.port = some 0) ∧
    ((blocksOf .active showing).chan 0).desc.port = some 0 ∧
    (∀ i, ((blocksOf .active showing).slot 0 i).state ≠ .ready) ∧
    let b := showingBlocks.setChan 0 { showing with desc := { smallDesc with delay := 1 } };
    ∀ j, (b.slot 0 j).state = .ready → b.age 0 j < (b.chan 0).desc.delay := by decide +kernel

theorem witness_ClaimKeepsRetainedFrames :
    (((blocksOf .active showing).slot 0 0).state = .free ∧
      ∀ j, j < 0 → ((blocksOf .active showing).slot 0 j).state ≠ .free) ∧
    (let b := { showingBlocks with slotTab := Vector.replicate 4 ⟨Vector.replicate 16 heldSlot, 1⟩ };
      (∀ i, (b.slot 0 i).state ≠ .free) ∧ b.claimSlot 0 = none) ∧
    let x := { heldSlot with hold := 0 };
    let b := { showingBlocks with slotTab := Vector.replicate 4 ⟨Vector.replicate 16 x, 2⟩ };
    (∀ i, (b.slot 0 i).state ≠ .free) ∧ (b.claimSlot 0).isSome = true := by decide +kernel

/-! ### Cues -/

theorem witness_CueStoredInSlot : (List.replicate 15 (1 : Word)).length ≤ 15 := by decide

theorem witness_ChainTakesPostedSlots :
    ¬ ((partIn .active .off).blk.mode = .active ∧ CueUnit.reset.slotLap CueUnit.reset.slot = CueUnit.reset.lap) ∧
    (let u := CueUnit.reset.store 0 true ⟨4, 0, [7]⟩;
      (partIn .active .off).blk.mode = .active ∧ u.slotLap u.slot = u.lap ∧
      (chain chainFuel u (partIn .active .off).blk).2.mode = .active) := by decide +kernel

/-- A monitor's fields with a zone at a place. -/
def fieldsAt (x : Half) : MonitorFields where
  monitor := 1
  mode := 1
  delayKind := 0
  force := 0
  zoneX := x
  zoneY := 0
  zoneW := 8
  zoneH := 8
  threshold := 0
  level := 0
  hysteresis := 0
  tracking := 0
  offset := 0
  onDelay := 0
  offDelay := 0
  inhibit := false
  alternate := 0
  edges := 0

theorem witness_RefusedCuesAreReported :
    let b := (partIn .active .running).blk;
    b.mode = .active ∧
    (RefusedFor b (.unknownKind 16 0) 1 ∧ IsRefusalSubject b 16 0 .none) ∧
    (RefusedFor b (.startChannel 0 0) 3 ∧ IsRefusalSubject b 1 0 (.channel 0 0)) ∧
    (RefusedFor b (.stopChannel 8) 2 ∧ IsRefusalSubject b 2 8 .none) ∧
    (RefusedFor b (.stopChannel 1) 2 ∧ IsRefusalSubject b 2 1 (.channel 1 0)) ∧
    (RefusedFor b (.writeLayout 32 0 0 0 0 0 0) 2 ∧ IsRefusalSubject b 3 32 .none) ∧
    (RefusedFor b (.selectLayout 0 32) 2 ∧ IsRefusalSubject b 4 0 (.channel 0 0)) ∧
    (RefusedFor b (.assignPresenter 0 4 0 0) 2 ∧ RefusedFor b (.assignPresenter 0 254 0 0) 2) ∧
    (RefusedFor b (.setIngest 4 0 0 0 0 0 0) 2 ∧ IsRefusalSubject b 9 4 .none) ∧
    (RefusedFor b (.setMonitor 0 (fieldsAt 256)) 4 ∧ RefusedFor b (.setMonitor 0 { fieldsAt 0 with monitor := 2 }) 2) ∧
    (RefusedFor b (.forceMonitor 0 2 0) 2 ∧ IsRefusalSubject b 11 0 (.channel 0 0)) ∧
    fullRing.rep.cons < fullRing.image.ringSize := by
  have h0 : ¬ BadChannel (partIn .active .running).blk 0 := by
    unfold BadChannel
    decide +kernel
  have hz : ZoneOutside (partIn .active .running).blk 0 (fieldsAt 256) := by
    unfold ZoneOutside
    decide +kernel
  have h8 : BadChannel (partIn .active .running).blk 8 := by
    unfold BadChannel
    decide +kernel
  have h1 : BadChannel (partIn .active .running).blk 1 := by
    unfold BadChannel
    decide +kernel
  refine ⟨rfl, ⟨⟨rfl, Or.inr (by decide)⟩, ?_⟩, ⟨Or.inr ⟨rfl, h0, 0, by decide +kernel⟩, ?_⟩, ⟨⟨rfl, h8⟩, ?_⟩,
    ⟨⟨rfl, h1⟩, ?_⟩, ⟨⟨rfl, by decide⟩, ?_⟩, ⟨⟨rfl, Or.inr (by decide)⟩, ?_⟩,
    ⟨⟨rfl, Or.inr (by decide)⟩, rfl, Or.inr (by decide)⟩, ⟨⟨rfl, by decide⟩, ?_⟩,
    ⟨Or.inr ⟨rfl, h0, by decide, Or.inl rfl, hz⟩, Or.inl ⟨rfl, Or.inr (by decide)⟩⟩, ⟨⟨rfl, Or.inr (by decide)⟩, ?_⟩,
    by decide +kernel⟩
  all_goals
    unfold IsRefusalSubject TargetsChannel
    decide +kernel

theorem witness_CuesWaitOutsideActive :
    record (.popLayout 0) = some (6, 0, []) ∧ State.reset.blk.mode = .loading ∧
    (partIn .bypass .off).blk.mode = .bypass ∧ (partIn .restarting .off).blk.mode = .restarting ∧
    (let u := CueUnit.reset;
      u.slotLap (placeAfter u 0).1 ≠ (placeAfter u 0).2) ∧
    (let u := { CueUnit.reset.store 31 true ⟨0, 0, []⟩ with lap := false };
      (∀ j < 31, u.slotLap (placeAfter u j).1 = (placeAfter u j).2) ∧
        u.slotLap (placeAfter u 31).1 ≠ (placeAfter u 31).2) ∧
    (let u := { CueUnit.reset with lap := false };
      ∀ j < 32, u.slotLap (placeAfter u j).1 = (placeAfter u j).2) := by decide +kernel

/-- Channel 0 is named in every state of the small channel. -/
theorem names_small (st : ChanState) : Names (partIn .active st) 0 0 := ⟨rfl, rfl⟩

theorem witness_StartChannelArms :
    (∀ st, (partIn .active st).blk.mode = .active ∧ Names (partIn .active st) 0 0 ∧
      ((partIn .active st).blk.chan 0).state = st) := fun st => ⟨rfl, names_small st, rfl⟩

theorem witness_StopChannelStops :
    (∀ st, (partIn .active st).blk.mode = .active ∧ Names (partIn .active st) 0 0 ∧
      ((partIn .active st).blk.chan 0).state = st) := fun st => ⟨rfl, names_small st, rfl⟩

theorem witness_LayoutTableAndSelection :
    (partIn .active .running).blk.mode = .active ∧ (31 : Byte).toNat = (31 : Fin 32).val ∧
      Names (partIn .active .running) 0 0 ∧ (31 : Word).toNat = (31 : Fin 32).val ∧
      ((partIn .active .running).blk.chan 0).lay.prevEff = 0 := ⟨rfl, rfl, ⟨rfl, rfl⟩, rfl, rfl⟩

theorem witness_LayoutStackPushesAndPops :
    (partIn .active .running).blk.mode = .active ∧ Names (partIn .active .running) 0 0 ∧
    (15 : Word).toNat = (15 : Fin 32).val ∧
    ((partIn .active .running).blk.chan 0).lay.stack.length < 6 ∧ ((partIn .active .running).blk.chan 0).lay.stack = [] ∧
    (∀ policy, Names (fullStack policy) 0 0 ∧ ((fullStack policy).blk.chan 0).desc.stackPolicy = policy ∧
      ((fullStack policy).blk.chan 0).lay.stack = [4, 9, 9, 5, 12] ++ [6]) :=
  ⟨rfl, ⟨rfl, rfl⟩, rfl, by decide +kernel, rfl, fun _ => ⟨⟨rfl, rfl⟩, rfl, rfl⟩⟩

theorem witness_SettingCuesReplaceTheirFields :
    (partIn .active .running).blk.mode = .active ∧ Names (partIn .active .running) 0 0 ∧
    ((255 : Byte).toNat = 255 ∧ (none : Option (Fin 4)) = none) ∧
    (∃ q : Fin 4, (3 : Byte).toNat = q.val ∧ some (3 : Fin 4) = some q) ∧ (3 : Byte).toNat = (3 : Fin 4).val :=
  ⟨rfl, ⟨rfl, rfl⟩, ⟨rfl, rfl⟩, ⟨3, rfl, rfl⟩, rfl⟩

theorem witness_SetMonitorStoresItsRecord :
    (partIn .active .running).blk.mode = .active ∧ Names (partIn .active .running) 0 0 ∧
    (fieldsAt 255).monitor.toNat ≤ 1 ∧ ((fieldsAt 255).mode = 1 ∨ (fieldsAt 255).mode = 2) ∧
    ((fieldsAt 255).zoneX.toNat < smallDesc.width ∧ (fieldsAt 255).zoneY.toNat < smallDesc.height ∧
      (fieldsAt 255).zoneW ≠ 0 ∧ (fieldsAt 255).zoneH ≠ 0) ∧
    (let f := { fieldsAt 0 with monitor := 0, mode := 0 };
      f.monitor.toNat ≤ 1 ∧ ¬ (f.mode = 1 ∨ f.mode = 2)) := by
  refine ⟨rfl, ⟨rfl, rfl⟩, ?_⟩
  decide

theorem witness_ForceAndClearMonitor :
    (partIn .active .running).blk.mode = .active ∧ Names (partIn .active .running) 0 0 ∧ (1 : Byte).toNat ≤ 1 ∧
      (0 : Byte).toNat ≤ 1 := ⟨rfl, ⟨rfl, rfl⟩, by decide, by decide⟩

theorem witness_RestartCueStopsTheBlocks : (partOf showingBlocks).blk.mode = .active := rfl

/-! ### Grants -/

/-- A part with a report waiting. -/
def reporting : State := partOf { fullRing with rep := { fullRing.rep with queue := [⟨.channelState, .none, 0, []⟩] } }

/-- A part with a status write waiting. -/
def statusWaiting : State :=
  partOf { (partIn .active .off).blk with rep := { ReportUnit.reset with status := .waiting } }

theorem quiet_no_own : NoOwn (partIn .active .off) := by
  unfold NoOwn InService ReportWaits
  decide +kernel

theorem reporting_own : ¬ NoOwn (withPassSlot reporting) := by
  unfold NoOwn InService ReportWaits
  decide +kernel

theorem witness_PassSlotGranted :
    ((withPassSlot (partIn .active .off)).link.passSlot = some someRead ∧ NoOwn (withPassSlot (partIn .active .off))) ∧
    ((withPassSlot reporting).link.passSlot = some someRead ∧ ¬ NoOwn (withPassSlot reporting) ∧
      (withPassSlot reporting).link.starvation < (withPassSlot reporting).blk.image.starvationLimit) ∧
    ((partIn .active .off).link.passSlot = none ∧ NoOwn (partIn .active .off)) :=
  ⟨⟨rfl, quiet_no_own⟩, ⟨rfl, reporting_own, by decide +kernel⟩, rfl, quiet_no_own⟩

theorem witness_OwnRequestsGranted :
    (InService reporting ∧ OwnTurn reporting ∧ reporting.blk.fetchQueue = [] ∧
      reporting.blk.rep.queue = ⟨.channelState, .none, 0, []⟩ :: [] ∧
      reporting.blk.distance < reporting.blk.image.ringSize) ∧
    (InService statusWaiting ∧ OwnTurn statusWaiting ∧ statusWaiting.blk.fetchQueue = [] ∧ ¬ ReportWaits statusWaiting ∧
      statusWaiting.blk.rep.status = .waiting) ∧
    (InService trackedPart ∧ OwnTurn trackedPart ∧
      trackedPart.blk.fetchQueue = ⟨0, 0, 1⟩ :: List.replicate 30 ⟨0, 0, 1⟩) ∧
    ((twoPieces 2).link.passSlot ≠ none ∧ OwnTurn (twoPieces 2)) ∧ statusWaiting.blk.mode = .active ∧
    (partIn .restarting .off).blk.mode = .restarting := by
  unfold InService OwnTurn ReportWaits
  decide +kernel

theorem witness_WritePieceGranted :
    InService (twoPieces 2) ∧ OwnTurn (twoPieces 2) ∧ (twoPieces 2).blk.fetchQueue = [] ∧ ¬ ReportWaits (twoPieces 2) ∧
    (twoPieces 2).blk.rep.status ≠ .waiting ∧ NextPort (twoPieces 2) 3 ∧
    ((twoPieces 2).blk.port 3).queue = ⟨0, 16, 0, 1, List.replicate 16 ⟨1, 2, 3, 4⟩, 0, 0⟩ :: [] := by
  unfold InService OwnTurn ReportWaits NextPort
  decide +kernel

/-- A part with a DONE entry and a waiting pass response, the last grant as given. -/
def answering (last : LastSource) (held : List DownResponse) : State :=
  let s := withRtt (partIn .active .off) [{ entryOf .pass .done with outcome := .clean, progData := bytes 16 }];
  { s with link := { s.link with passResponse := some ⟨.write, 1, 0, [], .ok⟩, lastSource := last, held := held } }

theorem ready_first (s : State) (e : Entry) (h : s.blk.rtt = [e]) (hd : e.state = .done) :
    ReadyAt s.blk.rtt ([] : List Entry).length :=
  ⟨e, by rw [h]; rfl, hd, fun j hj => absurd hj (by simp)⟩

theorem witness_UpstreamGrantSendsOneResponse :
    ((partIn .active .off).link.passResponse = none ∧ ∀ k, ¬ ReadyAt (partIn .active .off).blk.rtt k) ∧
    (∃ e, (answering .pass []).blk.rtt = [] ++ e :: [] ∧ ReadyAt (answering .pass []).blk.rtt ([] : List Entry).length ∧
      ((answering .pass []).blk.rtt.map Entry.num).Nodup ∧ (answering .pass []).link.lastSource = .pass) ∧
    ∃ r, (answering .entry []).link.passResponse = some r ∧ (answering .entry []).link.lastSource = .entry ∧
      (answering .entry []).link.held = [] :=
  ⟨⟨rfl, fun _ h => by obtain ⟨_, h, _⟩ := h; cases h⟩, ⟨_, rfl, ready_first _ _ rfl rfl, by decide +kernel, rfl⟩,
    ⟨_, rfl, rfl, rfl⟩⟩

/-! ### Responses -/

/-- A part with a null write recorded for tag 1, order id 0. -/
def nullWritten : State := { partIn .active .off with link := { Link.reset with writeRecords := [(16, [true])] } }

theorem witness_PassResponsesWait :
    (nullWritten.link.passResponse = none ∧ nullWritten.blk.mode ≠ .bypass ∧
      nullWritten.link.writeRecord 1 0 = true :: []) ∧
    ((partIn .active .off).link.passResponse = none ∧ (partIn .active .off).link.writeRecord 1 0 = []) ∧
    ((partIn .bypass .off).link.passResponse = none ∧ (partIn .bypass .off).blk.mode = .bypass) ∧
    beatsWf (bytes 16) = true ∧ beatsWf (bytes 256) = true ∧
    ((withUntracked (partIn .active .off) 1).link.passResponse = none ∧
      0 < (withUntracked (partIn .active .off) 1).link.untrackedOf 5 0) ∧
    (State.reset.blk.mode = .loading ∧ State.reset.link.untrackedOf 5 0 = 0) := by decide +kernel

theorem witness_ResponsesWaitBehindPassResponse :
    (answering .entry []).link.passResponse = some ⟨.write, 1, 0, [], .ok⟩ ∧
    (∀ i ∈ [Instr.passResponseArrival .write 1 0 [] .ok, .programmeResponse 5 0 (bytes 16) .ok,
        .fetchResponse 0 (bytes 16) .ok, .lineWriteResponse 0 .ok, .reportWriteResponse .ok, .statusWriteResponse .ok],
      (brings i).isSome = true ∧ i.wf = true) ∧
    (answering .entry [.reportWrite .ok]).link.held = .reportWrite .ok :: [] ∧
    (answering .entry [.reportWrite .ok]).link.lastSource = .entry ∧
    (let s := answering .entry [.reportWrite .ok];
      ∃ t, takeResponse (finish { s with link := { s.link with
        passResponse := none, lastSource := .pass, returned := s.link.returned ++ [⟨.write, 1, 0, [], .ok⟩],
        held := [] } }) (.reportWrite .ok) = .ok t) :=
  ⟨rfl, by decide +kernel, rfl, rfl, _, rfl⟩

/-- A part with one entry. -/
def oneEntry (e : Entry) : State := withRtt (partOf showingBlocks) [e]

/-- A BLEND entry in a state with so many fetch reads answered. -/
def blending (st : EntryState) (answered : List Byte) (outstanding : Nat) : Entry :=
  { entryOf (.blend smallBlend) st with presData := answered, outstanding := outstanding }

theorem witness_ProgrammeResponseTable :
    (InService (partOf showingBlocks) ∧ (partOf showingBlocks).link.passResponse = none ∧
      (partOf showingBlocks).link.untrackedOf 5 0 = 0 ∧ beatsWf (bytes 16) = true ∧ beatsWf (bytes 32) = true ∧
      ∀ e ∈ (partOf showingBlocks).blk.rtt, ¬ Awaits 5 0 e) ∧
    (∀ e ∈ [entryOf .pass .await, entryOf .measure .await, blending .await [] 1, blending .await (bytes 16) 0,
        { blending .await [] 1 with fetchError := true }],
      (oneEntry e).blk.rtt = [] ++ e :: [] ∧ ((oneEntry e).blk.rtt.map Entry.num).Nodup ∧ Awaits 5 0 e ∧
      (bytes 16).length = 16 * e.beats ∧ (bytes 32).length ≠ 16 * e.beats ∧
      (((oneEntry e).blk.chan e.chan).state = .running ∧ ((oneEntry e).blk.chan e.chan).frame = e.frame)) := by
  unfold InService Awaits
  decide +kernel

theorem witness_FetchResponseTable :
    ((∀ e ∈ (oneEntry (entryOf .pass .await)).blk.rtt, e.num = 0 →
      e.outstanding = 0 ∨ e.kind = .pass ∨ e.kind = .measure)) ∧
    (partOf showingBlocks).link.passResponse = none ∧ beatsWf (bytes 16) = true ∧ beatsWf (bytes 32) = true ∧
    (∀ st ∈ [EntryState.await, .join 5020, .done, .drain],
      (oneEntry (blending st [] 1)).blk.rtt = [] ++ blending st [] 1 :: [] ∧ (blending st [] 1).num = 0 ∧
      (blending st [] 1).state = st ∧ (blending st [] 1).fetchError = false) ∧
    (∃ info, (blending .await [] 1).kind = .blend info ∧
      (blendReads info)[(blendReads info).length - (0 + 1)]? = some (0, 1)) :=
  ⟨by decide +kernel, rfl, by decide, by decide, by decide +kernel, _, rfl, by decide +kernel⟩

/-- A part whose port 0 has a frame in flight in slot 0. -/
def inFlight (f : Flight) : State :=
  let s := partOf { showingBlocks with
    slotTab := (Vector.replicate 4 PortSlots.reset).set 0 (slotsWith ⟨.settling, 16, 16, 0, 0, false⟩ 1) };
  withPort s { Port.reset with state := .waiting, flights := [f] }

theorem witness_LineWriteResponseCompletesFrames :
    (∀ f ∈ ((partIn .active .off).blk.port 0).flights, f.outstanding = 0) ∧
    (∀ f ∈ [(⟨0, 16, true, .none, 1⟩ : Flight), ⟨0, 16, true, .none, 2⟩, ⟨0, 16, true, .damaged, 1⟩,
        ⟨0, 16, true, .abandoned, 1⟩, ⟨0, 16, false, .none, 1⟩],
      ((inFlight f).blk.port 0).flights = [] ++ f :: [] ∧ (((inFlight f).blk.port 0).flights.map Flight.slot).Nodup ∧
      f.outstanding = (f.outstanding - 1) + 1) ∧
    (let f : Flight := ⟨0, 16, true, .none, 1⟩;
      f.closed = true ∧ f.outstanding = 0 + 1 ∧ ∀ e ∈ ((inFlight f).blk.port 0).queue, e.slot ≠ f.slot) ∧
    (partIn .active .off).link.passResponse = none := by decide +kernel

theorem test_line_write_completes : after (exec (.lineWriteResponse 0 .ok) (inFlight ⟨0, 16, true, .none, 1⟩)) (fun s =>
    s.blk.slot 0 0 = ⟨.ready, 16, 16, 2, 0, false⟩ ∧ (s.blk.portSlots 0).latest = 2) = true := by decide +kernel

theorem test_line_write_error : after (exec (.lineWriteResponse 0 .error) (inFlight ⟨0, 16, true, .none, 1⟩)) (fun s =>
    s.blk.slot 0 0 = Slot.reset ∧ (s.blk.port 0).flights = []) = true := by decide +kernel

theorem witness_ReportAndStatusWriteResponses :
    (partIn .active .off).link.passResponse = none ∧ InService (partIn .active .off) ∧
    (partOf { (partIn .active .off).blk with rep := { ReportUnit.reset with status := .inFlight } }).blk.rep.status =
      .inFlight ∧ (partIn .active .off).blk.rep.status ≠ .inFlight := ⟨rfl, Or.inl rfl, rfl, by decide +kernel⟩

/-! ### Presenter units -/

/-- An open frame of 16 × 16 with the whole source as crop. -/
def smallFrame : OpenFrame := openFrameOf ⟨0, 0, 16, 16, 16, 16⟩ 4096 16 16 0

/-- A part whose port 0 is in an ingest state, slot 0 FILLING. -/
def ingesting (st : IngestState) : State :=
  let s := partOf { showingBlocks with
    slotTab := (Vector.replicate 4 PortSlots.reset).set 0 (slotsWith ⟨.filling, 16, 16, 0, 0, false⟩ 1) };
  withPort s { Port.reset with state := st, lastGood := some 4000, flights := [⟨0, 16, false, .none, 0⟩] }

/-- Sixteen sample groups. -/
def samples : List K8 := List.replicate 16 ⟨100, 128, 128, 255⟩

theorem witness_UnitsWithoutEffect :
    State.reset.blk.mode ≠ .active ∧ IsUnit 0 (.frameClose 0) ∧ IsUnit 0 (.frameOpen 0 16 16) ∧ IsUnit 0 (.line 0 0 []) ∧
    ¬ SizeGood 15 16 ∧ ¬ SizeGood 16 1081 ∧ ((ingesting .idle).blk.port 0).state = .idle ∧
    ((ingesting .lost).blk.port 0).state = .lost ∧
    ((ingesting (.receiving smallFrame)).blk.port 0).state = .receiving smallFrame ∧ (samples.drop 1).length ≠ smallFrame.srcW := by
  refine ⟨by decide, Or.inr (Or.inr rfl), Or.inl ⟨_, _, rfl⟩, Or.inr (Or.inl ⟨_, _, rfl⟩), ?_, ?_, rfl, rfl, rfl,
    by decide +kernel⟩ <;> (unfold SizeGood; decide)

theorem witness_FrameOpenClaimsSlot :
    (SizeGood 16 16 ∧ SizeGood 1920 1080) ∧ (ingesting .lost).blk.mode = .active ∧
    (∀ st ∈ [IngestState.idle, .waiting, .receiving smallFrame, .discarding 16 16, .lost],
      ∃ b, b = heard (match ((ingesting st).blk.port 0).state with
          | .receiving f => (ingesting st).blk.abandonFrame 0 f true
          | .lost => (ingesting st).blk.raise .inputRestored (.port 0)
              [((ingesting st).blk.port 0).lastGood.getD 0, pairWord 16 16]
          | .idle | .waiting | .discarding _ _ => (ingesting st).blk) 0 ∧ (b.claimSlot 0).isSome = true) ∧
    (heard { showingBlocks with slotTab := Vector.replicate 4 ⟨Vector.replicate 16 heldSlot, 1⟩ } 0).claimSlot 0 = none := by
  refine ⟨by unfold SizeGood; decide, rfl, ?_, by unfold heard; decide +kernel⟩
  have h : ∀ st ∈ [IngestState.idle, .waiting, .receiving smallFrame, .discarding 16 16, .lost],
      ((heard (match ((ingesting st).blk.port 0).state with
          | .receiving f => (ingesting st).blk.abandonFrame 0 f true
          | .lost => (ingesting st).blk.raise .inputRestored (.port 0)
              [((ingesting st).blk.port 0).lastGood.getD 0, pairWord 16 16]
          | .idle | .waiting | .discarding _ _ => (ingesting st).blk) 0).claimSlot 0).isSome = true := by
    unfold heard
    decide +kernel
  exact fun st hst => ⟨_, rfl, h st hst⟩

theorem test_frame_open : after (exec (.frameOpen 0 16 16) (ingesting (.receiving smallFrame))) (fun s =>
    (s.blk.slot 0 0).state = .filling ∧ (s.blk.port 0).flights = [⟨0, 16, false, .none, 0⟩]) = true := by decide +kernel

theorem witness_LineEntersOpenFrame :
    (ingesting .waiting).blk.mode = .active ∧ ((ingesting .waiting).blk.port 0).state = .waiting ∧
    ((ingesting (.discarding 16 16)).blk.port 0).state = .discarding 16 16 ∧
    ((ingesting (.receiving smallFrame)).blk.port 0).state = .receiving smallFrame ∧ samples.length = smallFrame.srcW ∧
    (smallFrame.crop.y ≤ (0 : Half).toNat ∧ (0 : Half).toNat < smallFrame.crop.y + smallFrame.crop.h ∧
      smallFrame.lastIndex = none ∧ smallFrame.nextOut < smallFrame.h) ∧
    ¬ ((16 : Half).toNat < smallFrame.crop.y + smallFrame.crop.h) ∧
    (let f := { smallFrame with lastIndex := some 14, nextOut := 16 };
      (∀ last, f.lastIndex = some last → last < (15 : Half).toNat) ∧ f.h ≤ f.nextOut) := by
  refine ⟨rfl, rfl, rfl, rfl, by decide +kernel, by decide +kernel, by decide +kernel, ?_, by decide +kernel⟩
  intro last h
  obtain rfl := Option.some.inj h
  decide

/-- A line entry beyond the fourth is discarded: its frame becomes DAMAGED and its FILLING slot is marked (R78, R80). -/
theorem test_entry_beyond_the_queue :
    let e : LineEntry := ⟨0, 16, 0, 1, samples, 0, 0⟩;
    let b := (ingesting (.receiving smallFrame)).blk;
    let b3 := b.setPort 0 { b.port 0 with queue := [e, e, e] };
    let b5 := b3.placeEntries 0 [e, e];
    ((b3.placeEntries 0 [e]).port 0).queue.length = 4 ∧ (b5.port 0).queue.length = 4 ∧
      (b5.port 0).flights = [⟨0, 16, false, .damaged, 0⟩] ∧ (b5.slot 0 0).damaged = true := by decide +kernel

/-- The last crop line of an unscaled frame produces the last two output lines (R74). -/
theorem test_last_line : after (exec (.line 0 15 samples)
      (ingesting (.receiving { smallFrame with lastIndex := some 14, lastLine := some (14, samples), nextOut := 14 })))
    (fun s => (s.blk.port 0).queue.map (fun e => (e.first, e.count, e.content)) = [(14, 1, samples), (15, 1, samples)]) =
      true := by decide +kernel

theorem witness_ReceivedLineProducesOutputLines :
    (smallFrame.nextOut ≤ smallFrame.h ∧ ∃ es n, smallFrame.produce 3 samples = (es, n)) ∧
    (let f := { smallFrame with lastLine := some (3, samples), nextOut := 5 };
      f.nextOut ≤ f.h ∧ f.produce 12 samples =
        (⟨0, 16, 5, 6, samples, 0, 0⟩ :: [⟨0, 16, 11, 1, samples, 0, 0⟩], 12)) ∧
    (16 ≤ (⟨0, 0, 16, 16⟩ : Rect).w ∧ 16 ≤ (⟨0, 0, 16, 16⟩ : Rect).h ∧ 4096 ≤ 4096) := by
  refine ⟨⟨by decide +kernel, _, _, rfl⟩, ?_⟩
  decide +kernel

theorem witness_FrameCloseSettlesSlot :
    (ingesting .waiting).blk.mode = .active ∧ ((ingesting .waiting).blk.port 0).state = .waiting ∧
    ((ingesting (.discarding 16 16)).blk.port 0).state = .discarding 16 16 ∧
    ((ingesting (.receiving smallFrame)).blk.port 0).state = .receiving smallFrame ∧ smallFrame.lastLine = none ∧
    (let f := { smallFrame with lastLine := some (3, samples), nextOut := 3 };
      ((ingesting (.receiving f)).blk.port 0).state = .receiving f ∧ f.nextOut < f.h) :=
  ⟨rfl, rfl, rfl, rfl, by decide +kernel, rfl, by decide +kernel⟩

/-- A frame closed without a crop line is dropped as DAMAGED, its slot FREE. -/
theorem test_empty_frame_dropped : after (exec (.frameClose 0) (ingesting (.receiving smallFrame))) (fun s =>
    (s.blk.port 0).state = .waiting ∧ (s.blk.slot 0 0).state = .free ∧ (s.blk.port 0).flights = []) = true := by
  decide +kernel

theorem test_damaged_unit : ∀ s, exec (.damagedUnit 0 .line) s = .next (finish s) := fun _ => rfl

/-! ### Limits, RESTART, invariants -/

theorem witness_LimitsExpireWhenReached :
    (∃ d, (oneEntry (blending (.join 4999) [] 1)).blk.rtt = [] ++ blending (.join 4999) [] 1 :: [] ∧
      (blending (.join 4999) [] 1).num = 0 ∧ (blending (.join 4999) [] 1).state = .join d ∧
      ((oneEntry (blending (.join 4999) [] 1)).blk.timeBase - d).toNat < 2147483648 ∧
      ((oneEntry (blending (.join 4999) [] 1)).blk.rtt.map Entry.num).Nodup) ∧
    (∀ e ∈ (oneEntry (blending (.join 5001) [] 1)).blk.rtt, e.num = 0 → ∀ d, e.state = .join d →
      2147483648 ≤ ((oneEntry (blending (.join 5001) [] 1)).blk.timeBase - d).toNat) ∧
    (State.reset.blk.mode ≠ .active) ∧
    (∀ u, u = { Port.reset with state := .waiting, lastGood := some 3999 } →
      let s := withPort (partIn .active .off) u;
      s.blk.mode = .active ∧ (s.blk.port 0).lastGood = some 3999 ∧ (s.blk.port 0).state ≠ .idle ∧
      (s.blk.port 0).state ≠ .lost ∧ s.blk.image.lossLimit < (s.blk.timeBase - (3999 : Word)).toNat) ∧
    (¬ (InService (partIn .active .off) ∧ (partIn .active .off).blk.image.refreshPeriod * 1000 ≤
      ((partIn .active .off).blk.timeBase - (partIn .active .off).blk.rep.lastRefresh).toNat)) ∧
    (let s := partOf { (partIn .active .off).blk with timeBase := 20000 };
      InService s ∧ s.blk.image.refreshPeriod * 1000 ≤ (s.blk.timeBase - s.blk.rep.lastRefresh).toNat) := by
  refine ⟨⟨4999, rfl, rfl, rfl, by decide +kernel, by decide +kernel⟩, ?_, by decide, ?_, ?_, ?_⟩
  · intro e he _ d hd
    obtain rfl := List.mem_singleton.1 he
    obtain rfl := EntryState.join.inj hd
    decide +kernel
  · rintro u rfl
    decide +kernel
  all_goals
    unfold InService
    decide +kernel

theorem test_loss_limit : after (exec (.lossLimitExpiry 0) (withPort (partIn .active .off)
      { Port.reset with state := .waiting, lastGood := some 3999 })) (fun s => (s.blk.port 0).state = .lost) = true ∧
    after (exec (.lossLimitExpiry 0) (withPort (partIn .active .off)
      { Port.reset with state := .waiting, lastGood := some 4000 })) (fun s => (s.blk.port 0).state = .waiting) = true := by
  decide +kernel

theorem test_refresh_period :
    after (exec .refreshPeriodExpiry (partOf { (partIn .active .off).blk with timeBase := 20000 })) (fun s =>
      s.blk.rep.status = .waiting ∧ s.blk.rep.lastRefresh = 20000) = true := by decide +kernel

/-- One microsecond on an empty queue counts, and what comes due waits in the queue. -/
theorem test_tick : after (step (oneEntry (blending (.join 5001) [] 1))) (fun s =>
    s.blk.timeBase = 5001 ∧ s.pending = [.joinLimitExpiry 0]) = true := by decide +kernel

theorem witness_AbandonedFrameIsDropped :
    ((ingesting (.receiving smallFrame)).blk.port 0).state = .receiving smallFrame := rfl

theorem witness_RestartCompletesInOrder :
    (partIn .restarting .off).blk.mode = .restarting ∧ restartDrained (partIn .restarting .off).blk = true ∧
    (chain chainFuel CueUnit.reset (completeRestart (partIn .restarting .off).blk)).2.mode = .active := by decide +kernel

theorem test_restart_completion : after (exec .restartCompletion (partIn .restarting .off)) (fun s =>
    s.blk.mode = .active ∧ s.blk.rep.status = .waiting) = true := by decide +kernel

theorem test_power_on : after (exec .powerOn (partIn .active .running)) (fun s =>
    s = State.reset) = true := by decide +kernel

/-- A monitor with a zone of 8 × 8 in a mode, with a tracking. -/
def watching (mode : MonMode) (tracking : Option Int) : Monitor :=
  { Monitor.reset with
    cfg := { MonRecord.reset with mode := mode, zone := some ⟨0, 0, 8, 8⟩, level := 100, tracking := tracking } }

theorem witness_EvaluationFollowsLevelAndHysteresis :
    ((entryOf .measure .await).buffer = some 0 ∧ (entryOf .measure .await).format = smallDesc.format) ∧
    ((watching .above none).cfg.mode = .above ∧ (watching .above none).cfg.zone = some ⟨0, 0, 8, 8⟩ ∧
      (watching .above none).cfg.tracking = none) ∧
    ((watching .below (some (-101))).cfg.mode = .below ∧ ∃ offset : Int,
      (watching .below (some (-101))).cfg.tracking = some offset ∧
      ((0 : Nat) : Int) = min 1000 (max 0 (((watching .above none).cfg.level : Int) + offset))) :=
  ⟨⟨rfl, rfl⟩, ⟨rfl, rfl, rfl⟩, rfl, -101, rfl, by decide⟩

/-- The words of four pixels at the buffer's start lie in a beat read from there, in both formats. -/
theorem words_in_beat (d : Descriptor) (hb : d.bases[(0 : Fin 4)] = 0x100000) (c : Nat) (h : IsWordOf d ⟨0, 0, 4⟩ c) :
    0x100000 ≤ wordAddress d 0 0 c ∧ wordAddress d 0 0 c + 4 ≤ 0x100000 + (bytes 16).length := by
  obtain ⟨-, h2, h3⟩ := h
  have hl : (bytes 16).length = 16 := rfl
  unfold wordAddress pixelBytes
  rw [hb]
  cases hd : d.format
  · simp only [if_true]
    simp only at h2
    omega
  · have := h3 hd
    simp only at h2
    simp only [reduceCtorEq, if_false]
    omega

theorem witness_BlendArithmetic :
    (256 : Nat) ≤ 256 ∧ (∃ info za zb, showingBlocks.classify 0 0x100000 1 = (.blend info, za, zb)) ∧
    ∀ format, let d := { smallDesc with format := format };
      let e := { entryOf (.blend smallBlend) .done with format := format };
      e.buffer = some 0 ∧ e.format = d.format ∧ (smallBlend.spans.map Span.line).Nodup ∧
      (∀ s ∈ smallBlend.spans, (s.first + s.count) * pixelBytes d ≤ d.stride ∧
        (d.format = .p8 → s.first % 2 = 0 ∧ s.count % 2 = 0)) ∧
      (∀ s ∈ smallBlend.spans, ∀ c, IsWordOf d s c → e.addr.toNat ≤ wordAddress d 0 s.line c ∧
        wordAddress d 0 s.line c + 4 ≤ e.addr.toNat + (bytes 16).length) ∧
      smallBlend.spans[0]? = some ⟨0, 0, 4⟩ ∧ IsWordOf d ⟨0, 0, 4⟩ 2 := by
  refine ⟨Nat.le_refl _, ⟨_, _, _, rfl⟩, fun format => ⟨rfl, rfl, by decide, ?_, ?_, rfl, ?_⟩⟩
  · intro s hs
    obtain rfl := List.mem_singleton.1 hs
    unfold pixelBytes
    cases format <;> decide
  · intro s hs c hc
    obtain rfl := List.mem_singleton.1 hs
    exact words_in_beat _ rfl c hc
  · unfold IsWordOf
    cases format <;> decide

/-- A completing step from a rested state that meets every invariant, for the statements about every step: power-on. -/
theorem witness_invariant_statements :
    ({ State.reset with pending := [.powerOn] } : State).pending ≠ [] ∧
    step { State.reset with pending := [.powerOn] } = .next State.reset ∧
    SparseForms { State.reset with pending := [.powerOn] } ∧ TablesFit { State.reset with pending := [.powerOn] } ∧
    QuietOutsideService { State.reset with pending := [.powerOn] } ∧
    GeometryInService ({ State.reset with pending := [.powerOn] } : State).blk ∧
    HoldsCounted ({ State.reset with pending := [.powerOn] } : State).blk ∧
    LayoutsInRange { State.reset with pending := [.powerOn] } ∧ RingKept { State.reset with pending := [.powerOn] } := by
  refine ⟨by decide, rfl, by unfold SparseForms; decide +kernel, by unfold TablesFit; decide +kernel,
    by unfold QuietOutsideService; decide +kernel, by unfold GeometryInService; decide +kernel,
    by unfold HoldsCounted; decide +kernel, ?_, by unfold RingKept; decide +kernel⟩
  unfold LayoutsInRange LayoutEntry.inRange Glide.inRange Fade.inRange
  decide +kernel

/-- The showing part meets the invariants about holds: its slot is held once, by the latched geometry, and once more by a
BLEND entry. -/
theorem witness_HoldsAreCounted :
    GeometryInService showingBlocks ∧ HoldsCounted showingBlocks ∧
    HoldsCounted { showingBlocks.addHold smallRef with rtt := [blending .await [] 1] } := by
  unfold GeometryInService HoldsCounted
  decide +kernel

end Sys2Proof.Tests
end

section
/-! The blend arithmetic (O50): the values of one blended component, pixel and pair; the spans a BLEND read copies and the
beats its companion fetches read; and the places of the words an entry blends. -/

namespace Sys2Proof.BlendProofs

open Sys2Proof.Machine Sys2Proof.Stated

/-! ## One component (R50 to R52, R55) -/

/-- An expanded byte is a 10-bit value (R50). -/
theorem expand_lt {v : Nat} (h : v < 256) : expand v < 1024 := by
  unfold expand
  omega

/-- The alpha of a key is at most 256 (R51). -/
theorem alpha_le (k : Byte) {o : Nat} (ho : o ≤ 256) : alpha k.toNat o ≤ 256 := by
  have hk : k.toNat * o ≤ 255 * 256 := Nat.mul_le_mul (by have := k.isLt; omega) ho
  unfold alpha
  omega

/-- The average of two values is within their common bound (R55). -/
theorem average_le {l r m : Nat} (hl : l ≤ m) (hr : r ≤ m) : average l r ≤ m := by
  unfold average
  omega

/-- A blended component stays below every bound of its two values: the blend is a weighted mean, and the 128 added
before the division carries it no further (R52). -/
theorem mix_lt {p s a m : Nat} (hp : p < m) (hs : s < m) (ha : a ≤ 256) : mix p s a < m := by
  have hprog : p * (256 - a) ≤ (m - 1) * (256 - a) := Nat.mul_le_mul_right _ (by omega)
  have hpres : s * a ≤ (m - 1) * a := Nat.mul_le_mul_right _ (by omega)
  have hsum : (m - 1) * (256 - a) + (m - 1) * a = (m - 1) * 256 := by
    rw [← Nat.mul_add, Nat.sub_add_cancel ha]
  unfold mix
  omega

/-! ## A W10 pixel (R53) -/

/-- A W10 word as a number: its components in steps of 10 bits, its spare bits above them. -/
theorem w10Word_toNat {cb y cr : Nat} (spare : BitVec 2) (hcb : cb < 1024) (hy : y < 1024) (hcr : cr < 1024) :
    (w10Word cb y cr spare).toNat = cb + 1024 * y + 1048576 * cr + 1073741824 * spare.toNat := by
  unfold w10Word
  rw [BitVec.toNat_append, BitVec.toNat_append, BitVec.toNat_append]
  simp only [BitVec.toNat_ofNat]
  rw [← Nat.shiftLeft_add_eq_or_of_lt (by omega), ← Nat.shiftLeft_add_eq_or_of_lt (by omega),
    ← Nat.shiftLeft_add_eq_or_of_lt (by omega)]
  simp only [Nat.shiftLeft_eq]
  omega

theorem w10Cb_eq (w : Word) : w10Cb w = w.toNat % 1024 := by
  simp [w10Cb]

theorem w10Y_eq (w : Word) : w10Y w = w.toNat / 1024 % 1024 := by
  simp [w10Y, Nat.shiftRight_eq_div_pow]

theorem w10Cr_eq (w : Word) : w10Cr w = w.toNat / 1048576 % 1024 := by
  simp [w10Cr, Nat.shiftRight_eq_div_pow]

theorem w10Spare_toNat (w : Word) : (w10Spare w).toNat = w.toNat / 1073741824 := by
  have := w.isLt
  simp only [w10Spare, BitVec.extractLsb'_toNat, Nat.shiftRight_eq_div_pow]
  omega

/-- The fields of a blended W10 pixel: its three blended components, and the spare bits as received (R53). -/
theorem blendW10_fields (w : Word) (s : K8) {o : Nat} (ho : o ≤ 256) :
    (blendW10 w s o).toNat % 1024 = mix (w.toNat % 1024) (expand s.cb.toNat) (alpha s.k.toNat o) ∧
    (blendW10 w s o).toNat / 1024 % 1024 = mix (w.toNat / 1024 % 1024) (expand s.y.toNat) (alpha s.k.toNat o) ∧
    (blendW10 w s o).toNat / 1048576 % 1024 =
      mix (w.toNat / 1048576 % 1024) (expand s.cr.toNat) (alpha s.k.toNat o) ∧
    (blendW10 w s o).toNat / 1073741824 = w.toNat / 1073741824 := by
  have ha := alpha_le s.k ho
  have hcb := mix_lt (p := w10Cb w) (BitVec.isLt _) (expand_lt s.cb.isLt) ha
  have hy := mix_lt (p := w10Y w) (BitVec.isLt _) (expand_lt s.y.isLt) ha
  have hcr := mix_lt (p := w10Cr w) (BitVec.isLt _) (expand_lt s.cr.isLt) ha
  have hword : (blendW10 w s o).toNat = _ := w10Word_toNat (w10Spare w) hcb hy hcr
  simp only [w10Cb_eq, w10Y_eq, w10Cr_eq, w10Spare_toNat] at hword hcb hy hcr
  refine ⟨?_, ?_, ?_, ?_⟩ <;> omega

/-! ## A P8 pair (R54 to R56) -/

/-- A blended P8 component: its 10-bit result divided by 4 fits a byte (R56). -/
theorem mixP8_toNat {p s a : Nat} (hp : p < 256) (hs : s < 256) (ha : a ≤ 256) :
    (mixP8 p s a).toNat = mix (expand p) (expand s) a / 4 := by
  have h := mix_lt (expand_lt hp) (expand_lt hs) ha
  unfold mixP8 byteOfNat
  rw [BitVec.toNat_ofNat]
  omega

/-- The bytes of a blended P8 pair: each luma by its own alpha, the chroma by the averages (R54, R55). -/
theorem blendP8_bytes (w : Word) (l r : K8) {o : Nat} (ho : o ≤ 256) :
    let a0 := alpha l.k.toNat o
    let a1 := alpha r.k.toNat o
    (wordByte (blendP8 w l r o) 0).toNat =
      mix (expand (wordByte w 0).toNat) (expand (average l.cb.toNat r.cb.toNat)) (average a0 a1) / 4 ∧
    (wordByte (blendP8 w l r o) 1).toNat = mix (expand (wordByte w 1).toNat) (expand l.y.toNat) a0 / 4 ∧
    (wordByte (blendP8 w l r o) 2).toNat =
      mix (expand (wordByte w 2).toNat) (expand (average l.cr.toNat r.cr.toNat)) (average a0 a1) / 4 ∧
    (wordByte (blendP8 w l r o) 3).toNat = mix (expand (wordByte w 3).toNat) (expand r.y.toNat) a1 / 4 := by
  intro a0 a1
  have h0 : a0 ≤ 256 := alpha_le l.k ho
  have h1 : a1 ≤ 256 := alpha_le r.k ho
  have hav := average_le h0 h1
  have hchroma : ∀ x y : Byte, average x.toNat y.toNat < 256 := fun x y =>
    Nat.lt_succ_of_le (average_le (Nat.le_of_lt_succ x.isLt) (Nat.le_of_lt_succ y.isLt))
  unfold blendP8
  simp only [wordByte_wordOf _ _ _ _ _ (show 0 < 4 by omega), wordByte_wordOf _ _ _ _ _ (show 1 < 4 by omega),
    wordByte_wordOf _ _ _ _ _ (show 2 < 4 by omega), wordByte_wordOf _ _ _ _ _ (show 3 < 4 by omega)]
  exact ⟨mixP8_toNat (BitVec.isLt _) (hchroma _ _) hav, mixP8_toNat (BitVec.isLt _) (BitVec.isLt _) h0,
    mixP8_toNat (BitVec.isLt _) (hchroma _ _) hav, mixP8_toNat (BitVec.isLt _) (BitVec.isLt _) h1⟩

/-! ## The spans of a BLEND read (R22, R24) -/

/-- A read classified BLEND copied its spans from its channel's latched geometry. -/
theorem blendInfoOf_of_classify {b : Blocks} {c : Fin 8} {a beats : Nat} {info : BlendInfo} {zoneA zoneB : Option Rect}
    (h : b.classify c a beats = (.blend info, zoneA, zoneB)) :
    ∃ g, blendInfoOf g ((b.chan c).desc.requestRuns a beats) = some info := by
  unfold Blocks.classify at h
  cases hgeom : (b.chan c).geom with
  | none => simp [hgeom] at h
  | some g =>
    refine ⟨g, ?_⟩
    cases hinfo : blendInfoOf g ((b.chan c).desc.requestRuns a beats) with
    | none =>
      simp only [hgeom, hinfo] at h
      split at h
      · split at h <;> simp at h
      · simp at h
    | some info' =>
      simp only [hgeom, hinfo] at h
      split at h
      · simp only [Prod.mk.injEq, EntryKind.blend.injEq] at h
        rw [h.1]
      · simp at h

/-- The spans a read copies: not none, and the parts of its runs inside the inset it copies. -/
theorem spans_of_blendInfoOf {g : Geometry} {runs : List Span} {info : BlendInfo}
    (h : blendInfoOf g runs = some info) :
    info.spans ≠ [] ∧ info.spans = runs.filterMap fun s => s.inside ⟨info.x, info.y, info.slot.w, info.slot.h⟩ := by
  unfold blendInfoOf at h
  cases hslot : g.slot with
  | none => simp [hslot] at h
  | some slot =>
    simp only [hslot, Geometry.inset] at h
    split at h
    · cases h
    · rename_i hne
      obtain rfl := Option.some.inj h
      exact ⟨fun he => hne (.inr he), rfl⟩

/-- The parts of runs inside a rectangle hold exactly the runs' pixels inside it. -/
theorem inSpan_filterMap_inside (runs : List Span) (r : Rect) (line column : Nat) :
    (∃ s ∈ runs.filterMap fun s => s.inside r, InSpan s line column) ↔
      (∃ run ∈ runs, InSpan run line column) ∧ Inside r line column := by
  unfold InSpan Inside
  simp only [List.mem_filterMap]
  constructor
  · rintro ⟨s, ⟨run, hrun, hs⟩, rfl, hcol⟩
    obtain ⟨hline, -, hcols⟩ := inside_some run s r hs
    obtain ⟨hin, hrect⟩ := (hcols column).1 hcol
    rw [hline]
    exact ⟨⟨run, hrun, rfl, hin⟩, hrect⟩
  · rintro ⟨⟨run, hrun, rfl, hin⟩, hrect⟩
    cases hs : run.inside r with
    | none => exact absurd ⟨hin, hrect⟩ (inside_none run r hs column)
    | some s =>
      obtain ⟨hline, -, hcols⟩ := inside_some run s r hs
      exact ⟨s, ⟨run, hrun, hs⟩, hline, (hcols column).2 ⟨hin, hrect⟩⟩

/-- The parts of runs inside a rectangle stand in the order of their runs' lines. -/
theorem filterMap_inside_lines {runs : List Span} (r : Rect) (h : (runs.map Span.line).Pairwise (· < ·)) :
    ((runs.filterMap fun s => s.inside r).map Span.line).Pairwise (· < ·) := by
  rw [List.pairwise_map] at h ⊢
  refine h.filterMap _ fun run run' hlt s hs s' hs' => ?_
  obtain ⟨hline, -⟩ := inside_some run s r hs
  obtain ⟨hline', -⟩ := inside_some run' s' r hs'
  omega

/-- The spans of a BLEND read: one or two, in line order, none empty, and exactly the request's pixels inside the inset
(R24). -/
theorem classify_blend_spans {b : Blocks} {c : Fin 8} {a beats : Nat} {info : BlendInfo} {zoneA zoneB : Option Rect}
    (h : b.classify c a beats = (.blend info, zoneA, zoneB)) :
    (info.spans.length = 1 ∨ info.spans.length = 2) ∧ (info.spans.map Span.line).Pairwise (· < ·) ∧
    (∀ s ∈ info.spans, 1 ≤ s.count) ∧
    ∀ line column, (∃ s ∈ info.spans, InSpan s line column) ↔
      (∃ run ∈ (b.chan c).desc.requestRuns a beats, InSpan run line column) ∧
        Inside ⟨info.x, info.y, info.slot.w, info.slot.h⟩ line column := by
  obtain ⟨g, hg⟩ := blendInfoOf_of_classify h
  obtain ⟨hne, hspans⟩ := spans_of_blendInfoOf hg
  obtain ⟨hlines, htwo⟩ := requestRuns_lines (b.chan c).desc a beats
  have hpos := List.length_pos_of_ne_nil hne
  have hle : info.spans.length ≤ 2 := by
    rw [hspans]
    exact (List.length_filterMap_le _ _).trans htwo
  refine ⟨by omega, ?_⟩
  rw [hspans]
  refine ⟨ filterMap_inside_lines _ hlines, fun s hs => ?_, inSpan_filterMap_inside _ _⟩
  obtain ⟨run, -, hrun⟩ := List.mem_filterMap.1 hs
  exact (inside_some run s _ hrun).2.1

/-! ## Companion fetches (R27) -/

/-- A span's widened range is its beats from its start on. -/
theorem spanRange_eq (info : BlendInfo) (s : Span) :
    spanRange info s = (spanStart info s, spanStart info s + 16 * spanBeats info s) := by
  unfold spanRange spanBeats spanStart presenterByte
  simp only [Prod.mk.injEq, true_and]
  omega

/-- The reads of a BLEND entry: span by span, the beats of the span's widened range in order, in reads of 16 beats, the
last taking what remains (R27). -/
theorem blendReads_beats (info : BlendInfo) :
    ∃ reads : Span → List (Nat × Nat), blendReads info = info.spans.flatMap reads ∧
      ∀ s, ((reads s).flatMap fun r => (List.range r.2).map fun i => r.1 + 16 * i) =
          ((List.range (spanBeats info s)).map fun i => spanStart info s + 16 * i) ∧
        (∀ r ∈ reads s, 1 ≤ r.2 ∧ r.2 ≤ 16) ∧ ∀ r ∈ (reads s).dropLast, r.2 = 16 := by
  refine ⟨fun s => rangeReads (spanRange info s), rfl, fun s => ?_⟩
  have hbeats := rangeReads_beats (spanStart info s) (spanBeats info s)
  rw [← spanRange_eq] at hbeats
  exact ⟨hbeats, rangeReads_sizes _⟩

/-! ## The words of a span (R3, R57) -/

/-- A span lies in its line's stride, and in P8 in whole pairs. -/
def FitsLine (d : Descriptor) (s : Span) : Prop :=
  (s.first + s.count) * pixelBytes d ≤ d.stride ∧ (d.format = .p8 → s.first % 2 = 0 ∧ s.count % 2 = 0)

/-- What blending makes of the word at column `c` of a span, the presenter data holding `held` beats of earlier spans. -/
def wordBlend (d : Descriptor) (e : Entry) (info : BlendInfo) (s : Span) (held c : Nat) (w : Word) : Word :=
  match d.format with
  | .w10 => blendW10 w (pixelOf info s held e.presData c) info.opacity
  | .p8 => blendP8 w (pixelOf info s held e.presData c) (pixelOf info s held e.presData (c + 1)) info.opacity

/-- Two words' places have no byte in common. -/
def Apart (p q : Nat) : Prop := p + 4 ≤ q ∨ q + 4 ≤ p

theorem pixelBytes_eq (d : Descriptor) : pixelBytes d = bytesPerPixel d.format := by
  unfold pixelBytes
  cases d.format <;> rfl

/-- The pixel stored in the four bytes at a place. -/
theorem k8OfWord_wordAt (bytes : List Byte) (i : Nat) :
    k8OfWord (wordAt bytes i) = ⟨byteAt bytes i, byteAt bytes (i + 1), byteAt bytes (i + 2), byteAt bytes (i + 3)⟩ := by
  unfold k8OfWord wordAt
  simp [wordByte_wordOf]

/-- The presenter pixel the blend uses is the one at the place of R27. -/
theorem presPixel_eq_pixelOf (info : BlendInfo) (s : Span) (held : Nat) (pres : List Byte) (c : Nat) :
    presPixel info s held pres c = pixelOf info s held pres c := by
  unfold presPixel pixelOf
  rw [k8OfWord_wordAt, spanRange_eq, Nat.mul_comm held 16]
  rfl

/-- A word's place in the data is its address less the entry's. -/
theorem progOffset_eq {d : Descriptor} {e : Entry} {k : Fin 4} (hk : e.buffer = some k) (l c : Nat) :
    progOffset d e l c = wordAddress d k l c - e.addr.toNat := by
  unfold progOffset wordAddress
  rw [hk, pixelBytes_eq]
  rfl

/-- The word of a column of a span that fits its line ends within the line's stride. -/
theorem FitsLine.word_end_le {d : Descriptor} {s : Span} (hs : FitsLine d s) {c : Nat} (hc : IsWordOf d s c) :
    c * pixelBytes d + 4 ≤ d.stride := by
  obtain ⟨hfit, hpair⟩ := hs
  obtain ⟨-, hlast, heven⟩ := hc
  rw [pixelBytes_eq] at hfit ⊢
  cases hf : d.format with
  | w10 =>
    simp only [hf, bytesPerPixel] at hfit ⊢
    omega
  | p8 =>
    obtain ⟨hfirst, hcount⟩ := hpair hf
    have hc := heven hf
    simp only [hf, bytesPerPixel] at hfit ⊢
    omega

/-- The words of spans of different lines lie apart. -/
theorem wordAddress_apart_of_line_ne {d : Descriptor} (k : Fin 4) {s t : Span} (hs : FitsLine d s) (ht : FitsLine d t)
    (hne : s.line ≠ t.line) {c c' : Nat} (hc : IsWordOf d s c) (hc' : IsWordOf d t c') :
    Apart (wordAddress d k s.line c) (wordAddress d k t.line c') := by
  have h := hs.word_end_le hc
  have h' := ht.word_end_le hc'
  have hstep : ∀ {l l' : Nat}, l < l' → l * d.stride + d.stride ≤ l' * d.stride := fun hlt => by
    rw [← Nat.succ_mul]
    exact Nat.mul_le_mul_right _ hlt
  unfold Apart wordAddress
  rcases Nat.lt_or_gt_of_ne hne with hlt | hlt
  · have := hstep hlt
    omega
  · have := hstep hlt
    omega

/-- Two words of a span lie apart. -/
theorem wordAddress_apart_of_lt {d : Descriptor} (k : Fin 4) {s : Span} {c c' : Nat} (hc : IsWordOf d s c)
    (hc' : IsWordOf d s c') (hlt : c < c') : Apart (wordAddress d k s.line c) (wordAddress d k s.line c') := by
  obtain ⟨-, -, heven⟩ := hc
  obtain ⟨-, -, heven'⟩ := hc'
  unfold Apart wordAddress
  rw [pixelBytes_eq]
  cases hf : d.format with
  | w10 =>
    simp only [bytesPerPixel]
    omega
  | p8 =>
    have hc := heven hf
    have hc' := heven' hf
    simp only [bytesPerPixel]
    omega

/-- Places in the data are apart as the addresses are, when the entry's data begins before both. -/
theorem Apart.sub {p q a : Nat} (h : Apart p q) (hp : a ≤ p) (hq : a ≤ q) : Apart (p - a) (q - a) := by
  unfold Apart at *
  omega

/-- The columns at which the words of a span begin, in order. -/
def wordColumns (d : Descriptor) (s : Span) : List Nat :=
  match d.format with
  | .w10 => (List.range s.count).map fun i => s.first + i
  | .p8 => (List.range (s.count / 2)).map fun i => s.first + 2 * i

theorem mem_wordColumns {d : Descriptor} {s : Span} (hs : FitsLine d s) (c : Nat) :
    c ∈ wordColumns d s ↔ IsWordOf d s c := by
  obtain ⟨-, hpair⟩ := hs
  unfold wordColumns IsWordOf
  cases hf : d.format with
  | w10 =>
    simp only [List.mem_map, List.mem_range, reduceCtorEq, false_implies, and_true]
    constructor
    · rintro ⟨i, hi, rfl⟩
      omega
    · exact fun h => ⟨c - s.first, by omega, by omega⟩
  | p8 =>
    obtain ⟨hfirst, hcount⟩ := hpair hf
    simp only [List.mem_map, List.mem_range, true_implies]
    constructor
    · rintro ⟨i, hi, rfl⟩
      omega
    · exact fun h => ⟨(c - s.first) / 2, by omega, by omega⟩

theorem wordColumns_increasing (d : Descriptor) (s : Span) : (wordColumns d s).Pairwise (· < ·) := by
  unfold wordColumns
  cases d.format with
  | w10 => exact List.pairwise_map.2 (List.pairwise_lt_range.imp fun h => by omega)
  | p8 => exact List.pairwise_map.2 (List.pairwise_lt_range.imp fun h => by omega)

/-- The words a span blends are those of its columns, each at its place. -/
theorem spanWords_eq {d : Descriptor} {e : Entry} {k : Fin 4} (hk : e.buffer = some k) (hf : e.format = d.format)
    (info : BlendInfo) (s : Span) (held : Nat) :
    spanWords d e info s held = (wordColumns d s).map fun c =>
      (wordAddress d k s.line c - e.addr.toNat, wordBlend d e info s held c) := by
  unfold spanWords wordColumns wordBlend
  rw [hf]
  cases d.format <;>
    simp only [List.map_map, Function.comp_def, progOffset_eq hk, presPixel_eq_pixelOf]

/-! ## The words of an entry (R57, R58) -/

section
variable {d : Descriptor} {e : Entry} {k : Fin 4} (hk : e.buffer = some k) (hf : e.format = d.format)
include hk hf

/-- A word some span of a list blends is a word of one of its columns. -/
theorem isWordOf_of_mem_spansWords {info : BlendInfo} {spans : List Span} (hfit : ∀ s ∈ spans, FitsLine d s)
    {held : Nat} {x : Nat × (Word → Word)} (hx : x ∈ spansWords d e info held spans) :
    ∃ s ∈ spans, ∃ c, IsWordOf d s c ∧ x.1 = wordAddress d k s.line c - e.addr.toNat := by
  obtain ⟨j, s, hj, hx⟩ := (mem_spansWords d e info spans held x).1 hx
  have hs := List.mem_of_getElem? hj
  rw [spanWords_eq hk hf, List.mem_map] at hx
  obtain ⟨c, hc, rfl⟩ := hx
  exact ⟨s, hs, c, (mem_wordColumns (hfit s hs) c).1 hc, rfl⟩

/-- The words of spans of different lines are all apart from each other. -/
theorem spansWords_apart {info : BlendInfo} {spans : List Span} (hfit : ∀ s ∈ spans, FitsLine d s)
    (hlines : (spans.map Span.line).Nodup)
    (haddr : ∀ s ∈ spans, ∀ c, IsWordOf d s c → e.addr.toNat ≤ wordAddress d k s.line c) (held : Nat) :
    (spansWords d e info held spans).Pairwise fun x y => Apart x.1 y.1 := by
  induction spans generalizing held with
  | nil => exact .nil
  | cons s rest ih =>
    rw [List.map_cons, List.nodup_cons] at hlines
    obtain ⟨hline, hlines⟩ := hlines
    obtain ⟨hs, hrest⟩ := List.forall_mem_cons.1 hfit
    obtain ⟨haddrS, haddrRest⟩ := List.forall_mem_cons.1 haddr
    unfold spansWords
    rw [List.pairwise_append]
    refine ⟨?_, ih hrest hlines haddrRest _, ?_⟩
    · rw [spanWords_eq hk hf, List.pairwise_map]
      refine (wordColumns_increasing d s).imp_of_mem fun {c c'} hc hc' hlt => ?_
      rw [mem_wordColumns hs] at hc hc'
      exact (wordAddress_apart_of_lt k hc hc' hlt).sub (haddrS _ hc) (haddrS _ hc')
    · intro x hx y hy
      rw [spanWords_eq hk hf, List.mem_map] at hx
      obtain ⟨c, hc, rfl⟩ := hx
      rw [mem_wordColumns hs] at hc
      obtain ⟨t, ht, c', hc', hy⟩ := isWordOf_of_mem_spansWords hk hf hrest hy
      have hne : s.line ≠ t.line := fun heq => hline (heq ▸ List.mem_map_of_mem ht)
      rw [hy]
      exact (wordAddress_apart_of_line_ne k hs (hrest t ht) hne hc hc').sub (haddrS _ hc) (haddrRest t ht _ hc')

/-- Each word of a span is among the words the entry blends, with the presenter beats of the spans before it. -/
theorem mem_spansWords_of_isWordOf (info : BlendInfo) {spans : List Span} {j : Nat} {s : Span} (hj : spans[j]? = some s)
    (hs : FitsLine d s) {c : Nat} (hc : IsWordOf d s c) :
    (wordAddress d k s.line c - e.addr.toNat,
      wordBlend d e info s ((spans.take j).map (spanBeats info)).sum c) ∈ spansWords d e info 0 spans := by
  have hbeats : (fun t => ((spanRange info t).2 - (spanRange info t).1) / 16) = spanBeats info := by
    funext t
    rw [spanRange_eq, Nat.add_sub_cancel_left, Nat.mul_div_cancel_left _ (by omega)]
  refine (mem_spansWords d e info spans 0 _).2 ⟨j, s, hj, ?_⟩
  rw [hbeats, Nat.zero_add, spanWords_eq hk hf]
  exact List.mem_map_of_mem ((mem_wordColumns hs c).2 hc)

/-- Blending an entry's spans: the length stays, each word of a span is blended at its place, and every byte outside the
spans' words stays (R39, R57, R58). -/
theorem blendSpans_spec {info : BlendInfo} {data : List Byte} (hfit : ∀ s ∈ info.spans, FitsLine d s)
    (hlines : (info.spans.map Span.line).Nodup)
    (hin : ∀ s ∈ info.spans, ∀ c, IsWordOf d s c → e.addr.toNat ≤ wordAddress d k s.line c ∧
      wordAddress d k s.line c + 4 ≤ e.addr.toNat + data.length) :
    (blendSpans d e info 0 info.spans data).length = data.length ∧
    (∀ j s c, info.spans[j]? = some s → IsWordOf d s c →
      wordAt (blendSpans d e info 0 info.spans data) (wordAddress d k s.line c - e.addr.toNat) =
        wordBlend d e info s ((info.spans.take j).map (spanBeats info)).sum c
          (wordAt data (wordAddress d k s.line c - e.addr.toNat))) ∧
    ∀ n, (∀ s ∈ info.spans, ∀ c, IsWordOf d s c → e.addr.toNat + n < wordAddress d k s.line c ∨
        wordAddress d k s.line c + 4 ≤ e.addr.toNat + n) →
      byteAt (blendSpans d e info 0 info.spans data) n = byteAt data n := by
  rw [blendSpans_eq_putWords]
  have hword : ∀ x ∈ spansWords d e info 0 info.spans,
      ∃ s ∈ info.spans, ∃ c, IsWordOf d s c ∧ x.1 = wordAddress d k s.line c - e.addr.toNat :=
    fun _ hx => isWordOf_of_mem_spansWords hk hf hfit hx
  obtain ⟨hlen, hblend, -, hkeep⟩ := putWords_spec (spansWords d e info 0 info.spans) data
    (fun x hx => by
      obtain ⟨s, hs, c, hc, hplace⟩ := hword x hx
      have := hin s hs c hc
      omega)
    (spansWords_apart hk hf hfit hlines (fun s hs c hc => (hin s hs c hc).1) 0)
  refine ⟨hlen, fun j s c hj hc => ?_, fun n hn => hkeep n fun x hx => ?_⟩
  · have hmem := mem_spansWords_of_isWordOf hk hf info hj (hfit s (List.mem_of_getElem? hj)) hc
    exact (hblend _ hmem :)
  · obtain ⟨s, hs, c, hc, hplace⟩ := hword x hx
    have := hin s hs c hc
    have := hn s hs c hc
    omega

end

/-- Settles O50: the fields of a blended pixel and the bytes of a blended pair from the bounds of one component, the spans
from the classification, the fetches from the widened ranges, and the blended words as words changed in place. -/
theorem blendArithmetic : Obligations.BlendArithmetic := by
  unfold Obligations.BlendArithmetic
  refine ⟨fun w l r o ho => ?_, fun b c a beats info zoneA zoneB h => classify_blend_spans h, blendReads_beats,
    fun v n info => rfl, fun d e info k data hk hf hlines hfit hin => ?_⟩
  · obtain ⟨hcb, hy, hcr, hspare⟩ := blendW10_fields w l ho
    exact ⟨hcb, hy, hcr, hspare, blendP8_bytes w l r ho⟩
  · obtain ⟨hlen, hblend, hkeep⟩ := blendSpans_spec hk hf hfit hlines hin
    exact ⟨hlen, hblend, hkeep⟩

end Sys2Proof.BlendProofs
end

section
/-! The pick of a frame start (O18): the slot of a delay among a port's READY slots, and the rows of R93. -/

namespace Sys2Proof.PickProofs

open Sys2Proof.Machine

/-! ## The READY slots of sufficient age -/

theorem mem_readySlots_of_delay (b : Blocks) (p : Fin 4) (d : Nat) (i : Fin 16) :
    i ∈ (b.readySlots p).filter (fun i => d ≤ b.age p i) ↔ (b.slot p i).state = .ready ∧ d ≤ b.age p i := by
  rw [List.mem_filter, mem_readySlots, decide_eq_true_iff]

theorem readySlots_eq_nil (b : Blocks) (p : Fin 4) :
    b.readySlots p = [] ↔ ∀ i, (b.slot p i).state ≠ .ready := by
  simp only [List.eq_nil_iff_forall_not_mem, mem_readySlots, ne_eq]

/-- The newest slot of age at least the delay is missing exactly when every READY slot is younger. -/
theorem newest_of_delay_eq_none (b : Blocks) (p : Fin 4) (d : Nat) :
    b.newest p ((b.readySlots p).filter fun i => d ≤ b.age p i) = none ↔
      ∀ j, (b.slot p j).state = .ready → b.age p j < d := by
  simp only [(newest_spec b p _).1, List.eq_nil_iff_forall_not_mem, mem_readySlots_of_delay, not_and, Nat.not_le]

/-! ## The slot of a delay (R93, the last three rows) -/

theorem pickSlot_eq_or (b : Blocks) (p : Fin 4) (d : Nat) :
    b.pickSlot p d =
      (b.newest p ((b.readySlots p).filter fun i => d ≤ b.age p i)).or (b.oldest p (b.readySlots p)) := by
  simp only [Blocks.pickSlot]
  cases b.newest p ((b.readySlots p).filter fun i => d ≤ b.age p i) <;> rfl

/-- A delay has a slot unless the port has no READY slot: the shortfall falls back on the oldest of them. -/
theorem pickSlot_eq_none (b : Blocks) (p : Fin 4) (d : Nat) :
    b.pickSlot p d = none ↔ ∀ i, (b.slot p i).state ≠ .ready := by
  rw [pickSlot_eq_or, Option.or_eq_none_iff, newest_of_delay_eq_none, (oldest_spec b p _).1, readySlots_eq_nil]
  exact and_iff_right_of_imp fun hnone j hj => absurd hj (hnone j)

/-- The slot of a delay is the newest READY slot of age at least the delay or, in shortfall, the oldest READY slot. -/
theorem pickSlot_cases {b : Blocks} {p : Fin 4} {d : Nat} {i : Fin 16} (h : b.pickSlot p d = some i) :
    (b.slot p i).state = .ready ∧
      ((d ≤ b.age p i ∧ ∀ j, (b.slot p j).state = .ready → d ≤ b.age p j → b.age p i ≤ b.age p j) ∨
        ((∀ j, (b.slot p j).state = .ready → b.age p j < d) ∧
          ∀ j, (b.slot p j).state = .ready → b.age p j ≤ b.age p i)) := by
  rw [pickSlot_eq_or, Option.or_eq_some_iff] at h
  obtain hnewest | ⟨hshort, holdest⟩ := h
  · obtain ⟨hi, hmin⟩ := (newest_spec b p _).2 i hnewest
    obtain ⟨hready, hold⟩ := (mem_readySlots_of_delay b p d i).1 hi
    exact ⟨hready, .inl ⟨hold, fun j hj hdj => hmin j ((mem_readySlots_of_delay b p d j).2 ⟨hj, hdj⟩)⟩⟩
  · obtain ⟨hi, hmax⟩ := (oldest_spec b p _).2 i holdest
    exact ⟨(mem_readySlots b p i).1 hi, .inr ⟨(newest_of_delay_eq_none b p d).1 hshort,
      fun j hj => hmax j ((mem_readySlots b p j).2 hj)⟩⟩

/-! ## The pick by the channel's port and loss policy (R93) -/

theorem pick_of_port_eq_none {b : Blocks} {c : Fin 8} (hp : (b.chan c).desc.port = none) :
    b.pick c = .error .noPort := by
  simp only [Blocks.pick, hp]

theorem pick_of_lost_hide {b : Blocks} {c : Fin 8} {p : Fin 4} (hp : (b.chan c).desc.port = some p)
    (hlost : (b.port p).state.isLost = true ∧ (b.chan c).desc.loss = .hide) : b.pick c = .error .inputLost := by
  simp [Blocks.pick, hp, hlost]

/-- On a port that is not hidden the slot of the channel's delay decides. -/
theorem pick_of_not_lost_hide {b : Blocks} {c : Fin 8} {p : Fin 4} (hp : (b.chan c).desc.port = some p)
    (hshown : ¬ ((b.port p).state.isLost = true ∧ (b.chan c).desc.loss = .hide)) :
    b.pick c = (b.pickSlot p (b.chan c).desc.delay).elim (.error .noFrame) fun i => .ok (b.refOf p i) := by
  simp only [Blocks.pick, hp, Bool.and_eq_true, decide_eq_true_iff, if_neg hshown]
  cases b.pickSlot p (b.chan c).desc.delay <;> rfl

/-- Settles O18: the age by its definition (R86), and the pick row by row (R93). The newest and the oldest slot are two
cases of the slot of the delay, and each excludes the other's condition. -/
theorem pickFollowsDelay : Obligations.PickFollowsDelay := by
  unfold Obligations.PickFollowsDelay
  refine ⟨fun b p i => rfl, ?_⟩
  rintro b c d rfl
  refine ⟨pick_of_port_eq_none, fun p hp => ⟨pick_of_lost_hide hp, fun hshown => ?_⟩⟩
  rw [pick_of_not_lost_hide hp hshown]
  refine ⟨fun hnone => by rw [(pickSlot_eq_none b p _).2 hnone]; rfl, fun ⟨j, hj⟩ => ?_⟩
  have hsome : b.pickSlot p (b.chan c).desc.delay ≠ none := fun h => (pickSlot_eq_none b p _).1 h j hj
  obtain ⟨i, hi⟩ := Option.ne_none_iff_exists'.1 hsome
  obtain ⟨hready, hcases⟩ := pickSlot_cases hi
  refine ⟨i, by rw [hi]; rfl, hready, ?_⟩
  obtain ⟨hold, hnewest⟩ | ⟨hyoung, holdest⟩ := hcases
  · exact ⟨fun _ => ⟨hold, hnewest⟩, fun hyoung => absurd (hyoung i hready) (Nat.not_lt.2 hold)⟩
  · exact ⟨fun ⟨k, hk, hdk⟩ => absurd (hyoung k hk) (Nat.not_lt.2 hdk), fun _ => holdest⟩

end Sys2Proof.PickProofs
end

section
/-! An evaluation and its edges (O51): the effective level and the condition in numbers, and the neighbouring pixels of a
run that lie in a zone as a window of the run's. -/

namespace Sys2Proof.MonitorProofs

open Sys2Proof.Machine Sys2Proof.Stated

/-! ## The activity, the effective level and the condition (R124 to R126) -/

theorem measured_of_zone {m : Monitor} {zone : Rect} (hz : m.cfg.zone = some zone) :
    m.measured = min 1000 (m.acc * 1000 / (zone.w * zone.h)) := by
  simp only [Monitor.measured, hz]

/-- The effective level: the monitor's own or, where it tracks, the other's with the offset, within 0..1000 whichever way
the offset carries it (R125). -/
theorem effectiveLevel_eq_iff {m : Monitor} (other : Monitor) {level : Nat} :
    m.effectiveLevel other = level ↔ (m.cfg.tracking = none ∧ level = m.cfg.level ∨
      ∃ offset : Int, m.cfg.tracking = some offset ∧ (level : Int) = min 1000 (max 0 (other.cfg.level + offset))) := by
  unfold Monitor.effectiveLevel
  cases m.cfg.tracking with
  | none => simp [eq_comm]
  | some offset =>
    simp only [reduceCtorEq, false_and, false_or, Option.some.injEq, exists_eq_left']
    omega

/-- Under ABOVE: "on" at the level or above it, "off" below it by more than the hysteresis (R126). -/
theorem conditionOf_above (activity level hysteresis : Nat) :
    (conditionOf .above activity level hysteresis = .on ↔ level ≤ activity) ∧
      (conditionOf .above activity level hysteresis = .off ↔ activity < level - hysteresis) := by
  simp only [conditionOf]
  split_ifs with hon hoff
  · exact ⟨iff_of_true rfl hon, iff_of_false nofun (by omega)⟩
  · exact ⟨iff_of_false nofun hon, iff_of_true rfl hoff⟩
  · exact ⟨iff_of_false nofun hon, iff_of_false nofun hoff⟩

/-- Under BELOW: "on" at the level or below it, "off" above it by more than the hysteresis (R126). -/
theorem conditionOf_below (activity level hysteresis : Nat) :
    (conditionOf .below activity level hysteresis = .on ↔ activity ≤ level) ∧
      (conditionOf .below activity level hysteresis = .off ↔ level + hysteresis < activity) := by
  simp only [conditionOf]
  split_ifs with hon hoff
  · exact ⟨iff_of_true rfl hon, iff_of_false nofun (by omega)⟩
  · exact ⟨iff_of_false nofun hon, iff_of_true rfl hoff⟩
  · exact ⟨iff_of_false nofun hon, iff_of_false nofun hoff⟩

/-! ## Two neighbouring pixels (R121) -/

/-- The column whose word holds the pixel at column `c`: its own in W10, the even one of its pair in P8. -/
def wordColumn (format : ProgFormat) (c : Nat) : Nat :=
  match format with
  | .w10 => c
  | .p8 => c / 2 * 2

/-- The pixels at columns `c` and `c + 1` of a line differ by at least the threshold in luma. -/
def isEdge (d : Descriptor) (k : Fin 4) (e : Entry) (threshold line c : Nat) : Bool :=
  decide ((threshold : Int) ≤ |(lumaOf d k e line c : Int) - lumaOf d k e line (c + 1)|)

/-- The pixels at columns `c` and `c + 1` of a line both lie inside a rectangle. -/
def pairInside (zone : Rect) (line c : Nat) : Bool :=
  decide (zone.y ≤ line ∧ line < zone.y + zone.h ∧ zone.x ≤ c ∧ c + 1 < zone.x + zone.w)

theorem pairInside_iff (zone : Rect) (line c : Nat) :
    pairInside zone line c = true ↔ Inside zone line c ∧ Inside zone line (c + 1) := by
  simp only [pairInside, decide_eq_true_iff, Inside]
  omega

/-- The luma the model takes from the word that holds a pixel is the pixel's (R50, R121). -/
theorem luma_wordColumn {d : Descriptor} {e : Entry} {k : Fin 4} (hk : e.buffer = some k) (hf : e.format = d.format)
    (line c : Nat) :
    luma e.format (wordAt e.progData (progOffset d e line (wordColumn e.format c))) c = lumaOf d k e line c := by
  rw [BlendProofs.progOffset_eq hk, hf]
  unfold lumaOf luma wordColumn
  cases d.format with
  | w10 => exact BlendProofs.w10Y_eq _
  | p8 => rfl

/-- The greater luma less the lesser is their absolute difference. -/
theorem le_max_sub_min_iff (threshold l r : Nat) :
    threshold ≤ max l r - min l r ↔ (threshold : Int) ≤ |(l : Int) - r| := by
  rw [le_abs]
  omega

/-! ## The pairs of a run inside a zone (R121) -/

/-- The part of a run inside a rectangle is not empty, and begins and ends within the run. -/
theorem inside_within {run s : Span} {zone : Rect} (hs : run.inside zone = some s) :
    1 ≤ s.count ∧ run.first ≤ s.first ∧ s.first + s.count ≤ run.first + run.count := by
  obtain ⟨-, hcount, hcols⟩ := inside_some run s zone hs
  have hfirst := (hcols s.first).1 (by omega)
  have hlast := (hcols (s.first + s.count - 1)).1 (by omega)
  omega

/-- A run's pair lies inside a rectangle exactly when both its pixels are in the run's part there: those pairs are a
window of the run's. -/
theorem pairInside_eq_window {run s : Span} {zone : Rect} (hs : run.inside zone = some s) {i : Nat}
    (hi : i < run.count - 1) :
    pairInside zone run.line (run.first + i) =
      decide (s.first - run.first ≤ i ∧ i < s.first - run.first + (s.count - 1)) := by
  obtain ⟨-, -, hcols⟩ := inside_some run s zone hs
  obtain ⟨hcount, hfirst, -⟩ := inside_within hs
  have hleft := hcols (run.first + i)
  have hright := hcols (run.first + i + 1)
  rw [Bool.eq_iff_iff, pairInside_iff, decide_eq_true_iff]
  unfold Inside
  omega

/-- Of the pairs of a run inside a rectangle as many meet a test as of the pairs of the run's part there. -/
theorem countP_pairInside {run s : Span} {zone : Rect} (hs : run.inside zone = some s) (test : Nat → Bool) :
    ((List.range (run.count - 1)).countP fun i => pairInside zone run.line (run.first + i) && test (run.first + i)) =
      (List.range (s.count - 1)).countP fun i => test (s.first + i) := by
  obtain ⟨hcount, hfirst, hlast⟩ := inside_within hs
  calc
    _ = (List.range (run.count - 1)).countP fun i =>
          decide (s.first - run.first ≤ i ∧ i < s.first - run.first + (s.count - 1)) && test (run.first + i) :=
      List.countP_congr fun i hi => by rw [pairInside_eq_window hs (List.mem_range.1 hi)]
    _ = (List.range (s.count - 1)).countP fun i => test (run.first + (s.first - run.first + i)) :=
      countP_window _ _ _ (fun i => test (run.first + i)) _ (fun _ => rfl) (.inl (by omega))
    _ = _ := by simp only [← Nat.add_assoc, Nat.add_sub_cancel' hfirst]

/-- A run with no part inside a rectangle has no pair there. -/
theorem pairInside_of_inside_none {run : Span} {zone : Rect} (hs : run.inside zone = none) {i : Nat}
    (hi : i < run.count - 1) : pairInside zone run.line (run.first + i) = false := by
  have hpixel := inside_none run zone hs (run.first + i)
  rw [← Bool.not_eq_true, pairInside_iff]
  unfold Inside
  omega

/-! ## The edges of an entry's data (R121) -/

/-- The edges of a run with a part inside the zone: those of the part's pairs. -/
theorem runEdges_of_inside_some {d : Descriptor} {e : Entry} {k : Fin 4} (hk : e.buffer = some k)
    (hf : e.format = d.format) {threshold : Nat} {zone : Rect} {run s : Span} (hs : run.inside zone = some s) :
    runEdges d e threshold zone run =
      (List.range (s.count - 1)).countP fun i => isEdge d k e threshold run.line (s.first + i) := by
  obtain ⟨hline, -, -⟩ := inside_some run s zone hs
  simp only [isEdge, ← le_max_sub_min_iff, ← luma_wordColumn hk hf, ← hline, List.countP_eq_length_filter]
  simp only [runEdges, hs]
  rfl

/-- The edges of a run: of its pairs of neighbouring pixels those that lie inside the zone and differ enough in luma. -/
theorem runEdges_eq {d : Descriptor} {e : Entry} {k : Fin 4} (hk : e.buffer = some k) (hf : e.format = d.format)
    (threshold : Nat) (zone : Rect) (run : Span) :
    runEdges d e threshold zone run = (List.range (run.count - 1)).countP fun i =>
      pairInside zone run.line (run.first + i) && isEdge d k e threshold run.line (run.first + i) := by
  cases hs : run.inside zone with
  | some s => rw [runEdges_of_inside_some hk hf hs, countP_pairInside hs]
  | none =>
    have hnone : runEdges d e threshold zone run = 0 := by simp only [runEdges, hs]
    rw [hnone, eq_comm, List.countP_eq_zero]
    intro i hi
    simp [pairInside_of_inside_none hs (List.mem_range.1 hi)]

theorem entryEdges_eq {d : Descriptor} {e : Entry} {k : Fin 4} (hk : e.buffer = some k) (hf : e.format = d.format)
    (threshold : Nat) (zone : Rect) :
    entryEdges d e threshold zone = ((d.runs k e.addr.toNat e.beats).map fun run =>
      (List.range (run.count - 1)).countP fun i =>
        pairInside zone run.line (run.first + i) && isEdge d k e threshold run.line (run.first + i)).sum := by
  simp only [entryEdges, hk, ← runEdges_eq hk hf]

/-- Settles O51: the evaluation by the activity, the level and the condition of each mode, and the edges of an entry run
by run. -/
theorem evaluationFollowsLevelAndHysteresis : Obligations.EvaluationFollowsLevelAndHysteresis := by
  unfold Obligations.EvaluationFollowsLevelAndHysteresis
  refine ⟨fun m other zone above activity level hmode hzone hactivity hlevel => ?_,
    fun d e k threshold zone hk hf => ?_⟩
  · rw [← measured_of_zone hzone] at hactivity
    rw [← effectiveLevel_eq_iff other] at hlevel
    subst hactivity hlevel
    refine ⟨_, rfl, ?_, ?_⟩
    · rintro rfl
      obtain ⟨hon, hoff⟩ := conditionOf_above m.measured (m.effectiveLevel other) m.cfg.hysteresis
      rw [hmode, if_pos rfl, hon, hoff]
      omega
    · rintro rfl
      rw [hmode, if_neg Bool.false_ne_true]
      exact conditionOf_below _ _ _
  · simp only [entryEdges_eq hk hf, pairInside, isEdge, ← Bool.decide_and, and_assoc]

end Sys2Proof.MonitorProofs
end

section
/-! What a step can do (11, 08): the moves of the blocks, the moves of the whole part, and that every step that completes
is a sequence of such moves. An invariant is then shown of each move. -/

namespace Sys2Proof.StepMoves

open Sys2Proof.Machine

/-- The part is in service: ACTIVE or RESTARTING. -/
def InService (b : Blocks) : Prop := b.mode = .active ∨ b.mode = .restarting

/-- One move of the blocks: an operation of a block's owner, with what held when it was done. -/
inductive BlockMove : Blocks → Blocks → Prop where
  | tick (b : Blocks) : BlockMove b { b with timeBase := b.timeBase + 1 }
  | boot (b : Blocks) (image : List Word) (hm : b.mode = .loading) (hg : imageGood image = true) :
      BlockMove b (enterActive image b)
  | guard (b : Blocks) (words : List Word) (hm : InService b) : BlockMove b (b.raise .guard .none words)
  | read (b : Blocks) (c : Fin 8) (n : Tag) (r : UpRequest) (hm : InService b)
      (he : b.entryFor r.tag = some (c, some n))
      (hf : b.fetchQueue.length + b.readsNeeded c r.addr r.beats ≤ Config.fetchQueueSize) :
      BlockMove b ((b.examined c r.addr.toNat r.beats).allocate n c r.tag r.oid r.addr r.beats)
  | cue (b : Blocks) (s : Fin 32) (r : CueRecord) (hm : b.mode = .active) : BlockMove b (carryOut s r b)
  | consumer (b : Blocks) (word : Word) (hm : InService b) : BlockMove b (b.takeConsumer word)
  | fetchSent (b : Blocks) : BlockMove b { b with fetchQueue := b.fetchQueue.drop 1 }
  | reportSent (b b' : Blocks) (request : DownRequest) (hm : InService b) (hw : b.reportWaits = true)
      (h : b.grantReport = some (request, b')) : BlockMove b b'
  | statusSent (b : Blocks) (hm : InService b) : BlockMove b { b with rep := { b.rep with status := .inFlight } }
  | pieceSent (b : Blocks) (p : Fin 4) : BlockMove b (b.grantPiece p)
  | restarted (b : Blocks) (hm : b.mode = .restarting) (hd : restartDrained b = true) :
      BlockMove b (completeRestart b)
  | programme (b b' : Blocks) (tag : Tag) (oid : OrderId) (data : List Byte) (status : Status)
      (h : b.takeProgramme tag oid data status = .ok b') : BlockMove b b'
  | fetch (b b' : Blocks) (n : Tag) (data : List Byte) (status : Status) (h : b.takeFetch n data status = .ok b') :
      BlockMove b b'
  | lineWrite (b b' : Blocks) (p : Fin 4) (status : Status) (h : b.takeLineWrite p status = .ok b') : BlockMove b b'
  | reportWrite (b b' : Blocks) (status : Status) (h : b.takeReportWrite status = .ok b') : BlockMove b b'
  | statusWrite (b b' : Blocks) (h : b.takeStatusWrite = .ok b') : BlockMove b b'
  | deliver (b : Blocks) (e : Entry) (h : b.readyEntry = some e) : BlockMove b (b.deliver e)
  | frameOpen (b : Blocks) (p : Fin 4) (w h : Nat) (hm : b.mode = .active) : BlockMove b (b.takeFrameOpen p w h)
  | line (b : Blocks) (p : Fin 4) (index : Nat) (samples : List K8) (hm : b.mode = .active) :
      BlockMove b (b.takeLine p index samples)
  | frameClose (b : Blocks) (p : Fin 4) (hm : b.mode = .active) : BlockMove b (b.takeFrameClose p)
  | joinLimit (b : Blocks) (n : Tag) : BlockMove b (b.expireJoin n)
  | lossLimit (b : Blocks) (p : Fin 4) : BlockMove b (b.expireLoss p)
  | refreshPeriod (b : Blocks) : BlockMove b b.expireRefresh

/-- One move of the part: of its blocks, of the cue unit, of the link path, or a reset. -/
inductive Move : State → State → Prop where
  | reset (s : State) (cause : ResetCause) : Move s (State.resetWith cause s.pending)
  | bypass (s : State) (hm : s.blk.mode = .loading) : Move s (enterBypass s)
  | blocks (s : State) (b : Blocks) (h : BlockMove s.blk b) : Move s { s with blk := b }
  | outside (s : State) (pending : List Instr) (attn : Bool) : Move s { s with pending := pending, attn := attn }
  | expected (s : State) (slot : Fin 32) (lap : Bool) : Move s { s with cue := { s.cue with slot := slot, lap := lap } }
  | shadow (s : State) (cells : List Host.Cell) (h : ∀ c ∈ cells, c.1 < 2048) :
      Move s { s with cue := { s.cue with shadow := Memory.setAll 0 s.cue.shadow cells } }
  | link (s : State) (k : Link) (hu : k.untracked = s.link.untracked) (hw : k.writeRecords = s.link.writeRecords) :
      Move s { s with link := k }
  | untracked (s : State) (tag : Tag) (oid : OrderId) (n : Nat)
      (hn : n ≤ 255 ∨ n ≤ s.link.untrackedOf tag oid) :
      Move s { s with link := s.link.setUntracked tag oid n }
  | writeRecord (s : State) (tag : Tag) (oid : OrderId) (marks : List Bool) :
      Move s { s with link := s.link.setWriteRecord tag oid marks }

/-- A sequence of moves. -/
abbrev Moves : State → State → Prop := Relation.ReflTransGen Move

theorem Moves.one {s t : State} (h : Move s t) : Moves s t := Relation.ReflTransGen.single h

theorem moves_blocks {s : State} {b : Blocks} (h : BlockMove s.blk b) : Moves s { s with blk := b } :=
  Moves.one (.blocks s b h)

/-- The blocks, then a part of the link path that keeps no per-pair record. -/
theorem moves_blocks_link {s : State} {b : Blocks} {k : Link} (h : BlockMove s.blk b)
    (hu : k.untracked = s.link.untracked) (hw : k.writeRecords = s.link.writeRecords) :
    Moves s { s with blk := b, link := k } :=
  (moves_blocks h).trans (Moves.one (.link { s with blk := b } k hu hw))

theorem moves_link (s : State) {k : Link} (hu : k.untracked = s.link.untracked)
    (hw : k.writeRecords = s.link.writeRecords) : Moves s { s with link := k } :=
  Moves.one (.link s k hu hw)

/-! ## What a cue can do (R159) -/

/-- The effect of one cue that is not refused. -/
inductive CueMove : Blocks → Blocks → Prop where
  | start (b b' : Blocks) (c : Fin 8) (policy : StackPolicy) (h : startChannel c policy b = some b') : CueMove b b'
  | stop (b : Blocks) (c : Fin 8) : CueMove b (stopChannel c b)
  | writeLayout (b : Blocks) (i : Fin 32) (x y opacity glide fade prescale : Nat) :
      CueMove b (writeLayout i (layoutInRange x y opacity glide fade prescale) b)
  | selectLayout (b : Blocks) (c : Fin 8) (i : Fin 32) : CueMove b (selectLayout c i b)
  | pushLayout (b : Blocks) (c : Fin 8) (i : Fin 32) : CueMove b (pushLayout c i b)
  | popLayout (b : Blocks) (c : Fin 8) : CueMove b (popLayout c b)
  | fade (b : Blocks) (c : Fin 8) (target length prescale : Nat) : CueMove b (fadeChannel c target length prescale b)
  | assign (b : Blocks) (c : Fin 8) (port : Option (Fin 4)) (delay : Nat) (loss : LossPolicy) :
      CueMove b (assignPresenter c port delay loss b)
  | setIngest (b : Blocks) (p : Fin 4) (settings : IngestSettings) : CueMove b (setIngest p settings b)
  | setMonitor (b : Blocks) (c : Fin 8) (i : MonId) (f : MonitorFields) : CueMove b (setMonitor c i f b)
  | forceMonitor (b : Blocks) (c : Fin 8) (i : MonId) (force : Force) : CueMove b (forceMonitor c i force b)
  | clearMonitor (b : Blocks) (c : Fin 8) (i : MonId) : CueMove b (clearMonitor c i b)
  | clearFlags (b : Blocks) (c : Fin 8) : CueMove b (clearFlags c b)
  | setReports (b : Blocks) (mask : Word) : CueMove b (setReports mask b)
  | restart (b : Blocks) : CueMove b (takeRestart b)

theorem except_map_ok {ε α β : Type} {x : Except ε α} {g : α → β} {y : β} (h : x.map g = .ok y) :
    ∃ a, x = .ok a ∧ y = g a := by
  cases x with
  | error e => cases h
  | ok a => exact ⟨a, rfl, (Except.ok.inj h).symm⟩

/-- A cue that is not refused has the effect of its owner. -/
theorem cueMove_of_cueEffect {r : CueRecord} {b b' : Blocks} (h : cueEffect r b = .ok b') : CueMove b b' := by
  unfold cueEffect at h
  split at h
  · unfold cueStartChannel at h
    repeat' split at h
    all_goals cases h
    exact .start _ _ _ _ ‹_›
  · obtain ⟨c, -, rfl⟩ := except_map_ok h
    exact .stop _ _
  · obtain ⟨i, -, rfl⟩ := except_map_ok h
    exact .writeLayout _ _ _ _ _ _ _ _
  · unfold cueSelectLayout at h
    split at h <;> cases h
    exact .selectLayout _ _ _
  · unfold cuePushLayout at h
    split at h <;> cases h
    exact .pushLayout _ _ _
  · obtain ⟨c, -, rfl⟩ := except_map_ok h
    exact .popLayout _ _
  · obtain ⟨c, -, rfl⟩ := except_map_ok h
    exact .fade _ _ _ _ _
  · unfold cueAssignPresenter at h
    split at h <;> cases h
    exact .assign _ _ _ _ _
  · obtain ⟨p, -, rfl⟩ := except_map_ok h
    exact .setIngest _ _ _
  · simp only [cueSetMonitor] at h
    repeat' split at h
    all_goals cases h
    exact .setMonitor _ _ _ _
  · unfold cueForceMonitor at h
    split at h <;> cases h
    exact .forceMonitor _ _ _ _
  · unfold cueClearMonitor at h
    split at h <;> cases h
    exact .clearMonitor _ _ _
  · obtain ⟨c, -, rfl⟩ := except_map_ok h
    exact .clearFlags _ _
  · cases h
    exact .setReports _ _
  · cases h
    exact .restart _
  · cases h

/-- A taking is the effect of a cue, or a CUE REFUSED report, and then the status refresh (R156, R160). -/
theorem carryOut_cases (s : Fin 32) (r : CueRecord) (b : Blocks) :
    (∃ b', CueMove b b' ∧ carryOut s r b = b'.requestRefresh) ∨
    (∃ subject words, carryOut s r b = (b.raise .cueRefused subject words).requestRefresh) := by
  cases h : cueEffect r b with
  | ok b' => exact .inl ⟨b', cueMove_of_cueEffect h, by rw [carryOut, h]⟩
  | error why => exact .inr ⟨_, _, by rw [carryOut, h]; rfl⟩

/-- A cue leaves the part state, but for RESTART (R173). -/
theorem CueMove.mode {b b' : Blocks} (h : CueMove b b') : b'.mode = b.mode ∨ b'.mode = .restarting := by
  cases h with
  | start _ c policy h =>
    unfold startChannel at h
    simp only at h
    split at h <;> cases h
    · exact .inl rfl
    · exact .inl (by simp [Blocks.raiseState])
  | stop c =>
    unfold stopChannel
    simp only
    split <;> exact .inl (by simp [Blocks.raiseState])
  | pushLayout c i =>
    unfold Machine.pushLayout
    simp only
    split <;> exact .inl (by simp)
  | popLayout c =>
    unfold Machine.popLayout
    simp only
    split <;> exact .inl (by simp)
  | restart => exact .inr rfl
  | _ => exact .inl rfl

theorem carryOut_inService (s : Fin 32) (r : CueRecord) {b : Blocks} (h : InService b) : InService (carryOut s r b) := by
  unfold InService
  obtain ⟨b', hcue, heq⟩ | ⟨subject, words, heq⟩ := carryOut_cases s r b
  · rw [heq, Blocks.requestRefresh_mode]
    obtain hmode | hmode := hcue.mode
    · rw [hmode]; exact h
    · exact .inr hmode
  · rw [heq, Blocks.requestRefresh_mode, Blocks.raise_mode]
    exact h

theorem chain_inService (n : Nat) (u : CueUnit) {b : Blocks} (h : InService b) : InService (chain n u b).2 := by
  induction n generalizing u b with
  | zero => exact h
  | succ n ih =>
    rw [chain_succ]
    split
    · exact ih _ (carryOut_inService _ _ h)
    · exact h

/-! ## The chain and the end of an event -/

theorem moves_chain (n : Nat) (u : CueUnit) (b : Blocks) (s : State) (hu : s.cue = u) (hb : s.blk = b) :
    Moves s { s with cue := (chain n u b).1, blk := (chain n u b).2 } := by
  induction n generalizing s u b with
  | zero => subst hu hb; exact .refl
  | succ n ih =>
    rw [chain_succ]
    by_cases hc : b.mode = .active ∧ u.posted = true
    · rw [if_pos hc]
      subst hu hb
      have htake : Moves s { s with cue := s.cue.advance, blk := carryOut s.cue.slot (s.cue.record s.cue.slot) s.blk } :=
        (moves_blocks (.cue s.blk s.cue.slot (s.cue.record s.cue.slot) hc.1)).trans
          (Moves.one (.expected _ (nextSlot s.cue.slot s.cue.lap).1 (nextSlot s.cue.slot s.cue.lap).2))
      exact htake.trans (ih _ _ _ rfl rfl)
    · rw [if_neg hc]
      subst hu hb
      exact .refl

theorem moves_settle (n : Nat) (u : CueUnit) (b : Blocks) (s : State) (hu : s.cue = u) (hb : s.blk = b) :
    Moves s { s with cue := (settle n u b).1, blk := (settle n u b).2 } := by
  induction n generalizing s u b with
  | zero => subst hu hb; exact .refl
  | succ n ih =>
    rw [settle]
    by_cases hc : b.mode = .restarting ∧ restartDrained b = true
    · rw [if_pos hc]
      subst hu hb
      have hchain := moves_chain chainFuel s.cue (completeRestart s.blk) { s with blk := completeRestart s.blk } rfl rfl
      exact ((moves_blocks (.restarted s.blk hc.1 hc.2)).trans hchain).trans (ih _ _ _ rfl rfl)
    · rw [if_neg hc]
      subst hu hb
      exact .refl

theorem moves_endEvent (s : State) : Moves s (endEvent s) := by
  rw [endEvent_eq]
  have hsettle := moves_settle chainFuel s.cue s.blk s rfl rfl
  have hattn := Moves.one (.outside { s with cue := (settle chainFuel s.cue s.blk).1, blk := (settle chainFuel s.cue s.blk).2 }
    s.pending (settle chainFuel s.cue s.blk).2.attention)
  exact (hsettle.trans hattn).trans (moves_link _ rfl rfl)

/-! ## Acceptance -/

/-- The blocks and the cue unit after a write's copied cells, its consumer word apart. -/
theorem snoop_taken (cells : List Host.Cell) (s : State) (hm : InService s.blk) :
    ∃ t : CueUnit × Blocks, Moves s { s with cue := t.1, blk := t.2 } ∧ InService t.2 ∧
      snoop cells s = { s with
        cue := t.1
        blk := if touchesConsumer cells then t.2.takeConsumer (consumerWith s.link.consumerWord cells) else t.2
        link := { s.link with consumerWord := consumerWith s.link.consumerWord cells } } := by
  have hshadow : Moves s { s with cue := { s.cue with shadow := Memory.setAll 0 s.cue.shadow (shadowCells cells) } } :=
    Moves.one (.shadow s (shadowCells cells) fun c hc => by simpa using (List.mem_filter.1 hc).2)
  refine ⟨_, ?_, ?_, rfl⟩
  · split
    · exact hshadow.trans (moves_chain chainFuel _ s.blk
        { s with cue := { s.cue with shadow := Memory.setAll 0 s.cue.shadow (shadowCells cells) } } rfl rfl)
    · exact hshadow
  · split
    · exact chain_inService _ _ hm
    · exact hm

theorem moves_snoop (cells : List Host.Cell) (s : State) (hm : InService s.blk) : Moves s (snoop cells s) := by
  obtain ⟨t, htaken, ht, heq⟩ := snoop_taken cells s hm
  rw [heq]
  refine htaken.trans ?_
  split
  · exact moves_blocks_link (.consumer _ _ ht) rfl rfl
  · exact moves_link _ rfl rfl

/-- A read is counted when its pair's count is below the greatest (R142). -/
theorem moves_countRead {s : State} {r : UpRequest} (h : s.link.untrackedOf r.tag r.oid < Config.untrackedMax) :
    Moves s { s with link := (s.link.countRead r.tag r.oid).place r } :=
  (Moves.one (.untracked s r.tag r.oid (s.link.untrackedOf r.tag r.oid + 1) (.inl h))).trans (moves_link _ rfl rfl)

/-- A write joins its pair's record and stands in the pass slot (R141, R144). -/
theorem moves_recordWrite (s : State) (r r' : UpRequest) (null : Bool) :
    Moves s { s with link := (s.link.recordWrite r.tag r.oid null).place r' } :=
  (Moves.one (.writeRecord s r.tag r.oid (s.link.writeRecord r.tag r.oid ++ [null]))).trans (moves_link _ rfl rfl)

theorem moves_acceptWrite (s : State) (r : UpRequest) (hm : InService s.blk) : Moves s (acceptWrite s r) := by
  unfold acceptWrite
  split
  · exact (moves_blocks (.guard s.blk _ hm)).trans (moves_recordWrite _ r _ true)
  · exact (moves_snoop _ s hm).trans (moves_recordWrite _ r r false)

/-- What the acceptance of a read in ACTIVE or RESTARTING rests on (R26, R140). -/
theorem acceptable_read {s : State} {r : UpRequest} (hm : InService s.blk) (hk : r.kind = .read)
    (h : acceptable s r = true) :
    (s.blk.entryFor r.tag = none ∧ s.link.untrackedOf r.tag r.oid < Config.untrackedMax) ∨
    ∃ c n, s.blk.entryFor r.tag = some (c, some n) ∧
      s.blk.fetchQueue.length + s.blk.readsNeeded c r.addr r.beats ≤ Config.fetchQueueSize := by
  have hcond : (match s.blk.entryFor r.tag with
      | none => decide (s.link.untrackedOf r.tag r.oid < Config.untrackedMax)
      | some (c, n) => n.isSome &&
          decide (s.blk.fetchQueue.length + s.blk.readsNeeded c r.addr r.beats ≤ Config.fetchQueueSize)) = true := by
    simp only [acceptable, hk, Bool.and_eq_true] at h
    obtain hm | hm := hm <;> rw [hm] at h <;> exact h.2
  split at hcond
  · exact .inl ⟨‹_›, of_decide_eq_true hcond⟩
  · rename_i c n hentry
    rw [Bool.and_eq_true, Option.isSome_iff_exists] at hcond
    obtain ⟨⟨n, rfl⟩, hroom⟩ := hcond
    exact .inr ⟨c, n, hentry, of_decide_eq_true hroom⟩

theorem moves_acceptRead {s : State} {r : UpRequest} (hm : InService s.blk) (hk : r.kind = .read)
    (h : acceptable s r = true) : Moves s (acceptRead s r) := by
  unfold acceptRead
  obtain ⟨hnone, hcount⟩ | ⟨c, n, hentry, hroom⟩ := acceptable_read hm hk h
  · rw [hnone]
    exact moves_countRead hcount
  · rw [hentry]
    exact moves_blocks_link (.read s.blk c n r hm hentry hroom) rfl rfl

/-- A request whose conditions hold is accepted by moves of the part. -/
theorem moves_accept {s : State} {r : UpRequest} (h : acceptable s r = true) : Moves s (accept s r) := by
  unfold accept
  split
  case h_1 => exact moves_link _ rfl rfl
  case h_2 hm hk =>
    simp only [acceptable, hm, hk, Bool.and_eq_true, decide_eq_true_eq] at h
    exact moves_countRead h.2
  case h_3 => exact moves_recordWrite s r r false
  case h_4 hm hk => exact moves_acceptRead (.inl hm) hk h
  case h_5 hm hk => exact moves_acceptRead (.inr hm) hk h
  case h_6 hm hk => exact moves_acceptWrite s r (.inl hm)
  case h_7 hm hk => exact moves_acceptWrite s r (.inr hm)

theorem moves_acceptHead (s : State) : Moves s (acceptHead s) := by
  unfold acceptHead
  split
  · exact .refl
  · rename_i r rest hu
    split
    · rename_i ha
      have ha' : acceptable { s with link := { s.link with upstream := rest } } r = true := by
        rw [← ha]; exact acceptable_congr r rfl rfl rfl
      have htaken : Moves s { s with link := { s.link with upstream := rest } } := moves_link s rfl rfl
      exact (htaken.trans (moves_accept ha')).trans (moves_endEvent _)
    · exact .refl

/-- Moves, and then the end of the event. -/
theorem Moves.finish {s s' : State} (h : Moves s s') : Moves s (finish s') :=
  (h.trans (moves_endEvent s')).trans (moves_acceptHead _)

/-! ## Grants -/

theorem moves_grantPass (s : State) (r : UpRequest) (waits : Bool) : Moves s (grantPass s r waits) :=
  moves_link s rfl rfl

/-- Own requests wait in ACTIVE and RESTARTING alone, a report while the ring has room (R146, R164). -/
theorem ownHead_some {s : State} {o : OwnHead} (h : ownHead s = some o) :
    InService s.blk ∧ (o = .report → s.blk.reportWaits = true) := by
  unfold ownHead at h
  split at h
  · rename_i hm
    refine ⟨hm, fun ho => ?_⟩
    subst ho
    cases hqueue : s.blk.fetchQueue with
    | cons f rest => simp [hqueue] at h
    | nil =>
      by_cases hwaits : s.blk.reportWaits = true
      · exact hwaits
      · by_cases hstatus : s.blk.rep.status = .waiting <;> simp [hqueue, hwaits, hstatus] at h
  · cases h

theorem moves_grantOwn {s : State} {o : OwnHead} (h : ownHead s = some o) : Moves s (grantOwn s o) := by
  obtain ⟨hm, hreport⟩ := ownHead_some h
  unfold grantOwn
  cases o with
  | fetch f => exact moves_blocks_link (.fetchSent s.blk) rfl rfl
  | report =>
    simp only
    split
    · rename_i request b hg
      exact moves_blocks_link (.reportSent s.blk b request hm (hreport rfl) hg) rfl rfl
    · exact .refl
  | status => exact moves_blocks_link (.statusSent s.blk hm) rfl rfl
  | piece p =>
    simp only
    split
    · exact moves_blocks_link (.pieceSent s.blk p) rfl rfl
    · exact .refl

theorem moves_grantDown (s : State) : Moves s (grantDown s) := by
  unfold grantDown
  split
  · exact .refl
  · exact moves_grantPass _ _ _
  · exact moves_grantOwn ‹_›
  · split
    · exact moves_grantPass _ _ _
    · exact moves_grantOwn ‹_›

/-! ## Responses -/

theorem moves_takeEngineWrite (s : State) (tag : Tag) (oid : OrderId) (status : Status) :
    Moves s (takeEngineWrite s tag oid status) := by
  unfold takeEngineWrite
  split
  · exact moves_link s rfl rfl
  · split
    · exact moves_link s rfl rfl
    · exact (Moves.one (.writeRecord s tag oid _)).trans (moves_link _ rfl rfl)

theorem moves_of_map_blocks {s t : State} {x : Except Fault Blocks} (h : x.map (fun b => { s with blk := b }) = .ok t)
    (hmove : ∀ b, x = .ok b → BlockMove s.blk b) : Moves s t := by
  obtain ⟨b, hx, rfl⟩ := except_map_ok h
  exact moves_blocks (hmove b hx)

theorem moves_takeEngineRead {s t : State} {tag : Tag} {oid : OrderId} {data : List Byte} {status : Status}
    (h : takeEngineRead s tag oid data status = .ok t) : Moves s t := by
  simp only [takeEngineRead] at h
  split at h
  · cases h
    exact (Moves.one (.untracked s tag oid _ (.inr (Nat.sub_le _ 1)))).trans (moves_link _ rfl rfl)
  · split at h
    · cases h
      exact moves_link s rfl rfl
    · exact moves_of_map_blocks h fun b hb => .programme _ _ _ _ _ _ hb

theorem moves_takeResponse {s t : State} {r : DownResponse} (h : takeResponse s r = .ok t) : Moves s t := by
  unfold takeResponse at h
  split at h
  · cases h
    exact moves_takeEngineWrite s _ _ _
  · exact moves_takeEngineRead h
  · exact moves_of_map_blocks h fun b hb => .fetch _ _ _ _ _ hb
  · exact moves_of_map_blocks h fun b hb => .lineWrite _ _ _ _ hb
  · exact moves_of_map_blocks h fun b hb => .reportWrite _ _ _ hb
  · exact moves_of_map_blocks h fun b hb => .statusWrite _ _ hb

theorem moves_arrive {s t : State} {r : DownResponse} (h : arrive s r = .ok t) : Moves s t := by
  unfold arrive at h
  split at h
  · cases h
    exact Moves.finish (moves_link s rfl rfl)
  · obtain ⟨s', hs', rfl⟩ := except_map_ok h
    exact (moves_takeResponse hs').finish

theorem moves_releaseHeld {held : List DownResponse} {s t : State} (h : releaseHeld held s = .ok t) : Moves s t := by
  induction held generalizing s with
  | nil => cases h; exact .refl
  | cons r rest ih =>
    rw [releaseHeld] at h
    split at h
    · cases h
      exact moves_link s rfl rfl
    · split at h
      · cases h
      · rename_i s' hs'
        exact (moves_takeResponse hs').finish.trans (ih h)

theorem moves_sendPass {s t : State} {r : UpResponse} (h : sendPass s r = .ok t) : Moves s t := by
  have hsent : Moves s { s with link := { s.link.send r .pass with passResponse := none, held := [] } } :=
    moves_link s rfl rfl
  exact hsent.finish.trans (moves_releaseHeld h)

theorem moves_sendEntry {s : State} {e : Entry} (h : s.blk.readyEntry = some e) : Moves s (sendEntry s e) :=
  Moves.finish (moves_blocks_link (.deliver s.blk e h) rfl rfl)

theorem moves_grantUp {s t : State} (h : grantUp s = .ok t) : Moves s t := by
  unfold grantUp at h
  split at h
  · cases h; exact Moves.finish .refl
  · exact moves_sendPass h
  · cases h; exact moves_sendEntry ‹_›
  · split at h
    · cases h; exact moves_sendEntry ‹_›
    · exact moves_sendPass h

/-! ## Every command -/

theorem ended_next {s t : State} (h : ended s = .next t) : t = finish s := (Host.Outcome.next.inj h).symm

theorem answerOf_next {x : Except Fault State} {t : State} (h : answerOf x = .next t) : x = .ok t := by
  cases x with
  | ok s => cases h; rfl
  | error f => cases h

theorem wellFormed_next {i : Instr} {a : Answer} {t : State} (h : wellFormed i a = .next t) : a = .next t := by
  unfold wellFormed at h
  split at h
  · exact h
  · cases h

theorem moves_ended {s s' t : State} (h : ended s' = .next t) (hs : Moves s s') : Moves s t := by
  rw [ended_next h]
  exact hs.finish

theorem moves_present (s : State) (r : UpRequest) : Moves s (present s r) :=
  Moves.finish (moves_link s rfl rfl)

theorem moves_loadImage (s : State) (image : List Word) : Moves s (loadImage s image) := by
  unfold loadImage
  split
  · split
    · exact moves_blocks (.boot s.blk image ‹_› ‹_›)
    · exact Moves.one (.bypass s ‹_›)
  · exact .refl

/-- A posted cue is stored in a slot of the shadow, and the chain goes on (R154 to R158). -/
theorem moves_postCue (r : CueRecord) (s : State) :
    Moves s { s with cue := (postCue r s.cue s.blk).1, blk := (postCue r s.cue s.blk).2 } := by
  have hstore : ∀ slot lap, Moves s { s with cue := s.cue.store slot lap r } := fun slot lap => by
    refine Moves.one (.shadow s _ fun c hc => ?_)
    have hrange := mem_cellsFrom hc
    rw [slotBytes_length] at hrange
    omega
  unfold postCue
  split
  · exact (hstore _ _).trans (moves_chain chainFuel _ s.blk { s with cue := s.cue.store s.cue.slot s.cue.lap r } rfl rfl)
  · split
    · exact hstore _ _
    · exact .refl
  · exact .refl
  · exact .refl

theorem moves_posted {r : CueRecord} {s t : State} (h : posted r s = .next t) : Moves s t :=
  moves_ended h (moves_postCue r s)

theorem moves_onUnit {s t : State} {g : Blocks → Blocks} (h : onUnit s g = .next t)
    (hg : s.blk.mode = .active → BlockMove s.blk (g s.blk)) : Moves s t := by
  refine moves_ended h ?_
  split
  · exact moves_blocks (hg ‹_›)
  · exact .refl

theorem moves_arrived {s t : State} {r : DownResponse} (h : answerOf (arrive s r) = .next t) : Moves s t :=
  moves_arrive (answerOf_next h)

/-- A command that completes moves the part. -/
theorem moves_exec {c : Instr} {s t : State} (h : exec c s = .next t) : Moves s t := by
  cases c with
  | powerOn => cases h; exact Moves.one (.reset s _)
  | resetPulse => cases h; exact Moves.one (.reset s _)
  | bootImageLoad image => exact moves_ended (wellFormed_next h) (moves_loadImage s image)
  | acceptRead tag oid addr beats => cases wellFormed_next h; exact moves_present s _
  | engineWrite tag oid addr beats data enables => cases wellFormed_next h; exact moves_present s _
  | reportConsumerWord word enables =>
    refine moves_ended h ?_
    split
    · exact moves_snoop _ s ‹_›
    · exact .refl
  | downstreamGrant => exact moves_ended h (moves_grantDown s)
  | passResponseArrival kind tag oid data status => exact moves_arrived (wellFormed_next h)
  | programmeResponse tag oid data status => exact moves_arrived (wellFormed_next h)
  | fetchResponse entry data status => exact moves_arrived (wellFormed_next h)
  | joinLimitExpiry entry => exact moves_ended h (moves_blocks (.joinLimit s.blk entry))
  | upstreamResponseGrant => exact moves_grantUp (answerOf_next h)
  | lineWriteResponse port status => exact moves_arrived (r := .lineWrite port status) h
  | reportWriteResponse status => exact moves_arrived (r := .reportWrite status) h
  | statusWriteResponse status => exact moves_arrived (r := .statusWrite status) h
  | frameOpen port width height => 
    exact moves_onUnit (g := fun b => b.takeFrameOpen port width.toNat height.toNat) h (.frameOpen s.blk port _ _)
  | line port index samples => 
    exact moves_onUnit (g := fun b => b.takeLine port index.toNat samples) h (.line s.blk port _ _)
  | frameClose port => exact moves_onUnit (g := fun b => b.takeFrameClose port) h (.frameClose s.blk port)
  | damagedUnit port unit => exact moves_ended h .refl
  | lossLimitExpiry port => exact moves_ended h (moves_blocks (.lossLimit s.blk port))
  | refreshPeriodExpiry => exact moves_ended h (moves_blocks (.refreshPeriod s.blk))
  | restartCompletion => exact moves_ended h .refl
  | _ => exact moves_posted h

/-- Every step that completes is a sequence of moves. -/
theorem moves_step {s t : State} (h : step s = .next t) : Moves s t := by
  unfold step at h
  split at h
  · cases h
    exact (moves_blocks (.tick s.blk)).trans (Moves.one (.outside _ _ s.attn))
  · rename_i c rest _
    exact (Moves.one (.outside s rest s.attn)).trans (moves_exec h)

/-- An invariant of every move is an invariant of every step. -/
theorem step_keeps (P : State → Prop) (hmove : ∀ {s t : State}, P s → Move s t → P t) {s t : State} (hs : P s)
    (h : step s = .next t) : P t := by
  replace h := moves_step h
  induction h with
  | refl => exact hs
  | tail _ hlast ih => exact hmove ih hlast

/-- An invariant of the blocks that the resets, the entry to BYPASS and every move of the blocks keep, is kept by every
step. -/
theorem step_keeps_blocks (P : Blocks → Prop) (hreset : ∀ cause, P (Blocks.resetWith cause))
    (hbypass : ∀ b : Blocks, b.mode = .loading → P b → P { b with mode := .bypass })
    (hmove : ∀ {b b' : Blocks}, P b → BlockMove b b' → P b') {s t : State} (hs : P s.blk) (h : step s = .next t) :
    P t.blk :=
  step_keeps (fun s => P s.blk) (fun hs hm => by
    cases hm with
    | reset cause => exact hreset cause
    | bypass hm => exact hbypass _ hm hs
    | blocks b h => exact hmove hs h
    | _ => exact hs) hs h

end Sys2Proof.StepMoves
end

section
/-! Every command that completes ends with the end of its event, or is a reset, or takes responses that waited, each an event
of its own (O54). -/

namespace Sys2Proof.RestedProofs

open Sys2Proof.Machine Sys2Proof.StepMoves

theorem rested_resetWith (cause : ResetCause) (pending : List Instr) : Rested (State.resetWith cause pending) := by
  refine ⟨?_, fun _ => rfl, ?_, ?_⟩
  · cases cause <;> rfl
  · rintro ⟨hmode, -⟩
    cases hmode
  · intro r rest h
    cases h

/-- What waits downstream has no part in an event's end. -/
theorem rested_held {s : State} (h : Rested s) (held : List DownResponse) :
    Rested { s with link := { s.link with held := held } } := by
  obtain ⟨hattn, hstarved, hrestart, hhead⟩ := h
  refine ⟨hattn, fun ho => hstarved ((ownHead_congr rfl rfl).trans ho), hrestart, fun r rest hr => ?_⟩
  rw [← hhead r rest hr]
  exact acceptable_congr r rfl rfl rfl

theorem rested_releaseHeld {held : List DownResponse} {s t : State} (hs : Rested s)
    (h : releaseHeld held s = .ok t) : Rested t := by
  induction held generalizing s with
  | nil => cases h; exact hs
  | cons r rest ih =>
    rw [releaseHeld] at h
    split at h
    · cases h
      exact rested_held hs _
    · split at h
      · cases h
      · exact ih (finish_rested _) h

theorem rested_grantUp {s t : State} (h : grantUp s = .ok t) : Rested t := by
  unfold grantUp at h
  split at h
  · cases h; exact finish_rested s
  · exact rested_releaseHeld (finish_rested _) h
  · cases h; exact finish_rested _
  · split at h
    · cases h; exact finish_rested _
    · exact rested_releaseHeld (finish_rested _) h

theorem rested_arrived {s t : State} {r : DownResponse} (h : answerOf (arrive s r) = .next t) : Rested t := by
  replace h := answerOf_next h
  unfold arrive at h
  split at h
  · cases h
    exact finish_rested _
  · obtain ⟨s', -, rfl⟩ := except_map_ok h
    exact finish_rested s'

theorem rested_ended {s t : State} (h : ended s = .next t) : Rested t := by
  rw [ended_next h]
  exact finish_rested s

theorem rested_posted {r : CueRecord} {s t : State} (h : posted r s = .next t) : Rested t := rested_ended h

theorem rested_exec {c : Instr} {s t : State} (h : exec c s = .next t) : Rested t := by
  cases c with
  | powerOn => cases h; exact rested_resetWith _ _
  | resetPulse => cases h; exact rested_resetWith _ _
  | bootImageLoad image => exact rested_ended (wellFormed_next h)
  | acceptRead tag oid addr beats => cases wellFormed_next h; exact finish_rested _
  | engineWrite tag oid addr beats data enables => cases wellFormed_next h; exact finish_rested _
  | passResponseArrival kind tag oid data status => exact rested_arrived (wellFormed_next h)
  | programmeResponse tag oid data status => exact rested_arrived (wellFormed_next h)
  | fetchResponse entry data status => exact rested_arrived (wellFormed_next h)
  | upstreamResponseGrant => exact rested_grantUp (answerOf_next h)
  | lineWriteResponse port status => exact rested_arrived (r := .lineWrite port status) h
  | reportWriteResponse status => exact rested_arrived (r := .reportWrite status) h
  | statusWriteResponse status => exact rested_arrived (r := .statusWrite status) h
  | reportConsumerWord | downstreamGrant | joinLimitExpiry | frameOpen | line | frameClose | damagedUnit
  | lossLimitExpiry | refreshPeriodExpiry | restartCompletion => exact rested_ended h
  | _ => exact rested_posted h

/-- Settles O54: what each command answers with is the end of its event. -/
theorem everyCommandLeavesThePartRested : Obligations.EveryCommandLeavesThePartRested := by
  unfold Obligations.EveryCommandLeavesThePartRested
  intro s t hpending h
  unfold step at h
  split at h
  · exact absurd ‹_› hpending
  · exact rested_exec h

end Sys2Proof.RestedProofs
end

section
/-! The sparse memories (O55): every move keeps their canonical form and the range of their keys and counts. -/

namespace Sys2Proof.SparseProofs

open Sys2Proof.Machine Sys2Proof.StepMoves

theorem mem_remove {α : Type} {m : List (Nat × α)} {a : Nat} {c : Nat × α} (h : c ∈ Memory.remove m a) : c ∈ m := by
  induction m with
  | nil => cases h
  | cons x rest ih =>
    obtain ⟨k, v⟩ := x
    by_cases hk : k = a
    · rw [Memory.remove, if_pos hk] at h
      exact List.mem_cons_of_mem _ (ih h)
    · rw [Memory.remove, if_neg hk, List.mem_cons] at h
      exact List.mem_cons.2 (h.imp_right ih)

theorem mem_insert {α : Type} {m : List (Nat × α)} {a : Nat} {v : α} {c : Nat × α} (h : c ∈ Memory.insert m a v) :
    c = (a, v) ∨ c ∈ m := by
  induction m with
  | nil => exact .inl (List.mem_singleton.1 h)
  | cons x rest ih =>
    obtain ⟨k, w⟩ := x
    by_cases hlt : a < k
    · rw [Memory.insert, if_pos hlt, List.mem_cons] at h
      exact h
    · rw [Memory.insert, if_neg hlt, List.mem_cons] at h
      rcases h with h | h
      · exact .inr (List.mem_cons.2 (.inl h))
      · exact (ih h).imp_right (List.mem_cons_of_mem _)

/-- A cell of a written memory is the cell written or one that stood there. -/
theorem mem_set {α : Type} [DecidableEq α] {d : α} {m : List (Nat × α)} {a : Nat} {v : α} {c : Nat × α}
    (h : c ∈ Memory.set d m a v) : c = (a, v) ∨ c ∈ m := by
  unfold Memory.set at h
  split at h
  · exact .inr (mem_remove h)
  · exact (mem_insert h).imp_right mem_remove

theorem mem_setAll {α : Type} [DecidableEq α] {d : α} {cells m : List (Nat × α)} {c : Nat × α}
    (h : c ∈ Memory.setAll d m cells) : c ∈ cells ∨ c ∈ m := by
  unfold Memory.setAll at h
  induction cells generalizing m with
  | nil => exact .inr h
  | cons x rest ih =>
    rcases ih h with h | h
    · exact .inl (List.mem_cons_of_mem _ h)
    · rcases mem_set h with h | h
      · exact .inl (List.mem_cons.2 (.inl h))
      · exact .inr h

theorem pairKey_lt (tag : Tag) (oid : OrderId) : pairKey tag oid < 1024 := by
  have htag := tag.isLt
  have hoid := oid.isLt
  unfold pairKey
  omega

/-- What an unlisted or a listed pair reads as keeps to the range of the cells. -/
theorem get_le {m : List (Nat × Nat)} {n : Nat} (h : ∀ c ∈ m, c.2 ≤ n) (a : Nat) : Memory.get 0 m a ≤ n := by
  induction m with
  | nil => exact Nat.zero_le n
  | cons x rest ih =>
    obtain ⟨k, v⟩ := x
    rw [Memory.get]
    split
    · exact h (k, v) (List.mem_cons_self ..)
    · exact ih fun c hc => h c (List.mem_cons_of_mem _ hc)

theorem sparseForms_resetWith (cause : ResetCause) (pending : List Instr) :
    SparseForms (State.resetWith cause pending) := by
  refine ⟨rfl, ?_, rfl, ?_, rfl, ?_⟩ <;> intro c hc <;> cases hc

theorem sparseForms_shadow {s : State} (h : SparseForms s) {cells : List Host.Cell} (hc : ∀ c ∈ cells, c.1 < 2048) :
    SparseForms { s with cue := { s.cue with shadow := Memory.setAll 0 s.cue.shadow cells } } := by
  obtain ⟨hshadow, hbytes, hrest⟩ := h
  refine ⟨Memory.wf_setAll _ _ _ hshadow, fun c hmem => ?_, hrest⟩
  rcases mem_setAll hmem with hmem | hmem
  · exact hc c hmem
  · exact hbytes c hmem

theorem sparseForms_untracked {s : State} (h : SparseForms s) (tag : Tag) (oid : OrderId) {n : Nat}
    (hn : n ≤ 255 ∨ n ≤ s.link.untrackedOf tag oid) :
    SparseForms { s with link := s.link.setUntracked tag oid n } := by
  obtain ⟨hshadow, hbytes, huntracked, hcounts, hrest⟩ := h
  refine ⟨hshadow, hbytes, Memory.wf_set _ _ _ _ huntracked, fun c hmem => ?_, hrest⟩
  rcases mem_set hmem with rfl | hmem
  · exact ⟨pairKey_lt tag oid, hn.elim id fun hn => hn.trans (get_le (fun c hc => (hcounts c hc).2) _)⟩
  · exact hcounts c hmem

theorem sparseForms_writeRecord {s : State} (h : SparseForms s) (tag : Tag) (oid : OrderId) (marks : List Bool) :
    SparseForms { s with link := s.link.setWriteRecord tag oid marks } := by
  obtain ⟨hshadow, hbytes, huntracked, hcounts, hwrites, hkeys⟩ := h
  refine ⟨hshadow, hbytes, huntracked, hcounts, Memory.wf_set _ _ _ _ hwrites, fun c hmem => ?_⟩
  rcases mem_set hmem with rfl | hmem
  · exact pairKey_lt tag oid
  · exact hkeys c hmem

theorem sparseForms_move {s t : State} (hs : SparseForms s) (h : Move s t) : SparseForms t := by
  cases h with
  | reset cause => exact sparseForms_resetWith cause s.pending
  | bypass hm =>
    obtain ⟨hshadow, hbytes, -⟩ := hs
    exact ⟨hshadow, hbytes, rfl, fun c hc => (nomatch hc), rfl, fun c hc => (nomatch hc)⟩
  | shadow cells hc => exact sparseForms_shadow hs hc
  | link k hu hw => unfold SparseForms; simp only [hu, hw]; exact hs
  | untracked tag oid n hn => exact sparseForms_untracked hs tag oid hn
  | writeRecord tag oid marks => exact sparseForms_writeRecord hs tag oid marks
  | blocks | outside | expected => exact hs

/-- Settles O55: every move keeps the three memories' form and range. -/
theorem sparseMemoriesKeepTheirForm : Obligations.SparseMemoriesKeepTheirForm := by
  unfold Obligations.SparseMemoriesKeepTheirForm
  exact fun s t hs h => step_keeps SparseForms sparseForms_move hs h

end Sys2Proof.SparseProofs
end

section
/-! The edits of the blocks: the writes of single parts that the moves are made of, each with what every writer of that part
keeps. An invariant over the tables, the layouts, the ring or the holds is shown of each edit. -/

namespace Sys2Proof.Edits

open Sys2Proof.Machine Sys2Proof.StepMoves

/-- Every entry of a layout table is within range (R101). -/
def TableInRange (table : Vector LayoutEntry 32) : Prop := ∀ i : Fin 32, (table[i]).inRange

/-- What every writer of a channel's layout records keeps: the room of the stack, and the ranges of the glide and the fade
while the table is in range (R103, R112, R113). -/
structure LayKept (table : Vector LayoutEntry 32) (before after : LayoutState) : Prop where
  stack : after.stack.length ≤ max 6 before.stack.length
  range : TableInRange table → before.glide.inRange → before.fade.inRange →
    after.glide.inRange ∧ after.fade.inRange

/-- Writers of the report unit, the ring's indexes apart, keep the room of its queue (R163). -/
structure RepKept (before after : ReportUnit) : Prop where
  prod : after.prod = before.prod
  prodLap : after.prodLap = before.prodLap
  cons : after.cons = before.cons
  consLap : after.consLap = before.consLap
  queue : after.queue.length ≤ max 8 before.queue.length

/-- One edit of the blocks. -/
inductive Edit : Blocks → Blocks → Prop where
  | time (b : Blocks) (now : Word) : Edit b { b with timeBase := now }
  | chan (b : Blocks) (c : Fin 8) (x : Channel) (hlay : LayKept b.layouts (b.chan c).lay x.lay)
      (hgeom : x.geom = (b.chan c).geom)
      (hstate : x.state = (b.chan c).state ∨ b.mode = .active ∧
        (x.state = .running ∨ x.state = .stopping ∨ (b.chan c).state = .off ∨ (b.chan c).state = .armed)) :
      Edit b (b.setChan c x)
  | latch (b : Blocks) (c : Fin 8) (x : Channel) (hlay : x.lay = (b.chan c).lay)
      (hgeom : x.state = .off ∨ x.state = .armed → x.geom = none)
      (hstate : x.state = .off ∨ b.mode = .active) :
      Edit b ((b.moveHold (b.latchedRef c) (x.geom.bind Geometry.slot)).setChan c x)
  | port (b : Blocks) (p : Fin 4) (u : Port) (hq : u.queue.length ≤ max 4 (b.port p).queue.length) :
      Edit b (b.setPort p u)
  | slot (b : Blocks) (p : Fin 4) (i : Fin 16) (x : Slot) (hhold : x.hold = (b.slot p i).hold) :
      Edit b (b.setSlot p i x)
  | latest (b : Blocks) (p : Fin 4) (n : Nat) : Edit b (b.setPortSlots p { b.portSlots p with latest := n })
  | rep (b : Blocks) (r : ReportUnit) (hr : RepKept b.rep r) : Edit b { b with rep := r }
  | entry (b : Blocks) (e e' : Entry) (he : e ∈ b.rtt) (hnum : e'.num = e.num) (hkind : e'.kind = e.kind) :
      Edit b (b.setEntry e')
  | freed (b : Blocks) (e : Entry) (he : e ∈ b.rtt) : Edit b (b.freeEntryOf e)
  | fetchSent (b : Blocks) : Edit b { b with fetchQueue := b.fetchQueue.drop 1 }
  | table (b : Blocks) (i : Fin 32) (e : LayoutEntry) (he : e.inRange) : Edit b (writeLayout i e b)
  | restarting (b : Blocks) (hoff : ∀ c, (b.chan c).state = .off) (hm : b.mode = .active) (time : Word) :
      Edit b { b with mode := .restarting, restartTime := time }
  | boot (b : Blocks) (image : List Word) (hm : b.mode = .loading) (hg : imageGood image = true) :
      Edit b (enterActive image b)
  | allocated (b : Blocks) (n : Tag) (c : Fin 8) (r : UpRequest) (hm : InService b) (hfree : b.freeEntry = some n)
      (hroom : b.fetchQueue.length + (b.classify c r.addr.toNat r.beats).1.reads ≤ Config.fetchQueueSize) :
      Edit b (b.allocate n c r.tag r.oid r.addr r.beats)
  | consumer (b : Blocks) (word : Word) (hm : InService b) : Edit b (b.takeConsumer word)
  | reportSent (b b' : Blocks) (request : DownRequest) (hm : InService b) (hw : b.reportWaits = true)
      (h : b.grantReport = some (request, b')) : Edit b b'
  | restarted (b : Blocks) (hm : b.mode = .restarting) (hd : restartDrained b = true) : Edit b (completeRestart b)

/-- A sequence of edits. -/
abbrev Edited : Blocks → Blocks → Prop := Relation.ReflTransGen Edit

theorem Edited.one {b b' : Blocks} (h : Edit b b') : Edited b b' := Relation.ReflTransGen.single h

/-- A further edit. -/
theorem Edited.and {b b' b'' : Blocks} (h : Edited b b') (h' : Edit b' b'') : Edited b b'' :=
  Relation.ReflTransGen.tail h h'

/-! ## Reports -/

theorem RepKept.refl (r : ReportUnit) : RepKept r r := ⟨rfl, rfl, rfl, rfl, le_max_right _ _⟩

theorem repKept_raise (b : Blocks) (k : ReportKind) (u : Subject) (w : List Word) : RepKept b.rep (b.raise k u w).rep := by
  unfold Blocks.raise
  split
  · split
    · exact ⟨rfl, rfl, rfl, rfl, le_max_right _ _⟩
    · rename_i hfull
      refine ⟨rfl, rfl, rfl, rfl, le_max_of_le_left ?_⟩
      unfold Blocks.reportsFull Config.reportQueueSize at hfull
      simp only [Bool.or_eq_true, decide_eq_true_eq, not_or] at hfull
      simp only [List.length_append, List.length_singleton]
      omega
  · exact .refl _

theorem edited_raise (b : Blocks) (k : ReportKind) (u : Subject) (w : List Word) : Edited b (b.raise k u w) := by
  rw [Blocks.raise_eq_rep]
  exact Edited.one (.rep b _ (repKept_raise b k u w))

theorem edited_raiseChan (b : Blocks) (k : ReportKind) (c : Fin 8) (w : List Word) : Edited b (b.raiseChan k c w) :=
  edited_raise b _ _ _

theorem edited_requestRefresh (b : Blocks) : Edited b b.requestRefresh := by
  rw [Blocks.requestRefresh_eq]
  exact Edited.one (.rep b _ ⟨rfl, rfl, rfl, rfl, le_max_right _ _⟩)

/-! ## Channels -/

theorem LayKept.refl (table : Vector LayoutEntry 32) (l : LayoutState) : LayKept table l l :=
  ⟨le_max_right _ _, fun _ hg hf => ⟨hg, hf⟩⟩

/-- An update of a channel's own fields: geometry, state and layout records stay. -/
theorem edited_chan (b : Blocks) (c : Fin 8) (x : Channel) (hlay : x.lay = (b.chan c).lay)
    (hgeom : x.geom = (b.chan c).geom) (hstate : x.state = (b.chan c).state) : Edited b (b.setChan c x) :=
  Edited.one (.chan b c x (hlay ▸ .refl _ _) hgeom (.inl hstate))

/-- An update of a channel's layout records. -/
theorem edited_lay (b : Blocks) (c : Fin 8) (lay : LayoutState) (h : LayKept b.layouts (b.chan c).lay lay) :
    Edited b (b.setChan c { b.chan c with lay := lay }) :=
  Edited.one (.chan b c _ h rfl (.inl rfl))

theorem edited_channelOff (b : Blocks) (c : Fin 8) (cause : StateCause) : Edited b (b.channelOff c cause) := by
  have hoff : b.channelOff c cause =
      ((b.moveHold (b.latchedRef c) none).setChan c
        { b.chan c with state := .off, geom := none, buffer := none, deepest := 0 }).raiseState c cause := by
    unfold Blocks.channelOff
    cases h : b.latchedRef c <;> rfl
  rw [hoff]
  exact (Edited.one (.latch b c { b.chan c with state := .off, geom := none, buffer := none, deepest := 0 } rfl
    (fun _ => rfl) (.inl rfl))).trans (edited_raiseChan _ _ _ _)

/-! ## Layout records -/

theorem along_le {start target k n m : Nat} (hs : start ≤ m) (ht : target ≤ m) (hk : k ≤ n) :
    along start target k n ≤ m := by
  rcases Nat.eq_zero_or_pos n with rfl | hn
  · rw [along_zero]; exact ht
  · rcases Nat.le_total start target with h | h
    · rw [along_up _ _ _ _ (by omega) h]
      have hround : (2 * ((target - start) * k) + n) / (2 * n) ≤ target - start := by
        refine Nat.le_of_lt_succ (Nat.div_lt_of_lt_mul ?_)
        have := Nat.mul_le_mul_left (target - start) hk
        nlinarith
      omega
    · rw [along_down _ _ _ _ (by omega) h]
      exact (Nat.sub_le _ _).trans hs

theorem glideBegin_inRange {g : Glide} {e : LayoutEntry} (hg : g.inRange) (he : e.inRange) :
    (glideBegin g e).inRange := by
  unfold glideBegin
  split
  · exact hg
  · obtain ⟨-, -, -, -, -, -, -, hx, hxe, hy⟩ := hg
    obtain ⟨hex, hexe, hey, -, heg, -⟩ := he
    exact ⟨hx, hy, hex, hexe, hey, heg, Nat.zero_le _, hx, hxe, hy⟩

theorem glideStep_inRange {g : Glide} (hg : g.inRange) : (glideStep g).inRange := by
  obtain ⟨hsx, hsy, htx, htxe, hty, hlen, hstep, -, -, -⟩ := hg
  have hk : (if g.step < g.length then g.step + 1 else g.step) ≤ g.length := by split <;> omega
  have hx := along_le hsx htx hk
  have hy := along_le hsy hty hk
  refine ⟨hsx, hsy, htx, htxe, hty, hlen, hk, ?_, ?_, hy⟩
  · simp only [glideStep]; omega
  · simp only [glideStep]; omega

theorem fadeToward_inRange {f : Fade} (hf : f.inRange) {target length prescale : Nat} (ht : target ≤ 256)
    (hl : length ≤ 255) (hp : 1 ≤ prescale) (hp' : prescale ≤ 16) : (fadeToward f target length prescale).inRange := by
  obtain ⟨-, -, -, -, -, -, -, hopacity⟩ := hf
  exact ⟨hopacity, ht, hl, hp, hp', hp, Nat.zero_le _, hopacity⟩

theorem fadeBegin_inRange {f : Fade} {e : LayoutEntry} (hf : f.inRange) (he : e.inRange) : (fadeBegin f e).inRange := by
  unfold fadeBegin
  split
  · exact hf
  · obtain ⟨-, -, -, heo, -, hefade, hep, hep'⟩ := he
    exact fadeToward_inRange hf heo hefade hep hep'

theorem fadeStep_inRange {f : Fade} (hf : f.inRange) : (fadeStep f).inRange := by
  obtain ⟨hstart, htarget, hlen, hpre, hpre', hcount, hstep, -⟩ := hf
  have hk : (if (decide (f.prescale ≤ f.count + 1) && decide (f.step < f.length)) = true then f.step + 1 else f.step)
      ≤ f.length := by
    split
    · rename_i h
      simp only [Bool.and_eq_true, decide_eq_true_eq] at h
      omega
    · exact hstep
  refine ⟨hstart, htarget, hlen, hpre, hpre', ?_, hk, along_le hstart htarget hk⟩
  simp only [fadeStep, decide_eq_true_eq]
  split <;> omega

theorem fadeAtZero_inRange : fadeAtZero.inRange := by
  unfold Fade.inRange
  decide

theorem glideAt_inRange {e : LayoutEntry} (he : e.inRange) : (glideAt e.x e.y).inRange := by
  obtain ⟨hx, hxe, hy, -⟩ := he
  exact ⟨hx, hy, hx, hxe, hy, Nat.zero_le _, le_refl 0, hx, hxe, hy⟩

theorem layKept_frame (table : Vector LayoutEntry 32) (ch : Channel) (a b : Bool) :
    LayKept table ch.lay (layoutFrame table ch a b) := by
  refine ⟨le_max_right _ _, fun htable hglide hfade => ⟨glideStep_inRange ?_, fadeStep_inRange ?_⟩⟩
  · split
    · exact glideBegin_inRange hglide (htable _)
    · exact hglide
  · split
    · exact fadeBegin_inRange hfade (htable _)
    · exact hfade

theorem layKept_start (table : Vector LayoutEntry 32) (lay : LayoutState) (ch : Channel) (a b : Bool) :
    LayKept table lay (layoutStart table ch a b) := by
  refine ⟨Nat.zero_le _, fun htable _ _ => ⟨glideAt_inRange (htable _), ?_⟩⟩
  obtain ⟨-, -, -, hopacity, -, hfade, hpre, hpre'⟩ := htable (effectiveEntry { ch with lay := { ch.lay with sl := ch.desc.home } } a b)
  exact fadeToward_inRange fadeAtZero_inRange hopacity hfade hpre hpre'

theorem layKept_initial (table : Vector LayoutEntry 32) (lay : LayoutState) (home : Fin 32) :
    LayKept table lay (layoutInitial table home) :=
  ⟨Nat.zero_le _, fun htable _ _ => ⟨glideAt_inRange (htable home), fadeAtZero_inRange⟩⟩

theorem layoutInRange_inRange (x y opacity glide fade prescale : Nat) :
    (layoutInRange x y opacity glide fade prescale).inRange := by
  unfold LayoutEntry.inRange layoutInRange
  simp only
  omega

end Sys2Proof.Edits
end

section
/-! The work of a frame start and of an examined read touches one channel, the holds and the report unit (R9 to R16). -/

namespace Sys2Proof.ChannelFrames

open Sys2Proof.Machine

theorem channelOnly_dropHoldOpt (c : Fin 8) (b : Blocks) (r : Option SlotRef) : ChannelOnly c b (b.dropHold? r) := by
  cases r with
  | none => exact .refl c b
  | some r => exact .dropHold c b r

theorem channelOnly_channelOff (b : Blocks) (c : Fin 8) (cause : StateCause) : ChannelOnly c b (b.channelOff c cause) :=
  ((channelOnly_dropHoldOpt c b _).trans (.setChan c _ _)).trans (.raise c _ _ _ _)

theorem channelOnly_beginFrame (b : Blocks) (c : Fin 8) (k : Fin 4) : ChannelOnly c b (b.beginFrame c k) := by
  unfold Blocks.beginFrame
  simp only
  split
  · exact (ChannelOnly.setChan c b _).trans (.raise c _ _ _ _)
  · exact .setChan c b _

theorem channelOnly_monitorFrame (b : Blocks) (c : Fin 8) (w : Bool) : ChannelOnly c b (b.monitorFrame c w) :=
  ((ChannelOnly.setChan c b _).trans (.raiseEdge c c .a _ _)).trans (.raiseEdge c c .b _ _)

theorem channelOnly_layoutFrameOf (b : Blocks) (c : Fin 8) : ChannelOnly c b (b.layoutFrameOf c) := .setChan c b _

theorem channelOnly_pickAndLatch (b : Blocks) (c : Fin 8) : ChannelOnly c b (b.pickAndLatch c) :=
  ((ChannelOnly.moveHold c b _ _).trans (.raisePresence c c _ _ _)).trans (.setChan c _ _)

theorem channelOnly_frameStart (b : Blocks) (c : Fin 8) (k : Fin 4) : ChannelOnly c b (b.frameStart c k) :=
  (((channelOnly_beginFrame b c k).trans (channelOnly_monitorFrame _ c _)).trans (channelOnly_layoutFrameOf _ c)).trans
    (channelOnly_pickAndLatch _ c)

theorem channelOnly_raiseDeepest (b : Blocks) (c : Fin 8) (a beats : Nat) : ChannelOnly c b (b.raiseDeepest c a beats) :=
  .setChan c b _

theorem channelOnly_examine (b : Blocks) (c : Fin 8) (a beats : Nat) : ChannelOnly c b (b.examine c a beats) := by
  unfold Blocks.examine
  simp only
  split
  · exact .refl c b
  · split
    · exact channelOnly_raiseDeepest b c a beats
    · split
      · split
        · exact channelOnly_channelOff b c _
        · exact (channelOnly_frameStart b c _).trans (channelOnly_raiseDeepest _ c a beats)
      · exact channelOnly_raiseDeepest b c a beats

theorem channelOnly_examined (b : Blocks) (c : Fin 8) (a beats : Nat) : ChannelOnly c b (b.examined c a beats) := by
  unfold Blocks.examined
  split
  · exact channelOnly_examine b c a beats
  · exact .refl c b

end Sys2Proof.ChannelFrames
end

section
/-! Every move of the blocks is a sequence of edits. -/

namespace Sys2Proof.Edits

open Sys2Proof.Machine Sys2Proof.StepMoves Sys2Proof.ChannelFrames

/-! ## Frame starts and examined reads -/

theorem edited_raiseEdge (c : Fin 8) (i : MonId) (before : Bool) (b : Blocks) : Edited b (raiseEdge c i before b) := by
  unfold raiseEdge
  simp only
  split
  · exact edited_raiseChan _ _ _ _
  · split
    · exact edited_raiseChan _ _ _ _
    · exact .refl

theorem edited_beginFrame (b : Blocks) (c : Fin 8) (k : Fin 4) (hm : b.mode = .active) : Edited b (b.beginFrame c k) := by
  have hset : Edited b (b.setChan c { b.chan c with
      frame := (b.chan c).frame + 1, buffer := some k, deepest := 0, state := .running }) :=
    Edited.one (.chan b c _ (.refl _ _) rfl (.inr ⟨hm, .inl rfl⟩))
  unfold Blocks.beginFrame
  simp only
  split
  · exact hset.trans (edited_raiseChan _ _ _ _)
  · exact hset

theorem edited_monitorFrame (b : Blocks) (c : Fin 8) (w : Bool) : Edited b (b.monitorFrame c w) := by
  have hset : Edited b (b.setChan c { b.chan c with
      monA := (b.chan c).monA.frameStart (b.chan c).monB w, monB := (b.chan c).monB.frameStart (b.chan c).monA w }) :=
    edited_chan b c _ rfl rfl rfl
  exact (hset.trans (edited_raiseEdge c .a _ _)).trans (edited_raiseEdge c .b _ _)

theorem edited_layoutFrameOf (b : Blocks) (c : Fin 8) : Edited b (b.layoutFrameOf c) :=
  edited_lay b c _ (layKept_frame _ _ _ _)

/-- The presence report touches the report unit alone (R95). -/
theorem raisePresence_eq_rep (b : Blocks) (c : Fin 8) (before : Option SlotRef) (pick : Except AbsentCause SlotRef) :
    b.raisePresence c before pick = { b with rep := (b.raisePresence c before pick).rep } := by
  unfold Blocks.raisePresence
  split
  · exact Blocks.raise_eq_rep _ _ _ _
  · rfl
  · split
    · rfl
    · exact Blocks.raise_eq_rep _ _ _ _

theorem repKept_raisePresence (b : Blocks) (c : Fin 8) (before : Option SlotRef) (pick : Except AbsentCause SlotRef) :
    RepKept b.rep (b.raisePresence c before pick).rep := by
  unfold Blocks.raisePresence
  split
  · exact repKept_raise _ _ _ _
  · exact .refl _
  · split
    · exact .refl _
    · exact repKept_raise _ _ _ _

/-- The latching of a frame start, its presence report apart (R14, R94). -/
def latched (b : Blocks) (c : Fin 8) (after : Option SlotRef) : Blocks :=
  (b.moveHold (b.latchedRef c) after).setChan c
    { b.chan c with geom := some (latchGeometry (b.chan c) (b.chan c).lay after) }

theorem pickAndLatch_eq (b : Blocks) (c : Fin 8) :
    b.pickAndLatch c = { latched b c (Blocks.pickRef (b.pick c)) with
      rep := ((b.moveHold (b.latchedRef c) (Blocks.pickRef (b.pick c))).raisePresence c (b.latchedRef c) (b.pick c)).rep } := by
  simp only [Blocks.pickAndLatch, chan_raisePresence, chan_moveHold]
  conv_lhs => rw [raisePresence_eq_rep]
  rfl

theorem edited_latched (b : Blocks) (c : Fin 8) (after : Option SlotRef) (hm : b.mode = .active)
    (hs : (b.chan c).state = .running) : Edited b (latched b c after) := by
  refine Edited.one (.latch b c { b.chan c with geom := some (latchGeometry (b.chan c) (b.chan c).lay after) } rfl
    (fun h => ?_) (.inr hm))
  simp only [hs] at h
  rcases h with h | h <;> cases h

theorem edited_pickAndLatch (b : Blocks) (c : Fin 8) (hm : b.mode = .active) (hs : (b.chan c).state = .running) :
    Edited b (b.pickAndLatch c) := by
  rw [pickAndLatch_eq]
  refine (edited_latched b c _ hm hs).and (.rep _ _ ?_)
  have hrep : (latched b c (Blocks.pickRef (b.pick c))).rep =
      (b.moveHold (b.latchedRef c) (Blocks.pickRef (b.pick c))).rep := rfl
  rw [hrep]
  exact repKept_raisePresence _ _ _ _

theorem beginFrame_chan (b : Blocks) (c : Fin 8) (k : Fin 4) : ((b.beginFrame c k).chan c).state = .running := by
  unfold Blocks.beginFrame
  simp only
  split <;> simp [Blocks.raiseState]

theorem edited_frameStart (b : Blocks) (c : Fin 8) (k : Fin 4) (hm : b.mode = .active) : Edited b (b.frameStart c k) := by
  unfold Blocks.frameStart
  refine (((edited_beginFrame b c k hm).trans (edited_monitorFrame _ c _)).trans (edited_layoutFrameOf _ c)).trans
    (edited_pickAndLatch _ c ?_ ?_)
  · rw [(channelOnly_layoutFrameOf _ c).mode, (channelOnly_monitorFrame _ c _).mode, (channelOnly_beginFrame b c k).mode, hm]
  · simp only [Blocks.layoutFrameOf, Blocks.monitorFrame, Blocks.chan_setChan_same, chan_raiseEdge, beginFrame_chan]

theorem edited_raiseDeepest (b : Blocks) (c : Fin 8) (a beats : Nat) : Edited b (b.raiseDeepest c a beats) :=
  edited_chan b c _ rfl rfl rfl

theorem edited_examine (b : Blocks) (c : Fin 8) (a beats : Nat) (hm : b.mode = .active) :
    Edited b (b.examine c a beats) := by
  unfold Blocks.examine
  simp only
  split
  · exact .refl
  · split
    · exact edited_raiseDeepest _ _ _ _
    · split
      · split
        · exact edited_channelOff _ _ _
        · exact (edited_frameStart _ _ _ hm).trans (edited_raiseDeepest _ _ _ _)
      · exact edited_raiseDeepest _ _ _ _

theorem edited_examined (b : Blocks) (c : Fin 8) (a beats : Nat) : Edited b (b.examined c a beats) := by
  unfold Blocks.examined
  split
  · exact edited_examine _ _ _ _ ‹_›
  · exact .refl

/-! ## Responses and deliveries -/

theorem edited_setEntry {b : Blocks} {e : Entry} (he : e ∈ b.rtt) (e' : Entry) (hnum : e'.num = e.num)
    (hkind : e'.kind = e.kind) : Edited b (b.setEntry e') := Edited.one (.entry b e e' he hnum hkind)

/-- The blocks when an entry's clean data has been offered to its channel's monitors, if R33 gives it to them. -/
def offered (b : Blocks) (e : Entry) : Blocks :=
  let ch := b.chan e.chan
  if (ch.state = .running ∨ ch.state = .stopping) ∧ ch.frame = e.frame then
    b.setChan e.chan { ch with monA := ch.monA.measure ch.desc e e.zoneA, monB := ch.monB.measure ch.desc e e.zoneB }
  else b

theorem edited_offered (b : Blocks) (e : Entry) : Edited b (offered b e) := by
  unfold offered
  simp only
  split
  · exact edited_chan b e.chan _ rfl rfl rfl
  · exact .refl

theorem offered_rtt (b : Blocks) (e : Entry) : (offered b e).rtt = b.rtt := by
  unfold offered
  simp only
  split <;> rfl

theorem edited_raiseLate (b : Blocks) (e : Entry) : Edited b (b.raiseLate e) := by
  have hset : Edited b (b.setChan e.chan { b.chan e.chan with lastLate := some e.frame }) :=
    edited_chan b e.chan _ rfl rfl rfl
  unfold Blocks.raiseLate
  simp only
  split
  · exact .refl
  · exact hset.trans (edited_raiseChan _ _ _ _)

theorem edited_raiseFetchError (b : Blocks) (e : Entry) : Edited b (b.raiseFetchError e) := by
  have hset : Edited b (b.setChan e.chan { b.chan e.chan with lastFetchError := some e.frame }) :=
    edited_chan b e.chan _ rfl rfl rfl
  unfold Blocks.raiseFetchError
  simp only
  split
  · exact .refl
  · exact hset.trans (edited_raiseChan _ _ _ _)

theorem edited_completeProgramme {b : Blocks} {e : Entry} (he : e ∈ b.rtt) (data : List Byte) (status : Status) :
    Edited b (b.completeProgramme e data status) := by
  unfold Blocks.completeProgramme
  simp only
  split
  · exact edited_setEntry he _ rfl rfl
  · have hoffered := edited_offered b { e with progData := data }
    have he' : e ∈ (offered b { e with progData := data }).rtt := by rw [offered_rtt]; exact he
    split
    · exact hoffered.trans (edited_setEntry he' _ rfl rfl)
    · exact hoffered.trans (edited_setEntry he' _ rfl rfl)
    · split
      · exact hoffered.trans (edited_setEntry he' _ rfl rfl)
      · split
        · exact hoffered.trans (edited_setEntry he' _ rfl rfl)
        · exact hoffered.trans (edited_setEntry he' _ rfl rfl)

theorem edited_takeProgramme {b b' : Blocks} {tag : Tag} {oid : OrderId} {data : List Byte} {status : Status}
    (h : b.takeProgramme tag oid data status = .ok b') : Edited b b' := by
  unfold Blocks.takeProgramme at h
  split at h
  · cases h
  · split at h <;> cases h
    exact edited_completeProgramme (List.mem_of_find?_eq_some ‹_›) _ _

theorem edited_storeFetch {b : Blocks} {e e' : Entry} (he : e ∈ b.rtt) (hnum : e'.num = e.num)
    (hkind : e'.kind = e.kind) (data : List Byte) (status : Status) : Edited b (b.storeFetch e' data status) := by
  have hset : ∀ x : Entry, x.num = e'.num → x.kind = e'.kind → Edited b (b.setEntry x) := fun x hn hk =>
    edited_setEntry he x (hn.trans hnum) (hk.trans hkind)
  unfold Blocks.storeFetch
  split
  · split <;> exact hset _ rfl rfl
  · split <;> exact hset _ rfl rfl
  · exact hset _ rfl rfl
  · exact hset _ rfl rfl
  · split
    · exact hset _ rfl rfl
    · refine Relation.ReflTransGen.trans ?_ (edited_raiseFetchError _ _)
      exact hset _ rfl rfl
  · split
    · exact hset _ rfl rfl
    · refine Relation.ReflTransGen.trans ?_ (edited_raiseFetchError _ _)
      exact hset _ rfl rfl
  · exact hset _ rfl rfl
  · exact hset _ rfl rfl

theorem edited_lastFetch {b : Blocks} {e : Entry} (he : e ∈ b.rtt) : Edited b (b.lastFetch e) := by
  unfold Blocks.lastFetch
  split
  · exact .refl
  · exact .refl
  · exact edited_setEntry he _ rfl rfl
  · exact Edited.one (.freed b e he)

theorem entry?_mem {b : Blocks} {n : Tag} {e : Entry} (h : b.entry? n = some e) : e ∈ b.rtt :=
  List.mem_of_find?_eq_some h

theorem edited_takeFetch {b b' : Blocks} {n : Tag} {data : List Byte} {status : Status}
    (h : b.takeFetch n data status = .ok b') : Edited b b' := by
  unfold Blocks.takeFetch at h
  split at h
  · cases h
  · rename_i e hentry
    split at h
    · cases h
    · split at h
      · have hstore := edited_storeFetch (entry?_mem hentry) (e' := { e with outstanding := e.outstanding - 1 }) rfl rfl
          data status
        simp only at h
        split at h <;> cases h
        · exact hstore
        · split
          · exact hstore.trans (edited_lastFetch (entry?_mem ‹_›))
          · exact hstore
      · cases h

theorem edited_deliver {b : Blocks} {e : Entry} (h : b.readyEntry = some e) : Edited b (b.deliver e) := by
  have he : e ∈ b.rtt := List.mem_of_find?_eq_some h
  unfold Blocks.deliver
  split
  · exact Edited.one (.freed b e he)
  · exact edited_setEntry he _ rfl rfl

theorem edited_expireJoin (b : Blocks) (n : Tag) : Edited b (b.expireJoin n) := by
  unfold Blocks.expireJoin
  split
  · exact .refl
  · rename_i e hentry
    split
    · refine Relation.ReflTransGen.trans ?_ (edited_raiseLate _ _)
      exact edited_setEntry (entry?_mem hentry) _ rfl rfl
    · exact .refl

/-! ## Ports and slots -/

/-- An update of a port's own fields: its queue stays. -/
theorem edited_port (b : Blocks) (p : Fin 4) (u : Port) (hq : u.queue = (b.port p).queue) : Edited b (b.setPort p u) :=
  Edited.one (.port b p u (hq ▸ le_max_right _ _))

/-- An update of a slot: its holds stay. -/
theorem edited_slot (b : Blocks) (p : Fin 4) (i : Fin 16) (x : Slot) (hhold : x.hold = (b.slot p i).hold) :
    Edited b (b.setSlot p i x) := Edited.one (.slot b p i x hhold)

theorem edited_markDamaged (b : Blocks) (p : Fin 4) (i : Fin 16) : Edited b (b.markDamaged p i) := by
  rw [markDamaged_eq]
  exact edited_slot b p i _ rfl

theorem edited_dropFlight (b : Blocks) (p : Fin 4) (i : Fin 16) (g : DropReason → DropReason) :
    Edited b (b.dropFlight p i g) := by
  have hset : Edited b (b.setPort p ((b.port p).setFlight i fun f => { f with reason := g f.reason })) :=
    edited_port b p _ rfl
  unfold Blocks.dropFlight
  simp only
  split
  · split
    · exact hset
    · exact hset.trans (edited_markDamaged _ _ _)
  · exact hset

theorem edited_placeEntry (b : Blocks) (p : Fin 4) (e : LineEntry) : Edited b (b.placeEntry p e) := by
  unfold Blocks.placeEntry
  simp only
  split
  · rename_i hroom
    refine Edited.one (.port b p _ (le_max_of_le_left ?_))
    rw [List.length_append, List.length_singleton]
    exact hroom
  · exact edited_dropFlight _ _ _ _

theorem edited_placeEntries (b : Blocks) (p : Fin 4) (es : List LineEntry) : Edited b (b.placeEntries p es) := by
  unfold Blocks.placeEntries
  induction es generalizing b with
  | nil => exact .refl
  | cons e rest ih => exact (edited_placeEntry b p e).trans (ih _)

theorem edited_completeSlot (b : Blocks) (p : Fin 4) (i : Fin 16) (good : Bool) : Edited b (b.completeSlot p i good) := by
  unfold Blocks.completeSlot
  simp only
  split
  · exact (edited_slot b p i { b.slot p i with state := .ready, capture := nextCapture (b.portSlots p).latest } rfl).and
      (.latest _ p _)
  · exact edited_slot b p i _ rfl

theorem edited_completeFlight (b : Blocks) (p : Fin 4) (i : Fin 16) : Edited b (b.completeFlight p i) := by
  have hset : Edited b (b.setPort p { b.port p with flights := (b.port p).flights.filter fun f => f.slot ≠ i }) :=
    edited_port b p _ rfl
  unfold Blocks.completeFlight
  simp only
  split
  · exact .refl
  · split
    · have hdone := fun good => hset.trans (edited_completeSlot _ p i good)
      split
      · exact hdone _
      · exact hdone _
      · exact (hdone _).trans (edited_raise _ _ _ _)
      · exact (hdone _).trans (edited_raise _ _ _ _)
    · exact .refl

theorem edited_goodUnit (b : Blocks) (p : Fin 4) : Edited b (b.goodUnit p) := edited_port b p _ rfl

theorem edited_settleSlot (b : Blocks) (p : Fin 4) (i : Fin 16) (damaged : Bool) : Edited b (b.settleSlot p i damaged) :=
  edited_slot b p i _ rfl

theorem edited_fillSlot (b : Blocks) (p : Fin 4) (i : Fin 16) (w h : Nat) : Edited b (b.fillSlot p i w h) :=
  edited_slot b p i _ rfl

theorem edited_openFrame (b : Blocks) (p : Fin 4) (w h : Nat) : Edited b (b.openFrame p w h) := by
  unfold Blocks.openFrame
  simp only
  split
  · exact (edited_fillSlot b p _ _ _).trans (edited_port _ p _ rfl)
  · exact (edited_port b p { b.port p with state := .discarding w h } rfl).trans (edited_raise _ _ _ _)

theorem edited_abandonFrame (b : Blocks) (p : Fin 4) (f : OpenFrame) (report : Bool) :
    Edited b (b.abandonFrame p f report) := by
  have hset : Edited b (b.setPort p { (b.port p).setFlight f.slot
      (fun g => { g with reason := .abandoned, closed := true }) with state := .waiting }) := edited_port b p _ rfl
  have hsettled := hset.trans (edited_settleSlot _ p f.slot true)
  unfold Blocks.abandonFrame
  simp only
  split
  · exact (hsettled.trans (edited_raise _ _ _ _)).trans (edited_completeFlight _ _ _)
  · exact hsettled.trans (edited_completeFlight _ _ _)

/-- What follows the last output lines of a closed frame (R66). -/
theorem edited_closed (b : Blocks) (p : Fin 4) (i : Fin 16) (g : Flight → Flight) (damaged : Bool) :
    Edited b (((b.setPort p { (b.port p).setFlight i g with state := .waiting }).settleSlot p i damaged).completeFlight p i) := by
  refine Relation.ReflTransGen.trans (Relation.ReflTransGen.trans ?_ (edited_settleSlot _ p i damaged))
    (edited_completeFlight _ _ _)
  exact edited_port b p _ rfl

theorem edited_closeFrame (b : Blocks) (p : Fin 4) (f : OpenFrame) : Edited b (b.closeFrame p f) := by
  unfold Blocks.closeFrame
  simp only
  split
  · exact (edited_dropFlight _ _ _ _).trans (edited_closed _ _ _ _ _)
  · exact (edited_placeEntries _ _ _).trans (edited_closed _ _ _ _ _)

theorem edited_takeFrameOpen (b : Blocks) (p : Fin 4) (w h : Nat) : Edited b (b.takeFrameOpen p w h) := by
  unfold Blocks.takeFrameOpen
  split
  · exact .refl
  · have hopen := fun b : Blocks => (edited_goodUnit b p).trans (edited_openFrame _ p w h)
    split
    · exact hopen b
    · exact hopen b
    · exact hopen b
    · exact (edited_abandonFrame b p _ true).trans (hopen _)
    · exact (edited_raise b _ _ _).trans (hopen _)

theorem edited_enterLine (b : Blocks) (p : Fin 4) (f : OpenFrame) (index : Nat) (samples : List K8) :
    Edited b (b.enterLine p f index samples) := by
  unfold Blocks.enterLine
  simp only
  split
  · refine Relation.ReflTransGen.trans ?_ (edited_placeEntries _ _ _)
    exact edited_port b p _ rfl
  · exact edited_port b p _ rfl

theorem edited_takeLine (b : Blocks) (p : Fin 4) (index : Nat) (samples : List K8) :
    Edited b (b.takeLine p index samples) := by
  unfold Blocks.takeLine
  split
  · exact .refl
  · exact .refl
  · exact edited_goodUnit b p
  · exact edited_goodUnit b p
  · split
    · exact .refl
    · split
      · exact (edited_goodUnit b p).trans (edited_enterLine _ _ _ _ _)
      · exact edited_goodUnit b p

theorem edited_takeFrameClose (b : Blocks) (p : Fin 4) : Edited b (b.takeFrameClose p) := by
  unfold Blocks.takeFrameClose
  split
  · exact .refl
  · exact .refl
  · exact edited_goodUnit b p
  · exact (edited_goodUnit b p).trans (edited_port _ p _ rfl)
  · exact (edited_goodUnit b p).trans (edited_closeFrame _ _ _)

theorem edited_expireLoss (b : Blocks) (p : Fin 4) : Edited b (b.expireLoss p) := by
  have hlost : ∀ b' : Blocks, ∀ w, Edited b'
      ((b'.setPort p { b'.port p with state := .lost }).raise .inputLost (.port p) w) := fun b' w =>
    (edited_port b' p { b'.port p with state := .lost } rfl).trans (edited_raise _ _ _ _)
  unfold Blocks.expireLoss
  simp only
  split
  · split
    · exact (edited_abandonFrame b p _ true).trans (hlost _ _)
    all_goals exact hlost b _
  · exact .refl

theorem edited_takeLineWrite {b b' : Blocks} {p : Fin 4} {status : Status} (h : b.takeLineWrite p status = .ok b') :
    Edited b b' := by
  unfold Blocks.takeLineWrite at h
  simp only at h
  split at h
  · cases h
  · cases h
    have hset : ∀ i : Fin 16, Edited b (b.setPort p ((b.port p).setFlight i fun f => { f with outstanding := f.outstanding - 1 })) :=
      fun i => edited_port b p _ rfl
    split
    · exact (hset _).trans (edited_completeFlight _ _ _)
    · exact ((hset _).trans (edited_dropFlight _ _ _ _)).trans (edited_completeFlight _ _ _)

theorem edited_grantPiece (b : Blocks) (p : Fin 4) : Edited b (b.grantPiece p) := by
  unfold Blocks.grantPiece
  simp only
  split
  · exact .refl
  · rename_i e rest hq
    refine Edited.one (.port b p _ (le_max_of_le_right ?_))
    rw [hq]
    simp only [List.length_cons]
    split <;> simp

/-! ## Cues -/

theorem edited_restartPort (b : Blocks) (p : Fin 4) : Edited b (restartPort b p) := by
  have hidle : ∀ b' : Blocks, Edited b' (b'.setPort p { b'.port p with state := .idle, lastGood := none }) := fun b' =>
    edited_port b' p _ rfl
  unfold restartPort
  simp only
  split
  · exact (edited_abandonFrame b p _ false).trans (hidle _)
  all_goals exact hidle b

theorem edited_foldl {α : Type} (f : Blocks → α → Blocks) (hf : ∀ b a, Edited b (f b a)) (l : List α) (b : Blocks) :
    Edited b (l.foldl f b) := by
  induction l generalizing b with
  | nil => exact .refl
  | cons a rest ih => exact (hf b a).trans (ih _)

theorem edited_restartChannels (b : Blocks) : Edited b (restartChannels b) := by
  refine edited_foldl _ (fun b c => ?_) allChans b
  split
  · exact .refl
  · exact edited_channelOff _ _ _

/-- RESTART takes every channel to OFF and leaves the part state (R18). -/
theorem restartChannels_off (b : Blocks) :
    (∀ c, ((restartChannels b).chan c).state = .off) ∧ (restartChannels b).mode = b.mode := by
  obtain ⟨hrest, -, -, hchan⟩ := restartChannel_fold allChans (by decide) b
  rw [restartChannels_eq]
  refine ⟨fun c => ?_, by rw [hrest]⟩
  have hmem : c ∈ allChans := by revert c; decide
  rw [hchan]
  split
  · rfl
  · rename_i hneg
    by_contra hoff
    exact hneg ⟨hmem, hoff⟩

theorem restartPort_chans (b : Blocks) (p : Fin 4) :
    (restartPort b p).chans = b.chans ∧ (restartPort b p).mode = b.mode := by
  rw [restartPort_eq]
  repeat' split
  all_goals exact ⟨rfl, rfl⟩

theorem restartPorts_chans (b : Blocks) : (restartPorts b).chans = b.chans ∧ (restartPorts b).mode = b.mode := by
  unfold restartPorts
  induction allPorts generalizing b with
  | nil => exact ⟨rfl, rfl⟩
  | cons p rest ih =>
    obtain ⟨hchans, hmode⟩ := restartPort_chans b p
    rw [List.foldl_cons, (ih _).1, (ih _).2, hchans, hmode]
    exact ⟨rfl, rfl⟩

theorem edited_takeRestart (b : Blocks) (hm : b.mode = .active) : Edited b (takeRestart b) := by
  obtain ⟨hoff, hmode⟩ := restartChannels_off b
  obtain ⟨hchans, hmode'⟩ := restartPorts_chans (restartChannels b)
  refine Relation.ReflTransGen.trans ((edited_restartChannels b).trans (edited_foldl _ edited_restartPort allPorts _)) ?_
  refine Edited.one (.restarting _ (fun c => ?_) (by rw [← restartPorts, hmode', hmode, hm]) b.timeBase)
  rw [← restartPorts, Blocks.chan_congr hchans]
  exact hoff c

theorem edited_cueMove {b b' : Blocks} (hm : b.mode = .active) (h : CueMove b b') : Edited b b' := by
  cases h with
  | start _ c policy h =>
    have hstart : ∀ ch : Channel, LayKept b.layouts (b.chan c).lay (ch.startRecords b.layouts).lay := fun ch =>
      layKept_start _ _ _ _ _
    unfold startChannel at h
    simp only at h
    split at h
    · cases h
      exact Edited.one (.chan b c _ (hstart _) rfl (.inr ⟨hm, .inr (.inr (.inl ‹_›))⟩))
    · cases h
      have hset : Edited b (b.setChan c (Channel.startRecords b.layouts
          { b.chan c with desc := { (b.chan c).desc with stackPolicy := policy }, state := .running })) :=
        Edited.one (.chan b c _ (hstart _) rfl (.inr ⟨hm, .inl rfl⟩))
      exact hset.trans (edited_raiseChan _ _ _ _)
    · cases h
    · cases h
  | stop c =>
    unfold stopChannel
    simp only
    split
    · exact .refl
    · exact .refl
    · exact (Edited.one (.chan b c { b.chan c with state := .off } (.refl _ _) rfl
        (.inr ⟨hm, .inr (.inr (.inr ‹_›))⟩))).trans (edited_raiseChan _ _ _ _)
    · exact Edited.one (.chan b c { b.chan c with state := .stopping } (.refl _ _) rfl (.inr ⟨hm, .inr (.inl rfl)⟩))
  | writeLayout i x y opacity glide fade prescale => exact Edited.one (.table b i _ (layoutInRange_inRange ..))
  | selectLayout c i => exact edited_lay b c _ ⟨le_max_right _ _, fun _ hg hf => ⟨hg, hf⟩⟩
  | pushLayout c i =>
    unfold Machine.pushLayout
    simp only
    split
    · rename_i hroom
      refine edited_lay b c _ ⟨le_max_of_le_left ?_, fun _ hg hf => ⟨hg, hf⟩⟩
      rw [List.length_append, List.length_singleton]
      exact hroom
    · refine Relation.ReflTransGen.trans ?_ (edited_raiseChan _ _ _ _)
      refine edited_lay b c _ ?_
      split
      · exact ⟨le_max_right _ _, fun _ hg hf => ⟨hg, hf⟩⟩
      · exact ⟨Nat.zero_le _, fun _ hg hf => ⟨hg, hf⟩⟩
  | popLayout c =>
    unfold Machine.popLayout
    simp only
    split
    · refine edited_lay b c _ ⟨le_max_of_le_right ?_, fun _ hg hf => ⟨hg, hf⟩⟩
      rw [List.length_dropLast]
      exact Nat.sub_le _ _
    · refine Relation.ReflTransGen.trans ?_ (edited_raiseChan _ _ _ _)
      exact edited_lay b c _ ⟨le_max_right _ _, fun _ hg hf => ⟨hg, hf⟩⟩
  | fade c target length prescale =>
    refine edited_lay b c _ ⟨le_max_right _ _, fun _ hg hf => ⟨hg, ?_⟩⟩
    exact fadeToward_inRange hf (min_le_right _ _) (min_le_right _ _) (le_max_left _ _) (by omega)
  | assign c port delay loss => exact edited_chan b c _ rfl rfl rfl
  | setIngest p settings => exact edited_port b p _ rfl
  | setMonitor c i f => exact edited_chan b c _ (by simp) (by simp) (by simp)
  | forceMonitor c i force => exact edited_chan b c _ (by simp) (by simp) (by simp)
  | clearMonitor c i => exact edited_chan b c _ (by simp) (by simp) (by simp)
  | clearFlags c => exact edited_lay b c _ ⟨le_max_right _ _, fun _ hg hf => ⟨hg, hf⟩⟩
  | setReports mask => exact Edited.one (.rep b _ ⟨rfl, rfl, rfl, rfl, le_max_right _ _⟩)
  | restart => exact edited_takeRestart b hm

theorem edited_carryOut (s : Fin 32) (r : CueRecord) {b : Blocks} (hm : b.mode = .active) : Edited b (carryOut s r b) := by
  obtain ⟨b', hcue, heq⟩ | ⟨subject, words, heq⟩ := carryOut_cases s r b
  · rw [heq]
    exact (edited_cueMove hm hcue).trans (edited_requestRefresh _)
  · rw [heq]
    exact (edited_raise _ _ _ _).trans (edited_requestRefresh _)

/-! ## Every move -/

/-- Every move of the blocks is a sequence of edits. -/
theorem edited_blockMove {b b' : Blocks} (h : BlockMove b b') : Edited b b' := by
  cases h with
  | tick => exact Edited.one (.time b _)
  | boot image hm hg => exact Edited.one (.boot b image hm hg)
  | guard words hm => exact edited_raise _ _ _ _
  | read c n r hm he hf =>
    have honly := channelOnly_examined b c r.addr.toNat r.beats
    have hfree : b.freeEntry = some n := by
      unfold Blocks.entryFor at he
      obtain ⟨c', -, hc⟩ := Option.map_eq_some_iff.1 he
      exact (Prod.mk.inj hc).2
    refine (edited_examined b c _ _).and (.allocated _ n c r ?_ ?_ ?_)
    · unfold InService
      rw [honly.mode]
      exact hm
    · unfold Blocks.freeEntry
      rw [honly.rtt]
      exact hfree
    · rw [honly.fetchQueue]
      exact hf
  | cue s r hm => exact edited_carryOut s r hm
  | consumer word hm => exact Edited.one (.consumer b word hm)
  | fetchSent => exact Edited.one (.fetchSent b)
  | reportSent _ request hm hw h => exact Edited.one (.reportSent b b' request hm hw h)
  | statusSent hm => exact Edited.one (.rep b _ ⟨rfl, rfl, rfl, rfl, le_max_right _ _⟩)
  | pieceSent p => exact edited_grantPiece b p
  | restarted hm hd => exact Edited.one (.restarted b hm hd)
  | programme _ tag oid data status h => exact edited_takeProgramme h
  | fetch _ n data status h => exact edited_takeFetch h
  | lineWrite _ p status h => exact edited_takeLineWrite h
  | reportWrite _ status h =>
    unfold Blocks.takeReportWrite at h
    repeat' split at h
    all_goals cases h
    · exact .refl
    · exact Edited.one (.rep b _ ⟨rfl, rfl, rfl, rfl, le_max_right _ _⟩)
  | statusWrite _ h =>
    unfold Blocks.takeStatusWrite at h
    split at h <;> cases h
    exact Edited.one (.rep b _ ⟨rfl, rfl, rfl, rfl, le_max_right _ _⟩)
  | deliver e h => exact edited_deliver h
  | frameOpen p w h hm => exact edited_takeFrameOpen b p w h
  | line p index samples hm => exact edited_takeLine b p index samples
  | frameClose p hm => exact edited_takeFrameClose b p
  | joinLimit n => exact edited_expireJoin b n
  | lossLimit p => exact edited_expireLoss b p
  | refreshPeriod =>
    unfold Blocks.expireRefresh
    split
    · exact (Edited.one (.rep b { b.rep with lastRefresh := b.timeBase } ⟨rfl, rfl, rfl, rfl, le_max_right _ _⟩)).trans
        (edited_requestRefresh _)
    · exact .refl

end Sys2Proof.Edits
end

section
/-! What the writers of several parts leave, and the invariants of the ring, the tables and the layouts (O56, O59, O60): each
edit keeps them. -/

namespace Sys2Proof.TableProofs

open Sys2Proof.Machine Sys2Proof.StepMoves Sys2Proof.Edits

/-- A part with given blocks, at rest otherwise: an invariant that reads the blocks alone is stated of it. -/
def partWith (b : Blocks) : State := { State.reset with blk := b }

/-- An invariant of the blocks that the resets, the entry to BYPASS and every edit keep, is kept by every step. -/
theorem step_keeps_edits (P : Blocks → Prop) (hreset : ∀ cause, P (Blocks.resetWith cause))
    (hbypass : ∀ b : Blocks, b.mode = .loading → P b → P { b with mode := .bypass })
    (hedit : ∀ {b b' : Blocks}, P b → Edit b b' → P b') {s t : State} (hs : P s.blk) (h : step s = .next t) :
    P t.blk := by
  refine step_keeps_blocks P hreset hbypass (fun hb hmove => ?_) hs h
  replace hmove := edited_blockMove hmove
  induction hmove with
  | refl => exact hb
  | tail _ hlast ih => exact hedit ih hlast

/-! ## The writers of several parts -/

theorem moveHold_eq (b : Blocks) (x y : Option SlotRef) :
    b.moveHold x y = { b with slotTab := (b.moveHold x y).slotTab } := by
  unfold Blocks.moveHold
  split
  · rfl
  · rfl
  · rfl
  · split <;> rfl

theorem freeEntryOf_eq (b : Blocks) (e : Entry) :
    b.freeEntryOf e = { b with
      rtt := b.rtt.filter fun e' => e'.num ≠ e.num, slotTab := (b.freeEntryOf e).slotTab } := by
  unfold Blocks.freeEntryOf
  simp only
  split <;> rfl

/-- Whether two slots are the same (R92). -/
def atSlot (r : SlotRef) (p : Fin 4) (i : Fin 16) : Bool := decide (r.port = p ∧ r.slot = i)

theorem atSlot_eq_true {r : SlotRef} {p : Fin 4} {i : Fin 16} : atSlot r p i = true ↔ p = r.port ∧ i = r.slot := by
  rw [atSlot, decide_eq_true_eq, eq_comm (a := p), eq_comm (a := i)]

theorem hold_addHold (b : Blocks) (r : SlotRef) (p : Fin 4) (i : Fin 16) :
    ((b.addHold r).slot p i).hold = (b.slot p i).hold + (atSlot r p i).toNat := by
  unfold Blocks.addHold
  rw [Blocks.slot_setSlot]
  by_cases h : p = r.port ∧ i = r.slot
  · rw [if_pos h, atSlot_eq_true.2 h, h.1, h.2]
    rfl
  · rw [if_neg h, Bool.eq_false_iff.2 (mt atSlot_eq_true.1 h)]
    rfl

theorem hold_dropHold (b : Blocks) (r : SlotRef) (p : Fin 4) (i : Fin 16) :
    ((b.dropHold r).slot p i).hold = (b.slot p i).hold - (atSlot r p i).toNat := by
  unfold Blocks.dropHold
  rw [Blocks.slot_setSlot]
  by_cases h : p = r.port ∧ i = r.slot
  · rw [if_pos h, atSlot_eq_true.2 h, h.1, h.2]
    rfl
  · rw [if_neg h, Bool.eq_false_iff.2 (mt atSlot_eq_true.1 h)]
    rfl

/-- An allocation adds one entry with its fetch reads and its hold (R25). -/
theorem allocate_spec (b : Blocks) (n : Tag) (c : Fin 8) (tag : Tag) (oid : OrderId) (addr : Addr) (beats : Nat) :
    ∃ (e : Entry) (reads : List FetchRead) (slotTab : Vector PortSlots 4),
      b.allocate n c tag oid addr beats =
        { b with rtt := b.rtt ++ [e], fetchQueue := b.fetchQueue ++ reads, slotTab := slotTab } ∧
      e.num = n ∧ reads.length = (b.classify c addr.toNat beats).1.reads ∧
      ∀ p i, ((b.allocate n c tag oid addr beats).slot p i).hold = (b.slot p i).hold + (e.refersTo p i).toNat := by
  unfold Blocks.allocate
  simp only
  split
  · rename_i hkind
    refine ⟨_, [], b.slotTab, by rw [List.append_nil], rfl, by rw [hkind]; rfl, fun p i => ?_⟩
    simp only [Entry.refersTo, hkind]
    rfl
  · rename_i hkind
    refine ⟨_, [], b.slotTab, by rw [List.append_nil], rfl, by rw [hkind]; rfl, fun p i => ?_⟩
    simp only [Entry.refersTo, hkind]
    rfl
  · rename_i info hkind
    refine ⟨_, fetchReads b.image n info, _, rfl, rfl, ?_, fun p i => ?_⟩
    · rw [hkind, EntryKind.reads, fetchReads, List.length_map]
    · rw [hold_addHold]
      simp only [Entry.refersTo, hkind]
      rfl

/-- The part after the completion of RESTART, its report and its refresh apart (R174). -/
def cleared (b : Blocks) : Blocks :=
  { b with
    mode := .active
    slotTab := Vector.replicate 4 PortSlots.reset
    chans := Vector.ofFn fun c => restartedChannel b.layouts (b.chan c) }

theorem repKept_trans {r r' r'' : ReportUnit} (h : RepKept r r') (h' : RepKept r' r'') : RepKept r r'' :=
  ⟨h'.prod.trans h.prod, h'.prodLap.trans h.prodLap, h'.cons.trans h.cons, h'.consLap.trans h.consLap,
    h'.queue.trans (max_le (le_max_left _ _) h.queue)⟩

theorem completeRestart_spec (b : Blocks) :
    ∃ rep, completeRestart b = { cleared b with rep := rep } ∧ RepKept b.rep rep := by
  refine ⟨(((cleared b).raise .restartDone .none [b.restartTime]).requestRefresh).rep, ?_, ?_⟩
  · change ((cleared b).raise .restartDone .none [b.restartTime]).requestRefresh = _
    rw [Blocks.requestRefresh_eq, Blocks.raise_eq_rep]
  · refine repKept_trans (repKept_raise (cleared b) .restartDone .none [b.restartTime]) ?_
    rw [Blocks.requestRefresh_eq]
    exact ⟨rfl, rfl, rfl, rfl, le_max_right _ _⟩

/-! ## The ring (R162, R164, R168) -/

/-- What the ring keeps in service. -/
theorem ringKept_inService {b : Blocks} (hm : InService b) :
    RingKept (partWith b) ↔ b.image.ringSize ∈ ringSizes ∧ b.rep.prod < b.image.ringSize ∧
      b.rep.cons < b.image.ringSize ∧ b.rep.distance b.image.ringSize ≤ b.image.ringSize :=
  Iff.of_eq (if_pos hm)

/-- What the ring keeps before service. -/
theorem ringKept_outside {b : Blocks} (hm : ¬ InService b) :
    RingKept (partWith b) ↔ b.rep.prod = 0 ∧ b.rep.cons = 0 ∧ b.rep.prodLap = b.rep.consLap :=
  Iff.of_eq (if_neg hm)

/-- An edit that leaves the part state, the ring's size and its indexes. -/
theorem ringKept_congr {b b' : Blocks} (h : RingKept (partWith b)) (hmode : b'.mode = b.mode)
    (himage : b'.image = b.image) (hprod : b'.rep.prod = b.rep.prod) (hprodLap : b'.rep.prodLap = b.rep.prodLap)
    (hcons : b'.rep.cons = b.rep.cons) (hconsLap : b'.rep.consLap = b.rep.consLap) : RingKept (partWith b') := by
  have hservice : InService b' ↔ InService b := by rw [InService, InService, hmode]
  by_cases hm : InService b
  · rw [ringKept_inService (hservice.2 hm)]
    rw [ringKept_inService hm] at h
    simp only [ReportUnit.distance, himage, hprod, hprodLap, hcons, hconsLap] at h ⊢
    exact h
  · rw [ringKept_outside (mt hservice.1 hm), hprod, hprodLap, hcons, hconsLap]
    exact (ringKept_outside hm).1 h

theorem ringSize_pos {n : Nat} (h : n ∈ ringSizes) : 0 < n := by
  simp only [ringSizes, List.mem_cons, List.not_mem_nil, or_false] at h
  omega

/-- The distance is 0 where the indexes are equal (R162). -/
theorem distance_self (r : ReportUnit) (n : Nat) (h : r.cons = r.prod) (hl : r.consLap = r.prodLap) :
    r.distance n = 0 := by
  unfold ReportUnit.distance
  rw [h, hl, Nat.add_sub_cancel_left, Nat.mod_self]

/-- The producer index moves on by one position, and the distance rises by 1 (R162). -/
theorem distance_advance (r : ReportUnit) (n : Nat) (hp : r.prod < n) (hc : r.cons < n) (hd : r.distance n < n) :
    (r.advance n).prod < n ∧ (r.advance n).cons < n ∧ (r.advance n).distance n = r.distance n + 1 := by
  have hshift : (r.advance n).cons = r.cons ∧ (r.advance n).consLap = r.consLap ∧
      ((r.advance n).prod + n * bitOf (r.advance n).prodLap = r.prod + n * bitOf r.prodLap + 1 ∨
       (r.advance n).prod + n * bitOf (r.advance n).prodLap + 2 * n = r.prod + n * bitOf r.prodLap + 1) ∧
      (r.advance n).prod < n := by
    unfold ReportUnit.advance
    split
    · exact ⟨rfl, rfl, .inl (by simp only; omega), ‹_›⟩
    · refine ⟨rfl, rfl, ?_, by simp only; omega⟩
      cases r.prodLap <;> simp [bitOf] <;> omega
  obtain ⟨hcons, hlap, hprod, hlt⟩ := hshift
  refine ⟨hlt, hcons ▸ hc, ?_⟩
  have hbit : n * bitOf r.consLap ≤ n := by cases r.consLap <;> simp [bitOf]
  unfold ReportUnit.distance at hd ⊢
  rw [hcons, hlap]
  have hnext : ((r.advance n).prod + n * bitOf (r.advance n).prodLap + 2 * n - (r.cons + n * bitOf r.consLap)) % (2 * n) =
      (r.prod + n * bitOf r.prodLap + 2 * n - (r.cons + n * bitOf r.consLap) + 1) % (2 * n) := by
    rcases hprod with h | h
    · congr 1
      omega
    · rw [← Nat.add_mod_right]
      congr 1
      omega
  rw [hnext, Nat.add_mod, Nat.mod_eq_of_lt (a := 1) (by omega), Nat.mod_eq_of_lt (by omega)]

theorem consume_ringKept (r : ReportUnit) (n : Nat) (word : Word) (hn : 0 < n) (hp : r.prod < n) :
    (r.consume n word).prod < n ∧ (r.consume n word).cons < n ∧ (r.consume n word).distance n ≤ n := by
  simp only [ReportUnit.consume]
  split
  · refine ⟨hp, hp, ?_⟩
    rw [distance_self _ n rfl rfl]
    exact Nat.zero_le n
  · exact ⟨hp, Nat.mod_lt _ hn, by omega⟩

theorem ringSize_of_imageGood {image : List Word} (h : imageGood image = true) :
    (imageValues image).ringSize ∈ ringSizes := by
  simp only [imageGood, regionsGood, Bool.and_eq_true, decide_eq_true_eq] at h
  exact h.1.2.1.1.1.1.1.2

theorem ringKept_edit {b b' : Blocks} (h : RingKept (partWith b)) (he : Edit b b') : RingKept (partWith b') := by
  cases he with
  | boot image hm hg =>
    have hring : b.rep.prod = 0 ∧ b.rep.cons = 0 ∧ b.rep.prodLap = b.rep.consLap := by
      simpa [RingKept, partWith, hm] using h
    obtain ⟨hprod, hcons, hlap⟩ := hring
    have hsize := ringSize_of_imageGood hg
    have hpos := ringSize_pos hsize
    rw [ringKept_inService (.inl (by simp [enterActive]))]
    simp only [enterActive, Blocks.requestRefresh_eq]
    rw [distance_self _ _ (by simp only [hprod, hcons]) (by simp only [hlap])]
    exact ⟨hsize, by omega, by omega, Nat.zero_le _⟩
  | consumer word hm =>
    have hm' : InService (b.takeConsumer word) := hm
    obtain ⟨hsize, hprod, -, -⟩ := (ringKept_inService hm).1 h
    exact (ringKept_inService hm').2 ⟨hsize, consume_ringKept b.rep _ word (ringSize_pos hsize) hprod⟩
  | reportSent _ request hm hw hg =>
    obtain ⟨hsize, hprod, hcons, hdist⟩ := (ringKept_inService hm).1 h
    have hroom : b.rep.distance b.image.ringSize < b.image.ringSize := by
      simp only [Blocks.reportWaits, Bool.and_eq_true, decide_eq_true_eq] at hw
      exact hw.2
    unfold Blocks.grantReport at hg
    split at hg
    · cases hg
    · rename_i r rest hq
      cases hg
      obtain ⟨hprod', hcons', hdist'⟩ := distance_advance { b.rep with queue := rest, lost := false } _ hprod hcons hroom
      have hm' : InService { b with rep := { b.rep with queue := rest, lost := false }.advance b.image.ringSize } := hm
      exact (ringKept_inService hm').2 ⟨hsize, hprod', hcons', hdist'.le.trans hroom⟩
  | restarted hm hd =>
    obtain ⟨rep, heq, hrep⟩ := completeRestart_spec b
    have hkept : RingKept (partWith (cleared b)) :=
      (ringKept_inService (b := cleared b) (.inl rfl)).2 ((ringKept_inService (.inr hm)).1 h)
    rw [heq]
    exact ringKept_congr hkept rfl rfl hrep.prod hrep.prodLap hrep.cons hrep.consLap
  | restarting hoff hm time =>
    exact (ringKept_inService (.inr rfl)).2 ((ringKept_inService (.inl hm)).1 h)
  | latch c x hlay hgeom hstate =>
    rw [moveHold_eq]
    exact ringKept_congr h rfl rfl rfl rfl rfl rfl
  | freed e he =>
    rw [freeEntryOf_eq]
    exact ringKept_congr h rfl rfl rfl rfl rfl rfl
  | allocated n c r hm hfree hroom =>
    obtain ⟨e, reads, tab, heq, -⟩ := allocate_spec b n c r.tag r.oid r.addr r.beats
    rw [heq]
    exact ringKept_congr h rfl rfl rfl rfl rfl rfl
  | rep r hr => exact ringKept_congr h rfl rfl hr.prod hr.prodLap hr.cons hr.consLap
  | _ => exact ringKept_congr h rfl rfl rfl rfl rfl rfl

theorem ringKept_resetWith (cause : ResetCause) : RingKept (partWith (Blocks.resetWith cause)) :=
  (ringKept_outside (by rintro (h | h) <;> cases h)).2 ⟨rfl, rfl, rfl⟩

/-- Settles O60: each edit keeps the ring, the report write with its room, the consumer word with its check. -/
theorem ringNeverOverruns : Obligations.RingNeverOverruns := by
  unfold Obligations.RingNeverOverruns
  refine fun s t hs h => step_keeps_edits (fun b => RingKept (partWith b)) ringKept_resetWith (fun b hm hb => ?_)
    ringKept_edit hs h
  have hout : ¬ InService b := by rintro (h | h) <;> rw [hm] at h <;> cases h
  exact (ringKept_outside (by rintro (h | h) <;> cases h)).2 ((ringKept_outside hout).1 hb)

/-! ## The layouts (R101, R112, R113) -/

theorem layoutsInRange_congr {b b' : Blocks} (h : LayoutsInRange (partWith b)) (htable : b'.layouts = b.layouts)
    (hchans : ∀ c, (b'.chan c).lay = (b.chan c).lay) : LayoutsInRange (partWith b') := by
  obtain ⟨hlayouts, hlay⟩ := h
  refine ⟨fun i => ?_, fun c => ?_⟩
  · change (b'.layout i).inRange
    rw [Blocks.layout, htable]
    exact hlayouts i
  · change (b'.chan c).lay.glide.inRange ∧ (b'.chan c).lay.fade.inRange
    rw [hchans]
    exact hlay c

theorem layoutsInRange_setChan {b : Blocks} (h : LayoutsInRange (partWith b)) (c : Fin 8) (x : Channel)
    (hx : LayKept b.layouts (b.chan c).lay x.lay) : LayoutsInRange (partWith (b.setChan c x)) := by
  obtain ⟨hlayouts, hlay⟩ := h
  refine ⟨hlayouts, fun c' => ?_⟩
  change ((b.setChan c x).chan c').lay.glide.inRange ∧ ((b.setChan c x).chan c').lay.fade.inRange
  rw [Blocks.chan_setChan]
  split
  · exact hx.range hlayouts (hlay c).1 (hlay c).2
  · exact hlay c'

theorem layoutsInRange_table {b : Blocks} (h : LayoutsInRange (partWith b)) (i : Fin 32) (e : LayoutEntry)
    (he : e.inRange) : LayoutsInRange (partWith (writeLayout i e b)) := by
  obtain ⟨hlayouts, hlay⟩ := h
  refine ⟨fun j => ?_, fun c => ?_⟩
  · change (Blocks.layout { b with layouts := b.layouts.set i e } j).inRange
    simp only [Blocks.layout, Fin.getElem_fin, Vector.getElem_set]
    split
    · exact he
    · exact hlayouts j
  · change ((writeLayout i e b).chan c).lay.glide.inRange ∧ ((writeLayout i e b).chan c).lay.fade.inRange
    rw [writeLayout, Blocks.chan_mapChans]
    split <;> exact hlay c

theorem imageLayout_inRange (image : List Word) (i : Fin 32) : (imageLayout image i).inRange :=
  layoutInRange_inRange ..

theorem layoutsInRange_enterActive (image : List Word) (b : Blocks) : LayoutsInRange (partWith (enterActive image b)) := by
  have htable : TableInRange (Vector.ofFn (imageLayout image)) := fun i => by
    simpa using imageLayout_inRange image i
  refine ⟨fun i => ?_, fun c => ?_⟩
  · change ((enterActive image b).layouts[i]).inRange
    rw [enterActive, Blocks.requestRefresh_layouts]
    exact htable i
  · change ((enterActive image b).chan c).lay.glide.inRange ∧ ((enterActive image b).chan c).lay.fade.inRange
    have hchan : (enterActive image b).chan c = bootChannel image c := by
      simp [enterActive, Blocks.chan]
    rw [hchan]
    have hinit := (layKept_initial (Vector.ofFn (imageLayout image)) (layoutInitial (Vector.ofFn (imageLayout image))
      (imageDescriptor image c).home) (imageDescriptor image c).home).range htable
      (glideAt_inRange (htable _)) fadeAtZero_inRange
    unfold bootChannel
    simp only
    split
    · exact (layKept_start _ _ _ _ _).range htable hinit.1 hinit.2
    · exact hinit

theorem layoutsInRange_cleared {b : Blocks} (h : LayoutsInRange (partWith b)) : LayoutsInRange (partWith (cleared b)) := by
  obtain ⟨hlayouts, hlay⟩ := h
  refine ⟨hlayouts, fun c => ?_⟩
  change ((cleared b).chan c).lay.glide.inRange ∧ ((cleared b).chan c).lay.fade.inRange
  have hchan : (cleared b).chan c = restartedChannel b.layouts (b.chan c) := by simp [cleared, Blocks.chan]
  rw [hchan]
  exact (layKept_initial b.layouts (b.chan c).lay _).range hlayouts (hlay c).1 (hlay c).2

theorem layoutsInRange_edit {b b' : Blocks} (h : LayoutsInRange (partWith b)) (he : Edit b b') :
    LayoutsInRange (partWith b') := by
  cases he with
  | chan c x hlay hgeom hstate => exact layoutsInRange_setChan h c x hlay
  | latch c x hlay hgeom hstate =>
    have hmoved : LayoutsInRange (partWith (b.moveHold (b.latchedRef c) (x.geom.bind Geometry.slot))) := by
      rw [moveHold_eq]
      exact layoutsInRange_congr h rfl fun _ => rfl
    refine layoutsInRange_setChan hmoved c x ?_
    rw [chan_moveHold, hlay]
    exact .refl _ _
  | table i e he => exact layoutsInRange_table h i e he
  | boot image hm hg => exact layoutsInRange_enterActive image b
  | restarted hm hd =>
    obtain ⟨rep, heq, -⟩ := completeRestart_spec b
    rw [heq]
    exact layoutsInRange_congr (layoutsInRange_cleared h) rfl fun _ => rfl
  | reportSent _ request hm hw hg =>
    unfold Blocks.grantReport at hg
    split at hg <;> cases hg
    exact layoutsInRange_congr h rfl fun _ => rfl
  | freed e he =>
    rw [freeEntryOf_eq]
    exact layoutsInRange_congr h rfl fun _ => rfl
  | allocated n c r hm hfree hroom =>
    obtain ⟨e, reads, tab, heq, -⟩ := allocate_spec b n c r.tag r.oid r.addr r.beats
    rw [heq]
    exact layoutsInRange_congr h rfl fun _ => rfl
  | _ => exact layoutsInRange_congr h rfl fun _ => rfl

theorem layoutsInRange_resetWith (cause : ResetCause) : LayoutsInRange (partWith (Blocks.resetWith cause)) := by
  have htable : LayoutEntry.reset.inRange := by unfold LayoutEntry.inRange; decide
  have hglide : Glide.reset.inRange := by unfold Glide.inRange; decide
  refine ⟨fun i => ?_, fun c => ?_⟩
  · change ((Vector.replicate 32 LayoutEntry.reset)[i]).inRange
    simpa using htable
  · have hchan : (partWith (Blocks.resetWith cause)).blk.chan c = Channel.reset := by
      simp [partWith, Blocks.resetWith, Blocks.chan]
    rw [hchan]
    exact ⟨hglide, fadeAtZero_inRange⟩

/-- Settles O59: each edit keeps the table, the glides and the fades in range. -/
theorem layoutsStayInRange : Obligations.LayoutsStayInRange := by
  unfold Obligations.LayoutsStayInRange
  exact fun s t hs h => step_keeps_edits (fun b => LayoutsInRange (partWith b)) layoutsInRange_resetWith
    (fun b _ hb => layoutsInRange_congr hb rfl fun _ => rfl) layoutsInRange_edit hs h

/-! ## The tables and queues (R20, R26, R78, R103, R163) -/

/-- An edit that leaves the numbers in use and makes no list longer. -/
theorem tablesFit_congr {b b' : Blocks} (h : TablesFit (partWith b))
    (hnums : b'.rtt.map Entry.num = b.rtt.map Entry.num) (hfetch : b'.fetchQueue.length ≤ b.fetchQueue.length)
    (hrep : b'.rep.queue.length ≤ max 8 b.rep.queue.length)
    (hports : ∀ p, (b'.port p).queue.length ≤ max 4 (b.port p).queue.length)
    (hstacks : ∀ c, (b'.chan c).lay.stack.length ≤ max 6 (b.chan c).lay.stack.length) : TablesFit (partWith b') := by
  obtain ⟨hnodup, hlen, hfetch', hrep', hports', hstacks'⟩ := h
  have hlen' : b'.rtt.length = b.rtt.length := by simpa using congrArg List.length hnums
  exact ⟨hnums ▸ hnodup, hlen' ▸ hlen, hfetch.trans hfetch', hrep.trans (max_le (le_refl 8) hrep'),
    fun p => (hports p).trans (max_le (le_refl 4) (hports' p)),
    fun c => (hstacks c).trans (max_le (le_refl 6) (hstacks' c))⟩

/-- Entries of distinct numbers are at most 64 (R20). -/
theorem length_le_of_nodup {nums : List Tag} (h : nums.Nodup) : nums.length ≤ 64 := by
  have hfin : (nums.map BitVec.toFin).Nodup := h.map fun _ _ => BitVec.eq_of_toFin_eq
  simpa using hfin.length_le_card

theorem tablesFit_setChan {b : Blocks} (h : TablesFit (partWith b)) (c : Fin 8) (x : Channel)
    (hx : x.lay.stack.length ≤ max 6 (b.chan c).lay.stack.length) : TablesFit (partWith (b.setChan c x)) := by
  refine tablesFit_congr h rfl (le_refl _) (le_max_right _ _) (fun p => le_max_right _ _) fun c' => ?_
  rw [Blocks.chan_setChan]
  split
  · next heq => rw [heq]; exact hx
  · exact le_max_right _ _

/-- An edit that leaves every table. -/
theorem tablesFit_same {b b' : Blocks} (h : TablesFit (partWith b)) (hrtt : b'.rtt = b.rtt)
    (hfetch : b'.fetchQueue = b.fetchQueue) (hrep : b'.rep.queue = b.rep.queue) (hports : b'.ports = b.ports)
    (hchans : b'.chans = b.chans) : TablesFit (partWith b') :=
  tablesFit_congr h (by rw [hrtt]) (by rw [hfetch]) (by rw [hrep]; exact le_max_right _ _)
    (fun p => by rw [Blocks.port_congr hports]; exact le_max_right _ _)
    fun c => by rw [Blocks.chan_congr hchans]; exact le_max_right _ _

theorem setEntry_nums (b : Blocks) (e : Entry) : (b.setEntry e).rtt.map Entry.num = b.rtt.map Entry.num := by
  simp only [Blocks.setEntry, List.map_map]
  refine List.map_congr_left fun x _ => ?_
  simp only [Function.comp_apply]
  split
  · exact (‹x.num = e.num›).symm
  · rfl

theorem tablesFit_freed {b : Blocks} (h : TablesFit (partWith b)) (e : Entry) :
    TablesFit (partWith (b.freeEntryOf e)) := by
  obtain ⟨hnodup, hlen, hrest⟩ := h
  rw [freeEntryOf_eq]
  exact ⟨hnodup.sublist (List.filter_sublist.map _), (List.length_filter_le _ _).trans hlen, hrest⟩

theorem freeEntry_fresh {b : Blocks} {n : Tag} (h : b.freeEntry = some n) : n ∉ b.rtt.map Entry.num := by
  have hall := List.find?_some h
  simp only [List.all_eq_true, decide_eq_true_eq] at hall
  rintro hmem
  obtain ⟨e, he, hnum⟩ := List.mem_map.1 hmem
  exact hall e he hnum

theorem tablesFit_allocated {b : Blocks} (h : TablesFit (partWith b)) {n : Tag} (c : Fin 8) (r : UpRequest)
    (hfree : b.freeEntry = some n)
    (hroom : b.fetchQueue.length + (b.classify c r.addr.toNat r.beats).1.reads ≤ Config.fetchQueueSize) :
    TablesFit (partWith (b.allocate n c r.tag r.oid r.addr r.beats)) := by
  obtain ⟨e, reads, tab, heq, hnum, hreads, -⟩ := allocate_spec b n c r.tag r.oid r.addr r.beats
  obtain ⟨hnodup, -, -, hrest⟩ := h
  have hnodup' : ((b.rtt ++ [e]).map Entry.num).Nodup := by
    rw [List.map_append, List.map_singleton, hnum]
    rw [← List.concat_eq_append]
    exact hnodup.concat (freeEntry_fresh hfree)
  rw [heq]
  refine ⟨hnodup', ?_, ?_, hrest⟩
  · change (b.rtt ++ [e]).length ≤ 64
    rw [← List.length_map Entry.num]
    exact length_le_of_nodup hnodup'
  · change (b.fetchQueue ++ reads).length ≤ 32
    rw [List.length_append, hreads]
    exact hroom

theorem tablesFit_enterActive {b : Blocks} (h : TablesFit (partWith b)) (image : List Word) :
    TablesFit (partWith (enterActive image b)) := by
  obtain ⟨hnodup, hlen, hfetch, hrep, -, -⟩ := h
  have hchan : ∀ c, ((enterActive image b).chan c).lay.stack = [] := fun c => by
    have hboot : (enterActive image b).chan c = bootChannel image c := by simp [enterActive, Blocks.chan]
    rw [hboot]
    unfold bootChannel
    simp only
    split <;> rfl
  have hport : ∀ p, ((enterActive image b).port p).queue = [] := fun p => by simp [enterActive, Blocks.port, Port.reset]
  refine ⟨?_, ?_, ?_, ?_, fun p => ?_, fun c => ?_⟩
  · simpa [partWith, enterActive] using hnodup
  · simpa [partWith, enterActive] using hlen
  · simpa [partWith, enterActive] using hfetch
  · simpa [partWith, enterActive, Blocks.requestRefresh_eq] using hrep
  · change ((enterActive image b).port p).queue.length ≤ 4
    rw [hport]
    exact Nat.zero_le 4
  · change ((enterActive image b).chan c).lay.stack.length ≤ 6
    rw [hchan]
    exact Nat.zero_le 6

theorem tablesFit_edit {b b' : Blocks} (h : TablesFit (partWith b)) (he : Edit b b') : TablesFit (partWith b') := by
  cases he with
  | chan c x hlay hgeom hstate => exact tablesFit_setChan h c x hlay.stack
  | latch c x hlay hgeom hstate =>
    have hmoved : TablesFit (partWith (b.moveHold (b.latchedRef c) (x.geom.bind Geometry.slot))) := by
      rw [moveHold_eq]
      exact tablesFit_same h rfl rfl rfl rfl rfl
    refine tablesFit_setChan hmoved c x ?_
    rw [chan_moveHold, hlay]
    exact le_max_right _ _
  | port p u hq =>
    refine tablesFit_congr h rfl (le_refl _) (le_max_right _ _) (fun p' => ?_) fun c => le_max_right _ _
    rw [Blocks.port_setPort]
    split
    · next heq => rw [heq]; exact hq
    · exact le_max_right _ _
  | rep r hr =>
    exact tablesFit_congr h rfl (le_refl _) hr.queue (fun p => le_max_right _ _) fun c => le_max_right _ _
  | entry e e' he hnum hkind =>
    exact tablesFit_congr h (setEntry_nums b e') (le_refl _) (le_max_right _ _) (fun p => le_max_right _ _)
      fun c => le_max_right _ _
  | freed e he => exact tablesFit_freed h e
  | fetchSent =>
    refine tablesFit_congr h rfl ?_ (le_max_right _ _) (fun p => le_max_right _ _) fun c => le_max_right _ _
    rw [List.length_drop]
    exact Nat.sub_le _ _
  | table i e he =>
    refine tablesFit_congr h rfl (le_refl _) (le_max_right _ _) (fun p => le_max_right _ _) fun c => ?_
    rw [writeLayout, Blocks.chan_mapChans]
    split <;> exact le_max_right _ _
  | boot image hm hg => exact tablesFit_enterActive h image
  | allocated n c r hm hfree hroom => exact tablesFit_allocated h c r hfree hroom
  | consumer word hm =>
    have hqueue : (b.takeConsumer word).rep.queue = b.rep.queue := by
      simp only [Blocks.takeConsumer, ReportUnit.consume]
      split <;> rfl
    exact tablesFit_same h rfl rfl hqueue rfl rfl
  | reportSent _ request hm hw hg =>
    unfold Blocks.grantReport at hg
    split at hg
    · cases hg
    · rename_i r rest hq
      cases hg
      refine tablesFit_congr h rfl (le_refl _) (le_max_of_le_right ?_) (fun p => le_max_right _ _)
        fun c => le_max_right _ _
      have hqueue : (ReportUnit.advance { b.rep with queue := rest, lost := false } b.image.ringSize).queue = rest := by
        unfold ReportUnit.advance
        split <;> rfl
      rw [hqueue, hq]
      exact Nat.le_succ _
  | restarted hm hd =>
    obtain ⟨rep, heq, hrep⟩ := completeRestart_spec b
    rw [heq]
    refine tablesFit_congr h rfl (le_refl _) hrep.queue (fun p => le_max_right _ _) fun c => ?_
    have hchan : ({ cleared b with rep := rep } : Blocks).chan c = restartedChannel b.layouts (b.chan c) := by
      simp [cleared, Blocks.chan]
    rw [hchan]
    exact Nat.zero_le _
  | time | slot | latest | restarting => exact tablesFit_same h rfl rfl rfl rfl rfl

theorem tablesFit_resetWith (cause : ResetCause) : TablesFit (partWith (Blocks.resetWith cause)) := by
  refine ⟨List.nodup_nil, Nat.zero_le _, Nat.zero_le _, Nat.zero_le _, fun p => ?_, fun c => ?_⟩
  · have hport : (partWith (Blocks.resetWith cause)).blk.port p = Port.reset := by
      simp [partWith, Blocks.resetWith, Blocks.port]
    rw [hport]
    exact Nat.zero_le _
  · have hchan : (partWith (Blocks.resetWith cause)).blk.chan c = Channel.reset := by
      simp [partWith, Blocks.resetWith, Blocks.chan]
    rw [hchan]
    exact Nat.zero_le _

/-- Settles O56: each edit keeps the room of the table it writes; an allocation has its free number and its room. -/
theorem tablesNeverOverflow : Obligations.TablesNeverOverflow := by
  unfold Obligations.TablesNeverOverflow
  exact fun s t hs h => step_keeps_edits (fun b => TablesFit (partWith b)) tablesFit_resetWith
    (fun b _ hb => tablesFit_same hb rfl rfl rfl rfl rfl) tablesFit_edit hs h

end Sys2Proof.TableProofs
end

section
/-! The holds (O58): each edit keeps the count of the references to every slot, with the geometry in service that the count
rests on. -/

namespace Sys2Proof.HoldProofs

open Sys2Proof.Machine Sys2Proof.StepMoves Sys2Proof.Edits Sys2Proof.TableProofs

/-- What is kept: the geometry in service and the counts (R92). -/
def Held (b : Blocks) : Prop := GeometryInService b ∧ HoldsCounted b

/-- Whether a reference that may be absent is to a slot. -/
def refersAt (r : Option SlotRef) (p : Fin 4) (i : Fin 16) : Bool := r.any fun r => atSlot r p i

theorem latchedOn_eq (b : Blocks) (p : Fin 4) (i : Fin 16) :
    latchedOn b p i = allChans.countP fun c => refersAt (b.latchedRef c) p i := by
  unfold latchedOn
  refine List.countP_congr fun c _ => ?_
  rw [decide_eq_true_eq]
  cases b.latchedRef c <;> simp [refersAt, atSlot]

theorem refersTo_blend {e : Entry} {info : BlendInfo} (h : e.kind = .blend info) (p : Fin 4) (i : Fin 16) :
    e.refersTo p i = atSlot info.slot p i := by
  simp only [Entry.refersTo, h]
  rfl

theorem refersTo_unblended {e : Entry} (h : e.kind = .pass ∨ e.kind = .measure) (p : Fin 4) (i : Fin 16) :
    e.refersTo p i = false := by
  rcases h with h | h <;> simp only [Entry.refersTo, h]

theorem refersTo_congr {e e' : Entry} (h : e'.kind = e.kind) (p : Fin 4) (i : Fin 16) :
    e'.refersTo p i = e.refersTo p i := by
  cases hk : e.kind with
  | pass => rw [refersTo_unblended (.inl (h.trans hk)), refersTo_unblended (.inl hk)]
  | measure => rw [refersTo_unblended (.inr (h.trans hk)), refersTo_unblended (.inr hk)]
  | blend info => rw [refersTo_blend (h.trans hk), refersTo_blend hk]

theorem hold_freeEntryOf (b : Blocks) (e : Entry) (p : Fin 4) (i : Fin 16) :
    ((b.freeEntryOf e).slot p i).hold = (b.slot p i).hold - (e.refersTo p i).toNat := by
  cases hk : e.kind with
  | pass =>
    rw [refersTo_unblended (.inl hk)]
    simp only [Blocks.freeEntryOf, hk]
    rfl
  | measure =>
    rw [refersTo_unblended (.inr hk)]
    simp only [Blocks.freeEntryOf, hk]
    rfl
  | blend info =>
    rw [refersTo_blend hk]
    simp only [Blocks.freeEntryOf, hk]
    exact hold_dropHold _ info.slot p i

/-- Changing the predicate at one element changes the count by that element. -/
theorem countP_update {α : Type} {l : List α} (hl : l.Nodup) {c : α} (hc : c ∈ l) {f g : α → Bool}
    (h : ∀ x, x ≠ c → g x = f x) : l.countP g + (f c).toNat = l.countP f + (g c).toNat := by
  induction l with
  | nil => cases hc
  | cons x rest ih =>
    obtain ⟨hx, hrest⟩ := List.nodup_cons.1 hl
    have hcons : ∀ k : α → Bool, (x :: rest).countP k = rest.countP k + (k x).toNat := fun k => by
      rw [List.countP_cons]
      cases k x <;> rfl
    rw [hcons, hcons]
    rcases List.mem_cons.1 hc with rfl | hc
    · have hsame : rest.countP g = rest.countP f :=
        List.countP_congr fun y hy => by rw [h y fun heq => hx (heq ▸ hy)]
      omega
    · have hne : x ≠ c := fun heq => hx (heq ▸ hc)
      have := ih hrest hc
      rw [h x hne]
      omega

theorem allChans_nodup : allChans.Nodup := by decide

theorem mem_allChans (c : Fin 8) : c ∈ allChans := by revert c; decide

/-- The latched references after one channel's geometry changed. -/
theorem latchedOn_setChan (b : Blocks) (c : Fin 8) (x : Channel) (p : Fin 4) (i : Fin 16) :
    latchedOn (b.setChan c x) p i + (refersAt (b.latchedRef c) p i).toNat =
      latchedOn b p i + (refersAt (x.geom.bind Geometry.slot) p i).toNat := by
  have hsame : (b.setChan c x).latchedRef c = x.geom.bind Geometry.slot := by
    rw [Blocks.latchedRef, Blocks.chan_setChan_same]
  rw [latchedOn_eq, latchedOn_eq, ← hsame]
  refine countP_update (f := fun c => refersAt (b.latchedRef c) p i)
    (g := fun c' => refersAt ((b.setChan c x).latchedRef c') p i) allChans_nodup (mem_allChans c) fun c' hc => ?_
  rw [Blocks.latchedRef, Blocks.chan_setChan_ne _ _ _ _ hc, Blocks.latchedRef]

theorem latchedOn_congr {b b' : Blocks} (h : ∀ c, (b'.chan c).geom = (b.chan c).geom) (p : Fin 4) (i : Fin 16) :
    latchedOn b' p i = latchedOn b p i := by
  unfold latchedOn Blocks.latchedRef
  simp only [h]

/-- An edit of parts that no count reads. -/
theorem held_congr {b b' : Blocks} (h : Held b) (hmode : b'.mode = b.mode) (hrtt : b'.rtt = b.rtt)
    (hgeom : ∀ c, (b'.chan c).geom = (b.chan c).geom) (hstate : ∀ c, (b'.chan c).state = (b.chan c).state)
    (hhold : ∀ p i, (b'.slot p i).hold = (b.slot p i).hold) : Held b' := by
  obtain ⟨⟨hnodup, hoff, hrest, hempty⟩, hcount⟩ := h
  refine ⟨⟨hrtt ▸ hnodup, fun c hc => ?_, fun hm c => ?_, fun hm => ?_⟩, fun p i => ?_⟩
  · rw [hgeom]
    exact hoff c (hstate c ▸ hc)
  · rw [hstate]
    exact hrest (hmode ▸ hm) c
  · rw [hrtt]
    exact hempty (hmode ▸ hm)
  · rw [hhold, latchedOn_congr hgeom, hrtt]
    exact hcount p i

theorem held_chan {b : Blocks} (h : Held b) {c : Fin 8} {x : Channel} (hgeom : x.geom = (b.chan c).geom)
    (hstate : x.state = (b.chan c).state ∨ b.mode = .active ∧
      (x.state = .running ∨ x.state = .stopping ∨ (b.chan c).state = .off ∨ (b.chan c).state = .armed)) :
    Held (b.setChan c x) := by
  obtain ⟨⟨hnodup, hoff, hrest, hempty⟩, hcount⟩ := h
  refine ⟨⟨hnodup, fun c' => ?_, fun hm c' => ?_, hempty⟩, fun p i => ?_⟩
  · rw [Blocks.chan_setChan]
    split
    · intro hx
      rw [hgeom]
      refine hoff c ?_
      rcases hstate with hsame | ⟨-, hrun | hstop | hold | hold⟩
      · exact hsame ▸ hx
      · rw [hrun] at hx; rcases hx with hx | hx <;> cases hx
      · rw [hstop] at hx; rcases hx with hx | hx <;> cases hx
      · exact .inl hold
      · exact .inr hold
    · exact hoff c'
  · rw [Blocks.chan_setChan]
    split
    · rcases hstate with hsame | ⟨hactive, -⟩
      · exact hsame.trans (hrest hm c)
      · exact absurd hactive hm
    · exact hrest hm c'
  · have hlatched := latchedOn_setChan b c x p i
    rw [hgeom] at hlatched
    have hsame : latchedOn (b.setChan c x) p i = latchedOn b p i := Nat.add_right_cancel hlatched
    rw [Blocks.slot_setChan, hsame]
    exact hcount p i

theorem hold_moveHold_eq (b : Blocks) (x y : Option SlotRef) (p : Fin 4) (i : Fin 16) :
    ((b.moveHold x y).slot p i).hold =
      (b.slot p i).hold - (refersAt x p i && !refersAt y p i).toNat + (!refersAt x p i && refersAt y p i).toNat := by
  have h := hold_moveHold b x y p i
  simp only at h
  rw [h]
  change (if refersAt x p i = refersAt y p i then _ else if refersAt y p i = true then _ else _) = _
  cases refersAt x p i <;> cases refersAt y p i <;> simp

theorem held_latch {b : Blocks} (h : Held b) {c : Fin 8} {x : Channel}
    (hgeom : x.state = .off ∨ x.state = .armed → x.geom = none) (hstate : x.state = .off ∨ b.mode = .active) :
    Held ((b.moveHold (b.latchedRef c) (x.geom.bind Geometry.slot)).setChan c x) := by
  obtain ⟨⟨hnodup, hoff, hrest, hempty⟩, hcount⟩ := h
  have hmoved : ∀ c', (b.moveHold (b.latchedRef c) (x.geom.bind Geometry.slot)).chan c' = b.chan c' := fun c' =>
    chan_moveHold c' b _ _
  have hmode : (b.moveHold (b.latchedRef c) (x.geom.bind Geometry.slot)).mode = b.mode := by rw [moveHold_eq]
  have hrtt : (b.moveHold (b.latchedRef c) (x.geom.bind Geometry.slot)).rtt = b.rtt := by rw [moveHold_eq]
  refine ⟨⟨?_, fun c' => ?_, fun hm c' => ?_, fun hm => ?_⟩, fun p i => ?_⟩
  · rw [Blocks.setChan_rtt, hrtt]
    exact hnodup
  · rw [Blocks.chan_setChan]
    split
    · exact hgeom
    · rw [hmoved]
      exact hoff c'
  · rw [Blocks.setChan_mode, hmode] at hm
    rw [Blocks.chan_setChan]
    split
    · exact hstate.resolve_right hm
    · rw [hmoved]
      exact hrest hm c'
  · rw [Blocks.setChan_mode, hmode] at hm
    rw [Blocks.setChan_rtt, hrtt]
    exact hempty hm
  · have hlatched := latchedOn_setChan (b.moveHold (b.latchedRef c) (x.geom.bind Geometry.slot)) c x p i
    have hsame : latchedOn (b.moveHold (b.latchedRef c) (x.geom.bind Geometry.slot)) p i = latchedOn b p i :=
      latchedOn_congr (fun c' => by rw [hmoved]) p i
    rw [hsame] at hlatched
    have hbefore : (b.moveHold (b.latchedRef c) (x.geom.bind Geometry.slot)).latchedRef c = b.latchedRef c := by
      rw [Blocks.latchedRef, hmoved, Blocks.latchedRef]
    have hcounted := hcount p i
    have hone : (refersAt (b.latchedRef c) p i).toNat ≤ latchedOn b p i := by
      rw [latchedOn_eq]
      cases hr : refersAt (b.latchedRef c) p i with
      | false => exact Nat.zero_le _
      | true => exact List.countP_pos_iff.2 ⟨c, mem_allChans c, hr⟩
    rw [hbefore] at hlatched
    rw [Blocks.slot_setChan, hold_moveHold_eq, Blocks.setChan_rtt, hrtt]
    revert hlatched hone
    cases refersAt (b.latchedRef c) p i <;> cases refersAt (x.geom.bind Geometry.slot) p i <;>
      simp only [Bool.toNat_true, Bool.toNat_false, Bool.not_true, Bool.not_false, Bool.and_true, Bool.and_false] <;>
      omega

/-- An entry stands in the RTT between those before and those after it. -/
theorem rtt_split {b : Blocks} {e : Entry} (he : e ∈ b.rtt) : ∃ before after, b.rtt = before ++ e :: after :=
  List.append_of_mem he

theorem held_entry {b : Blocks} (h : Held b) {e e' : Entry} (he : e ∈ b.rtt) (hnum : e'.num = e.num)
    (hkind : e'.kind = e.kind) : Held (b.setEntry e') := by
  obtain ⟨⟨hnodup, hoff, hrest, hempty⟩, hcount⟩ := h
  obtain ⟨before, after, hrtt⟩ := rtt_split he
  refine ⟨⟨?_, hoff, hrest, fun hm => ?_⟩, fun p i => ?_⟩
  · rw [setEntry_nums]
    exact hnodup
  · rw [hempty hm] at he
    cases he
  · have hrefers : e'.refersTo p i = e.refersTo p i := refersTo_congr hkind p i
    have hcounted := hcount p i
    rw [setEntry_eq b before after e e' hrtt hnum hnodup]
    change (b.slot p i).hold = latchedOn b p i + (before ++ e' :: after).countP fun e => e.refersTo p i
    rw [hrtt] at hcounted
    simp only [List.countP_append, List.countP_cons, hrefers] at hcounted ⊢
    exact hcounted

theorem held_freed {b : Blocks} (h : Held b) {e : Entry} (he : e ∈ b.rtt) : Held (b.freeEntryOf e) := by
  obtain ⟨⟨hnodup, hoff, hrest, hempty⟩, hcount⟩ := h
  obtain ⟨before, after, hrtt⟩ := rtt_split he
  have hfilter : (b.rtt.filter fun e' => e'.num ≠ e.num) = before ++ after := by
    rw [hrtt]
    exact filter_entry before after e (hrtt ▸ hnodup)
  have hrtt' : (b.freeEntryOf e).rtt = before ++ after := by rw [freeEntryOf_eq, ← hfilter]
  have hchan : ∀ c, (b.freeEntryOf e).chan c = b.chan c := fun c => by rw [freeEntryOf_eq]; rfl
  have hmode : (b.freeEntryOf e).mode = b.mode := by rw [freeEntryOf_eq]
  refine ⟨⟨?_, fun c => ?_, fun hm c => ?_, fun hm => ?_⟩, fun p i => ?_⟩
  · rw [hrtt', ← hfilter]
    exact hnodup.sublist (List.filter_sublist.map _)
  · rw [hchan]
    exact hoff c
  · rw [hchan]
    exact hrest (hmode ▸ hm) c
  · rw [hempty (hmode ▸ hm)] at he
    cases he
  · have hcounted := hcount p i
    have hlatched : latchedOn (b.freeEntryOf e) p i = latchedOn b p i := latchedOn_congr (fun c => by rw [hchan]) p i
    rw [hold_freeEntryOf, hlatched, hrtt', hcounted, hrtt]
    simp only [List.countP_append, List.countP_cons]
    cases e.refersTo p i <;> simp
    omega

theorem held_allocated {b : Blocks} (h : Held b) {n : Tag} (c : Fin 8) (r : UpRequest) (hm : InService b)
    (hfree : b.freeEntry = some n) : Held (b.allocate n c r.tag r.oid r.addr r.beats) := by
  obtain ⟨⟨hnodup, hoff, hrest, hempty⟩, hcount⟩ := h
  obtain ⟨e, reads, tab, heq, hnum, -, hhold⟩ := allocate_spec b n c r.tag r.oid r.addr r.beats
  refine ⟨⟨?_, ?_, ?_, ?_⟩, fun p i => ?_⟩
  · rw [heq]
    change ((b.rtt ++ [e]).map Entry.num).Nodup
    rw [List.map_append, List.map_singleton, hnum, ← List.concat_eq_append]
    exact hnodup.concat (freeEntry_fresh hfree)
  · rw [heq]
    exact hoff
  · rw [heq]
    exact hrest
  · rw [heq]
    intro hout
    rcases hm with hm | hm <;> rcases hout with hout | hout <;> cases hm.symm.trans hout
  · rw [hhold, hcount p i, heq]
    change _ = latchedOn b p i + (b.rtt ++ [e]).countP fun e => e.refersTo p i
    rw [List.countP_append, List.countP_singleton]
    cases e.refersTo p i <;> simp; omega

/-- No slot is held where no geometry and no BLEND entry is. -/
theorem holdsCounted_none {b : Blocks} (hslots : ∀ p i, (b.slot p i).hold = 0) (hgeom : ∀ c, (b.chan c).geom = none)
    (hrtt : ∀ e ∈ b.rtt, ∀ p i, e.refersTo p i = false) : HoldsCounted b := by
  intro p i
  have hlatched : latchedOn b p i = 0 := by
    rw [latchedOn_eq, List.countP_eq_zero]
    intro c _
    simp [Blocks.latchedRef, hgeom, refersAt]
  rw [hslots, hlatched, Nat.zero_add, eq_comm, List.countP_eq_zero]
  intro e he
  rw [hrtt e he p i]
  exact Bool.false_ne_true

theorem bootChannel_geom (image : List Word) (c : Fin 8) : (bootChannel image c).geom = none := by
  unfold bootChannel
  simp only
  split <;> rfl

theorem resetSlot (p : Fin 4) (i : Fin 16) : ((Vector.replicate 4 PortSlots.reset)[p].slots)[i] = Slot.reset := by
  simp [PortSlots.reset]

theorem held_enterActive {b : Blocks} (h : Held b) {image : List Word} (hm : b.mode = .loading) :
    Held (enterActive image b) := by
  obtain ⟨⟨-, -, -, hempty⟩, -⟩ := h
  have hrtt : (enterActive image b).rtt = [] := by rw [enterActive, Blocks.requestRefresh_rtt]; exact hempty (.inl hm)
  have hmode : (enterActive image b).mode = .active := by rw [enterActive, Blocks.requestRefresh_mode]
  have hgeom : ∀ c, ((enterActive image b).chan c).geom = none := fun c => by
    have hboot : (enterActive image b).chan c = bootChannel image c := by simp [enterActive, Blocks.chan]
    rw [hboot, bootChannel_geom]
  refine ⟨⟨by rw [hrtt]; exact List.nodup_nil, fun c _ => hgeom c, fun hne => absurd hmode hne, fun _ => hrtt⟩,
    holdsCounted_none (fun p i => ?_) hgeom (fun e he => ?_)⟩
  · rw [enterActive, Blocks.slot_requestRefresh]
    change (((Vector.replicate 4 PortSlots.reset)[p].slots)[i]).hold = 0
    rw [resetSlot]
    rfl
  · rw [hrtt] at he
    cases he

theorem held_cleared {b : Blocks} (h : Held b) (hm : b.mode = .restarting) (hd : restartDrained b = true) :
    Held (cleared b) := by
  obtain ⟨⟨hnodup, hoff, hrest, -⟩, -⟩ := h
  have hchan : ∀ c, (cleared b).chan c = restartedChannel b.layouts (b.chan c) := fun c => by simp [cleared, Blocks.chan]
  have hgeom : ∀ c, ((cleared b).chan c).geom = none := fun c => by
    rw [hchan]
    exact hoff c (.inl (hrest (by rw [hm]; decide) c))
  refine ⟨⟨hnodup, fun c _ => hgeom c, fun hne => absurd rfl hne, ?_⟩,
    holdsCounted_none (fun p i => ?_) hgeom (fun e he p i => ?_)⟩
  · rintro (hout | hout) <;> cases hout
  · change (((Vector.replicate 4 PortSlots.reset)[p].slots)[i]).hold = 0
    rw [resetSlot]
    rfl
  · simp only [restartDrained, Blocks.rttDrained, Bool.and_eq_true, List.all_eq_true, decide_eq_true_eq] at hd
    have hpass := (hd.1.1 e he).1
    exact refersTo_unblended (.inl hpass) p i

theorem held_edit {b b' : Blocks} (h : Held b) (he : Edit b b') : Held b' := by
  cases he with
  | chan c x hlay hgeom hstate => exact held_chan h hgeom hstate
  | latch c x hlay hgeom hstate => exact held_latch h hgeom hstate
  | slot p i x hhold =>
    refine held_congr h rfl rfl (fun _ => rfl) (fun _ => rfl) fun p' i' => ?_
    rw [Blocks.slot_setSlot]
    split
    · next hsame => rw [hsame.1, hsame.2]; exact hhold
    · rfl
  | latest p n =>
    refine held_congr h rfl rfl (fun _ => rfl) (fun _ => rfl) fun p' i' => ?_
    by_cases hp : p' = p
    · rw [hp, Blocks.slot, Blocks.portSlots_setPortSlots_same]
      rfl
    · rw [Blocks.slot, Blocks.portSlots_setPortSlots_ne _ _ _ _ hp]
      rfl
  | entry e e' he hnum hkind => exact held_entry h he hnum hkind
  | freed e he => exact held_freed h he
  | table i e he =>
    refine held_congr h rfl rfl (fun c => ?_) (fun c => ?_) fun _ _ => rfl
    · rw [writeLayout, Blocks.chan_mapChans]
      split <;> rfl
    · rw [writeLayout, Blocks.chan_mapChans]
      split <;> rfl
  | restarting hoff hm time =>
    obtain ⟨⟨hnodup, hgeom, -, -⟩, hcount⟩ := h
    refine ⟨⟨hnodup, hgeom, fun _ => hoff, ?_⟩, hcount⟩
    rintro (hout | hout) <;> cases hout
  | boot image hm hg => exact held_enterActive h hm
  | allocated n c r hm hfree hroom => exact held_allocated h c r hm hfree
  | reportSent _ request hm hw hg =>
    unfold Blocks.grantReport at hg
    split at hg <;> cases hg
    exact held_congr h rfl rfl (fun _ => rfl) (fun _ => rfl) fun _ _ => rfl
  | restarted hm hd =>
    obtain ⟨rep, heq, -⟩ := completeRestart_spec b
    rw [heq]
    exact held_congr (held_cleared h hm hd) rfl rfl (fun _ => rfl) (fun _ => rfl) fun _ _ => rfl
  | _ => exact held_congr h rfl rfl (fun _ => rfl) (fun _ => rfl) fun _ _ => rfl

theorem held_resetWith (cause : ResetCause) : Held (Blocks.resetWith cause) := by
  have hchan : ∀ c, (Blocks.resetWith cause).chan c = Channel.reset := fun c => by simp [Blocks.resetWith, Blocks.chan]
  refine ⟨⟨List.nodup_nil, fun c _ => by rw [hchan]; rfl, fun _ c => by rw [hchan]; rfl, fun _ => rfl⟩,
    holdsCounted_none (fun p i => ?_) (fun c => by rw [hchan]; rfl) fun e he => (nomatch he)⟩
  change (((Vector.replicate 4 PortSlots.reset)[p].slots)[i]).hold = 0
  rw [resetSlot]
  rfl

theorem held_bypass {b : Blocks} (hm : b.mode = .loading) (h : Held b) : Held { b with mode := .bypass } := by
  obtain ⟨⟨hnodup, hoff, hrest, hempty⟩, hcount⟩ := h
  exact ⟨⟨hnodup, hoff, fun _ => hrest (by rw [hm]; decide), fun _ => hempty (.inl hm)⟩, hcount⟩

/-- Settles O58: each edit moves holds and references together. -/
theorem holdsAreCounted : Obligations.HoldsAreCounted := by
  unfold Obligations.HoldsAreCounted
  exact fun s t hgeom hcount h => step_keeps_edits Held held_resetWith (fun _ => held_bypass) held_edit ⟨hgeom, hcount⟩ h

end Sys2Proof.HoldProofs
end

section
/-! LOADING and BYPASS (O57): service is never left but by a reset, and out of service a quiet part has nothing to move. -/

namespace Sys2Proof.QuietProofs

open Sys2Proof.Machine Sys2Proof.StepMoves Sys2Proof.Edits Sys2Proof.TableProofs

theorem edit_inService {b b' : Blocks} (hs : InService b) (he : Edit b b') : InService b' := by
  have hmode : ∀ {x : Blocks}, x.mode = b.mode → InService x := fun h => by rw [InService, h]; exact hs
  cases he with
  | latch c x hlay hgeom hstate => exact hmode (by rw [moveHold_eq]; rfl)
  | freed e he => exact hmode (by rw [freeEntryOf_eq])
  | restarting hoff hm time => exact .inr rfl
  | boot image hm hg => exact .inl (by rw [enterActive, Blocks.requestRefresh_mode])
  | allocated n c r hm hfree hroom =>
    obtain ⟨e, reads, tab, heq, -⟩ := allocate_spec b n c r.tag r.oid r.addr r.beats
    exact hmode (by rw [heq])
  | reportSent _ request hm hw hg =>
    unfold Blocks.grantReport at hg
    split at hg <;> cases hg
    exact hmode rfl
  | restarted hm hd => exact .inl (completeRestart_mode b)
  | _ => exact hmode rfl

/-- Service is not left by a move (R150, R169). -/
theorem blockMove_inService {b b' : Blocks} (hs : InService b) (h : BlockMove b b') : InService b' := by
  replace h := edited_blockMove h
  induction h with
  | refl => exact hs
  | tail _ hlast ih => exact edit_inService ih hlast

/-- A quiet part out of service is changed by nothing but the time base, until the boot image is in (R45, R84, R99, R172). -/
theorem blockMove_quiet {b b' : Blocks} (hout : b.mode = .loading ∨ b.mode = .bypass)
    (h : QuietOutsideService (partWith b)) (hmove : BlockMove b b') :
    b' = b ∨ (∃ now, b' = { b with timeBase := now }) ∨ InService b' := by
  obtain ⟨hrtt, hfetch, hqueue, hstatus, hchans, hports, hslots⟩ := h hout
  change b.rtt = [] at hrtt
  change b.fetchQueue = [] at hfetch
  change b.rep.status = .idle at hstatus
  have hnot : ¬ InService b := by
    rintro (hm | hm) <;> rcases hout with hout | hout <;> cases hm.symm.trans hout
  have hactive : b.mode ≠ .active := fun hm => hnot (.inl hm)
  cases hmove with
  | tick => exact .inr (.inl ⟨_, rfl⟩)
  | boot image hm hg => exact .inr (.inr (.inl (by rw [enterActive, Blocks.requestRefresh_mode])))
  | guard words hm => exact absurd hm hnot
  | read c n r hm he hf => exact absurd hm hnot
  | cue s r hm => exact absurd hm hactive
  | consumer word hm => exact absurd hm hnot
  | fetchSent =>
    refine .inl ?_
    rw [hfetch, List.drop_nil, ← hfetch]
  | reportSent _ request hm hw hg => exact absurd hm hnot
  | statusSent hm => exact absurd hm hnot
  | pieceSent p =>
    refine .inl ?_
    have hempty : (b.port p).queue = [] := (hports p).2.1
    simp only [Blocks.grantPiece, hempty]
  | restarted hm hd => exact absurd (.inr hm) hnot
  | programme _ tag oid data status h => simp [Blocks.takeProgramme, Blocks.awaiting, hrtt] at h
  | fetch _ n data status h => simp [Blocks.takeFetch, Blocks.entry?, hrtt] at h
  | lineWrite _ p status h =>
    have hempty : (b.port p).flights = [] := (hports p).2.2
    simp [Blocks.takeLineWrite, hempty] at h
  | reportWrite _ status h =>
    unfold Blocks.takeReportWrite at h
    rw [if_neg (show ¬ (b.mode = .active ∨ b.mode = .restarting) from hnot)] at h
    cases h
  | statusWrite _ h => simp [Blocks.takeStatusWrite, hstatus] at h
  | deliver e h => simp [Blocks.readyEntry, hrtt] at h
  | frameOpen p w h hm => exact absurd hm hactive
  | line p index samples hm => exact absurd hm hactive
  | frameClose p hm => exact absurd hm hactive
  | joinLimit n => exact .inl (by simp [Blocks.expireJoin, Blocks.entry?, hrtt])
  | lossLimit p =>
    have hdue : b.lossDue p = false := by
      unfold Blocks.lossDue
      simp only
      split
      · rfl
      · rw [decide_eq_false hactive]
        rfl
    exact .inl (by simp only [Blocks.expireLoss, hdue, Bool.false_eq_true, if_false])
  | refreshPeriod =>
    have hdue : b.refreshDue = false := by
      unfold InService at hnot
      simp only [not_or] at hnot
      simp [Blocks.refreshDue, hnot]
    exact .inl (by simp only [Blocks.expireRefresh, hdue, Bool.false_eq_true, if_false])

theorem quiet_inService {b : Blocks} (hs : InService b) : QuietOutsideService (partWith b) := by
  intro hout
  rcases hs with hs | hs <;> rcases hout with hout | hout <;> cases hs.symm.trans hout

theorem quiet_blockMove {b b' : Blocks} (h : QuietOutsideService (partWith b)) (hmove : BlockMove b b') :
    QuietOutsideService (partWith b') := by
  by_cases hout : b.mode = .loading ∨ b.mode = .bypass
  · obtain rfl | ⟨now, rfl⟩ | hs := blockMove_quiet hout h hmove
    · exact h
    · exact h
    · exact quiet_inService hs
  · refine quiet_inService (blockMove_inService ?_ hmove)
    unfold InService
    cases hm : b.mode <;> simp [hm] at hout ⊢

theorem quiet_resetWith (cause : ResetCause) : QuietOutsideService (partWith (Blocks.resetWith cause)) := by
  refine fun _ => ⟨rfl, rfl, rfl, rfl, fun c => ?_, fun p => ?_, fun p i => ?_⟩
  · have hchan : (partWith (Blocks.resetWith cause)).blk.chan c = Channel.reset := by
      simp [partWith, Blocks.resetWith, Blocks.chan]
    rw [hchan]
    exact ⟨rfl, rfl⟩
  · have hport : (partWith (Blocks.resetWith cause)).blk.port p = Port.reset := by
      simp [partWith, Blocks.resetWith, Blocks.port]
    rw [hport]
    exact ⟨rfl, rfl, rfl⟩
  · change (((Vector.replicate 4 PortSlots.reset)[p].slots)[i]).state = .free ∧
      (((Vector.replicate 4 PortSlots.reset)[p].slots)[i]).hold = 0
    rw [HoldProofs.resetSlot]
    exact ⟨rfl, rfl⟩

/-- Settles O57: out of service nothing moves, and service is left by a reset alone. -/
theorem loadingAndBypassStayQuiet : Obligations.LoadingAndBypassStayQuiet := by
  unfold Obligations.LoadingAndBypassStayQuiet
  exact fun s t hs h => step_keeps_blocks (fun b => QuietOutsideService (partWith b)) quiet_resetWith
    (fun b hm hb _ => hb (.inl hm)) quiet_blockMove hs h

end Sys2Proof.QuietProofs
end

section
/-! The small statements of the step, the reset and the refusals (O1, O2, O4, O7, O53). -/

namespace Sys2Proof.StepProofs

open Sys2Proof.Machine Sys2Proof.Stated

/-- Settles O1: the front command is run. -/
theorem stepRunsFrontCommand : Obligations.StepRunsFrontCommand := by
  unfold Obligations.StepRunsFrontCommand
  intro c rest s
  rfl

theorem wellFormed_of_not_wf {i : Instr} (h : i.wf = false) (a : Answer) : wellFormed i a = .refused .malformed := by
  rw [wellFormed, h]
  rfl

/-- Settles O7: the commands with a check refuse what fails it, and every other command is well formed. -/
theorem malformedCommandsRefused : Obligations.MalformedCommandsRefused := by
  unfold Obligations.MalformedCommandsRefused
  intro c s hwf hkind
  cases c with
  | bootImageLoad image => exact wellFormed_of_not_wf hwf _
  | acceptRead tag oid addr beats => exact wellFormed_of_not_wf hwf _
  | engineWrite tag oid addr beats data enables => exact wellFormed_of_not_wf hwf _
  | passResponseArrival kind tag oid data status => exact wellFormed_of_not_wf hwf _
  | programmeResponse tag oid data status => exact wellFormed_of_not_wf hwf _
  | fetchResponse entry data status => exact wellFormed_of_not_wf hwf _
  | unknownKind kind target => exact absurd rfl (hkind kind target)
  | _ => cases hwf

/-- Settles O53: reset is rested and meets every invariant. -/
theorem resetMeetsTheInvariants : Obligations.ResetMeetsTheInvariants := by
  unfold Obligations.ResetMeetsTheInvariants
  obtain ⟨hgeom, hcount⟩ := HoldProofs.held_resetWith .powerOn
  exact ⟨RestedProofs.rested_resetWith _ _, SparseProofs.sparseForms_resetWith _ _, TableProofs.tablesFit_resetWith _,
    QuietProofs.quiet_resetWith _, hcount, hgeom, TableProofs.layoutsInRange_resetWith _, TableProofs.ringKept_resetWith _⟩

end Sys2Proof.StepProofs
end

section
/-! The tick, the end of an event and the resets (O2, O3, O4). -/

namespace Sys2Proof.EventProofs

open Sys2Proof.Machine Sys2Proof.Stated

/-! ## What is due (R36, R68, R166) -/

theorem joinDue_eq (b : Blocks) (e : Entry) : b.joinDue e = pastDeadline b.timeBase e := by
  unfold Blocks.joinDue pastDeadline reached
  cases e.state <;> rfl

theorem lossDue_eq (b : Blocks) (p : Fin 4) : b.lossDue p = gapTooLong b b.timeBase p := by
  unfold Blocks.lossDue gapTooLong since
  cases hs : (b.port p).state <;> cases hg : (b.port p).lastGood <;> simp [hs, hg]

theorem refreshDue_eq (b : Blocks) : b.refreshDue = periodOver b b.timeBase := by
  unfold Blocks.refreshDue periodOver since
  rw [Bool.decide_and, Bool.decide_or]

/-- Settles O2: what the tick queues is what is due at the new value. -/
theorem emptyQueueCountsMicrosecond : Obligations.EmptyQueueCountsMicrosecond := by
  unfold Obligations.EmptyQueueCountsMicrosecond
  rintro s now hpending rfl
  refine ⟨by simp, ?_⟩
  have hstep : step s = .next (tick s) := by rw [step, hpending]
  have hjoin : Blocks.joinDue { s.blk with timeBase := s.blk.timeBase + 1 } = pastDeadline (s.blk.timeBase + 1) :=
    funext fun e => joinDue_eq _ e
  have hloss : Blocks.lossDue { s.blk with timeBase := s.blk.timeBase + 1 } = gapTooLong s.blk (s.blk.timeBase + 1) :=
    funext fun p => lossDue_eq _ p
  have hrefresh := refreshDue_eq { s.blk with timeBase := s.blk.timeBase + 1 }
  rw [hstep, tick, dueExpiries, hjoin, hloss, hrefresh]
  rfl

/-- Settles O3: with no drained RESTART the end of the event sets attention and the starvation count; the head request
meets the same blocks, pass slot and counts. -/
theorem eventEndServesTheUpstreamPort : Obligations.EventEndServesTheUpstreamPort := by
  unfold Obligations.EventEndServesTheUpstreamPort
  rintro s t hrestart rfl
  have hend : endEvent s = { s with
      attn := decide (0 < s.blk.distance) || decide (s.blk.mode = .bypass)
      link := { s.link with starvation := starved s } } := by
    rw [endEvent_eq, settle_idle _ _ _ hrestart, attention_eq]
    simp only [starved, Option.isNone_iff_eq_none]
    congr 3
  unfold finish acceptHead
  rw [hend]
  refine ⟨fun hu => by rw [hu], fun r rest hu => ?_⟩
  simp only [hu]
  have hcond := fun {x : State} (hb : x.blk = s.blk) (hp : x.link.passSlot = s.link.passSlot)
    (hc : x.link.untracked = s.link.untracked) => acceptable_congr r hb hp hc
  exact ⟨fun h => if_pos ((hcond rfl rfl rfl).trans h),
    fun h => if_neg fun hacc => Bool.false_ne_true (h.symm.trans ((hcond rfl rfl rfl).symm.trans hacc))⟩

/-- Settles O4: the state after a reset, read field by field. -/
theorem resetClearsEveryBlock : Obligations.ResetClearsEveryBlock := by
  unfold Obligations.ResetClearsEveryBlock
  intro s c cause hc
  have hexec : exec c s = .next (State.resetWith cause s.pending) := by
    rcases hc with ⟨rfl, rfl⟩ | ⟨rfl, rfl⟩ <;> rfl
  have hchan : ∀ ch, (State.resetWith cause s.pending).blk.chan ch = Channel.reset := fun ch => by
    simp [State.resetWith, Blocks.resetWith, Blocks.chan]
  have hport : ∀ p, (State.resetWith cause s.pending).blk.port p = Port.reset := fun p => by
    simp [State.resetWith, Blocks.resetWith, Blocks.port]
  have hslots : ∀ p, (State.resetWith cause s.pending).blk.portSlots p = PortSlots.reset := fun p => by
    simp [State.resetWith, Blocks.resetWith, Blocks.portSlots]
  have hslot : ∀ p i, (State.resetWith cause s.pending).blk.slot p i = Slot.reset := fun p i => by
    simp [Blocks.slot, hslots, PortSlots.reset]
  refine ⟨_, hexec, rfl, rfl, rfl, rfl, rfl, fun ch => ?_, rfl, rfl, fun p => ?_, hslot, fun p => ?_, rfl, rfl,
    fun _ _ => ⟨rfl, rfl⟩, rfl, rfl, rfl, rfl, rfl, rfl, fun _ => rfl, rfl, rfl, rfl, rfl, rfl, rfl, rfl, rfl, rfl, rfl⟩
  · rw [hchan]
    exact ⟨rfl, rfl, rfl, rfl, rfl, rfl, rfl⟩
  · rw [hport]
    exact ⟨rfl, rfl, rfl, rfl⟩
  · rw [hslots]
    rfl

end Sys2Proof.EventProofs
end

section
/-! Requests of the engine (O8 to O14). -/

namespace Sys2Proof.RequestProofs

open Sys2Proof.Machine Sys2Proof.Stated

/-! ## Acceptance (R26, R140, R151) -/

/-- The condition of a read in service: the count of an untracked pair, or an entry and room for the fetch reads. -/
theorem readFits_iff (s : State) (r : UpRequest) :
    (match s.blk.entryFor r.tag with
      | none => decide (s.link.untrackedOf r.tag r.oid < Config.untrackedMax)
      | some (c, n) => n.isSome &&
          decide (s.blk.fetchQueue.length + s.blk.readsNeeded c r.addr r.beats ≤ Config.fetchQueueSize)) = true ↔
      (s.blk.trackedChan r.tag = none ∧ s.link.untrackedOf r.tag r.oid < 255) ∨
      ∃ c, s.blk.trackedChan r.tag = some c ∧ (∃ n : Tag, ∀ e ∈ s.blk.rtt, e.num ≠ n) ∧
        s.blk.fetchQueue.length + s.blk.readsNeeded c r.addr r.beats ≤ 32 := by
  unfold Blocks.entryFor
  cases ht : s.blk.trackedChan r.tag with
  | none =>
    simp only [Option.map_none, decide_eq_true_eq]
    simp [Config.untrackedMax]
  | some c =>
    rw [← freeEntry_isSome]
    simp only [Option.map_some, Bool.and_eq_true, decide_eq_true_eq]
    simp [Config.fetchQueueSize]

/-- Settles O8: the conditions by part state and kind, a read in service by the channel of its tag. -/
theorem acceptanceConditions : Obligations.AcceptanceConditions := by
  unfold Obligations.AcceptanceConditions
  intro s r
  have hread := readFits_iff s r
  simp only [acceptable, Bool.and_eq_true, Option.isNone_iff_eq_none, InService]
  refine and_congr_right fun _ => ?_
  cases hm : s.blk.mode <;> cases hk : r.kind
  case active.read | restarting.read =>
    refine Iff.trans hread ?_
    simp
  all_goals
    simp only [decide_eq_true_eq]
    simp [Config.untrackedMax]

/-- Settles O9: such a request joins the queue of a rested part, and nothing else happens. -/
theorem requestsWaitWithoutEffect : Obligations.RequestsWaitWithoutEffect := by
  unfold Obligations.RequestsWaitWithoutEffect
  intro s tag oid addr beats data enables hrested hwf
  refine ⟨fun hwait => ?_, fun hwrite hwait => ?_⟩
  · change wellFormed _ (.next (present s _)) = _
    rw [wellFormed, Instr.wf, if_pos hwf, present_waits hrested _ hwait]
  · change wellFormed _ (.next (present s _)) = _
    rw [wellFormed, Instr.wf, hwf, hwrite, present_waits hrested _ hwait]
    rfl

/-! ## Requests accepted at once -/

/-- A READ presented to a free upstream port, its conditions met, is accepted (R140). -/
theorem exec_acceptRead {s : State} {tag : Tag} {oid : OrderId} {addr : Addr} {beats : Nat} (hfree : UpstreamFree s)
    (hwf : requestWf addr beats = true) (hacc : acceptable s ⟨.read, tag, oid, addr, beats, [], []⟩ = true) :
    exec (.acceptRead tag oid addr beats) s =
      .next (finish (accept s ⟨.read, tag, oid, addr, beats, [], []⟩)) := by
  change wellFormed _ (.next (present s _)) = _
  rw [wellFormed, Instr.wf, if_pos hwf, present_accepts hfree.1 hfree.2.1 _ hacc]

/-- A WRITE presented to a free upstream port is accepted (R140). -/
theorem exec_engineWrite {s : State} {tag : Tag} {oid : OrderId} {addr : Addr} {beats : Nat} {data : List Byte}
    {enables : List Bool} (hfree : UpstreamFree s) (hwf : requestWf addr beats = true)
    (hwrite : writeWf beats data enables = true) :
    exec (.engineWrite tag oid addr beats data enables) s =
      .next (finish (accept s ⟨.write, tag, oid, addr, beats, data, enables⟩)) := by
  have hacc : acceptable s ⟨.write, tag, oid, addr, beats, data, enables⟩ = true :=
    (acceptanceConditions s _).2 ⟨hfree.2.2, .inl rfl⟩
  change wellFormed _ (.next (present s _)) = _
  rw [wellFormed, Instr.wf, hwf, hwrite, present_accepts hfree.1 hfree.2.1 _ hacc]
  rfl

theorem mem_allChans (c : Fin 8) : c ∈ allChans := by revert c; decide

/-- A tag without a channel or an entry is not tracked (R5, R13). -/
theorem trackedChan_none {b : Blocks} {tag : Tag} (h : ¬ Tracked b tag) : b.trackedChan tag = none := by
  unfold Tracked at h
  simp only [not_or, not_exists, not_and] at h
  obtain ⟨hchan, hentry⟩ := h
  unfold Blocks.trackedChan
  split
  · rename_i c hc
    have htag := List.find?_some hc
    simp only [Bool.and_eq_true, decide_eq_true_eq] at htag
    rw [if_neg]
    rintro (hoff | hany)
    · exact hchan c htag.1 htag.2 hoff
    · simp only [Blocks.rttHasTag, List.any_eq_true, decide_eq_true_eq] at hany
      obtain ⟨e, he, het⟩ := hany
      exact hentry e he het
  · rw [Option.map_eq_none_iff, List.find?_eq_none]
    intro e he
    rw [decide_eq_true_eq]
    exact hentry e he

/-- The channel of a tracked tag is the one that owns it (R5, R13). -/
theorem trackedChan_some {b : Blocks} {tag : Tag} {c : Fin 8} (hown : Owns b tag c) (h : Tracked b tag) :
    b.trackedChan tag = some c := by
  obtain ⟨⟨henabled, htag⟩, hothers⟩ := hown
  have hchan : b.chanOfTag tag = some c := by
    unfold Blocks.chanOfTag
    cases hf : allChans.find? fun c => (b.chan c).desc.enabled && decide ((b.chan c).desc.aoTag.toNat = tag.toNat) with
    | none =>
      have := List.find?_eq_none.1 hf c (mem_allChans c)
      simp [henabled, htag] at this
    | some c' =>
      have hc' := List.find?_some hf
      simp only [Bool.and_eq_true, decide_eq_true_eq] at hc'
      by_contra hne
      exact hothers c' (fun heq => hne (congrArg some heq)) hc'.1 hc'.2
  unfold Blocks.trackedChan
  rw [hchan]
  simp only
  rw [if_pos]
  rcases h with ⟨c', henabled', htag', hoff⟩ | ⟨e, he, het⟩
  · by_cases heq : c' = c
    · exact .inl (heq ▸ hoff)
    · exact absurd htag' (hothers c' heq henabled')
  · refine .inr ?_
    simp only [Blocks.rttHasTag, List.any_eq_true, decide_eq_true_eq]
    exact ⟨e, he, het⟩

theorem accept_loading_read {s : State} {r : UpRequest} (hm : s.blk.mode = .loading) (hk : r.kind = .read) :
    accept s r = { s with link := (s.link.countRead r.tag r.oid).place r } := by
  simp only [accept, hm, hk]

theorem accept_loading_write {s : State} {r : UpRequest} (hm : s.blk.mode = .loading) (hk : r.kind = .write) :
    accept s r = { s with link := (s.link.recordWrite r.tag r.oid false).place r } := by
  simp only [accept, hm, hk]

theorem accept_bypass {s : State} {r : UpRequest} (hm : s.blk.mode = .bypass) :
    accept s r = { s with link := s.link.place r } := by
  simp only [accept, hm]

theorem accept_read {s : State} {r : UpRequest} (hm : InService s) (hk : r.kind = .read) : accept s r = acceptRead s r := by
  rcases hm with hm | hm <;> simp only [accept, hm, hk]

theorem accept_write {s : State} {r : UpRequest} (hm : InService s) (hk : r.kind = .write) :
    accept s r = acceptWrite s r := by
  rcases hm with hm | hm <;> simp only [accept, hm, hk]

/-- Settles O10: in LOADING and of an untracked tag the pair is counted or recorded, in BYPASS nothing is. -/
theorem passRequestsForwarded : Obligations.PassRequestsForwarded := by
  unfold Obligations.PassRequestsForwarded
  rintro s tag oid addr beats data enables k read write hfree hwf rfl rfl rfl
  have hslot := hfree.2.2
  refine ⟨fun hmode hcount => ?_, fun hm hwrite => ?_, fun hm => ⟨?_, fun hwrite => ?_⟩⟩
  · refine ⟨(s.link.countRead tag oid).untracked, ?_, fun tag' oid' => ?_⟩
    · rcases hmode with hm | ⟨hm, htracked⟩
      · have hacc : acceptable s ⟨.read, tag, oid, addr, beats, [], []⟩ = true :=
          (acceptanceConditions s _).2 ⟨hslot, .inr (.inr (.inl ⟨hm, hcount⟩))⟩
        rw [exec_acceptRead hfree hwf hacc, accept_loading_read hm rfl]
        rfl
      · have hnone := trackedChan_none htracked
        have hacc : acceptable s ⟨.read, tag, oid, addr, beats, [], []⟩ = true :=
          (acceptanceConditions s _).2 ⟨hslot, .inr (.inr (.inr (.inl ⟨hm, hnone, hcount⟩)))⟩
        rw [exec_acceptRead hfree hwf hacc, accept_read hm rfl]
        simp only [acceptRead, Blocks.entryFor, hnone, Option.map_none]
        rfl
    · exact untrackedOf_setUntracked s.link tag tag' oid oid' (s.link.untrackedOf tag oid + 1)
  · refine ⟨(s.link.recordWrite tag oid false).writeRecords, ?_, fun tag' oid' => ?_⟩
    · rw [exec_engineWrite hfree hwf hwrite, accept_loading_write hm rfl]
      rfl
    · exact writeRecord_setWriteRecord s.link tag tag' oid oid' (s.link.writeRecord tag oid ++ [false])
  · have hacc : acceptable s ⟨.read, tag, oid, addr, beats, [], []⟩ = true :=
      (acceptanceConditions s _).2 ⟨hslot, .inr (.inl hm)⟩
    rw [exec_acceptRead hfree hwf hacc, accept_bypass hm]
    rfl
  · rw [exec_engineWrite hfree hwf hwrite, accept_bypass hm]
    rfl

/-- Settles O11: the entry of the lowest free number, filled from the classification after the examination. -/
theorem trackedReadTakesEntry : Obligations.TrackedReadTakesEntry := by
  unfold Obligations.TrackedReadTakesEntry
  intro s tag oid addr beats c n b kz hfree hwf hm hown htracked hunused hlowest hb hkz hroom
  have hchan := trackedChan_some hown htracked
  have hn := freeEntry_lowest s.blk n hunused hlowest
  have hexamined : s.blk.examined c addr.toNat beats = b := by rw [hb]; rfl
  have hacc : acceptable s ⟨.read, tag, oid, addr, beats, [], []⟩ = true := by
    refine (acceptanceConditions s _).2 ⟨hfree.2.2, .inr (.inr (.inr (.inr ⟨hm, c, hchan, ⟨n, hunused⟩, ?_⟩)))⟩
    unfold Blocks.readsNeeded
    rw [hexamined, ← hkz]
    exact hroom
  refine ⟨_, (b.allocate n c tag oid addr beats), ?_, rfl, ?_⟩
  · rw [exec_acceptRead hfree hwf hacc, accept_read hm rfl]
    simp only [acceptRead, Blocks.entryFor, hchan, hn, Option.map_some, hexamined]
    rfl
  · subst hkz
    unfold Blocks.allocate
    cases hkind : (b.classify c addr.toNat beats).1 <;> simp only [hkind]

end Sys2Proof.RequestProofs
end

section
/-! Guarded and copied writes, and the consumer word (O12, O13, O14). -/

namespace Sys2Proof.WriteProofs

open Sys2Proof.Machine Sys2Proof.Stated Sys2Proof.RequestProofs

/-! ## The guarded regions (R143) -/

theorem covers_iff_touches (addr : Addr) (beats base size : Nat) :
    covers addr.toNat (beats * 16) base size = true ↔ Touches addr beats base size := covers_iff _ _ _ _

theorem guardedRegion_of_guarded {v : ImageValues} {addr : Addr} {beats region : Nat}
    (h : Guarded v addr beats region) : guardedRegion v addr.toNat (beats * 16) = some region := by
  unfold guardedRegion
  match region, h with
  | 1, hstatus => exact if_pos ((covers_iff_touches _ _ _ _).2 hstatus)
  | 2, ⟨hstatus, hring⟩ =>
    exact (if_neg (mt (covers_iff_touches _ _ _ _).1 hstatus)).trans (if_pos ((covers_iff_touches _ _ _ _).2 hring))
  | 3, ⟨hstatus, hring, hpres⟩ =>
    exact (if_neg (mt (covers_iff_touches _ _ _ _).1 hstatus)).trans
      ((if_neg (mt (covers_iff_touches _ _ _ _).1 hring)).trans (if_pos ((covers_iff_touches _ _ _ _).2 hpres)))

theorem guardedRegion_none {v : ImageValues} {addr : Addr} {beats : Nat} (h : ∀ region, ¬ Guarded v addr beats region) :
    guardedRegion v addr.toNat (beats * 16) = none := by
  have hstatus : ¬ Touches addr beats v.statusBase 256 := h 1
  have hring : ¬ Touches addr beats v.ringBase (v.ringSize * 32) := fun ht => h 2 ⟨hstatus, ht⟩
  have hpres : ¬ Touches addr beats v.presBase (64 * v.slotBytes) := fun ht => h 3 ⟨hstatus, hring, ht⟩
  unfold guardedRegion
  exact (if_neg (mt (covers_iff_touches _ _ _ _).1 hstatus)).trans
    ((if_neg (mt (covers_iff_touches _ _ _ _).1 hring)).trans (if_neg (mt (covers_iff_touches _ _ _ _).1 hpres)))

/-- Settles O12: the first region touched makes the write a null write. -/
theorem guardedWriteBecomesNull : Obligations.GuardedWriteBecomesNull := by
  unfold Obligations.GuardedWriteBecomesNull
  intro s tag oid addr beats region data enables hfree hm hwf hwrite hguarded
  rw [exec_engineWrite hfree hwf hwrite, accept_write hm rfl, acceptWrite, guardedRegion_of_guarded hguarded]
  simp only [acceptGuarded, List.map_const']
  rfl

/-! ## The cells of a write (R145) -/

/-- The byte a list of cells holds for an offset, if any. -/
def cellAt (cells : List Host.Cell) (k : Nat) : Option Byte := (cells.find? fun c => c.1 = k).map Prod.snd

theorem cellAt_cons (c : Host.Cell) (cells : List Host.Cell) (k : Nat) :
    cellAt (c :: cells) k = if c.1 = k then some c.2 else cellAt cells k := by
  unfold cellAt
  rw [List.find?_cons]
  by_cases h : c.1 = k <;> simp [h]

theorem cellAt_none {cells : List Host.Cell} {k : Nat} (h : ∀ c ∈ cells, c.1 ≠ k) : cellAt cells k = none := by
  unfold cellAt
  rw [Option.map_eq_none_iff, List.find?_eq_none]
  intro c hc
  rw [decide_eq_true_eq]
  exact h c hc

theorem any_eq_isSome_cellAt (cells : List Host.Cell) (k : Nat) :
    (cells.any fun c => decide (c.1 = k)) = (cellAt cells k).isSome := by
  unfold cellAt
  rw [Option.isSome_map, List.isSome_find?]

theorem cellAt_shadowCells (cells : List Host.Cell) (k : Nat) :
    cellAt (shadowCells cells) k = if k < 2048 then cellAt cells k else none := by
  induction cells with
  | nil => simp [shadowCells, cellAt]
  | cons c rest ih =>
    unfold shadowCells at ih ⊢
    rw [List.filter_cons, cellAt_cons]
    by_cases hc : c.1 < 2048
    · rw [if_pos (decide_eq_true hc), cellAt_cons, ih]
      by_cases hk : c.1 = k
      · rw [if_pos hk, if_pos hk, if_pos (hk ▸ hc)]
      · rw [if_neg hk, if_neg hk]
    · rw [if_neg (by simpa using hc), ih]
      by_cases hk : c.1 = k
      · rw [if_neg (hk ▸ hc), if_neg (hk ▸ hc)]
      · rw [if_neg hk]

/-- A byte after the writes of cells at distinct keys. -/
theorem get_setAll_cellAt (cells m : List Host.Cell) (hd : cells.Pairwise fun c c' => c.1 ≠ c'.1) (k : Nat) :
    Memory.get (0 : Byte) (Memory.setAll 0 m cells) k = (cellAt cells k).getD (Memory.get 0 m k) := by
  induction cells generalizing m with
  | nil => rfl
  | cons c rest ih =>
    obtain ⟨hc, hrest⟩ := List.pairwise_cons.1 hd
    change Memory.get (0 : Byte) (Memory.setAll 0 (Memory.set 0 m c.1 c.2) rest) k = _
    rw [ih _ hrest, cellAt_cons]
    by_cases hk : c.1 = k
    · subst hk
      rw [if_pos rfl, cellAt_none fun c' hc' => (hc c' hc').symm, Option.getD_none, Option.getD_some,
        Memory.get_set_same]
    · rw [if_neg hk, Memory.get_set_ne _ _ _ _ _ (Ne.symm hk)]

theorem touchesConsumer_eq (cells : List Host.Cell) :
    touchesConsumer cells = ([0, 1, 2, 3] : List Nat).any fun k => (cellAt cells (2048 + k)).isSome := by
  simp only [← any_eq_isSome_cellAt, touchesConsumer, List.any_cons, List.any_nil, Bool.or_false]
  rw [Bool.eq_iff_iff]
  simp only [List.any_eq_true, Bool.or_eq_true, Bool.and_eq_true, decide_eq_true_eq]
  constructor
  · rintro ⟨c, hc, hlo, hhi⟩
    obtain h | h | h | h : c.1 = 2048 ∨ c.1 = 2049 ∨ c.1 = 2050 ∨ c.1 = 2051 := by omega
    · exact .inl ⟨c, hc, h⟩
    · exact .inr (.inl ⟨c, hc, h⟩)
    · exact .inr (.inr (.inl ⟨c, hc, h⟩))
    · exact .inr (.inr (.inr ⟨c, hc, h⟩))
  · rintro (⟨c, hc, h⟩ | ⟨c, hc, h⟩ | ⟨c, hc, h⟩ | ⟨c, hc, h⟩) <;> exact ⟨c, hc, by omega, by omega⟩

theorem enablesPost_eq (cells : List Host.Cell) (s : Fin 32) :
    enablesPost cells s = ([0, 1, 2, 3] : List Nat).all fun k => (cellAt cells (64 * s.val + k)).isSome := by
  simp only [enablesPost, any_eq_isSome_cellAt]

theorem wordByte_consumerWith (w : Word) (cells : List Host.Cell) {k : Nat} (hk : k < 4) :
    wordByte (consumerWith w cells) k = (cellAt cells (2048 + k)).getD (wordByte w k) := by
  simp only [consumerWith]
  rw [wordByte_wordOf _ _ _ _ _ hk]
  interval_cases k <;> rfl

/-! ## The cells of an engine write -/

theorem cueCells_ge (base a : Nat) (data : List Byte) (enables : List Bool) :
    ∀ c ∈ cueCells base a data enables, a ≤ base + c.1 := by
  induction data generalizing a enables with
  | nil => cases enables <;> intro c hc <;> cases hc
  | cons x xs ih =>
    cases enables with
    | nil => intro c hc; cases hc
    | cons e es =>
      intro c hc
      simp only [cueCells] at hc
      split at hc
      · rename_i h
        simp only [Bool.and_eq_true, decide_eq_true_eq] at h
        rcases List.mem_cons.1 hc with rfl | hc
        · simp only; omega
        · have := ih (a + 1) es c hc; omega
      · have := ih (a + 1) es c hc; omega

theorem cueCells_distinct (base a : Nat) (data : List Byte) (enables : List Bool) :
    (cueCells base a data enables).Pairwise fun c c' => c.1 ≠ c'.1 := by
  induction data generalizing a enables with
  | nil => cases enables <;> exact List.Pairwise.nil
  | cons x xs ih =>
    cases enables with
    | nil => exact List.Pairwise.nil
    | cons e es =>
      simp only [cueCells]
      split
      · rename_i h
        simp only [Bool.and_eq_true, decide_eq_true_eq] at h
        refine List.pairwise_cons.2 ⟨fun c hc => ?_, ih _ _⟩
        have := cueCells_ge base (a + 1) xs es c hc
        simp only
        omega
      · exact ih _ _

/-- What an engine write's cells hold for an offset of the cue area (R145). -/
theorem cellAt_cueCells (base a : Nat) (data : List Byte) (enables : List Bool) {k : Nat} (hk : k < 4096) :
    cellAt (cueCells base a data enables) k =
      if a ≤ base + k ∧ enables.getD (base + k - a) false = true then data[base + k - a]? else none := by
  induction data generalizing a enables with
  | nil => cases enables <;> simp [cueCells, cellAt]
  | cons x xs ih =>
    cases enables with
    | nil => simp [cueCells, cellAt]
    | cons e es =>
      have hrest := ih (a + 1) es
      rcases Nat.lt_trichotomy (base + k) a with hlt | heq | hgt
      · rw [if_neg (by omega)]
        refine cellAt_none fun c hc => ?_
        have := cueCells_ge base a _ _ c hc
        omega
      · have hidx : base + k - a = 0 := by omega
        rw [if_neg (by omega)] at hrest
        have hin : (decide (base ≤ a) && decide (a < base + Config.cueAreaBytes)) = true := by
          rw [Bool.and_eq_true, decide_eq_true_eq, decide_eq_true_eq, Config.cueAreaBytes]
          omega
        rw [hidx]
        cases e with
        | false =>
          rw [if_neg (fun h => Bool.false_ne_true h.2)]
          exact hrest
        | true =>
          have hcons : cueCells base a (x :: xs) (true :: es) = (a - base, x) :: cueCells base (a + 1) xs es := by
            simp only [cueCells, Bool.true_and]
            exact if_pos hin
          rw [hcons, cellAt_cons, if_pos (show a - base = k by omega), if_pos ⟨by omega, rfl⟩]
          rfl
      · have hidx : base + k - a = (base + k - (a + 1)) + 1 := by omega
        have hskip : cellAt (cueCells base a (x :: xs) (e :: es)) k = cellAt (cueCells base (a + 1) xs es) k := by
          simp only [cueCells]
          split
          · rename_i h
            simp only [Bool.and_eq_true, decide_eq_true_eq] at h
            rw [cellAt_cons, if_neg (by simp only; omega)]
          · rfl
        rw [hskip, hrest, hidx]
        simp only [List.getD_cons_succ, List.getElem?_cons_succ]
        have hle : a + 1 ≤ base + k ↔ a ≤ base + k := by omega
        simp only [hle]

theorem cellAt_written (v : ImageValues) (addr : Addr) (data : List Byte) (enables : List Bool) {k : Nat}
    (hk : k < 4096) : cellAt (cueCells v.cueBase addr.toNat data enables) k = written v addr data enables k :=
  cellAt_cueCells _ _ _ _ hk

/-- The snoop of cells at distinct keys, stated by the byte `w` they hold for each offset. -/
theorem snoop_eq {cells : List Host.Cell} {w : Nat → Option Byte} (hcell : ∀ k < 4096, cellAt cells k = w k) (s : State) :
    snoop cells s =
      let u : CueUnit := { s.cue with shadow := Memory.setAll 0 s.cue.shadow (shadowCells cells) }
      let word := consumerWith s.link.consumerWord cells
      let posts := decide (s.blk.mode = .active) && [0, 1, 2, 3].all fun k => (w (64 * s.cue.slot.val + k)).isSome
      let t := if posts then chain chainFuel u s.blk else (u, s.blk)
      let told := [0, 1, 2, 3].any fun k => (w (2048 + k)).isSome
      { s with
        cue := t.1
        blk := if told then t.2.takeConsumer word else t.2
        link := { s.link with consumerWord := word } } := by
  have htold : touchesConsumer cells = [0, 1, 2, 3].any fun k => (w (2048 + k)).isSome := by
    rw [touchesConsumer_eq]
    simp (discharger := omega) only [List.any_cons, List.any_nil, hcell]
  have hposts : enablesPost cells s.cue.slot = [0, 1, 2, 3].all fun k => (w (64 * s.cue.slot.val + k)).isSome := by
    rw [enablesPost_eq]
    have hslot := s.cue.slot.isLt
    simp (discharger := omega) only [List.all_cons, List.all_nil, hcell]
  simp only [snoop, htold, hposts, Bool.and_eq_true, decide_eq_true_eq]

theorem byte_shadow_setAll (u : CueUnit) {cells : List Host.Cell} (hd : cells.Pairwise fun c c' => c.1 ≠ c'.1) (k : Nat) :
    ({ u with shadow := Memory.setAll 0 u.shadow (shadowCells cells) } : CueUnit).byte k =
      if k < 2048 then (cellAt cells k).getD (u.byte k) else u.byte k := by
  have hget := get_setAll_cellAt (shadowCells cells) u.shadow (hd.sublist List.filter_sublist) k
  rw [cellAt_shadowCells] at hget
  by_cases hk : k < 2048
  · rw [if_pos hk] at hget ⊢
    exact hget
  · rw [if_neg hk] at hget ⊢
    exact hget

/-- Settles O13: the cells of the write are its enabled bytes of the cue area, read one by one. -/
theorem engineWriteCopiedAndForwarded : Obligations.EngineWriteCopiedAndForwarded := by
  unfold Obligations.EngineWriteCopiedAndForwarded
  intro s tag oid addr beats data enables hfree hm hwf hwrite hguarded w
  let cells := cueCells s.blk.image.cueBase addr.toNat data enables
  have hcell : ∀ k < 4096, cellAt cells k = w k := fun k hk => cellAt_written _ _ _ _ hk
  refine ⟨Memory.setAll 0 s.cue.shadow (shadowCells cells), consumerWith s.link.consumerWord cells, fun k => ?_,
    fun k hk => ?_, ?_⟩
  · rw [byte_shadow_setAll _ (cueCells_distinct _ _ _ _)]
    by_cases hk : k < 2048
    · rw [if_pos hk, if_pos hk, ← hcell k (by omega)]
    · rw [if_neg hk, if_neg hk]
  · rw [wordByte_consumerWith _ _ hk, hcell _ (by omega)]
  · rw [exec_engineWrite hfree hwf hwrite, accept_write hm rfl, acceptWrite, guardedRegion_none hguarded]
    dsimp only
    rw [show snoop (cueCells s.blk.image.cueBase addr.toNat data enables) s = _ from snoop_eq hcell s]
    rfl

/-! ## A write to the consumer word -/

theorem cellAt_words (word : Word) (p : Nat → Bool) (ks : List Nat) (k : Nat) :
    cellAt ((ks.filter p).map fun j => (2048 + j, wordByte word j)) k =
      if 2048 ≤ k ∧ k - 2048 ∈ ks ∧ p (k - 2048) = true then some (wordByte word (k - 2048)) else none := by
  induction ks with
  | nil => simp [cellAt]
  | cons j js ih =>
    rw [List.filter_cons]
    by_cases hhead : 2048 + j = k
    · have hj : k - 2048 = j := by omega
      rw [hj] at ih ⊢
      cases hp : p j with
      | true =>
        rw [if_pos rfl, List.map_cons, cellAt_cons, if_pos hhead, if_pos ⟨by omega, List.mem_cons_self, rfl⟩]
      | false =>
        rw [if_neg Bool.false_ne_true, ih, hp, if_neg (fun h => Bool.false_ne_true h.2.2),
          if_neg (fun h => Bool.false_ne_true h.2.2)]
    · have hskip : cellAt (((if p j = true then j :: js.filter p else js.filter p)).map fun j => (2048 + j, wordByte word j)) k =
          cellAt ((js.filter p).map fun j => (2048 + j, wordByte word j)) k := by
        split
        · rw [List.map_cons, cellAt_cons, if_neg hhead]
        · rfl
      rw [hskip, ih]
      have hmem : 2048 ≤ k → (k - 2048 ∈ j :: js ↔ k - 2048 ∈ js) := fun hk => by
        rw [List.mem_cons, or_iff_right (by omega)]
      exact if_congr (and_congr_right fun hk => and_congr_left fun _ => (hmem hk).symm) rfl rfl

/-- What a write to the consumer word holds for an offset of the cue area. -/
def consumerByte (word : Word) (enables : BitVec 4) (k : Nat) : Option Byte :=
  if 2048 ≤ k ∧ k - 2048 ∈ [0, 1, 2, 3] ∧ enables.getLsbD (k - 2048) = true then some (wordByte word (k - 2048)) else none

theorem consumerByte_at (word : Word) (enables : BitVec 4) {k : Nat} (hk : k < 4) :
    consumerByte word enables (2048 + k) = if enables.getLsbD k = true then some (wordByte word k) else none := by
  have hmem : k ∈ [0, 1, 2, 3] := by
    interval_cases k <;> decide
  unfold consumerByte
  rw [Nat.add_sub_cancel_left]
  exact if_congr ⟨fun h => h.2.2, fun h => ⟨by omega, hmem, h⟩⟩ rfl rfl

theorem isSome_consumerByte (word : Word) (enables : BitVec 4) {k : Nat} (hk : k < 4) :
    (consumerByte word enables (2048 + k)).isSome = enables.getLsbD k := by
  rw [consumerByte_at _ _ hk]
  cases enables.getLsbD k <;> rfl

theorem consumerByte_below (word : Word) (enables : BitVec 4) {k : Nat} (hk : k < 2048) :
    consumerByte word enables k = none := if_neg fun h => by omega

theorem shadowCells_consumerCells (word : Word) (enables : BitVec 4) : shadowCells (consumerCells word enables) = [] := by
  refine List.filter_eq_nil_iff.2 fun c hc => ?_
  obtain ⟨k, _, rfl⟩ := List.mem_map.1 hc
  rw [decide_eq_true_eq]
  omega

theorem any_getLsbD (enables : BitVec 4) : ([0, 1, 2, 3] : List Nat).any enables.getLsbD = decide (enables ≠ 0) := by
  revert enables
  decide

/-- A write to the consumer word copies nothing to the shadow and posts nothing. -/
theorem snoop_consumerCells (word : Word) (enables : BitVec 4) (s : State) :
    snoop (consumerCells word enables) s =
      { s with
        blk := if enables = 0 then s.blk
          else s.blk.takeConsumer (consumerWith s.link.consumerWord (consumerCells word enables))
        link := { s.link with consumerWord := consumerWith s.link.consumerWord (consumerCells word enables) } } := by
  have hposts : ([0, 1, 2, 3] : List Nat).all (fun k => (consumerByte word enables (64 * s.cue.slot.val + k)).isSome) = false := by
    rw [List.all_cons, consumerByte_below _ _ (by have := s.cue.slot.isLt; omega)]
    rfl
  have htold : ([0, 1, 2, 3] : List Nat).any (fun k => (consumerByte word enables (2048 + k)).isSome) = decide (enables ≠ 0) := by
    rw [← any_getLsbD]
    simp (discharger := decide) only [List.any_cons, List.any_nil, isSome_consumerByte]
  have heq := snoop_eq (cells := consumerCells word enables) (w := consumerByte word enables)
    (fun k _ => cellAt_words word _ _ k) s
  simp only [hposts, htold, Bool.and_false, shadowCells_consumerCells] at heq
  rw [heq]
  by_cases he : enables = 0
  · simp only [he, ne_eq, not_true_eq_false, decide_false, Bool.false_eq_true, if_false, if_true]
    rfl
  · simp only [he, ne_eq, not_false_eq_true, decide_true, Bool.false_eq_true, if_false, if_true]
    rfl

/-- Settles O14: the cells lie in the consumer word, so nothing is copied to the shadow and nothing is posted. -/
theorem consumerWordSetsReadIndex : Obligations.ConsumerWordSetsReadIndex := by
  unfold Obligations.ConsumerWordSetsReadIndex
  intro s word enables
  refine ⟨fun hm => congrArg ended (if_neg hm), fun hm he => ?_, fun hm he => ?_⟩
  · have hexec : exec (.reportConsumerWord word enables) s = ended (snoop (consumerCells word enables) s) :=
      congrArg ended (if_pos hm)
    rw [hexec, snoop_consumerCells, if_pos he, he]
    have hcopy : consumerWith s.link.consumerWord (consumerCells word 0) = s.link.consumerWord := wordOf_wordByte _
    rw [hcopy]
    rfl
  · have hexec : exec (.reportConsumerWord word enables) s = ended (snoop (consumerCells word enables) s) :=
      congrArg ended (if_pos hm)
    rw [hexec, snoop_consumerCells, if_neg he]
    refine ⟨consumerWith s.link.consumerWord (consumerCells word enables), fun k hk => ?_, ?_⟩
    · have hcell : cellAt (consumerCells word enables) (2048 + k) = consumerByte word enables (2048 + k) :=
        cellAt_words word _ _ _
      rw [wordByte_consumerWith _ _ hk, hcell, consumerByte_at _ _ hk]
      cases enables.getLsbD k <;> rfl
    · simp only [Blocks.takeConsumer, ReportUnit.consume, lowHalf_toNat]
      rfl

end Sys2Proof.WriteProofs
end

section
/-! The ring of cues: what a stored cue holds, the chain, and what a cue command posts (O20, O21, O23). -/

namespace Sys2Proof.CueProofs

open Sys2Proof.Machine Sys2Proof.Stated

/-! ## The stored slot (R153 to R155) -/

/-- Settles O20: each byte of the stored slot is read back by its word and its place in the word. -/
theorem cueStoredInSlot : Obligations.CueStoredInSlot := by
  unfold Obligations.CueStoredInSlot
  intro u e lap kind target words _ u'
  have hbyte : ∀ i k, i < 16 → k < 4 →
      u'.byte (64 * e.val + (4 * i + k)) = wordByte ((CueRecord.slotWords ⟨kind, target, words⟩ lap).getD i 0) k :=
    fun i k hi hk => byte_store_same u e lap _ i k hi hk
  have hpost : ∀ k < 4, u'.byte (64 * e.val + k) = wordByte (postWord kind target lap) k := fun k hk => by
    have h := hbyte 0 k (by omega) hk
    rwa [Nat.mul_zero, Nat.zero_add] at h
  have hfields : ∀ k < 4, wordByte (postWord kind target lap) k = [kind, target, 0, byteOfNat (128 * bitOf lap)].getD k 0 :=
    fun k hk => wordByte_wordOf _ _ _ _ _ hk
  refine ⟨rfl, rfl, ?_, ?_, ?_, ?_, fun n hn k hk => ?_, fun a ha => ?_⟩
  · exact (hpost 0 (by omega)).trans (hfields 0 (by omega))
  · exact (hpost 1 (by omega)).trans (hfields 1 (by omega))
  · exact (hpost 2 (by omega)).trans (hfields 2 (by omega))
  · refine (hpost 3 (by omega)).trans ((hfields 3 (by omega)).trans ?_)
    cases lap <;> rfl
  · rw [Nat.add_assoc, hbyte (n + 1) k (by omega) hk]
    have hword : (CueRecord.slotWords ⟨kind, target, words⟩ lap).getD (n + 1) 0 = words.getD n 0 := by
      simp [CueRecord.slotWords, List.getD_eq_getElem?_getD, hn]
    rw [hword]
  · rw [show u'.byte a = _ from byte_store u e lap _ a, if_neg (by omega)]

/-! ## The places of the ring (R156) -/

theorem bitOf_true : bitOf true = 1 := rfl

theorem bitOf_false : bitOf false = 0 := rfl

theorem rank_inj {s s' : Fin 32} {l l' : Bool} (h : s.val + 32 * bitOf l = s'.val + 32 * bitOf l') : (s, l) = (s', l') := by
  have hs := s.isLt
  have hs' := s'.isLt
  cases l <;> cases l' <;> simp only [bitOf_true, bitOf_false] at h
  · exact congrArg (·, false) (Fin.ext (by omega))
  · omega
  · omega
  · exact congrArg (·, true) (Fin.ext (by omega))

theorem placeAfter_eq (u : CueUnit) {k : Nat} (hk : k < 32) : placeAfter u k = slotAhead k u.slot u.lap := by
  refine rank_inj (Eq.trans ?_ (slotAhead_rank k u.slot u.lap).symm)
  have hs := u.slot.isLt
  by_cases hwrap : u.slot.val + k < 32
  · simp only [if_pos hwrap]
    cases u.lap <;> simp only [bitOf_true, bitOf_false] <;> omega
  · simp only [if_neg hwrap]
    cases u.lap <;> simp only [bitOf_true, bitOf_false, Bool.not_true, Bool.not_false] <;> omega

theorem placeAfter_one (u : CueUnit) : placeAfter u 1 = nextSlot u.slot u.lap := placeAfter_eq u (by omega)

theorem posted_iff (u : CueUnit) : u.posted = true ↔ u.slotLap u.slot = u.lap := beq_iff_eq

/-- Settles O21: one taking at a time, and no chain ends at a posted slot. -/
theorem chainTakesPostedSlots : Obligations.ChainTakesPostedSlots := by
  unfold Obligations.ChainTakesPostedSlots
  intro u b
  refine ⟨fun h => chain_idle _ _ _ (by rwa [posted_iff]), fun hm hp => ?_, fun hm hp => ?_, chain_shadow _ _ _⟩
  · rw [chain_posted_taken _ _ hm ((posted_iff u).2 hp), placeAfter_one]
    cases he : cueEffect (u.record u.slot) b <;> simp only [carryOut, he] <;> rfl
  · obtain ⟨j, hj, hlast⟩ := exists_unposted u
    exact chain_ends_of chainFuel u b ⟨j, by unfold chainFuel; omega, hlast⟩ ⟨hm, (posted_iff _).2 hp⟩

/-! ## What a cue command posts (log 3) -/

theorem exec_record {i : Instr} {kind target : Byte} {words : List Word} (h : record i = some (kind, target, words))
    (s : State) : exec i s = posted ⟨kind, target, words⟩ s := by
  cases i <;> cases h <;> rfl

/-- Settles O23: outside ACTIVE a cue is stored at the first place free, or nowhere. -/
theorem cuesWaitOutsideActive : Obligations.CuesWaitOutsideActive := by
  unfold Obligations.CuesWaitOutsideActive
  intro s i kind target words hi
  rw [exec_record hi]
  refine ⟨fun hm => ?_, fun hm => ⟨fun k hk hwait hfree => ?_, fun hwait => ?_⟩⟩
  · have hpost : postCue ⟨kind, target, words⟩ s.cue s.blk = (s.cue, s.blk) := by
      unfold postCue
      rcases hm with hm | hm <;> rw [hm]
    simp only [posted, hpost]
    rfl
  · rw [placeAfter_eq _ hk] at hfree ⊢
    have hplace : postPlace s.cue 32 s.cue.slot s.cue.lap = some (slotAhead k s.cue.slot s.cue.lap) :=
      postPlace_at _ _ _ _ k hk (fun j hj => by rw [← placeAfter_eq _ (hj.trans hk)]; exact hwait j hj) hfree
    simp only [posted, postCue, hm, hplace]
    rfl
  · have hplace : postPlace s.cue 32 s.cue.slot s.cue.lap = none :=
      postPlace_none _ _ _ _ fun j hj => by rw [← placeAfter_eq _ hj]; exact hwait j hj
    simp only [posted, postCue, hm, hplace]
    rfl

/-! ## A cue taken in ACTIVE -/

theorem monitorFields_padded (r : CueRecord) : monitorFields r.padded.word = monitorFields r.word := by
  simp (discharger := decide) only [monitorFields, word_padded]

theorem cueEffect_padded (r : CueRecord) (b : Blocks) : cueEffect r.padded b = cueEffect r b := by
  have hkind : r.padded.kind = r.kind := rfl
  have htarget : r.padded.target = r.target := rfl
  unfold cueEffect
  simp (discharger := decide) only [hkind, htarget, cueStartChannel, cueStopChannel, cueWriteLayout, cueSelectLayout,
    cuePushLayout, cuePopLayout, cueFade, cueAssignPresenter, cueSetIngest, ingestSettingsOf, cueSetMonitor,
    cueForceMonitor, cueClearMonitor, cueClearFlags, cueSetReports, word_padded, monitorFields_padded]

/-- A cue posted in ACTIVE is taken at once, and the chain goes on. -/
theorem exec_taken {s : State} {i : Instr} {kind target : Byte} {words : List Word} (hm : s.blk.mode = .active)
    (hi : record i = some (kind, target, words)) :
    exec i s = goesOn s (taken s kind target words) (carryOut s.cue.slot (CueRecord.padded ⟨kind, target, words⟩) s.blk) := by
  rw [exec_record hi]
  simp only [posted, postCue_active _ _ _ hm]
  rfl

theorem exec_carried {s : State} {i : Instr} {kind target : Byte} {words : List Word} {b : Blocks}
    (hm : s.blk.mode = .active) (hi : record i = some (kind, target, words))
    (he : cueEffect ⟨kind, target, words⟩ s.blk = .ok b) :
    exec i s = goesOn s (taken s kind target words) b.requestRefresh := by
  rw [exec_taken hm hi]
  simp only [carryOut, cueEffect_padded, he]

theorem exec_refused {s : State} {i : Instr} {kind target : Byte} {words : List Word} {why : CueRefusal}
    (hm : s.blk.mode = .active) (hi : record i = some (kind, target, words))
    (he : cueEffect ⟨kind, target, words⟩ s.blk = .error why) :
    exec i s = goesOn s (taken s kind target words) (s.blk.raise .cueRefused (refusalSubject s.blk ⟨kind, target, words⟩)
      [wordOfNat s.cue.slot.val, wordOfNat kind.toNat, wordOfNat why.code, wordOfNat target.toNat]).requestRefresh := by
  rw [exec_taken hm hi]
  simp only [carryOut, cueEffect_padded, he]
  rfl

/-! ## The targets (R159) -/

theorem chanOf_val {n : Nat} {c : Fin 8} (h : n = c.val) : chanOf n = some c := by
  subst h
  exact dif_pos c.isLt

theorem layoutOf_val {n : Nat} {i : Fin 32} (h : n = i.val) : layoutOf n = some i := by
  subst h
  exact dif_pos i.isLt

theorem portOf_val {n : Nat} {p : Fin 4} (h : n = p.val) : portOf n = some p := by
  subst h
  exact dif_pos p.isLt

theorem targetChannel_ok {b : Blocks} {n : Nat} {c : Fin 8} (h : n = c.val) (he : (b.chan c).desc.enabled = true) :
    targetChannel b n = .ok c := by
  simp only [targetChannel, chanOf_val h, he, if_true]

theorem targetLayout_ok {n : Nat} {i : Fin 32} (h : n = i.val) : targetLayout n = .ok i := by
  simp only [targetLayout, layoutOf_val h]

theorem targetPort_ok {n : Nat} {p : Fin 4} (h : n = p.val) : targetPort n = .ok p := by
  simp only [targetPort, portOf_val h]

theorem targetPresenter_ok {n : Nat} {p : Option (Fin 4)} (h : n = 255 ∧ p = none ∨ ∃ q : Fin 4, n = q.val ∧ p = some q) :
    targetPresenter n = .ok p := by
  rcases h with ⟨rfl, rfl⟩ | ⟨q, hq, rfl⟩
  · rfl
  · simp only [targetPresenter, portOf_val hq]

/-- The monitor of a cue's number: 0 is A, 1 is B. -/
def monIdAt (n : Nat) : MonId := if n = 0 then .a else .b

theorem targetMonitor_ok {n : Nat} (h : n ≤ 1) : targetMonitor n = .ok (monIdAt n) := by
  obtain rfl | rfl : n = 0 ∨ n = 1 := by omega
  · rfl
  · rfl

theorem targetChannel_bad {b : Blocks} {channel : Byte} (h : BadChannel b channel) :
    targetChannel b channel.toNat = .error .badTarget := by
  unfold targetChannel
  by_cases hc : channel.toNat < 8
  · rw [chanOf_val (c := ⟨channel.toNat, hc⟩) rfl]
    simp only [h ⟨channel.toNat, hc⟩ rfl, Bool.false_eq_true, if_false]
  · rw [show chanOf channel.toNat = none from dif_neg hc]

theorem targetChannel_good {b : Blocks} {channel : Byte} (h : ¬ BadChannel b channel) :
    ∃ c : Fin 8, channel.toNat = c.val ∧ targetChannel b channel.toNat = .ok c := by
  unfold BadChannel at h
  push Not at h
  obtain ⟨c, hc, he⟩ := h
  exact ⟨c, hc, targetChannel_ok hc (by simpa using he)⟩

theorem targetLayout_bad {n : Nat} (h : 31 < n) : targetLayout n = .error .badTarget := by
  rw [targetLayout, show layoutOf n = none from dif_neg (by omega)]

theorem targetPort_bad {n : Nat} (h : 3 < n) : targetPort n = .error .badTarget := by
  rw [targetPort, show portOf n = none from dif_neg (by omega)]

theorem targetPresenter_bad {n : Nat} (h : 3 < n) (h' : n ≠ 255) : targetPresenter n = .error .badTarget := by
  rw [targetPresenter, show portOf n = none from dif_neg (by omega)]
  exact if_neg h'

theorem targetMonitor_bad {n : Nat} (h : 1 < n) : targetMonitor n = .error .badTarget := by
  rw [targetMonitor, show monIdOf n = none from (if_neg (by omega)).trans (if_neg (by omega))]

end Sys2Proof.CueProofs
end

section
/-! The effects of the cues on channels, layouts and monitors (O24 to O30). -/

namespace Sys2Proof.CueEffectProofs

open Sys2Proof.Machine Sys2Proof.Stated Sys2Proof.CueProofs

/-! ## Codes carried in words -/

theorem toNat_eq_iff {n : Nat} (w : BitVec n) {k : Nat} (hk : k < 2 ^ n) : w.toNat = k ↔ w = BitVec.ofNat n k := by
  rw [← BitVec.toNat_inj, BitVec.toNat_ofNat, Nat.mod_eq_of_lt hk]

theorem stackPolicyOf_word (w : Word) : stackPolicyOf w.toNat = if w = 1 then .revert else .hold :=
  if_congr (toNat_eq_iff w (by decide)) rfl rfl

theorem lossPolicyOf_word (w : Word) : lossPolicyOf w.toNat = if w = 1 then .hide else .hold :=
  if_congr (toNat_eq_iff w (by decide)) rfl rfl

theorem forceOf_word {n : Nat} (hn : 2 < 2 ^ n) (w : BitVec n) :
    forceOf w.toNat = if w = BitVec.ofNat n 1 then .forceOn else if w = BitVec.ofNat n 2 then .forceOff else .auto :=
  if_congr (toNat_eq_iff w (by omega)) rfl (if_congr (toNat_eq_iff w (by omega)) rfl rfl)

/-! ## START CHANNEL and STOP CHANNEL -/

theorem active_of_rest {m : Monitor} (h : m.computed = .inhibited ∨ m.computed = .idle) :
    m.active = decide (m.cfg.force = .forceOn) := by
  unfold Monitor.active
  rcases h with h | h <;> rw [h] <;> cases m.cfg.force <;> rfl

theorem start_eq (m : Monitor) : m.start =
    { m with computed := if m.cfg.inhibit then .inhibited else .idle, onCount := 0, offCount := 0, shotCount := 0,
             activity := 0, fresh := true, effective := decide (m.cfg.force = .forceOn) } := by
  have hrest : m.resetRunning.computed = .inhibited ∨ m.resetRunning.computed = .idle := by
    change (if m.cfg.inhibit = true then Computed.inhibited else .idle) = _ ∨
      (if m.cfg.inhibit = true then Computed.inhibited else .idle) = _
    cases m.cfg.inhibit
    · exact .inr rfl
    · exact .inl rfl
  have hactive : m.resetRunning.active = decide (m.cfg.force = .forceOn) := active_of_rest hrest
  unfold Monitor.start
  rw [hactive]
  rfl

/-- The records of a started channel (R115, R136). -/
theorem started_startRecords (b : Blocks) {ch x : Channel} (ha : x.monA = ch.monA) (hb : x.monB = ch.monB)
    (hhome : x.desc.home = ch.desc.home) : Started b.layout ch (x.startRecords b.layouts) := by
  refine ⟨?_, ?_, ?_⟩
  · simp only [Channel.startRecords, layoutStart, effectiveEntry, ha, hb, hhome, start_eq]
    rfl
  · exact (congrArg Monitor.start ha).trans (start_eq _)
  · exact (congrArg Monitor.start hb).trans (start_eq _)

/-- Settles O24: an OFF channel is armed, a STOPPING one resumed, another refuses. -/
theorem startChannelArms : Obligations.StartChannelArms := by
  unfold Obligations.StartChannelArms
  rintro s channel policy c ch hm ⟨hc, hen⟩ rfl
  have heffect : cueEffect ⟨1, channel, [policy]⟩ s.blk =
      match startChannel c (stackPolicyOf policy.toNat) s.blk with
      | some b' => .ok b'
      | none => .error .wrongState := by
    change cueStartChannel ⟨1, channel, [policy]⟩ s.blk = _
    simp only [cueStartChannel, targetChannel_ok hc hen]
    rfl
  refine ⟨fun hoff => ?_, fun hstop => ?_, fun hrun => ?_⟩
  · have hstart : startChannel c (stackPolicyOf policy.toNat) s.blk = some (s.blk.setChan c (Channel.arm s.blk.layouts
        { s.blk.chan c with desc := { (s.blk.chan c).desc with stackPolicy := stackPolicyOf policy.toNat } })) := by
      simp only [startChannel, hoff]
    rw [hstart] at heffect
    exact ⟨_, exec_carried hm rfl heffect, rfl, rfl, rfl, rfl, rfl, rfl, rfl, by rw [← stackPolicyOf_word]; rfl,
      started_startRecords _ rfl rfl rfl⟩
  · have hstart : startChannel c (stackPolicyOf policy.toNat) s.blk = some ((s.blk.setChan c (Channel.startRecords s.blk.layouts
        { s.blk.chan c with desc := { (s.blk.chan c).desc with stackPolicy := stackPolicyOf policy.toNat }, state := .running })
          ).raise .channelState (.channel c (s.blk.chan c).frame) [quadWord 2 1 0 0]) := by
      simp only [startChannel, hstop, Blocks.raiseState, Blocks.raiseChan, Blocks.chan_setChan_same]
      rfl
    rw [hstart] at heffect
    exact ⟨_, exec_carried hm rfl heffect, rfl, rfl, rfl, rfl, rfl, rfl, rfl, by rw [← stackPolicyOf_word]; rfl,
      started_startRecords _ rfl rfl rfl⟩
  · have hstart : startChannel c (stackPolicyOf policy.toNat) s.blk = none := by
      rcases hrun with h | h <;> simp only [startChannel, h]
    rw [hstart] at heffect
    have hsubject : refusalSubject s.blk ⟨1, channel, [policy]⟩ = .channel c (s.blk.chan c).frame := by
      simp only [refusalSubject, chanOf_val hc]
      rfl
    rw [exec_refused hm rfl heffect, hsubject]
    rfl

/-- Settles O25: by the channel's state. -/
theorem stopChannelStops : Obligations.StopChannelStops := by
  unfold Obligations.StopChannelStops
  rintro s channel c ch hm ⟨hc, hen⟩ rfl
  have heffect : cueEffect ⟨2, channel, []⟩ s.blk = .ok (stopChannel c s.blk) := by
    change cueStopChannel ⟨2, channel, []⟩ s.blk = _
    simp only [cueStopChannel, targetChannel_ok hc hen]
    rfl
  rw [exec_carried hm rfl heffect]
  cases hstate : (s.blk.chan c).state <;>
    simp only [stopChannel, hstate, Blocks.raiseState, Blocks.raiseChan, Blocks.chan_setChan_same]
  rfl

/-! ## The layout cues -/

theorem layout_set (b : Blocks) (i j : Fin 32) (e : LayoutEntry) :
    ({ b with layouts := b.layouts.set i e } : Blocks).layout j = if j = i then e else b.layout j := by
  simp only [Blocks.layout, Vector.getElem_set, Fin.getElem_fin, Fin.ext_iff, eq_comm]

/-- Settles O26: each of the three cues by its own record. -/
theorem layoutTableAndSelection : Obligations.LayoutTableAndSelection := by
  unfold Obligations.LayoutTableAndSelection
  refine ⟨fun s entry x y opacity glide fade prescale i hm hi => ?_, fun s channel entry c i hm hc hi => ?_,
    fun s channel c hm hc => ?_⟩
  · have heffect : cueEffect ⟨3, entry, [x, y, opacity, glide, fade, prescale]⟩ s.blk = .ok (writeLayout i
        (layoutInRange x.toNat y.toNat opacity.toNat glide.toNat fade.toNat prescale.toNat) s.blk) := by
      change cueWriteLayout ⟨3, entry, [x, y, opacity, glide, fade, prescale]⟩ s.blk = _
      simp only [cueWriteLayout, targetLayout_ok hi]
      rfl
    refine ⟨_, exec_carried hm rfl heffect, rfl, ?_, fun j hj => ?_, fun c => ?_⟩
    · exact (layout_set s.blk i i _).trans (if_pos rfl)
    · exact (layout_set s.blk i j _).trans (if_neg hj)
    · exact Blocks.chan_mapChans _ _ _
  · have heffect : cueEffect ⟨4, channel, [entry]⟩ s.blk = .ok (selectLayout c i s.blk) := by
      change cueSelectLayout ⟨4, channel, [entry]⟩ s.blk = _
      have hentry : targetLayout ((⟨4, channel, [entry]⟩ : CueRecord).word 1).toNat = .ok i := targetLayout_ok hi
      simp only [cueSelectLayout, targetChannel_ok hc.1 hc.2, hentry]
    exact exec_carried hm rfl heffect
  · have heffect : cueEffect ⟨13, channel, []⟩ s.blk = .ok (clearFlags c s.blk) := by
      change cueClearFlags ⟨13, channel, []⟩ s.blk = _
      simp only [cueClearFlags, targetChannel_ok hc.1 hc.2]
      rfl
    exact exec_carried hm rfl heffect

/-- Settles O27: by the room on the stack and the stack policy; a POP by the newest value, if any. -/
theorem layoutStackPushesAndPops : Obligations.LayoutStackPushesAndPops := by
  unfold Obligations.LayoutStackPushesAndPops
  refine ⟨fun s channel entry c i lay hm hc hi hlay => ?_, fun s channel c lay hm hc hlay => ?_⟩
  · have heffect : cueEffect ⟨5, channel, [entry]⟩ s.blk = .ok (pushLayout c i s.blk) := by
      change cuePushLayout ⟨5, channel, [entry]⟩ s.blk = _
      have hentry : targetLayout ((⟨5, channel, [entry]⟩ : CueRecord).word 1).toNat = .ok i := targetLayout_ok hi
      simp only [cuePushLayout, targetChannel_ok hc.1 hc.2, hentry]
    rw [exec_carried hm rfl heffect, hlay]
    by_cases hroom : (s.blk.chan c).lay.stack.length < 6
    · rw [if_pos hroom]
      have hpush : pushLayout c i s.blk = withLay s.blk c { (s.blk.chan c).lay with
          stack := (s.blk.chan c).lay.stack ++ [(s.blk.chan c).lay.sl], sl := i } := if_pos hroom
      rw [hpush]
    · have hfull : ¬ (s.blk.chan c).lay.stack.length < Config.stackSize := hroom
      cases hpolicy : (s.blk.chan c).desc.stackPolicy <;>
        simp only [hroom, hfull, if_false, if_true, reduceCtorEq, pushLayout, hpolicy, Blocks.raiseChan,
          Blocks.chan_setChan_same, stackFlagWords] <;> rfl
  · have heffect : cueEffect ⟨6, channel, []⟩ s.blk = .ok (popLayout c s.blk) := by
      change cuePopLayout ⟨6, channel, []⟩ s.blk = _
      simp only [cuePopLayout, targetChannel_ok hc.1 hc.2]
      rfl
    rw [exec_carried hm rfl heffect, hlay]
    refine ⟨fun below top hstack => ?_, fun hstack => ?_⟩
    · simp only [popLayout, hstack, List.getLast?_concat, List.dropLast_concat]
      rfl
    · simp only [popLayout, hstack, List.getLast?_nil, Blocks.raiseChan, Blocks.chan_setChan_same, stackFlagWords]
      rfl

/-! ## The setting cues -/

theorem lowHalf_setWidth (x : Half) : lowHalf (x.setWidth 32) = x := by
  apply BitVec.eq_of_toNat_eq
  rw [lowHalf_toNat, BitVec.toNat_setWidth]
  have := x.isLt
  omega

theorem kindNumber_eq (k : ReportKind) : kindNumber k = k.code := by
  cases k <;> rfl

theorem code_le (k : ReportKind) : k.code ≤ 13 := by
  cases k <;> decide

/-- Settles O28: each of the four cues replaces its own fields. -/
theorem settingCuesReplaceTheirFields : Obligations.SettingCuesReplaceTheirFields := by
  unfold Obligations.SettingCuesReplaceTheirFields
  refine ⟨fun s channel target length prescale c lay hm hc hlay => ?_, fun s channel port delay loss c p hm hc hp => ?_,
    fun s port x y w h tw th p hm hp => ?_, fun s mask hm => ?_⟩
  · have heffect : cueEffect ⟨7, channel, [target, length, prescale]⟩ s.blk =
        .ok (fadeChannel c target.toNat length.toNat prescale.toNat s.blk) := by
      change cueFade ⟨7, channel, [target, length, prescale]⟩ s.blk = _
      simp only [cueFade, targetChannel_ok hc.1 hc.2]
      rfl
    rw [exec_carried hm rfl heffect, hlay]
    rfl
  · have heffect : cueEffect ⟨8, channel, [wordOf port 0 0 0, delay, loss]⟩ s.blk =
        .ok (assignPresenter c p delay.toNat (lossPolicyOf loss.toNat) s.blk) := by
      change cueAssignPresenter ⟨8, channel, [wordOf port 0 0 0, delay, loss]⟩ s.blk = _
      have hport : wordByte ((⟨8, channel, [wordOf port 0 0 0, delay, loss]⟩ : CueRecord).word 1) 0 = port :=
        wordByte_wordOf _ _ _ _ 0 (by omega)
      simp only [cueAssignPresenter, targetChannel_ok hc.1 hc.2, hport, targetPresenter_ok hp]
      rfl
    rw [exec_carried hm rfl heffect, ← lossPolicyOf_word]
    rfl
  · have heffect : cueEffect ⟨9, port, [x, y, w, h, tw, th].map (BitVec.setWidth 32)⟩ s.blk =
        .ok (setIngest p ⟨x.toNat, y.toNat, w.toNat, h.toNat, tw.toNat, th.toNat⟩ s.blk) := by
      change cueSetIngest ⟨9, port, [x, y, w, h, tw, th].map (BitVec.setWidth 32)⟩ s.blk = _
      have hsettings : ingestSettingsOf ⟨9, port, [x, y, w, h, tw, th].map (BitVec.setWidth 32)⟩ =
          ⟨x.toNat, y.toNat, w.toNat, h.toNat, tw.toNat, th.toNat⟩ := by
        simp only [ingestSettingsOf, CueRecord.word, List.map, Nat.reduceSub, List.getD_cons_zero, List.getD_cons_succ,
          lowHalf_setWidth]
      simp only [cueSetIngest, targetPort_ok hp, hsettings]
      rfl
    rw [exec_carried hm rfl heffect]
    rfl
  · have heffect : cueEffect ⟨14, 0, [mask]⟩ s.blk = .ok (setReports mask s.blk) := rfl
    refine ⟨_, exec_carried hm rfl heffect, rfl, fun k => ?_⟩
    rw [kindNumber_eq]
    change (mask.setWidth 13).getLsbD (k.code - 1) = _
    rw [BitVec.getLsbD_setWidth, decide_eq_true (by have := code_le k; omega), Bool.true_and]

/-! ## The monitor cues -/

theorem withMon_eq (b : Blocks) (c : Fin 8) {n : Nat} (x : Monitor) :
    b.setChan c ((b.chan c).setMon (monIdAt n) x) = withMon b c n x := by
  unfold monIdAt withMon
  by_cases h : n = 0
  · rw [if_pos h, if_pos h]; rfl
  · rw [if_neg h, if_neg h]; rfl

theorem mon_monIdAt (b : Blocks) (c : Fin 8) (n : Nat) : (b.chan c).mon (monIdAt n) = monOf b c n := by
  unfold monIdAt monOf
  by_cases h : n = 0
  · rw [if_pos h, if_pos h]; rfl
  · rw [if_neg h, if_neg h]; rfl

theorem monModeOf_ne_off (w : Byte) : monModeOf w.toNat ≠ .off ↔ w = 1 ∨ w = 2 := by
  have h1 : w.toNat = 1 ↔ w = 1 := toNat_eq_iff w (by decide)
  have h2 : w.toNat = 2 ↔ w = 2 := toNat_eq_iff w (by decide)
  unfold monModeOf
  by_cases hone : w = 1
  · rw [if_pos (h1.2 hone)]
    exact ⟨fun _ => .inl hone, fun _ => by decide⟩
  · by_cases htwo : w = 2
    · rw [if_neg (mt h1.1 hone), if_pos (h2.2 htwo)]
      exact ⟨fun _ => .inr htwo, fun _ => by decide⟩
    · rw [if_neg (mt h1.1 hone), if_neg (mt h2.1 htwo)]
      exact ⟨fun h => absurd rfl h, fun h => absurd h (not_or.2 ⟨hone, htwo⟩)⟩

theorem monModeOf_byte (w : Byte) :
    monModeOf w.toNat = if w = 1 then .above else if w = 2 then .below else .off :=
  if_congr (toNat_eq_iff w (by decide)) rfl (if_congr (toNat_eq_iff w (by decide)) rfl rfl)

theorem zoneOutside_false {f : MonitorFields} {width height : Nat}
    (h : f.zoneX.toNat < width ∧ f.zoneY.toNat < height ∧ f.zoneW ≠ 0 ∧ f.zoneH ≠ 0) :
    zoneOutside (fieldsZone f) width height = false := by
  obtain ⟨hx, hy, hw, hh⟩ := h
  have hw' : f.zoneW.toNat ≠ 0 := mt (toNat_eq_iff f.zoneW (by decide)).1 hw
  have hh' : f.zoneH.toNat ≠ 0 := mt (toNat_eq_iff f.zoneH (by decide)).1 hh
  rw [zoneOutside_eq, Bool.not_eq_false', decide_eq_true_eq]
  exact ⟨hx, hy, hw', hh'⟩

/-- The record a good SET MONITOR stores (R118, R119). -/
theorem recordOf_eq {f : MonitorFields} {width height : Nat} {on : Bool} (hon : on = decide (f.mode = 1 ∨ f.mode = 2))
    (hzone : on = true → zoneOutside (fieldsZone f) width height = false) :
    recordOf f width height = {
      mode := if f.mode = 1 then .above else if f.mode = 2 then .below else .off
      zone := if on then some ⟨f.zoneX.toNat, f.zoneY.toNat, min f.zoneW.toNat (width - f.zoneX.toNat),
        min f.zoneH.toNat (height - f.zoneY.toNat)⟩ else none
      threshold := max 1 (min f.threshold.toNat 1023)
      level := min f.level.toNat 1000
      hysteresis := min f.hysteresis.toNat 1000
      tracking := if f.tracking = 1 then some (max (-1000) (min 1000 f.offset.toInt)) else none
      delayKind := if f.delayKind = 1 then .oneShot else if f.delayKind = 2 then .latched else .steady
      onDelay := min f.onDelay.toNat 255
      offDelay := min f.offDelay.toNat 255
      inhibit := f.inhibit
      alternate := ⟨min f.alternate.toNat 31, by omega⟩
      force := if f.force = 1 then .forceOn else if f.force = 2 then .forceOff else .auto
      edges := if f.edges = 1 then .make else if f.edges = 2 then .break else if f.edges = 3 then .both else .none } := by
  have husable : (decide (monModeOf f.mode.toNat ≠ .off) && !zoneOutside (fieldsZone f) width height) = on := by
    rw [decide_eq_decide.2 (monModeOf_ne_off f.mode), ← hon]
    cases on with
    | false => rfl
    | true => rw [hzone rfl]; rfl
  have hmode : (if on = true then monModeOf f.mode.toNat else .off) = monModeOf f.mode.toNat := by
    cases on with
    | true => rfl
    | false =>
      have hoff : ¬ (f.mode = 1 ∨ f.mode = 2) := of_decide_eq_false hon.symm
      exact (not_not.1 (mt (monModeOf_ne_off f.mode).1 hoff)).symm
  have htracking : trackingOf f.tracking.toNat f.offset =
      if f.tracking = 1 then some (max (-1000) (min 1000 f.offset.toInt)) else none :=
    if_congr (toNat_eq_iff _ (by decide)) rfl rfl
  have hdelay : delayKindOf f.delayKind.toNat =
      if f.delayKind = 1 then .oneShot else if f.delayKind = 2 then .latched else .steady :=
    if_congr (toNat_eq_iff _ (by decide)) rfl (if_congr (toNat_eq_iff _ (by decide)) rfl rfl)
  have hedges : edgeReportsOf f.edges.toNat =
      if f.edges = 1 then .make else if f.edges = 2 then .break else if f.edges = 3 then .both else .none :=
    if_congr (toNat_eq_iff _ (by decide)) rfl (if_congr (toNat_eq_iff _ (by decide)) rfl
      (if_congr (toNat_eq_iff _ (by decide)) rfl rfl))
  have halternate : layoutClamp f.alternate.toNat = ⟨min f.alternate.toNat 31, by omega⟩ :=
    (layoutClamp_eq _).trans (Fin.ext (Nat.min_comm _ _))
  simp only [recordOf]
  rw [husable, hmode, htracking, hdelay, hedges, halternate, monModeOf_byte, forceOf_word (by decide)]
  rfl

/-- Settles O29: the cue carries the fields as they were, and the record is brought into range. -/
theorem setMonitorStoresItsRecord : Obligations.SetMonitorStoresItsRecord := by
  unfold Obligations.SetMonitorStoresItsRecord
  intro s channel f c d on hm hc hd hmon hon hgood
  have hzone : on = true → zoneOutside (fieldsZone f) d.width d.height = false := fun h => zoneOutside_false (hgood h)
  have hbad : fieldsZoneBad f (s.blk.chan c).desc.width (s.blk.chan c).desc.height = false := by
    rw [← hd]
    unfold fieldsZoneBad
    rw [decide_eq_decide.2 (monModeOf_ne_off f.mode), ← hon]
    cases on with
    | false => rfl
    | true => rw [hzone rfl]; rfl
  have heffect : cueEffect ⟨10, channel, monitorWords f⟩ s.blk = .ok (setMonitor c (monIdAt f.monitor.toNat) f s.blk) := by
    change cueSetMonitor ⟨10, channel, monitorWords f⟩ s.blk = _
    have hfields : monitorFields (⟨10, channel, monitorWords f⟩ : CueRecord).word = f :=
      (monitorFields_padded _).symm.trans (monitorFields_monitorWords f 10 channel)
    simp only [cueSetMonitor, hfields, targetChannel_ok hc.1 hc.2, targetMonitor_ok hmon, hbad, Bool.false_eq_true,
      if_false]
  rw [exec_carried hm rfl heffect, setMonitor, withMon_eq, mon_monIdAt, ← hd, recordOf_eq hon hzone]
  rfl

/-- Settles O30: the two cues by the monitor's record. -/
theorem forceAndClearMonitor : Obligations.ForceAndClearMonitor := by
  unfold Obligations.ForceAndClearMonitor
  intro s channel monitor force c m hm hc hmon hdef
  have hbyte : wordByte (wordOf monitor 0 0 0) 0 = monitor := wordByte_wordOf _ _ _ _ 0 (by omega)
  refine ⟨?_, ?_⟩
  · have heffect : cueEffect ⟨11, channel, [wordOf monitor 0 0 0, force]⟩ s.blk =
        .ok (forceMonitor c (monIdAt monitor.toNat) (forceOf force.toNat) s.blk) := by
      change cueForceMonitor ⟨11, channel, [wordOf monitor 0 0 0, force]⟩ s.blk = _
      have hname : wordByte ((⟨11, channel, [wordOf monitor 0 0 0, force]⟩ : CueRecord).word 1) 0 = monitor := hbyte
      simp only [cueForceMonitor, targetChannel_ok hc.1 hc.2, hname, targetMonitor_ok hmon]
      rfl
    rw [exec_carried hm rfl heffect, forceMonitor, withMon_eq, mon_monIdAt, ← hdef, forceOf_word (by decide)]
    rfl
  · have heffect : cueEffect ⟨12, channel, [wordOf monitor 0 0 0]⟩ s.blk =
        .ok (clearMonitor c (monIdAt monitor.toNat) s.blk) := by
      change cueClearMonitor ⟨12, channel, [wordOf monitor 0 0 0]⟩ s.blk = _
      have hname : wordByte ((⟨12, channel, [wordOf monitor 0 0 0]⟩ : CueRecord).word 1) 0 = monitor := hbyte
      simp only [cueClearMonitor, targetChannel_ok hc.1 hc.2, hname, targetMonitor_ok hmon]
    rw [exec_carried hm rfl heffect, clearMonitor, withMon_eq, mon_monIdAt, ← hdef]
    rfl

end Sys2Proof.CueEffectProofs
end

section
/-! The RESTART cue and the refusals (O31, O22). -/

namespace Sys2Proof.RestartCueProofs

open Sys2Proof.Machine Sys2Proof.Stated Sys2Proof.CueProofs

/-! ## RESTART's effect on the ports (R83) -/

theorem closesComplete_eq (u : Port) (f : OpenFrame) : closesComplete u f = endsAtOnce u f := rfl

theorem restartPort_rest (b : Blocks) (p : Fin 4) :
    restartPort b p = { b with ports := (restartPort b p).ports, slotTab := (restartPort b p).slotTab } := by
  rw [restartPort_eq]
  split
  · split <;> rfl
  all_goals rfl

theorem restartPort_port (b : Blocks) (p q : Fin 4) :
    (restartPort b p).port q = if q = p then
      { b.port p with state := .idle, lastGood := none, flights := flightsAfterRestart (b.port p) } else b.port q := by
  have hidle : ∀ hs : flightsAfterRestart (b.port p) = (b.port p).flights,
      (b.setPort p { b.port p with state := .idle, lastGood := none }).port q = if q = p then
        { b.port p with state := .idle, lastGood := none, flights := flightsAfterRestart (b.port p) } else b.port q := by
    intro hs
    rw [Blocks.port_setPort, hs]
  rw [restartPort_eq]
  cases hstate : (b.port p).state with
  | receiving f =>
    simp only [flightsAfterRestart, hstate]
    by_cases hend : closesComplete (b.port p) f = true
    · have hend' : endsAtOnce (b.port p) f = true := hend
      rw [if_pos hend, if_pos hend', Blocks.port_setSlot, Blocks.port_setPort]
    · have hend' : ¬ endsAtOnce (b.port p) f = true := hend
      rw [if_neg hend, if_neg hend', Blocks.port_setSlot, Blocks.port_setPort]
  | idle | waiting | discarding _ _ | lost => exact hidle (by simp only [flightsAfterRestart, hstate])

theorem restartPort_latest (b : Blocks) (p q : Fin 4) :
    ((restartPort b p).portSlots q).latest = (b.portSlots q).latest := by
  rw [restartPort_eq]
  split
  · split <;> simp
  all_goals rfl

theorem restartPort_slot (b : Blocks) (p q : Fin 4) (i : Fin 16) :
    (restartPort b p).slot q i = if q = p then slotAfterRestart (b.port p) i (b.slot p i) else b.slot q i := by
  rw [restartPort_eq]
  cases hstate : (b.port p).state with
  | receiving f =>
    simp only [slotAfterRestart, hstate]
    have hslot : ∀ u x, ((b.setPort p u).setSlot p f.slot x).slot q i = if q = p ∧ i = f.slot then x else b.slot q i :=
      fun u x => by rw [Blocks.slot_setSlot, Blocks.slot_setPort]
    by_cases hend : closesComplete (b.port p) f = true
    · have hend' : endsAtOnce (b.port p) f = true := hend
      rw [if_pos hend, if_pos hend', hslot]
      by_cases hq : q = p
      · subst hq
        by_cases hi : i = f.slot
        · rw [if_pos ⟨rfl, hi⟩, if_pos rfl, if_pos hi.symm, hi]
          rfl
        · rw [if_neg (fun h => hi h.2), if_pos rfl, if_neg (Ne.symm hi)]
      · rw [if_neg (fun h => hq h.1), if_neg hq]
    · have hend' : ¬ endsAtOnce (b.port p) f = true := hend
      rw [if_neg hend, if_neg hend', hslot]
      by_cases hq : q = p
      · subst hq
        by_cases hi : i = f.slot
        · rw [if_pos ⟨rfl, hi⟩, if_pos rfl, if_pos hi.symm, hi]
        · rw [if_neg (fun h => hi h.2), if_pos rfl, if_neg (Ne.symm hi)]
      · rw [if_neg (fun h => hq h.1), if_neg hq]
  | idle | waiting | discarding _ _ | lost =>
    simp only [slotAfterRestart, hstate, Blocks.slot_setPort]
    by_cases hq : q = p
    · rw [if_pos hq, hq]
    · rw [if_neg hq]

/-- The ports of a list without repetition at RESTART. -/
theorem restartPort_fold (ps : List (Fin 4)) (hn : ps.Nodup) (b : Blocks) :
    let b' := ps.foldl restartPort b
    b' = { b with ports := b'.ports, slotTab := b'.slotTab } ∧
    (∀ q, b'.port q = if q ∈ ps then
      { b.port q with state := .idle, lastGood := none, flights := flightsAfterRestart (b.port q) } else b.port q) ∧
    (∀ q, (b'.portSlots q).latest = (b.portSlots q).latest) ∧
    ∀ q i, b'.slot q i = if q ∈ ps then slotAfterRestart (b.port q) i (b.slot q i) else b.slot q i := by
  induction ps generalizing b with
  | nil => exact ⟨rfl, fun _ => rfl, fun _ => rfl, fun _ _ => rfl⟩
  | cons p ps ih =>
    obtain ⟨hp, hn⟩ := List.nodup_cons.1 hn
    obtain ⟨hrest, hport, hlatest, hslot⟩ := ih hn (restartPort b p)
    simp only [List.foldl_cons]
    refine ⟨by rw [hrest, restartPort_rest], fun q => ?_, fun q => by rw [hlatest, restartPort_latest], fun q i => ?_⟩
    · rw [hport q, restartPort_port]
      by_cases e : q = p
      · subst e
        simp [hp]
      · simp [e]
    · rw [hslot q, restartPort_slot, restartPort_port]
      by_cases e : q = p
      · subst e
        simp [hp]
      · simp [e]

/-! ## The reports of RESTART (R18) -/

theorem restartChannel_fold_rep (cs : List (Fin 8)) (hn : cs.Nodup) (ch : Fin 8 → Channel) (b d : Blocks)
    (hch : ∀ c ∈ cs, b.chan c = ch c) (hrep : b.rep = d.rep) (himage : b.image = d.image) (htime : b.timeBase = d.timeBase) :
    (cs.foldl restartChannel b).rep = ((cs.filter fun c => (ch c).state ≠ .off).foldl
      (fun d c => d.raise .channelState (.channel c (ch c).frame) [quadWord 0 4 0 0]) d).rep := by
  induction cs generalizing b d with
  | nil => exact hrep
  | cons c cs ih =>
    obtain ⟨hc, hn⟩ := List.nodup_cons.1 hn
    have hrest := restartChannel_rest b c
    have hch' : ∀ c' ∈ cs, (restartChannel b c).chan c' = ch c' := fun c' hc' => by
      rw [restartChannel_chan, if_neg fun e : c' = c ∧ _ => hc (e.1 ▸ hc')]
      exact hch c' (List.mem_cons_of_mem _ hc')
    have himage' : (restartChannel b c).image = b.image := by rw [hrest]
    have htime' : (restartChannel b c).timeBase = b.timeBase := by rw [hrest]
    have hrep' := restartChannel_rep b c
    rw [hch c List.mem_cons_self] at hrep'
    rw [List.foldl_cons, List.filter_cons]
    by_cases hoff : (ch c).state = .off
    · rw [if_pos hoff] at hrep'
      rw [if_neg (by simpa using hoff)]
      exact ih hn _ _ hch' (hrep'.trans hrep) (himage'.trans himage) (htime'.trans htime)
    · rw [if_neg hoff] at hrep'
      rw [if_pos (by simpa using hoff), List.foldl_cons]
      refine ih hn _ _ hch' (hrep'.trans (Blocks.raise_rep_congr hrep himage htime _ _ _)) ?_ ?_
      · rw [himage', himage, Blocks.raise_image]
      · rw [htime', htime, Blocks.raise_timeBase]

theorem shownBy_eq (b : Blocks) (p : Fin 4) (i : Fin 16) : allChans.countP (shows b p i) = shownBy b p i := by
  refine congrFun (congrArg List.countP (funext fun c => ?_)) _
  unfold shows names
  cases (b.chan c).geom.bind Geometry.slot <;> rfl

theorem restartChannels_fold (b : Blocks) :
    (restartChannels b).ports = b.ports ∧ (∀ p, ((restartChannels b).portSlots p).latest = (b.portSlots p).latest) ∧
    (∀ p i, (restartChannels b).slot p i = { b.slot p i with hold := (b.slot p i).hold - shownBy b p i }) ∧
    (∀ c, (restartChannels b).chan c = if (b.chan c).state = .off then b.chan c
      else { b.chan c with state := .off, geom := none, buffer := none, deepest := 0 }) ∧
    restartChannels b = { b with
      chans := (restartChannels b).chans, slotTab := (restartChannels b).slotTab, rep := (restartChannels b).rep } := by
  have hfold := restartChannel_fold allChans (by decide) b
  rw [← restartChannels_eq] at hfold
  generalize restartChannels b = x at hfold ⊢
  obtain ⟨hrest, hlatest, hslot, hchan⟩ := hfold
  refine ⟨by rw [hrest], hlatest, fun p i => ?_, fun c => ?_, hrest⟩
  · rw [hslot, shownBy_eq]
  · rw [hchan]
    by_cases hoff : (b.chan c).state = .off
    · rw [if_neg (fun h => h.2 hoff), if_pos hoff]
    · rw [if_pos ⟨RequestProofs.mem_allChans c, hoff⟩, if_neg hoff]

theorem restartPorts_fold (b : Blocks) :
    (∀ p, (restartPorts b).port p = { b.port p with
      state := .idle, lastGood := none, flights := flightsAfterRestart (b.port p) }) ∧
    (∀ p, ((restartPorts b).portSlots p).latest = (b.portSlots p).latest) ∧
    (∀ p i, (restartPorts b).slot p i = slotAfterRestart (b.port p) i (b.slot p i)) ∧
    restartPorts b = { b with ports := (restartPorts b).ports, slotTab := (restartPorts b).slotTab } := by
  have hfold := restartPort_fold allPorts (by decide) b
  rw [show allPorts.foldl restartPort b = restartPorts b from rfl] at hfold
  generalize restartPorts b = x at hfold ⊢
  obtain ⟨hrest, hport, hlatest, hslot⟩ := hfold
  have hmem : ∀ p : Fin 4, p ∈ allPorts := by decide
  refine ⟨fun p => ?_, hlatest, fun p i => ?_, hrest⟩
  · exact (hport p).trans (if_pos (hmem p))
  · exact (hslot p i).trans (if_pos (hmem p))

/-- Settles O31: the channels first, then the ports, on the blocks the channels left. -/
theorem restartCueStopsTheBlocks : Obligations.RestartCueStopsTheBlocks := by
  unfold Obligations.RestartCueStopsTheBlocks
  intro s hm
  have heffect : cueEffect ⟨15, 0, []⟩ s.blk = .ok (takeRestart s.blk) := rfl
  have hreports := restartChannel_fold_rep allChans (by decide) s.blk.chan s.blk s.blk (fun _ _ => rfl) rfl rfl rfl
  rw [← restartChannels_eq] at hreports
  obtain ⟨hports, hclatest, hcslot, hcchan, hcrest⟩ := restartChannels_fold s.blk
  obtain ⟨hpport, hplatest, hpslot, hprest⟩ := restartPorts_fold (restartChannels s.blk)
  refine ⟨takeRestart s.blk, exec_carried hm rfl heffect, ?_⟩
  unfold takeRestart
  generalize restartPorts (restartChannels s.blk) = y at hpport hplatest hpslot hprest ⊢
  generalize restartChannels s.blk = x at *
  have hport : ∀ p, x.port p = s.blk.port p := fun p => Blocks.port_congr hports p
  refine ⟨?_, fun c => ?_, fun p => ?_, fun p => ?_, fun p i => ?_, ?_⟩
  · rw [hprest, hcrest]
  · exact (Blocks.chan_congr (congrArg Blocks.chans hprest) c).trans (hcchan c)
  · exact (hpport p).trans (by rw [hport])
  · exact (hplatest p).trans (hclatest p)
  · exact (hpslot p i).trans (by rw [hport, hcslot])
  · exact (congrArg Blocks.rep hprest).trans hreports

/-! ## The refusals (R159, R160) -/

theorem refusalSubject_eq {b : Blocks} {kind target : Byte} {words : List Word} {subject : Subject}
    (h : IsRefusalSubject b kind target subject) : refusalSubject b ⟨kind, target, words⟩ = subject := by
  obtain ⟨hchan, hnone⟩ := h
  unfold refusalSubject targetsChannel
  by_cases hkind : TargetsChannel kind
  · rw [decide_eq_true (show kind.toNat ∈ [1, 2, 4, 5, 6, 7, 8, 10, 11, 12, 13] from hkind)]
    by_cases hc : target.toNat < 8
    · rw [chanOf_val (c := ⟨target.toNat, hc⟩) rfl]
      exact (hchan ⟨target.toNat, hc⟩ hkind rfl).symm
    · rw [show chanOf target.toNat = none from dif_neg hc]
      exact (hnone (.inr (by omega))).symm
  · rw [decide_eq_false (show ¬ kind.toNat ∈ [1, 2, 4, 5, 6, 7, 8, 10, 11, 12, 13] from hkind)]
    exact (hnone (.inl hkind)).symm

/-- Of two targets of which one is bad, the channel is examined first. -/
theorem targetChannel_or {b : Blocks} {target : Byte} {other : Prop} (h : BadChannel b target ∨ other) :
    targetChannel b target.toNat = .error .badTarget ∨
      (∃ c : Fin 8, target.toNat = c.val ∧ targetChannel b target.toNat = .ok c) ∧ other := by
  by_cases hbad : BadChannel b target
  · exact .inl (targetChannel_bad hbad)
  · exact .inr ⟨targetChannel_good hbad, h.resolve_left hbad⟩

theorem fieldsZoneBad_of {b : Blocks} {target : Byte} {f : MonitorFields} {c : Fin 8} (hc : target.toNat = c.val)
    (hmode : f.mode = 1 ∨ f.mode = 2) (hout : ZoneOutside b target f) :
    fieldsZoneBad f (b.chan c).desc.width (b.chan c).desc.height = true := by
  obtain ⟨c', hc', hout⟩ := hout
  obtain rfl : c' = c := Fin.ext (hc'.symm.trans hc)
  unfold fieldsZoneBad
  rw [decide_eq_true ((CueEffectProofs.monModeOf_ne_off f.mode).2 hmode), Bool.true_and, zoneOutside_eq, Bool.not_eq_true',
    decide_eq_false_iff_not]
  rintro ⟨hx, hy, hw, hh⟩
  have hw' : f.zoneW ≠ 0 := fun h => hw (by rw [fieldsZone, h]; rfl)
  have hh' : f.zoneH ≠ 0 := fun h => hh (by rw [fieldsZone, h]; rfl)
  rcases hout with h | h | h | h
  · exact absurd hx (Nat.not_lt.2 h)
  · exact absurd hy (Nat.not_lt.2 h)
  · exact hw' h
  · exact hh' h

theorem word_monitor (target monitor : Byte) (kind : Byte) (rest : List Word) :
    wordByte ((⟨kind, target, wordOf monitor 0 0 0 :: rest⟩ : CueRecord).word 1) 0 = monitor :=
  wordByte_wordOf _ _ _ _ 0 (by omega)

theorem cueEffect_unknownKind {b : Blocks} {kind target : Byte} {words : List Word} (h : kind.toNat = 0 ∨ 15 < kind.toNat) :
    cueEffect ⟨kind, target, words⟩ b = .error .unknownKind := by
  unfold cueEffect
  split
  case h_16 => rfl
  all_goals
    rename_i hk
    simp only at hk
    omega

/-- A cue refused for a reason has no effect, for that reason. -/
theorem cueEffect_refused {b : Blocks} {i : Instr} {kind target : Byte} {words : List Word} {why : Nat}
    (hi : record i = some (kind, target, words)) (hr : RefusedFor b i why) :
    ∃ r : CueRefusal, cueEffect ⟨kind, target, words⟩ b = .error r ∧ r.code = why := by
  cases i with
  | startChannel _ policy =>
    cases hi
    change ∃ r, cueStartChannel ⟨1, target, [policy]⟩ b = _ ∧ _
    rcases hr with ⟨rfl, hbad⟩ | ⟨rfl, hgood, c, hc, hstate⟩
    · refine ⟨.badTarget, ?_, rfl⟩
      simp only [cueStartChannel, targetChannel_bad hbad]
    · obtain ⟨c', hc', hok⟩ := targetChannel_good hgood
      obtain rfl : c' = c := Fin.ext (hc'.symm.trans hc)
      refine ⟨.wrongState, ?_, rfl⟩
      simp only [cueStartChannel, hok, startChannel]
      rcases hstate with h | h <;> rw [h]
  | stopChannel _ =>
    cases hi
    obtain ⟨rfl, hbad⟩ := hr
    exact ⟨.badTarget, by rw [show cueEffect _ b = cueStopChannel _ b from rfl, cueStopChannel, targetChannel_bad hbad]; rfl, rfl⟩
  | writeLayout _ _ _ _ _ _ _ =>
    cases hi
    obtain ⟨rfl, hbad⟩ := hr
    exact ⟨.badTarget, by rw [show cueEffect _ b = cueWriteLayout _ b from rfl, cueWriteLayout, targetLayout_bad hbad]; rfl, rfl⟩
  | selectLayout _ entry =>
    cases hi
    obtain ⟨rfl, hbad⟩ := hr
    change ∃ r, cueSelectLayout ⟨4, target, [entry]⟩ b = _ ∧ _
    refine ⟨.badTarget, ?_, rfl⟩
    rcases targetChannel_or hbad with h | ⟨⟨c, _, h⟩, hentry⟩
    · simp only [cueSelectLayout, h]
    · have hword : targetLayout ((⟨4, target, [entry]⟩ : CueRecord).word 1).toNat = .error .badTarget := targetLayout_bad hentry
      simp only [cueSelectLayout, h, hword]
  | pushLayout _ entry =>
    cases hi
    obtain ⟨rfl, hbad⟩ := hr
    change ∃ r, cuePushLayout ⟨5, target, [entry]⟩ b = _ ∧ _
    refine ⟨.badTarget, ?_, rfl⟩
    rcases targetChannel_or hbad with h | ⟨⟨c, _, h⟩, hentry⟩
    · simp only [cuePushLayout, h]
    · have hword : targetLayout ((⟨5, target, [entry]⟩ : CueRecord).word 1).toNat = .error .badTarget := targetLayout_bad hentry
      simp only [cuePushLayout, h, hword]
  | popLayout _ =>
    cases hi
    obtain ⟨rfl, hbad⟩ := hr
    exact ⟨.badTarget, by rw [show cueEffect _ b = cuePopLayout _ b from rfl, cuePopLayout, targetChannel_bad hbad]; rfl, rfl⟩
  | fade _ _ _ _ =>
    cases hi
    obtain ⟨rfl, hbad⟩ := hr
    exact ⟨.badTarget, by rw [show cueEffect _ b = cueFade _ b from rfl, cueFade, targetChannel_bad hbad]; rfl, rfl⟩
  | assignPresenter _ port delay loss =>
    cases hi
    obtain ⟨rfl, hbad⟩ := hr
    change ∃ r, cueAssignPresenter ⟨8, target, [wordOf port 0 0 0, delay, loss]⟩ b = _ ∧ _
    refine ⟨.badTarget, ?_, rfl⟩
    rcases targetChannel_or hbad with h | ⟨⟨c, _, h⟩, hport⟩
    · simp only [cueAssignPresenter, h]
    · simp only [cueAssignPresenter, h, word_monitor, targetPresenter_bad hport.1 hport.2]
  | setIngest _ _ _ _ _ _ _ =>
    cases hi
    obtain ⟨rfl, hbad⟩ := hr
    exact ⟨.badTarget, by rw [show cueEffect _ b = cueSetIngest _ b from rfl, cueSetIngest, targetPort_bad hbad]; rfl, rfl⟩
  | setMonitor _ f =>
    cases hi
    change ∃ r, cueSetMonitor ⟨10, target, monitorWords f⟩ b = _ ∧ _
    have hfields : monitorFields (⟨10, target, monitorWords f⟩ : CueRecord).word = f :=
      (monitorFields_padded _).symm.trans (monitorFields_monitorWords f 10 target)
    rcases hr with ⟨rfl, hbad⟩ | ⟨rfl, hgood, hmon, hmode, hout⟩
    · refine ⟨.badTarget, ?_, rfl⟩
      rcases targetChannel_or hbad with h | ⟨⟨c, _, h⟩, hmon⟩
      · simp only [cueSetMonitor, h]
      · simp only [cueSetMonitor, hfields, h, targetMonitor_bad hmon]
    · obtain ⟨c, hc, hok⟩ := targetChannel_good hgood
      refine ⟨.badArgument, ?_, rfl⟩
      simp only [cueSetMonitor, hfields, hok, targetMonitor_ok hmon, fieldsZoneBad_of hc hmode hout, if_true]
  | forceMonitor _ monitor force =>
    cases hi
    obtain ⟨rfl, hbad⟩ := hr
    change ∃ r, cueForceMonitor ⟨11, target, [wordOf monitor 0 0 0, force]⟩ b = _ ∧ _
    refine ⟨.badTarget, ?_, rfl⟩
    rcases targetChannel_or hbad with h | ⟨⟨c, _, h⟩, hmon⟩
    · simp only [cueForceMonitor, h]
    · simp only [cueForceMonitor, h, word_monitor, targetMonitor_bad hmon]
  | clearMonitor _ monitor =>
    cases hi
    obtain ⟨rfl, hbad⟩ := hr
    change ∃ r, cueClearMonitor ⟨12, target, [wordOf monitor 0 0 0]⟩ b = _ ∧ _
    refine ⟨.badTarget, ?_, rfl⟩
    rcases targetChannel_or hbad with h | ⟨⟨c, _, h⟩, hmon⟩
    · simp only [cueClearMonitor, h]
    · simp only [cueClearMonitor, h, word_monitor, targetMonitor_bad hmon]
  | clearFlags _ =>
    cases hi
    obtain ⟨rfl, hbad⟩ := hr
    exact ⟨.badTarget, by rw [show cueEffect _ b = cueClearFlags _ b from rfl, cueClearFlags, targetChannel_bad hbad]; rfl, rfl⟩
  | unknownKind _ _ =>
    cases hi
    obtain ⟨rfl, hkind⟩ := hr
    exact ⟨.unknownKind, cueEffect_unknownKind hkind, rfl⟩
  | setReports _ | restart => exact hr.elim
  | _ => cases hi

theorem distance_spec {b : Blocks} {n : Nat} (hn : n = b.image.ringSize) (h : b.rep.cons < n) :
    (b.distance : Int) = (((b.rep.prod : Int) + (if b.rep.prodLap = true then n else 0)) -
      (b.rep.cons + (if b.rep.consLap = true then n else 0))) % (2 * n) := by
  subst hn
  refine (distance_eq_emod b.rep b.image.ringSize h).trans ?_
  cases b.rep.prodLap <;> cases b.rep.consLap <;> simp only [bitOf_true, bitOf_false] <;> simp

/-- Settles O22: the reasons of refusal, and the report and the refresh they raise. -/
theorem refusedCuesAreReported : Obligations.RefusedCuesAreReported := by
  unfold Obligations.RefusedCuesAreReported
  refine ⟨fun s i kind target words why subject hm hi hr hs => ?_, fun b k subject words => ?_,
    fun b n hn h => distance_spec hn h, Blocks.requestRefresh_eq⟩
  · obtain ⟨r, heffect, rfl⟩ := cueEffect_refused hi hr
    rw [exec_refused hm hi heffect, refusalSubject_eq hs]
  · rw [CueEffectProofs.kindNumber_eq]
    have hiff : b.reportsFull = true ↔ 8 ≤ b.rep.queue.length ∨ b.image.ringSize ≤ b.distance + b.rep.queue.length := by
      rw [Blocks.reportsFull, Bool.or_eq_true, decide_eq_true_eq, decide_eq_true_eq, Config.reportQueueSize]
    by_cases hen : b.enabled k = true
    · have hen' : ¬ b.rep.mask.getLsbD (k.code - 1) = false := fun h => Bool.false_ne_true (h.symm.trans hen)
      rw [if_neg hen']
      by_cases hfull : 8 ≤ b.rep.queue.length ∨ b.image.ringSize ≤ b.distance + b.rep.queue.length
      · rw [if_pos hfull]
        exact Blocks.raise_full _ _ _ _ hen (hiff.2 hfull)
      · rw [if_neg hfull]
        exact Blocks.raise_queued _ _ _ _ hen (Bool.not_eq_true _ ▸ mt hiff.1 hfull)
    · rw [Bool.not_eq_true] at hen
      rw [if_pos (show b.rep.mask.getLsbD (k.code - 1) = false from hen)]
      exact Blocks.raise_disabled _ _ _ _ hen

end Sys2Proof.RestartCueProofs
end

section
/-! The two grants (O32, O34, O35). -/

namespace Sys2Proof.GrantProofs

open Sys2Proof.Machine Sys2Proof.Stated

/-! ## The own head (R148) -/

theorem reportWaits_iff (s : State) : s.blk.reportWaits = true ↔ ReportWaits s := by
  unfold Blocks.reportWaits ReportWaits
  rw [Bool.and_eq_true, decide_eq_true_eq]
  refine and_congr_left fun _ => ?_
  cases s.blk.rep.queue <;> simp

theorem portOrder_eq : ∀ last : Fin 4,
    portOrder last = [last + 1 + 0, last + 1 + 1, last + 1 + 2, last + 1 + 3] := by decide

theorem find?_four {p : Fin 4 → Bool} {k : Fin 4} (hk : p k = true) (hlt : ∀ j < k, p j = false) :
    ([0, 1, 2, 3] : List (Fin 4)).find? p = some k := by
  match k with
  | 0 => rw [List.find?_cons, hk]
  | 1 => rw [List.find?_cons, hlt 0 (by decide), List.find?_cons, hk]
  | 2 => rw [List.find?_cons, hlt 0 (by decide), List.find?_cons, hlt 1 (by decide), List.find?_cons, hk]
  | 3 =>
    rw [List.find?_cons, hlt 0 (by decide), List.find?_cons, hlt 1 (by decide), List.find?_cons, hlt 2 (by decide),
      List.find?_cons, hk]

theorem mem_portOrder : ∀ last p : Fin 4, p ∈ portOrder last := by decide

/-- The round robin comes to the port next after the last one granted that has something to write (R148). -/
theorem find?_portOrder {s : State} {p : Fin 4} (h : NextPort s p) :
    ((portOrder s.link.lastPort).find? fun q => (s.blk.port q).queue ≠ []) = some p := by
  obtain ⟨hp, hbefore⟩ := h
  have horder : portOrder s.link.lastPort = ([0, 1, 2, 3] : List (Fin 4)).map (s.link.lastPort + 1 + ·) := portOrder_eq _
  rw [horder, List.find?_map, find?_four (k := p - (s.link.lastPort + 1)) ?_ fun j hj => ?_]
  · simp only [Option.map_some, add_sub_cancel]
  · simp only [Function.comp, add_sub_cancel, decide_eq_true_eq]
    exact hp
  · simp only [Function.comp, decide_eq_false_iff_not, not_not]
    exact hbefore _ (by rwa [add_sub_cancel_left])

theorem ownHead_none_iff (s : State) : ownHead s = none ↔ NoOwn s := by
  unfold ownHead NoOwn
  by_cases hm : s.blk.mode = .active ∨ s.blk.mode = .restarting
  · rw [if_pos hm, or_iff_right (fun h => h hm)]
    cases hq : s.blk.fetchQueue with
    | cons f rest => simp
    | nil =>
      by_cases hr : ReportWaits s
      · simp [(reportWaits_iff s).2 hr, hr]
      · simp only [mt (reportWaits_iff s).1 hr, hr, if_false, not_false_eq_true, true_and, Bool.false_eq_true]
        by_cases hstatus : s.blk.rep.status = .waiting
        · simp [hstatus]
        · simp only [hstatus, if_false, ne_eq, not_false_eq_true, true_and, Option.map_eq_none_iff, List.find?_eq_none,
            decide_eq_true_eq, not_not]
          exact ⟨fun h p => h p (mem_portOrder _ p), fun h p _ => h p⟩
  · rw [if_neg hm]
    exact ⟨fun _ => .inl hm, fun _ => rfl⟩

theorem exec_downstreamGrant (s : State) : exec .downstreamGrant s = .next (finish (grantDown s)) := rfl

/-- Settles O32: by the own head and the starvation count. -/
theorem passSlotGranted : Obligations.PassSlotGranted := by
  unfold Obligations.PassSlotGranted
  refine fun s => ⟨fun r hr => ⟨fun hown => ?_, fun hown hstarve => ?_⟩, fun hslot hown => ?_⟩
  · rw [exec_downstreamGrant, grantDown, hr, (ownHead_none_iff s).2 hown]
    rfl
  · obtain ⟨o, ho⟩ := Option.ne_none_iff_exists'.1 (mt (ownHead_none_iff s).1 hown)
    rw [exec_downstreamGrant, grantDown, hr, ho]
    simp only [if_pos hstarve]
    rfl
  · rw [exec_downstreamGrant, grantDown, hslot, (ownHead_none_iff s).2 hown]

theorem exec_own {s : State} {o : OwnHead} (hturn : OwnTurn s) (ho : ownHead s = some o) :
    exec .downstreamGrant s = .next (finish (grantOwn s o)) := by
  rw [exec_downstreamGrant, grantDown, ho]
  cases hslot : s.link.passSlot with
  | none => rfl
  | some r =>
    have hfull : s.blk.image.starvationLimit ≤ s.link.starvation := hturn.resolve_left (by rw [hslot]; exact Option.some_ne_none r)
    simp only [if_neg (Nat.not_lt.2 hfull)]

theorem ownHead_fetch {s : State} {f : FetchRead} {rest : List FetchRead} (hm : InService s)
    (hq : s.blk.fetchQueue = f :: rest) : ownHead s = some (.fetch f) := by
  simp only [ownHead, hq]
  exact if_pos hm

theorem ownHead_report {s : State} (hm : InService s) (hq : s.blk.fetchQueue = []) (hr : ReportWaits s) :
    ownHead s = some .report := by
  simp only [ownHead, hq, (reportWaits_iff s).2 hr, if_true]
  exact if_pos hm

theorem ownHead_status {s : State} (hm : InService s) (hq : s.blk.fetchQueue = []) (hr : ¬ ReportWaits s)
    (hs : s.blk.rep.status = .waiting) : ownHead s = some .status := by
  simp only [ownHead, hq, mt (reportWaits_iff s).1 hr, hs, if_true, if_false, Bool.false_eq_true]
  exact if_pos hm

theorem ownHead_piece {s : State} {p : Fin 4} (hm : InService s) (hq : s.blk.fetchQueue = []) (hr : ¬ ReportWaits s)
    (hs : s.blk.rep.status ≠ .waiting) (hp : NextPort s p) : ownHead s = some (.piece p) := by
  simp only [ownHead, hq, mt (reportWaits_iff s).1 hr, hs, if_false, Bool.false_eq_true, find?_portOrder hp]
  exact if_pos hm

/-! ## The write piece (R79) -/

/-- Settles O34: the port is the own head, and its head entry moves on by one piece. -/
theorem writePieceGranted : Obligations.WritePieceGranted := by
  unfold Obligations.WritePieceGranted
  intro s p e rest hm hturn hq hr hs hp hqueue base beats piece queue counted
  rw [exec_own hturn (ownHead_piece hm hq hr hs hp)]
  have hpiece : s.blk.nextPiece p = some (BitVec.ofNat 40 (base + (e.first + e.linesDone) * e.w * 4 + 16 * e.beatsDone),
      beats, piece.flatMap fun q => [q.y, q.cb, q.cr, q.k]) := by
    have haddr : s.blk.image.slotBase p e.slot + (e.first + e.linesDone) * e.w * 4 + e.beatsDone * 16 =
        base + (e.first + e.linesDone) * e.w * 4 + 16 * e.beatsDone := by
      rw [ImageValues.slotBase, Nat.mul_comm p.val 16, Nat.mul_comm e.beatsDone 16]
    simp only [Blocks.nextPiece, hqueue, haddr]
    rw [Nat.mul_comm e.beatsDone 4, Nat.mul_comm (min 16 (e.w / 4 - e.beatsDone)) 4]
    rfl
  have hgrant : s.blk.grantPiece p = s.blk.setPort p { s.blk.port p with flights := counted, queue := queue } := by
    have hnext : (match e.advance with
        | some e' => e' :: rest
        | none => rest) = queue := by
      unfold LineEntry.advance
      by_cases hbeats : e.beatsDone + 16 < e.w / 4
      · rw [if_pos hbeats, show queue = _ from if_pos hbeats]
      · by_cases hlines : e.linesDone + 1 < e.count
        · rw [if_neg hbeats, if_pos hlines, show queue = _ from (if_neg hbeats).trans (if_pos hlines)]
        · rw [if_neg hbeats, if_neg hlines, show queue = _ from (if_neg hbeats).trans (if_neg hlines)]
    rw [← hnext]
    simp only [Blocks.grantPiece, hqueue]
    rfl
  simp only [grantOwn, hpiece, hgrant, pieceRequest]
  rw [Nat.mul_comm beats 16]
  rfl

/-! ## The upstream response port (R40, R41) -/

theorem readyAt_iff {rtt before after : List Entry} {e : Entry} (hr : rtt = before ++ e :: after) :
    ReadyAt rtt before.length ↔ e.state = .done ∧ ∀ x ∈ before, x.tag = e.tag → x.oid = e.oid → x.state = .drain := by
  subst hr
  unfold ReadyAt
  rw [List.getElem?_append_right (Nat.le_refl _), Nat.sub_self, List.getElem?_cons_zero]
  constructor
  · rintro ⟨e', he', hdone, hbefore⟩
    obtain rfl : e = e' := Option.some.inj he'
    refine ⟨hdone, fun x hx => ?_⟩
    obtain ⟨j, hj, rfl⟩ := List.getElem_of_mem hx
    exact hbefore j hj _ ((List.getElem?_append_left hj).trans (List.getElem?_eq_getElem hj))
  · rintro ⟨hdone, hbefore⟩
    refine ⟨e, rfl, hdone, fun j hj x hx => hbefore x ?_⟩
    rw [List.getElem?_append_left hj] at hx
    exact List.mem_of_getElem? hx

theorem inList_iff (tag : Tag) (oid : OrderId) (x : Entry) :
    Blocks.inList tag oid x = true ↔ x.tag = tag ∧ x.oid = oid ∧ x.state ≠ .drain := by
  simp only [Blocks.inList, Bool.and_eq_true, decide_eq_true_eq, and_assoc]

theorem isReady_iff {b : Blocks} {before after : List Entry} {e : Entry} (hr : b.rtt = before ++ e :: after)
    (hn : (b.rtt.map Entry.num).Nodup) : b.isReady e = true ↔ ReadyAt b.rtt before.length := by
  rw [readyAt_iff hr]
  unfold Blocks.isReady
  rw [Bool.and_eq_true, decide_eq_true_eq, decide_eq_true_eq]
  refine and_congr_right fun hdone => ?_
  have hself : Blocks.inList e.tag e.oid e = true := (inList_iff _ _ _).2 ⟨rfl, rfl, by rw [hdone]; decide⟩
  rw [hr, List.find?_append, List.find?_cons, hself]
  cases hfind : before.find? (Blocks.inList e.tag e.oid) with
  | none =>
    refine ⟨fun _ x hx htag hoid => ?_, fun _ => rfl⟩
    have hout := List.find?_eq_none.1 hfind x hx
    exact not_not.1 fun hstate => hout ((inList_iff _ _ _).2 ⟨htag, hoid, hstate⟩)
  | some x =>
    have hx := List.mem_of_find?_eq_some hfind
    obtain ⟨htag, hoid, hstate⟩ := (inList_iff _ _ _).1 (List.find?_some hfind)
    refine ⟨fun hnum => absurd (Option.some.inj hnum) fun hnum : x.num = e.num => ?_, fun h => absurd (h x hx htag hoid) hstate⟩
    rw [hr, List.map_append, List.map_cons] at hn
    exact (List.nodup_append.1 hn).2.2 _ (List.mem_map_of_mem hx) _ List.mem_cons_self hnum

theorem readyEntry_none {b : Blocks} (hn : (b.rtt.map Entry.num).Nodup) (h : ∀ k, ¬ ReadyAt b.rtt k) :
    b.readyEntry = none := by
  refine List.find?_eq_none.2 fun e he hready => ?_
  obtain ⟨before, after, hr⟩ := List.append_of_mem he
  exact h _ ((isReady_iff hr hn).1 hready)

theorem readyEntry_some {b : Blocks} {before after : List Entry} {e : Entry} (hr : b.rtt = before ++ e :: after)
    (hn : (b.rtt.map Entry.num).Nodup) (hready : ReadyAt b.rtt before.length)
    (hfirst : ∀ j < before.length, ¬ ReadyAt b.rtt j) : b.readyEntry = some e := by
  refine List.find?_eq_some_iff_append.2 ⟨(isReady_iff hr hn).2 hready, before, after, hr, fun x hx => ?_⟩
  rw [Bool.not_eq_true']
  refine Bool.eq_false_iff.2 fun hx' => ?_
  obtain ⟨first, second, rfl⟩ := List.append_of_mem hx
  have hr' : b.rtt = first ++ x :: (second ++ e :: after) := by rw [hr, List.append_assoc, List.cons_append]
  refine hfirst first.length ?_ ((isReady_iff hr' hn).1 hx')
  rw [List.length_append, List.length_cons]
  omega

theorem freeEntryOf_freed {b : Blocks} {before after : List Entry} {e : Entry} (hr : b.rtt = before ++ e :: after)
    (hn : (b.rtt.map Entry.num).Nodup) : b.freeEntryOf e = freed b e (before ++ after) := by
  unfold freed
  cases hkind : e.kind with
  | pass => exact freeEntryOf_clean _ _ _ _ hr hn (.inl hkind)
  | measure => exact freeEntryOf_clean _ _ _ _ hr hn (.inr hkind)
  | blend info => exact freeEntryOf_blend _ _ _ _ _ hr hn hkind

theorem deliver_eq {b : Blocks} {before after : List Entry} {e : Entry} (hr : b.rtt = before ++ e :: after)
    (hn : (b.rtt.map Entry.num).Nodup) : b.deliver e = if e.outstanding = 0 then freed b e (before ++ after)
      else { b with rtt := before ++ { e with state := .drain } :: after } := by
  unfold Blocks.deliver
  by_cases hout : e.outstanding = 0
  · rw [if_pos hout, if_pos hout, freeEntryOf_freed hr hn]
  · rw [if_neg hout, if_neg hout]
    exact setEntry_eq _ _ _ e _ hr rfl hn

theorem send_pass_eq {k : Link} (r : UpResponse) (h : k.held = []) :
    { k.send r .pass with passResponse := none, held := [] } =
      { k with passResponse := none, lastSource := .pass, returned := k.returned ++ [r] } := by
  cases k
  simp only at h
  subst h
  rfl

/-- Settles O35: by what waits and by the kind granted last. -/
theorem upstreamGrantSendsOneResponse : Obligations.UpstreamGrantSendsOneResponse := by
  unfold Obligations.UpstreamGrantSendsOneResponse
  intro s hn
  have hexec : exec .upstreamResponseGrant s = answerOf (grantUp s) := rfl
  refine ⟨fun hpass hnone => ?_, fun before after e hr hready hfirst hsource => ?_, fun r hpass hsource hheld => ?_⟩
  · rw [hexec, grantUp, hpass, readyEntry_none hn hnone]
    rfl
  · have hsent : exec .upstreamResponseGrant s = .next (sendEntry s e) := by
      rw [hexec, grantUp, readyEntry_some hr hn hready hfirst]
      cases hpass : s.link.passResponse with
      | none => rfl
      | some r => simp only [if_pos (hsource.resolve_left (by rw [hpass]; exact Option.some_ne_none r))]; rfl
    rw [hsent, sendEntry, deliver_eq hr hn]
    rfl
  · have hsent : exec .upstreamResponseGrant s = answerOf (sendPass s r) := by
      rw [hexec, grantUp, hpass]
      cases hready : s.blk.readyEntry with
      | none => rfl
      | some e =>
        have hlast : s.link.lastSource = .entry := hsource.resolve_right fun h => by
          rw [readyEntry_none hn h] at hready
          cases hready
        simp only [hlast, reduceCtorEq, if_false]
    rw [hsent, sendPass, hheld, send_pass_eq r hheld]
    rfl

end Sys2Proof.GrantProofs
end

section
/-! The report unit's own requests and the bytes they carry (O33). -/

namespace Sys2Proof.OwnRequestProofs

open Sys2Proof.Machine Sys2Proof.Stated Sys2Proof.GrantProofs

/-! ## The grants (R147, R148, R164, R167) -/

theorem grantReport_eq {s : State} {r : Report} {rest : List Report} (hq : s.blk.rep.queue = r :: rest) :
    grantOwn s .report =
      let wraps := s.blk.image.ringSize ≤ s.blk.rep.prod + 1
      { s with
        link := ownIssued s ⟨.compositor, .write, 60, 2,
          BitVec.ofNat 40 (s.blk.image.ringBase + 32 * s.blk.rep.prod), 2,
          (r.record s.blk.rep.lost s.blk.rep.prodLap).flatMap wordBytes, List.replicate 32 true⟩
        blk := { s.blk with rep := { s.blk.rep with
          queue := rest
          lost := false
          prod := if wraps then 0 else s.blk.rep.prod + 1
          prodLap := if wraps then !s.blk.rep.prodLap else s.blk.rep.prodLap } } } := by
  simp only [grantOwn, Blocks.grantReport, hq, ReportUnit.advance]
  by_cases hwrap : s.blk.image.ringSize ≤ s.blk.rep.prod + 1
  · simp only [if_pos hwrap, if_neg (Nat.not_lt.2 hwrap)]
    rfl
  · simp only [if_neg hwrap, if_pos (Nat.not_le.1 hwrap)]
    rfl

/-! ## The bytes of a record (R176) -/

theorem toNat_byteOfNat (n : Nat) : (byteOfNat n).toNat = n % 256 := by
  rw [byteOfNat, BitVec.toNat_ofNat]

theorem bitOf_le (b : Bool) : bitOf b ≤ 1 := by cases b <;> decide

theorem if_bit (b : Bool) (v : Nat) : (if b = true then v else 0) = v * bitOf b := by
  cases b
  · rfl
  · exact (Nat.mul_one v).symm

theorem quadWord_toNat {b0 b1 b2 b3 : Nat} (h0 : b0 < 256) (h1 : b1 < 256) (h2 : b2 < 256) (h3 : b3 < 256) :
    (quadWord b0 b1 b2 b3).toNat = b0 + 256 * b1 + 65536 * b2 + 16777216 * b3 := by
  rw [quadWord, wordOf_toNat, toNat_byteOfNat, toNat_byteOfNat, toNat_byteOfNat, toNat_byteOfNat, Nat.mod_eq_of_lt h0,
    Nat.mod_eq_of_lt h1, Nat.mod_eq_of_lt h2, Nat.mod_eq_of_lt h3]

theorem recordHead_eq (r : Report) (lost lap : Bool) : r.head lost lap = recordWord r lost lap 0 := by
  have hkind := CueEffectProofs.code_le r.kind
  have hlost := bitOf_le lost
  have hlap := bitOf_le lap
  have hnumber : r.subject.number < 8 := by
    cases r.subject <;> simp only [Subject.number] <;> omega
  have hcode : r.subject.code < 3 := by
    cases r.subject <;> simp only [Subject.code] <;> omega
  apply BitVec.eq_of_toNat_eq
  rw [Report.head, quadWord_toNat (by omega) (by omega) (by omega) (by omega)]
  simp only [recordWord, CueEffectProofs.kindNumber_eq, if_bit, BitVec.toNat_ofNat]
  cases hsubject : r.subject <;> rw [hsubject] at hnumber <;> simp only [Subject.number, Subject.code] at hnumber ⊢ <;> omega

theorem record_getD (r : Report) (lost lap : Bool) {n : Nat} (hn : n < 8) :
    (r.record lost lap).getD n 0 = recordWord r lost lap n := by
  match n with
  | 0 => exact recordHead_eq r lost lap
  | 1 => rfl
  | 2 =>
    change r.subject.frameWord = _
    cases hsubject : r.subject <;> simp only [recordWord, hsubject] <;> rfl
  | 3 | 4 | 5 | 6 | 7 => rfl

/-! ## The bytes of the status block (R177) -/

theorem half_mod (x : Nat) : x % 256 + 256 * (x / 256 % 256) = x % 65536 := by omega

theorem number_wordBytes (w : Word) : (wordByte w 0).toNat + 256 * (wordByte w 1).toNat +
    65536 * ((wordByte w 2).toNat + 256 * (wordByte w 3).toNat) = w.toNat := by
  simp only [wordByte_toNat]
  have := w.isLt
  omega

theorem halfAt_channel (b : Blocks) (e : Fin 32) (l : Bool) (c : Fin 8) (k : Nat) (hk : k + 1 < 24) :
    halfAt (b.statusBlock e l) (48 + 24 * c.val + k) =
      ((b.channelRecord c).getD k 0).toNat + 256 * ((b.channelRecord c).getD (k + 1) 0).toNat := by
  rw [halfAt, Blocks.statusBlock_channel _ _ _ _ _ (by omega), Nat.add_assoc, Blocks.statusBlock_channel _ _ _ _ _ hk]

/-- The origin and opacity of a channel's latched geometry, 0 when it has none. -/
def originOf (ch : Channel) : Nat × Nat := (ch.geom.map fun g => (g.x, g.y)).getD (0, 0)

/-- The 24 bytes of a channel written out. -/
theorem channelRecord_eq (b : Blocks) (c : Fin 8) :
    b.channelRecord c =
      let ch := b.chan c
      let lay := ch.lay
      let opacity := (ch.geom.map Geometry.opacity).getD 0
      [byteOfNat ch.state.code, byteOfNat lay.sl.val,
        byteOfNat (lay.stack.length + 64 * bitOf lay.overflow + 128 * bitOf lay.underflow), byteOfNat lay.prevEff.val,
        wordByte ch.frame 0, wordByte ch.frame 1, wordByte ch.frame 2, wordByte ch.frame 3,
        byteOfNat lay.glide.x, byteOfNat (lay.glide.x / 256), byteOfNat lay.glide.y, byteOfNat (lay.glide.y / 256),
        byteOfNat (originOf ch).1, byteOfNat ((originOf ch).1 / 256), byteOfNat (originOf ch).2, byteOfNat ((originOf ch).2 / 256),
        byteOfNat opacity, byteOfNat (opacity / 256), Blocks.slotByte (ch.geom.bind Geometry.slot),
        byteOfNat (ch.monA.computed.code + 8 * bitOf ch.monA.effective + 16 * ch.monB.computed.code +
          128 * bitOf ch.monB.effective),
        byteOfNat ch.monA.activity, byteOfNat (ch.monA.activity / 256),
        byteOfNat ch.monB.activity, byteOfNat (ch.monB.activity / 256)] := rfl

theorem computedCode_eq (x : Computed) : computedCode x = x.code := by cases x <;> rfl

theorem slotByte_toNat (r : Option SlotRef) : (Blocks.slotByte r).toNat = match r with
    | none => 0
    | some r => 128 + 16 * r.port.val + r.slot.val := by
  cases r with
  | none => rfl
  | some r =>
    refine (toNat_byteOfNat _).trans (Nat.mod_eq_of_lt ?_)
    omega

theorem channelBytes (b : Blocks) (e : Fin 32) (l : Bool) (c : Fin 8) :
    ChannelBytes (b.chan c) (b.statusBlock e l) (48 + 24 * c.val) := by
  have hbyte : ∀ k < 24, (b.statusBlock e l).getD (48 + 24 * c.val + k) 0 = (b.channelRecord c).getD k 0 :=
    fun k hk => Blocks.statusBlock_channel b e l c k hk
  have hhalf := halfAt_channel b e l c
  have hnumber : numberAt (b.statusBlock e l) (48 + 24 * c.val + 4) = _ := congrArg₂ (fun x y => x + 65536 * y)
    (hhalf 4 (by omega)) (hhalf 6 (by omega))
  rw [channelRecord_eq] at hbyte hhalf hnumber
  have hA : (b.chan c).monA.computed.code ≤ 5 := by cases (b.chan c).monA.computed <;> decide
  have hB : (b.chan c).monB.computed.code ≤ 5 := by cases (b.chan c).monB.computed <;> decide
  have heffA := bitOf_le (b.chan c).monA.effective
  have heffB := bitOf_le (b.chan c).monB.effective
  unfold ChannelBytes
  simp (discharger := omega) only [hbyte, hhalf, hnumber, List.getD_cons_zero, List.getD_cons_succ, toNat_byteOfNat,
    half_mod, number_wordBytes, computedCode_eq, if_bit, true_and, and_true]
  refine ⟨?_, Nat.mod_eq_of_lt (by omega), Nat.mod_eq_of_lt (by omega), fun hgeom => ?_, fun g hgeom => ?_,
    slotByte_toNat _, Nat.mod_eq_of_lt (by omega)⟩
  · cases (b.chan c).state <;> rfl
  · rw [originOf, hgeom]
    exact ⟨rfl, rfl, rfl⟩
  · rw [originOf, hgeom]
    exact ⟨rfl, rfl, rfl⟩

/-- The 8 bytes of a port written out. -/
theorem portRecord_eq (b : Blocks) (p : Fin 4) :
    b.portRecord p = [byteOfNat (b.port p).state.code, byteOfNat (b.readySlots p).length, 0, 0,
      wordByte (wordOfNat (b.portSlots p).latest) 0, wordByte (wordOfNat (b.portSlots p).latest) 1,
      wordByte (wordOfNat (b.portSlots p).latest) 2, wordByte (wordOfNat (b.portSlots p).latest) 3] := rfl

theorem portBytes (b : Blocks) (e : Fin 32) (l : Bool) (p : Fin 4) :
    PortBytes b p (b.statusBlock e l) (16 + 8 * p.val) := by
  have hbyte : ∀ k < 8, (b.statusBlock e l).getD (16 + 8 * p.val + k) 0 = (b.portRecord p).getD k 0 :=
    fun k hk => Blocks.statusBlock_port b e l p k hk
  have hready : (b.readySlots p).length = allSlots.countP fun i => (b.slot p i).state = .ready :=
    List.countP_eq_length_filter.symm
  have hcount : allSlots.countP (fun i => decide ((b.slot p i).state = .ready)) ≤ 16 := List.countP_le_length
  have hhalf : ∀ k, k + 1 < 8 → halfAt (b.statusBlock e l) (16 + 8 * p.val + k) =
      ((b.portRecord p).getD k 0).toNat + 256 * ((b.portRecord p).getD (k + 1) 0).toNat := fun k hk => by
    rw [halfAt, hbyte k (by omega), Nat.add_assoc, hbyte (k + 1) hk]
  have hnumber : numberAt (b.statusBlock e l) (16 + 8 * p.val + 4) = _ := congrArg₂ (fun x y => x + 65536 * y)
    (hhalf 4 (by omega)) (hhalf 6 (by omega))
  have hzero : (b.statusBlock e l).getD (16 + 8 * p.val) 0 = _ := hbyte 0 (by omega)
  rw [portRecord_eq] at hbyte hhalf hnumber hzero
  unfold PortBytes
  simp (discharger := omega) only [hzero, hbyte, hhalf, hnumber, List.getD_cons_zero, List.getD_cons_succ, toNat_byteOfNat,
    number_wordBytes, hready]
  refine ⟨?_, Nat.mod_eq_of_lt (by omega), rfl, BitVec.toNat_ofNat _ _⟩
  cases (b.port p).state <;> rfl

theorem statusBytes (b : Blocks) (e : Fin 32) (l : Bool) (hm : b.mode = .active ∨ b.mode = .restarting) :
    StatusBytes b e l (b.statusBlock e l) := by
  have hhead : ∀ k < 16, (b.statusBlock e l).getD k 0 = (b.statusHead e l).getD k 0 :=
    fun k hk => Blocks.statusBlock_head b e l k hk
  have hbits : ∀ x : Bool, bitOf x ≤ 1 := bitOf_le
  refine ⟨Blocks.statusBlock_length b e l, ?_, ?_, ?_, ?_, ?_, fun n hn hlo => ?_, portBytes b e l, channelBytes b e l,
    fun n hn hlo => Blocks.statusBlock_tail b e l n hn hlo⟩
  · rw [hhead 0 (by omega)]
    rcases hm with h | h <;> rw [Blocks.statusHead, h] <;> rfl
  · rw [hhead 1 (by omega)]
    cases hcause : b.cause <;> rw [Blocks.statusHead, hcause] <;> rfl
  · have := bitOf_le l
    rw [hhead 2 (by omega), if_bit]
    exact (toNat_byteOfNat _).trans (Nat.mod_eq_of_lt (by omega))
  · have hlost := bitOf_le b.rep.lost
    have hlap := bitOf_le b.rep.prodLap
    rw [hhead 3 (by omega), if_bit, if_bit, Nat.one_mul]
    exact (toNat_byteOfNat _).trans (Nat.mod_eq_of_lt (by omega))
  · rw [halfAt, hhead 4 (by omega), hhead 5 (by omega)]
    refine Eq.trans ?_ (half_mod b.rep.prod)
    exact congrArg₂ (fun x y => x + 256 * y) (toNat_byteOfNat _) (toNat_byteOfNat _)
  · rw [hhead n hn]
    interval_cases n <;> rfl

/-- Settles O33: the own head by class, and the bytes of the two records. -/
theorem ownRequestsGranted : Obligations.OwnRequestsGranted := by
  unfold Obligations.OwnRequestsGranted
  refine ⟨fun s hm hturn => ⟨fun f rest hq => ?_, fun hq => ⟨fun r rest hrep hroom => ?_, fun hr hs => ?_⟩⟩,
    fun r lost lap => ⟨rfl, fun n hn k hk => ?_⟩, fun b e l hm => statusBytes b e l hm⟩
  · rw [exec_own hturn (ownHead_fetch hm hq)]
    simp only [grantOwn, hq]
    rfl
  · have hwaits : ReportWaits s := ⟨by rw [hrep]; exact List.cons_ne_nil _ _, hroom⟩
    rw [exec_own hturn (ownHead_report hm hq hwaits), grantReport_eq hrep]
  · rw [exec_own hturn (ownHead_status hm hq hr hs)]
    rfl
  · rw [byte_record _ _ _ _ _ hn hk, record_getD _ _ _ hn, wordByte_toNat]

end Sys2Proof.OwnRequestProofs
end

section
/-! The responses that arrive downstream (O36 to O39, O41). -/

namespace Sys2Proof.ResponseProofs

open Sys2Proof.Machine Sys2Proof.Stated
open Sys2Proof.Edits (offered)

/-! ## An arrival (R149) -/

theorem exec_brings {i : Instr} {r : DownResponse} (h : brings i = some r) (hwf : i.wf = true) (s : State) :
    exec i s = answerOf (arrive s r) := by
  cases i with
  | passResponseArrival _ _ _ _ _ | programmeResponse _ _ _ _ | fetchResponse _ _ _ =>
    cases h
    exact if_pos hwf
  | lineWriteResponse _ _ | reportWriteResponse _ | statusWriteResponse _ =>
    cases h
    rfl
  | _ => cases h

theorem exec_response {s t : State} {i : Instr} {r : DownResponse} (h : brings i = some r) (hwf : i.wf = true)
    (hpass : s.link.passResponse = none) (ht : takeResponse s r = .ok t) : exec i s = .next (finish t) := by
  rw [exec_brings h hwf, arrive, hpass, ht]
  rfl

theorem exec_response_fault {s : State} {i : Instr} {r : DownResponse} {f : Fault} (h : brings i = some r)
    (hwf : i.wf = true) (hpass : s.link.passResponse = none) (ht : takeResponse s r = .error f) : exec i s = .fault f := by
  rw [exec_brings h hwf, arrive, hpass, ht]
  rfl

/-- Settles O36: by the mode and the pair's records. -/
theorem passResponsesWait : Obligations.PassResponsesWait := by
  unfold Obligations.PassResponsesWait
  intro s tag oid status hpass
  refine ⟨fun null rest hm hrecord => ?_, fun h => ?_, fun data i hdata hi => ?_⟩
  · refine exec_response rfl rfl hpass ?_
    simp only [takeResponse, takeEngineWrite, if_neg hm, hrecord]
    rfl
  · refine exec_response rfl rfl hpass ?_
    rcases h with hm | hrecord
    · simp only [takeResponse, takeEngineWrite, if_pos hm]
      rfl
    · simp only [takeResponse, takeEngineWrite, hrecord]
      split <;> rfl
  · have hbrings : brings i = some (.engine .read tag oid data status) ∧ i.wf = true := by
      rcases hi with rfl | rfl
      · exact ⟨rfl, hdata⟩
      · exact ⟨rfl, hdata⟩
    refine ⟨fun hm hcount => exec_response hbrings.1 hbrings.2 hpass ?_, fun h => exec_response hbrings.1 hbrings.2 hpass ?_⟩
    · exact if_pos ⟨hm, hcount⟩
    · have hnot : ¬ (s.blk.mode ≠ .bypass ∧ 0 < s.link.untrackedOf tag oid) := fun ⟨hm, hcount⟩ => by
        rcases h with h | ⟨_, h⟩
        · exact hm h
        · omega
      exact (if_neg hnot).trans (if_pos (h.imp_right And.left))

/-- Settles O37: what waits is held, and is released in order when the pass response has gone. -/
theorem responsesWaitBehindPassResponse : Obligations.ResponsesWaitBehindPassResponse := by
  unfold Obligations.ResponsesWaitBehindPassResponse
  intro s w hpass
  refine ⟨fun i r hbrings hwf => ?_, fun r rest t hheld hsource htake => ?_⟩
  · rw [exec_brings hbrings hwf, arrive, hpass]
    rfl
  · have hsent : exec .upstreamResponseGrant s = answerOf (sendPass s w) := by
      change answerOf (grantUp s) = _
      rw [grantUp, hpass]
      cases hready : s.blk.readyEntry with
      | none => rfl
      | some e =>
        have hlast : s.link.lastSource = .entry := hsource.resolve_right (by rw [hready]; exact Option.some_ne_none e)
        simp only [hlast, reduceCtorEq, if_false]
    have htake' : takeResponse (finish { s with link := { s.link.send w .pass with passResponse := none, held := [] } }) r =
        .ok t := htake
    rw [hsent, sendPass, hheld, releaseHeld, finish_passResponse, htake']
    rfl

/-- Settles O41: a report write answers at once, a status write only when it is in flight. -/
theorem reportAndStatusWriteResponses : Obligations.ReportAndStatusWriteResponses := by
  unfold Obligations.ReportAndStatusWriteResponses
  intro s status hpass
  refine ⟨fun hm => exec_response rfl rfl hpass ?_, fun hs => exec_response rfl rfl hpass ?_, fun hs =>
    exec_response_fault rfl rfl hpass ?_⟩
  · have htake : s.blk.takeReportWrite status =
        .ok { s.blk with rep := { s.blk.rep with lost := s.blk.rep.lost || decide (status = .error) } } := by
      refine (if_pos hm).trans ?_
      cases status
      · simp
      · simp
    simp only [takeResponse, htake]
    rfl
  · simp only [takeResponse, Blocks.takeStatusWrite, hs]
    rfl
  · have htake : s.blk.takeStatusWrite = .error .noIssuer := by
      unfold Blocks.takeStatusWrite
      cases hstatus : s.blk.rep.status with
      | idle | waiting => rfl
      | inFlight => exact absurd hstatus hs
    simp only [takeResponse, htake]
    rfl

/-! ## Programme responses (R29, R31, R32) -/

theorem awaits_iff (tag : Tag) (oid : OrderId) (e : Entry) :
    (decide (e.tag = tag) && decide (e.oid = oid) && decide (e.state = .await)) = true ↔ Awaits tag oid e := by
  simp only [Awaits, Bool.and_eq_true, decide_eq_true_eq, and_assoc]

theorem awaiting_none {b : Blocks} {tag : Tag} {oid : OrderId} (h : ∀ e ∈ b.rtt, ¬ Awaits tag oid e) :
    b.awaiting tag oid = none :=
  List.find?_eq_none.2 fun e he hp => h e he ((awaits_iff tag oid e).1 hp)

theorem awaiting_some {b : Blocks} {tag : Tag} {oid : OrderId} {before after : List Entry} {e : Entry}
    (hr : b.rtt = before ++ e :: after) (he : Awaits tag oid e) (hbefore : ∀ x ∈ before, ¬ Awaits tag oid x) :
    b.awaiting tag oid = some e := by
  refine List.find?_eq_some_iff_append.2 ⟨(awaits_iff tag oid e).2 he, before, after, hr, fun x hx => ?_⟩
  rw [Bool.not_eq_true', ← Bool.not_eq_true]
  exact fun hp => hbefore x hx ((awaits_iff tag oid x).1 hp)

theorem measure_eq (d : Descriptor) (e : Entry) (zone : Option Rect) (m : Monitor) :
    m.measure d e zone = counted d e zone m := by
  cases zone <;> rfl

/-- The offer of an entry's data, in the statement's own counts (R33). -/
theorem offered_eq (b : Blocks) (e : Entry) : offered b e =
    if ((b.chan e.chan).state = .running ∨ (b.chan e.chan).state = .stopping) ∧ (b.chan e.chan).frame = e.frame then
      b.setChan e.chan { b.chan e.chan with
        monA := counted (b.chan e.chan).desc e e.zoneA (b.chan e.chan).monA
        monB := counted (b.chan e.chan).desc e e.zoneB (b.chan e.chan).monB }
    else b := by
  simp only [offered, measure_eq]

theorem offered_kept (b : Blocks) (e : Entry) : (offered b e).rtt = b.rtt ∧ (offered b e).timeBase = b.timeBase ∧
    (offered b e).image = b.image ∧ ((offered b e).chan e.chan).desc = (b.chan e.chan).desc := by
  have hcase := offered_eq b e
  generalize offered b e = x at hcase ⊢
  split at hcase <;> subst hcase
  · exact ⟨rfl, rfl, rfl, by rw [Blocks.chan_setChan_same]⟩
  · exact ⟨rfl, rfl, rfl, rfl⟩

/-- What an entry becomes when its programme data has come (R32, R36, R39). -/
def programmed (b : Blocks) (d : Descriptor) (e : Entry) : Entry :=
  match e.kind with
  | .pass | .measure => cleanEntry e
  | .blend info =>
    if e.fetchError = true then cleanEntry e
    else if e.outstanding = 0 then blendedEntry d info e
    else { e with state := .join (b.timeBase + wordOfNat b.image.joinLimit) }

theorem blend_eq {d : Descriptor} {e : Entry} {info : BlendInfo} (h : e.kind = .blend info) :
    e.blend d = blendedEntry d info e := by
  simp only [Entry.blend, blendedData, h, blendedEntry]

theorem completeProgramme_set (b : Blocks) (e : Entry) (data : List Byte) :
    b.completeProgramme e data .ok = (offered b { e with progData := data }).setEntry
      (programmed b (b.chan e.chan).desc { e with progData := data }) := by
  obtain ⟨_, htime, himage, hdesc⟩ := offered_kept b { e with progData := data }
  unfold Blocks.completeProgramme programmed
  generalize hx : ({ e with progData := data } : Entry) = x at htime himage hdesc ⊢
  have hchan : x.chan = e.chan := by rw [← hx]
  rw [hchan] at hdesc
  simp only
  cases hkind : x.kind with
  | pass | measure => rfl
  | blend info =>
    change (if x.fetchError = true then (offered b x).setEntry x.clean
      else if x.outstanding = 0 then (offered b x).setEntry (x.blend ((offered b x).chan x.chan).desc)
      else (offered b x).setEntry
        { x with kind := .blend info, state := .join ((offered b x).timeBase + wordOfNat (offered b x).image.joinLimit) }) = _
    simp only [htime, himage, hchan, hdesc, blend_eq hkind]
    by_cases hfetch : x.fetchError = true
    · rw [if_pos hfetch, if_pos hfetch]; rfl
    · rw [if_neg hfetch, if_neg hfetch]
      split <;> rfl

theorem completeProgramme_ok {b : Blocks} {before after : List Entry} {e : Entry} (data : List Byte)
    (hr : b.rtt = before ++ e :: after) (hn : (b.rtt.map Entry.num).Nodup) :
    b.completeProgramme e data .ok = { offered b { e with progData := data } with
      rtt := before ++ programmed b (b.chan e.chan).desc { e with progData := data } :: after } := by
  have hrtt := (offered_kept b { e with progData := data }).1
  have hnum : (programmed b (b.chan e.chan).desc { e with progData := data }).num = e.num := by
    unfold programmed
    split
    · rfl
    · rfl
    · split
      · rfl
      · split <;> rfl
  rw [completeProgramme_set]
  exact setEntry_eq _ before after e _ (hrtt.trans hr) hnum (by rw [hrtt]; exact hn)

theorem completeProgramme_error {b : Blocks} {before after : List Entry} {e : Entry} (data : List Byte)
    (hr : b.rtt = before ++ e :: after) (hn : (b.rtt.map Entry.num).Nodup) :
    b.completeProgramme e data .error =
      { b with rtt := before ++ cleanEntry { e with progData := data, progError := true } :: after } :=
  setEntry_eq b before after e _ hr rfl hn

/-- Settles O38: the oldest AWAIT entry of the pair takes the response. -/
theorem programmeResponseTable : Obligations.ProgrammeResponseTable := by
  unfold Obligations.ProgrammeResponseTable
  intro s tag oid data status i hm hpass hcount hdata hi
  have hbrings : brings i = some (.engine .read tag oid data status) ∧ i.wf = true := by
    rcases hi with rfl | rfl <;> exact ⟨rfl, hdata⟩
  have htake : takeResponse s (.engine .read tag oid data status) =
      (s.blk.takeProgramme tag oid data status).map fun b => { s with blk := b } := by
    have hnot : ¬ (s.blk.mode ≠ .bypass ∧ 0 < s.link.untrackedOf tag oid) := fun h => by omega
    have hnot' : ¬ (s.blk.mode = .bypass ∨ s.blk.mode = .loading) := by
      rcases hm with h | h <;> rw [h] <;> decide
    exact (if_neg hnot).trans (if_neg hnot')
  refine ⟨fun hnone => exec_response_fault hbrings.1 hbrings.2 hpass ?_, fun before after e hr hn he hbefore =>
    ⟨fun hlen => exec_response_fault hbrings.1 hbrings.2 hpass ?_, fun hlen => ⟨fun hs => exec_response hbrings.1 hbrings.2 hpass ?_,
      fun hs => ?_⟩⟩⟩
  · rw [htake, Blocks.takeProgramme, awaiting_none hnone]
    rfl
  · rw [htake, Blocks.takeProgramme, awaiting_some hr he hbefore]
    simp only [if_neg hlen]
    rfl
  · rw [htake, Blocks.takeProgramme, awaiting_some hr he hbefore, hs]
    simp only [if_pos hlen, completeProgramme_error data hr hn]
    rfl
  · refine (exec_response (t := { s with blk := s.blk.completeProgramme e data .ok }) hbrings.1 hbrings.2 hpass ?_).trans ?_
    · rw [htake, Blocks.takeProgramme, awaiting_some hr he hbefore, hs]
      simp only [if_pos hlen]
      rfl
    · rw [completeProgramme_ok data hr hn, offered_eq]
      rfl

/-! ## Fetch responses (R30, R34, R35) -/

theorem fetchBeats_none {e : Entry} (h : e.outstanding = 0 ∨ e.kind = .pass ∨ e.kind = .measure) :
    Blocks.fetchBeats e = none := by
  unfold Blocks.fetchBeats
  rcases h with h | h | h
  · cases e.kind with
    | pass | measure => rfl
    | blend info => exact if_pos h
  · rw [h]
  · rw [h]

theorem fetchBeats_some {e : Entry} {info : BlendInfo} {m offset beats : Nat} (hkind : e.kind = .blend info)
    (hout : e.outstanding = m + 1)
    (hread : (blendReads info)[(blendReads info).length - (m + 1)]? = some (offset, beats)) :
    Blocks.fetchBeats e = some beats := by
  simp only [Blocks.fetchBeats, hkind, hout, hread, Nat.add_one_ne_zero, if_false, Option.map_some]

theorem takeFetch_fault {b : Blocks} {n : Tag} {data : List Byte} {status : Status}
    (h : ∀ e ∈ b.rtt, e.num = n → e.outstanding = 0 ∨ e.kind = .pass ∨ e.kind = .measure) :
    b.takeFetch n data status = .error .noIssuer := by
  unfold Blocks.takeFetch
  cases hfind : b.entry? n with
  | none => rfl
  | some e =>
    have hmem := List.mem_of_find?_eq_some hfind
    have hnum : e.num = n := by simpa using List.find?_some hfind
    simp only [fetchBeats_none (h e hmem hnum)]

/-- A fetch response of the right length, by what it stores and leaves of its entry. -/
theorem takeFetch_eq {b b' : Blocks} {before after : List Entry} {e x : Entry} {n : Tag} {m beats : Nat}
    {data : List Byte} {status : Status} (hr : b.rtt = before ++ e :: after) (hn : (b.rtt.map Entry.num).Nodup)
    (hnum : e.num = n) (hout : e.outstanding = m + 1) (hbeats : Blocks.fetchBeats e = some beats)
    (hlen : data.length = 16 * beats) (hstore : b.storeFetch { e with outstanding := m } data status = b')
    (hr' : b'.rtt = before ++ x :: after) (hx : x.num = e.num) :
    b.takeFetch n data status = .ok (if x.outstanding = 0 then b'.lastFetch x else b') := by
  have hn' : (b'.rtt.map Entry.num).Nodup := by
    rw [hr] at hn
    rw [hr']
    rw [List.map_append, List.map_cons] at hn ⊢
    rw [hx]
    exact hn
  have hfind := entry?_eq b before after e n hr hn hnum
  have hfind' := entry?_eq b' before after x n hr' hn' (hx.trans hnum)
  simp only [Blocks.takeFetch, hfind, hbeats, if_pos hlen, hout, Nat.add_sub_cancel, hstore, hfind']

theorem takeFetch_wrongBeats {b : Blocks} {before after : List Entry} {e : Entry} {n : Tag} {beats : Nat}
    {data : List Byte} {status : Status} (hr : b.rtt = before ++ e :: after) (hn : (b.rtt.map Entry.num).Nodup)
    (hnum : e.num = n) (hbeats : Blocks.fetchBeats e = some beats) (hlen : data.length ≠ 16 * beats) :
    b.takeFetch n data status = .error .wrongBeats := by
  simp only [Blocks.takeFetch, entry?_eq b before after e n hr hn hnum, hbeats, if_neg hlen]

theorem lastFetch_quiet {b : Blocks} {x : Entry} (h : x.state = .await ∨ x.state = .done) :
    (if x.outstanding = 0 then b.lastFetch x else b) = b := by
  have hlast : b.lastFetch x = b := by
    unfold Blocks.lastFetch
    rcases h with h | h <;> rw [h]
  rw [hlast, ite_self]

/-- The first fetch error of an entry of a channel frame is reported (R38). -/
theorem raiseFetchError_eq {b : Blocks} {e : Entry} {info : BlendInfo} (hkind : e.kind = .blend info) :
    b.raiseFetchError e = if (b.chan e.chan).lastFetchError = some e.frame then b
      else ((b.setChan e.chan { b.chan e.chan with lastFetchError := some e.frame }).raise .fetchError
        (.channel e.chan (b.chan e.chan).frame)
        [e.frame, quadWord e.tag.toNat e.oid.toNat 0 0, wordOfNat e.addr.toNat, wordOfNat (e.addr.toNat / 2 ^ 32),
          quadWord info.slot.port.val info.slot.slot.val 0 0]) := by
  simp only [Blocks.raiseFetchError, Blocks.raiseChan, Blocks.chan_setChan_same, entryWords, entrySlotWord, hkind, addrWords]
  rfl

theorem raiseFetchError_rtt (b : Blocks) (e : Entry) : (b.raiseFetchError e).rtt = b.rtt := by
  unfold Blocks.raiseFetchError
  simp only
  split
  · rfl
  · rw [Blocks.raiseChan, Blocks.raise_rtt]
    rfl

/-- Settles O39: by the status and the entry's state. -/
theorem fetchResponseTable : Obligations.FetchResponseTable := by
  unfold Obligations.FetchResponseTable
  intro s n data status hpass hdata
  have htake : takeResponse s (.fetch n data status) = (s.blk.takeFetch n data status).map fun b => { s with blk := b } := rfl
  refine ⟨fun h => exec_response_fault rfl hdata hpass ?_, fun before after e info m offset beats hr hn hnum hkind hout hread => ?_⟩
  · rw [htake, takeFetch_fault h]
    rfl
  have hbeats := fetchBeats_some hkind hout hread
  have hset : ∀ x : Entry, x.num = e.num → s.blk.setEntry x = { s.blk with rtt := before ++ x :: after } :=
    fun x hx => setEntry_eq _ before after e x hr hx hn
  refine ⟨fun hlen => exec_response_fault rfl hdata hpass ?_, fun hlen => ?_⟩
  · rw [htake, takeFetch_wrongBeats hr hn hnum hbeats hlen]
    rfl
  have hexec : ∀ {b' : Blocks} {x : Entry}, s.blk.storeFetch { e with outstanding := m } data status = b' →
      b'.rtt = before ++ x :: after → x.num = e.num →
      exec (.fetchResponse n data status) s =
        .next (finish { s with blk := if x.outstanding = 0 then b'.lastFetch x else b' }) := fun hstore hr' hx =>
    exec_response rfl hdata hpass (by rw [htake, takeFetch_eq hr hn hnum hout hbeats hlen hstore hr' hx]; rfl)
  intro put e1 e2 failed marked
  let e3 : Entry := { e1 with fetchError := marked }
  have hmarked : e.state = .done ∨ e.state = .drain →
      s.blk.storeFetch e1 data status = put e3 := fun hstate => by
    have hstate1 : e1.state = .done ∨ e1.state = .drain := hstate
    cases hs : status with
    | ok =>
      rw [storeFetch_ok_done _ e1 _ hstate1, hset e1 rfl]
      simp only [e3, marked, hs, reduceCtorEq, decide_false, Bool.false_or]
      rfl
    | error =>
      rw [storeFetch_error_done _ e1 _ hstate1]
      simp only [e3, marked, hs, decide_true, Bool.true_or]
      exact hset failed rfl
  have nodup_put : ∀ x : Entry, x.num = e.num → ((put x).rtt.map Entry.num).Nodup := fun x hx => by
    rw [hr, List.map_append, List.map_cons] at hn
    rw [show (put x).rtt = before ++ x :: after from rfl, List.map_append, List.map_cons, hx]
    exact hn
  refine ⟨fun hs hstate => ?_, fun deadline hs hstate hfetch => ?_, fun hstate => ?_, fun hstate => ?_, fun x hs hx => ?_⟩
  · have hstore : s.blk.storeFetch e1 data status = put (if e.fetchError = true then e1 else e2) := by
      rw [hs, storeFetch_ok_await _ e1 _ hstate]
      by_cases hfetch : e.fetchError = true
      · rw [if_pos hfetch, if_pos hfetch]
        exact hset e1 rfl
      · rw [if_neg hfetch, if_neg hfetch]
        exact hset e2 rfl
    rw [hexec hstore rfl (by split <;> rfl), lastFetch_quiet (.inl (by split <;> exact hstate))]
  · have hstore : s.blk.storeFetch e1 data status = put e2 := by
      rw [hs, storeFetch_ok_join _ e1 _ _ hstate, if_neg (show ¬ e.fetchError = true by rw [hfetch]; exact Bool.false_ne_true)]
      exact hset e2 rfl
    have hlast : (put e2).lastFetch e2 = put (blendedEntry (s.blk.chan e.chan).desc info e2) := by
      have hblend : (put e2).lastFetch e2 = (put e2).setEntry (e2.blend (s.blk.chan e.chan).desc) := by
        simp only [Blocks.lastFetch, show e2.state = .join deadline from hstate]
        rfl
      rw [hblend, blend_eq (show e2.kind = .blend info from hkind)]
      exact setEntry_eq (put e2) before after e2 _ rfl rfl (nodup_put e2 rfl)
    rw [hexec hstore rfl rfl, hlast]
    by_cases hm : m = 0
    · rw [if_pos hm, if_pos (show e2.outstanding = 0 from hm)]
    · rw [if_neg hm, if_neg (show ¬ e2.outstanding = 0 from hm)]
  · have hquiet : e3.state = .await ∨ e3.state = .done := .inr hstate
    exact (hexec (x := e3) (hmarked (.inl hstate)) rfl rfl).trans (by rw [lastFetch_quiet hquiet])
  · have hfree : (put e3).lastFetch e3 = (put e3).freeEntryOf e3 := by
      simp only [Blocks.lastFetch, show e3.state = .drain from hstate]
    have hlast : (put e3).lastFetch e3 = freed s.blk e (before ++ after) :=
      hfree.trans (GrantProofs.freeEntryOf_freed (b := put e3) rfl (nodup_put e3 rfl))
    rw [hexec (x := e3) (hmarked (.inr hstate)) rfl rfl, hlast]
  · intro ch reported b
    have hquiet : x.state = .await ∨ x.state = .done := by
      rcases hx with ⟨hstate, rfl⟩ | ⟨_, rfl⟩
      · exact .inl hstate
      · exact .inr rfl
    have hnumx : x.num = e.num := by
      rcases hx with ⟨_, rfl⟩ | ⟨_, rfl⟩ <;> rfl
    have hstored : s.blk.storeFetch e1 data status =
        if e.fetchError = true then put x else (put x).raiseFetchError e1 := by
      rcases hx with ⟨hstate, rfl⟩ | ⟨⟨deadline, hstate⟩, rfl⟩
      · have hput : s.blk.setEntry failed = put failed := hset failed rfl
        rw [hs, storeFetch_error_await _ e1 _ hstate, ← hput]
      · have hput : s.blk.setEntry (cleanEntry failed) = put (cleanEntry failed) := hset (cleanEntry failed) rfl
        rw [hs, storeFetch_error_join _ e1 _ _ hstate, ← hput]
        rfl
    have hb : s.blk.storeFetch e1 data status = b := by
      rw [hstored, raiseFetchError_eq (show e1.kind = .blend info from hkind)]
      by_cases hfetch : e.fetchError = true
      · rw [if_pos hfetch, show b = put x from if_pos (.inl hfetch)]
      · rw [if_neg hfetch]
        by_cases hlast : ch.lastFetchError = some e.frame
        · rw [show b = put x from if_pos (.inr hlast)]
          exact if_pos hlast
        · rw [show b = reported from if_neg (not_or.2 ⟨hfetch, hlast⟩)]
          exact if_neg hlast
    rw [hexec hb ?_ hnumx, lastFetch_quiet hquiet]
    rw [← hb, hstored]
    split
    · rfl
    · exact raiseFetchError_rtt _ _

end Sys2Proof.ResponseProofs
end

section
/-! The presenter units and the abandoned frame (O42, O43, O44, O46, O48). -/

namespace Sys2Proof.UnitProofs

open Sys2Proof.Machine Sys2Proof.Stated

/-! ## A unit acted upon (R61) -/

theorem ended_blk {s : State} {b : Blocks} (h : b = s.blk) : ended { s with blk := b } = .next (finish s) := by
  subst h
  rfl

theorem exec_frameOpen {s : State} (hm : s.blk.mode = .active) (p : Fin 4) (w h : Half) :
    exec (.frameOpen p w h) s = .next (finish { s with blk := s.blk.takeFrameOpen p w.toNat h.toNat }) :=
  congrArg ended (if_pos hm)

theorem exec_line {s : State} (hm : s.blk.mode = .active) (p : Fin 4) (index : Half) (samples : List K8) :
    exec (.line p index samples) s = .next (finish { s with blk := s.blk.takeLine p index.toNat samples }) :=
  congrArg ended (if_pos hm)

theorem exec_frameClose {s : State} (hm : s.blk.mode = .active) (p : Fin 4) :
    exec (.frameClose p) s = .next (finish { s with blk := s.blk.takeFrameClose p }) :=
  congrArg ended (if_pos hm)

theorem exec_unit_idle {s : State} {p : Fin 4} {i : Instr} (hi : IsUnit p i) (hm : s.blk.mode ≠ .active) :
    exec i s = .next (finish s) := by
  rcases hi with ⟨w, h, rfl⟩ | ⟨n, samples, rfl⟩ | rfl <;> exact congrArg ended (if_neg hm)

theorem sizeGood_iff (w h : Half) :
    SizeGood w h ↔ ¬ (w.toNat < 16 ∨ 1920 < w.toNat ∨ h.toNat < 16 ∨ 1080 < h.toNat) := by
  unfold SizeGood
  omega

/-- Settles O42: outside ACTIVE nothing is taken, and in ACTIVE each of the units leaves the blocks as they are. -/
theorem unitsWithoutEffect : Obligations.UnitsWithoutEffect := by
  unfold Obligations.UnitsWithoutEffect
  intro s p
  have hquiet : ∀ i, IsUnit p i → (s.blk.mode = .active → exec i s = .next (finish s)) → exec i s = .next (finish s) :=
    fun i hi h => if hm : s.blk.mode = .active then h hm else exec_unit_idle hi hm
  refine ⟨fun _ => rfl, fun i => exec_unit_idle, fun w h hsize => ?_, fun hstate => ⟨?_, fun n samples => ?_⟩,
    fun f n samples hstate hlen => ?_⟩
  · refine hquiet _ (.inl ⟨w, h, rfl⟩) fun hm => ?_
    rw [exec_frameOpen hm, Blocks.takeFrameOpen, if_pos (not_not.1 (mt (sizeGood_iff w h).2 hsize))]
  · refine hquiet _ (.inr (.inr rfl)) fun hm => ?_
    rw [exec_frameClose hm, Blocks.takeFrameClose]
    rcases hstate with h | h <;> rw [h]
  · refine hquiet _ (.inr (.inl ⟨n, samples, rfl⟩)) fun hm => ?_
    rw [exec_line hm, Blocks.takeLine]
    rcases hstate with h | h <;> rw [h]
  · refine hquiet _ (.inr (.inl ⟨n, samples, rfl⟩)) fun hm => ?_
    rw [exec_line hm, Blocks.takeLine, hstate]
    simp only [if_pos hlen]

/-! ## FRAME OPEN (R63) -/

/-- Settles O43: the port is first made ready, then the frame is opened in the claimed slot, if any. -/
theorem frameOpenClaimsSlot : Obligations.FrameOpenClaimsSlot := by
  unfold Obligations.FrameOpenClaimsSlot
  intro s p w h b hm hsize hb u
  have hopen : s.blk.takeFrameOpen p w.toNat h.toNat = b.openFrame p w.toNat h.toNat := by
    rw [Blocks.takeFrameOpen, if_neg ((sizeGood_iff w h).1 hsize), hb]
    cases hstate : (s.blk.port p).state <;> rfl
  rw [exec_frameOpen hm, hopen]
  refine ⟨fun i hclaim => ?_, fun hclaim => ?_⟩
  · simp only [Blocks.openFrame, hclaim]
    rfl
  · simp only [Blocks.openFrame, hclaim]
    rfl

/-! ## Line entries placed (R78) -/

theorem placeEntry_eq (b : Blocks) (p : Fin 4) (e : LineEntry) : b.placeEntry p e = entryPlaced b p e := by
  unfold Blocks.placeEntry entryPlaced
  rw [dropFlight_damaged]
  rfl

theorem placeEntries_eq (b : Blocks) (p : Fin 4) (es : List LineEntry) :
    b.placeEntries p es = es.foldl (fun b e => entryPlaced b p e) b := by
  unfold Blocks.placeEntries
  simp only [placeEntry_eq]

theorem takes_iff (f : OpenFrame) (index : Nat) : f.takes index = true ↔
    (f.crop.y ≤ index ∧ index < f.crop.y + f.crop.h) ∧ ∀ last, f.lastIndex = some last → last < index := by
  unfold OpenFrame.takes
  rw [Bool.and_eq_true, Bool.and_eq_true, decide_eq_true_eq, decide_eq_true_eq]
  refine and_congr_right fun _ => ?_
  cases hlast : f.lastIndex with
  | none => simp
  | some i => simp

/-- Settles O44: by the port's state, the line's place and the output lines that remain. -/
theorem lineEntersOpenFrame : Obligations.LineEntersOpenFrame := by
  unfold Obligations.LineEntersOpenFrame
  intro s p index samples hm
  rw [exec_line hm]
  refine ⟨fun hstate => ?_, fun f hstate hlen => ?_⟩
  · rcases hstate with hstate | ⟨w, h, hstate⟩ <;> simp only [Blocks.takeLine, hstate] <;> rfl
  · intro inCrop rises u
    have htake : s.blk.takeLine p index.toNat samples =
        if f.takes index.toNat = true then (heard s.blk p).enterLine p f index.toNat samples else heard s.blk p := by
      simp only [Blocks.takeLine, hstate, hlen, ne_eq, not_true_eq_false, if_false]
      rfl
    have hset : ∀ x : IngestState, (heard s.blk p).setPort p { (heard s.blk p).port p with state := x } =
        s.blk.setPort p { u with state := x } := fun x => by
      rw [heard, Blocks.port_setPort_same, Blocks.setPort_setPort]
    rw [htake]
    refine ⟨fun hout => ?_, fun hin hrise hfull => ?_, fun hin hrise hroom => ?_⟩
    · rw [if_neg (mt (takes_iff f _).1 hout)]
    · rw [if_pos ((takes_iff f _).2 ⟨hin, hrise⟩), Blocks.enterLine, if_neg (Nat.not_lt.2 hfull), hset]
    · rw [if_pos ((takes_iff f _).2 ⟨hin, hrise⟩), Blocks.enterLine, if_pos hroom]
      simp only [placeEntries_eq, hset]
      cases f.firstLine <;> rfl

/-! ## FRAME CLOSE (R66, R77) -/

/-- What the close of a frame does when its remaining output lines have been placed, or it had none (R66, R77). -/
theorem closeFrame_eq {b b' : Blocks} {p : Fin 4} {f : OpenFrame}
    (h : b' = if f.lastLine.isNone = true then b.dropFlight p f.slot Blocks.damagedIfNone else b.placeEntries p f.finishRun) :
    b.closeFrame p f = ((b'.setPort p { b'.port p with
        state := .waiting
        flights := (b'.port p).flights.map fun g => if g.slot = f.slot then { g with closed := true } else g }).setSlot p f.slot
      { b'.slot p f.slot with
        state := .settling
        damaged := (b'.slot p f.slot).damaged ||
          ((b'.port p).flights.find? fun g => g.slot = f.slot).any fun g => g.reason ≠ .none }).completeFlight p f.slot := by
  unfold Blocks.closeFrame
  simp only [← h]
  have hfind : ((b'.port p).setFlight f.slot fun g => { g with closed := true }).flight? f.slot =
      ((b'.port p).flights.find? fun g => g.slot = f.slot).map fun g => { g with closed := true } :=
    find_map_slot _ _ (fun g => { g with closed := true }) fun _ => rfl
  rw [hfind]
  cases (b'.port p).flights.find? fun g => g.slot = f.slot <;>
    simp only [Blocks.settleSlot, Blocks.slot_setPort, Option.map_some, Option.map_none, Option.any_some, Option.any_none] <;> rfl

/-- Settles O46: by the port's state. -/
theorem frameCloseSettlesSlot : Obligations.FrameCloseSettlesSlot := by
  unfold Obligations.FrameCloseSettlesSlot
  intro s p hm
  rw [exec_frameClose hm]
  refine ⟨fun hstate => ?_, fun w h hstate => ?_, fun f b u hstate hb hu => ?_⟩
  · simp only [Blocks.takeFrameClose, hstate]
    rfl
  · simp only [Blocks.takeFrameClose, hstate, Blocks.goodUnit, Blocks.port_setPort_same, Blocks.setPort_setPort]
  · subst hu
    have hlines : b = if f.lastLine.isNone = true then (heard s.blk p).dropFlight p f.slot Blocks.damagedIfNone
        else (heard s.blk p).placeEntries p f.finishRun := by
      rw [hb, placeEntries_eq, dropFlight_damaged, OpenFrame.finishRun]
      cases f.lastLine with
      | none => rfl
      | some l =>
        by_cases hleft : f.nextOut < f.h
        · simp only [if_pos hleft]
          rfl
        · simp only [if_neg hleft]
          rfl
    have hclose : s.blk.takeFrameClose p = (heard s.blk p).closeFrame p f := by
      simp only [Blocks.takeFrameClose, hstate]
      rfl
    rw [hclose, closeFrame_eq hlines]

/-! ## An abandoned frame (R65) -/

/-- Settles O48: the damaged mark is set whatever it was. -/
theorem abandonedFrameIsDropped : Obligations.AbandonedFrameIsDropped := by
  unfold Obligations.AbandonedFrameIsDropped
  intro b p f _ u
  simp only [Blocks.abandonFrame, Blocks.settleSlot, Bool.or_true, Blocks.slot_setPort, if_true]
  rfl

end Sys2Proof.UnitProofs
end

section
/-! The responses of the line writes (O40) and the limits (O47). -/

namespace Sys2Proof.LimitProofs

open Sys2Proof.Machine Sys2Proof.Stated Sys2Proof.ResponseProofs

/-! ## The completion of a frame in flight (R81, R86, R91) -/

theorem flightDone_iff (u : Port) (f : Flight) : Blocks.flightDone u f = true ↔
    f.closed = true ∧ f.outstanding = 0 ∧ ∀ e ∈ u.queue, e.slot ≠ f.slot := by
  simp only [Blocks.flightDone, Bool.and_eq_true, decide_eq_true_eq, List.all_eq_true, and_assoc]

theorem flight?_eq {u : Port} {before after : List Flight} {f : Flight} (hf : u.flights = before ++ f :: after)
    (hn : (u.flights.map Flight.slot).Nodup) : u.flight? f.slot = some f := by
  unfold Port.flight?
  rw [hf] at hn ⊢
  exact flight_find before after f f.slot rfl hn

theorem nodup_replaced {u : Port} {before after : List Flight} {f g : Flight} (hf : u.flights = before ++ f :: after)
    (hn : (u.flights.map Flight.slot).Nodup) (hg : g.slot = f.slot) :
    ((before ++ g :: after).map Flight.slot).Nodup := by
  rw [hf, List.map_append, List.map_cons] at hn
  rw [List.map_append, List.map_cons, hg]
  exact hn

theorem completeFlight_undone {b : Blocks} {p : Fin 4} {before after : List Flight} {f : Flight}
    (hf : (b.port p).flights = before ++ f :: after) (hn : ((b.port p).flights.map Flight.slot).Nodup)
    (h : ¬ (f.closed = true ∧ f.outstanding = 0 ∧ ∀ e ∈ (b.port p).queue, e.slot ≠ f.slot)) :
    b.completeFlight p f.slot = b := by
  simp only [Blocks.completeFlight, flight?_eq hf hn, if_neg (mt (flightDone_iff _ _).1 h)]

/-- The blocks when the frame of a slot is complete and its frame in flight gone: READY with the next capture number, or
FREE and cleared with the report of its reason (R81, R86, R91). -/
def completed (b : Blocks) (p : Fin 4) (i : Fin 16) (reason : DropReason) : Blocks :=
  let x := b.slot p i
  let number := if (b.portSlots p).latest = 4294967295 then 1 else (b.portSlots p).latest + 1
  let kept := b.setSlot p i { x with state := .ready, capture := number }
  let dropped := b.setSlot p i ⟨.free, 0, 0, 0, x.hold, false⟩
  if reason = .none ∧ x.damaged = false then kept.setPortSlots p { kept.portSlots p with latest := number }
  else match reason with
    | .none | .abandoned => dropped
    | .damaged => dropped.raise .ingestDrop (.port p) [2, wordOfNat i.val, pairWord x.w x.h, 0]
    | .writeError => dropped.raise .ingestDrop (.port p) [4, wordOfNat i.val, pairWord x.w x.h, 0]

theorem completeFlight_done {b : Blocks} {p : Fin 4} {before after : List Flight} {f : Flight}
    (hf : (b.port p).flights = before ++ f :: after) (hn : ((b.port p).flights.map Flight.slot).Nodup)
    (h : f.closed = true ∧ f.outstanding = 0 ∧ ∀ e ∈ (b.port p).queue, e.slot ≠ f.slot) :
    b.completeFlight p f.slot =
      completed (b.setPort p { b.port p with flights := before ++ after }) p f.slot f.reason := by
  have hrest : ((b.port p).flights.filter fun x => x.slot ≠ f.slot) = before ++ after := by
    rw [hf] at hn ⊢
    exact flight_filter before after f f.slot rfl hn
  simp only [Blocks.completeFlight, flight?_eq hf hn, if_pos ((flightDone_iff _ _).2 h), hrest, Blocks.completeSlot,
    completed, Blocks.slot_setPort]
  cases hreason : f.reason <;> cases hdamaged : (b.slot p f.slot).damaged <;> rfl

/-! ## A line write's response (R80) -/

theorem dropFlight_writeError {b : Blocks} {p : Fin 4} {before after : List Flight} {f : Flight}
    (hf : (b.port p).flights = before ++ f :: after) (hn : ((b.port p).flights.map Flight.slot).Nodup) :
    b.dropFlight p f.slot Blocks.afterWriteError =
      (b.setPort p { b.port p with
        flights := before ++ { f with reason := Blocks.afterWriteError f.reason } :: after }).setSlot p f.slot
        { b.slot p f.slot with
          damaged := (b.slot p f.slot).damaged || decide ((b.slot p f.slot).state = .filling) } := by
  have hset : (b.port p).setFlight f.slot (fun g => { g with reason := Blocks.afterWriteError g.reason }) =
      { b.port p with flights := before ++ { f with reason := Blocks.afterWriteError f.reason } :: after } := by
    unfold Port.setFlight
    rw [hf] at hn ⊢
    rw [flight_map before after f (fun g => { g with reason := Blocks.afterWriteError g.reason }) hn]
  have hnew : ({ b.port p with flights := before ++ { f with reason := Blocks.afterWriteError f.reason } :: after } :
      Port).flight? f.slot = some { f with reason := Blocks.afterWriteError f.reason } :=
    flight?_eq (f := { f with reason := Blocks.afterWriteError f.reason }) rfl (nodup_replaced hf hn rfl)
  have hreason : Blocks.afterWriteError f.reason ≠ .none := by
    unfold Blocks.afterWriteError
    split <;> decide
  simp only [Blocks.dropFlight, hset, hnew, if_neg hreason, markDamaged_eq, Blocks.slot_setPort]

/-- The blocks when a write response has been counted, before the frame is looked at (R80). -/
def lineWritten (b : Blocks) (p : Fin 4) (before after : List Flight) (f : Flight) (m : Nat) (status : Status) : Blocks :=
  let x := b.slot p f.slot
  (b.setPort p { b.port p with
    flights := before ++ { f with
      outstanding := m
      reason := if status = .error ∧ f.reason ≠ .abandoned then .writeError else f.reason } :: after }).setSlot p f.slot
    { x with damaged := x.damaged || (decide (status = .error) && decide (x.state = .filling)) }

theorem takeLineWrite_eq {b : Blocks} {p : Fin 4} {before after : List Flight} {f : Flight} {m : Nat} (status : Status)
    (hf : (b.port p).flights = before ++ f :: after) (hn : ((b.port p).flights.map Flight.slot).Nodup)
    (hbefore : ∀ x ∈ before, x.outstanding = 0) (hout : f.outstanding = m + 1) :
    b.takeLineWrite p status = .ok ((lineWritten b p before after f m status).completeFlight p f.slot) := by
  have hfind : ((b.port p).flights.find? fun g => decide (0 < g.outstanding)) = some f := by
    refine List.find?_eq_some_iff_append.2 ⟨by rw [hout]; exact decide_eq_true (Nat.succ_pos m), before, after, hf, fun x hx => ?_⟩
    rw [hbefore x hx]
    rfl
  have hset : (b.port p).setFlight f.slot (fun g => { g with outstanding := g.outstanding - 1 }) =
      { b.port p with flights := before ++ { f with outstanding := m } :: after } := by
    unfold Port.setFlight
    rw [hf] at hn ⊢
    rw [flight_map before after f (fun g => { g with outstanding := g.outstanding - 1 }) hn, hout]
    rfl
  simp only [Blocks.takeLineWrite, hfind, hset]
  cases status with
  | ok =>
    have hok : lineWritten b p before after f m .ok =
        b.setPort p { b.port p with flights := before ++ { f with outstanding := m } :: after } := by
      simp only [lineWritten, reduceCtorEq, decide_false, Bool.false_and, Bool.or_false, false_and, if_false]
      rw [← Blocks.setSlot_setPort]
      exact congrArg (fun b : Blocks => b.setPort p _) (Blocks.setSlot_self b p f.slot)
    rw [hok]
  | error =>
    have hdrop := dropFlight_writeError
      (b := b.setPort p { b.port p with flights := before ++ { f with outstanding := m } :: after }) (p := p)
      (before := before) (after := after) (f := { f with outstanding := m })
      (by rw [Blocks.port_setPort_same]) (by rw [Blocks.port_setPort_same]; exact nodup_replaced hf hn rfl)
    have hreason : Blocks.afterWriteError f.reason = if f.reason ≠ .abandoned then .writeError else f.reason := by
      cases f.reason <;> rfl
    simp only [Blocks.port_setPort_same, Blocks.setPort_setPort, Blocks.slot_setPort, hreason] at hdrop
    simp only [hdrop, lineWritten, decide_true, Bool.true_and, true_and]

theorem takeLineWrite_fault {b : Blocks} {p : Fin 4} (status : Status)
    (h : ∀ f ∈ (b.port p).flights, f.outstanding = 0) : b.takeLineWrite p status = .error .noIssuer := by
  have hfind : ((b.port p).flights.find? fun g => decide (0 < g.outstanding)) = none :=
    List.find?_eq_none.2 fun f hf => by rw [h f hf]; decide
  simp only [Blocks.takeLineWrite, hfind]

/-- Settles O40: the response is counted, then its frame is completed if it is done. -/
theorem lineWriteResponseCompletesFrames : Obligations.LineWriteResponseCompletesFrames := by
  unfold Obligations.LineWriteResponseCompletesFrames
  intro s p status hpass
  have htake : takeResponse s (.lineWrite p status) = (s.blk.takeLineWrite p status).map fun b => { s with blk := b } := rfl
  refine ⟨fun h => exec_response_fault rfl rfl hpass (by rw [htake, takeLineWrite_fault status h]; rfl),
    fun before after f m hf hn hbefore hout => ?_⟩
  have hexec : exec (.lineWriteResponse p status) s =
      .next (finish { s with blk := (lineWritten s.blk p before after f m status).completeFlight p f.slot }) :=
    exec_response rfl rfl hpass (by rw [htake, takeLineWrite_eq status hf hn hbefore hout]; rfl)
  intro u x reason damaged complete
  rw [hexec]
  let f1 : Flight := { f with outstanding := m, reason := reason }
  have hport : (lineWritten s.blk p before after f m status).port p = { u with flights := before ++ f1 :: after } := by
    unfold lineWritten
    rw [Blocks.port_setSlot, Blocks.port_setPort_same]
  have hf1 : ((lineWritten s.blk p before after f m status).port p).flights = before ++ f1 :: after := by rw [hport]
  have hn1 : (((lineWritten s.blk p before after f m status).port p).flights.map Flight.slot).Nodup := by
    rw [hport]
    exact nodup_replaced (g := f1) hf hn rfl
  have hqueue : ((lineWritten s.blk p before after f m status).port p).queue = u.queue := by rw [hport]
  refine ⟨fun hopen => ?_, fun hdone => ?_⟩
  · have hkept := completeFlight_undone (f := f1) hf1 hn1 (by rw [hqueue]; exact hopen)
    rw [show f.slot = f1.slot from rfl, hkept]
    rfl
  · have hkept := completeFlight_done (f := f1) hf1 hn1 (by rw [hqueue]; exact hdone)
    intro b latest number kept dropped b'
    rw [show f.slot = f1.slot from rfl, hkept]
    have hset : (lineWritten s.blk p before after f m status).setPort p
        { (lineWritten s.blk p before after f m status).port p with flights := before ++ after } =
        b.setSlot p f.slot { x with damaged := damaged } := by
      rw [hport]
      unfold lineWritten
      rw [Blocks.setSlot_setPort, Blocks.setPort_setPort]
    rw [hset]
    have hb' : completed (b.setSlot p f.slot { x with damaged := damaged }) p f.slot reason = b' := by
      have hlatest : (b.portSlots p).latest = latest := by rw [Blocks.portSlots_setPort]
      simp only [completed, Blocks.slot_setSlot_same, Blocks.setSlot_setSlot, Blocks.latest_setSlot, hlatest]
      by_cases hgood : reason = .none ∧ damaged = false
      · have hclean : x.damaged = false := (Bool.or_eq_false_iff.1 hgood.2).1
        have hslot : ({ x with state := .ready, capture := number, damaged := damaged } : Slot) =
            { x with state := .ready, capture := number } := by
          rw [hgood.2, ← hclean]
        rw [if_pos hgood, show b' = _ from if_pos hgood, hslot]
      · exact (if_neg hgood).trans (show b' = _ from if_neg hgood).symm
    rw [← hb']

/-! ## The limits (R36, R68, R166) -/

theorem joinDue_join {b : Blocks} {e : Entry} {d : Word} (h : e.state = .join d) :
    b.joinDue e = decide ((b.timeBase - d).toNat < 2147483648) := by
  simp only [EventProofs.joinDue_eq, pastDeadline, h]

theorem expireJoin_idle {b : Blocks} {n : Tag}
    (h : ∀ e ∈ b.rtt, e.num = n → ∀ d, e.state = .join d → 2147483648 ≤ (b.timeBase - d).toNat) : b.expireJoin n = b := by
  unfold Blocks.expireJoin
  cases hfind : b.entry? n with
  | none => rfl
  | some e =>
    have hmem := List.mem_of_find?_eq_some hfind
    have hnum : e.num = n := by simpa using List.find?_some hfind
    have hdue : b.joinDue e = false := by
      cases hstate : e.state with
      | join d =>
        rw [joinDue_join hstate]
        exact decide_eq_false (Nat.not_lt.2 (h e hmem hnum d hstate))
      | await | done | drain => simp only [EventProofs.joinDue_eq, pastDeadline, hstate]
    simp only [hdue, Bool.false_eq_true, if_false]

theorem raiseLate_eq (b : Blocks) (e : Entry) :
    b.raiseLate e = if (b.chan e.chan).lastLate = some e.frame then b
      else (b.setChan e.chan { b.chan e.chan with lastLate := some e.frame }).raise .latePresenter
        (.channel e.chan (b.chan e.chan).frame)
        [e.frame, quadWord e.tag.toNat e.oid.toNat 0 0, wordOfNat e.addr.toNat, wordOfNat (e.addr.toNat / 2 ^ 32)] := by
  simp only [Blocks.raiseLate, Blocks.raiseChan, Blocks.chan_setChan_same, entryWords, addrWords]
  rfl

theorem lossDue_iff (b : Blocks) (p : Fin 4) : b.lossDue p = true ↔
    ∃ t, b.mode = .active ∧ (b.port p).lastGood = some t ∧ (b.port p).state ≠ .idle ∧ (b.port p).state ≠ .lost ∧
      b.image.lossLimit < (b.timeBase - t).toNat := by
  rw [EventProofs.lossDue_eq]
  unfold gapTooLong
  cases hgood : (b.port p).lastGood with
  | none => cases (b.port p).state <;> simp
  | some t => cases (b.port p).state <;> simp

theorem refreshDue_iff (s : State) : s.blk.refreshDue = true ↔
    InService s ∧ s.blk.image.refreshPeriod * 1000 ≤ (s.blk.timeBase - s.blk.rep.lastRefresh).toNat := by
  rw [EventProofs.refreshDue_eq, periodOver, decide_eq_true_eq]
  rfl

/-- Settles O47: each expiry by whether its limit is reached. -/
theorem limitsExpireWhenReached : Obligations.LimitsExpireWhenReached := by
  unfold Obligations.LimitsExpireWhenReached
  refine ⟨fun s n => ⟨fun h => ?_, fun before after e d hr hn hnum hstate hdue => ?_⟩, fun s p u hu => ⟨fun h => ?_,
    fun t hm hgood hidle hlost hgap => ?_⟩, fun s => ?_⟩
  · exact UnitProofs.ended_blk (expireJoin_idle h)
  · intro ch b reported
    change ended { s with blk := s.blk.expireJoin n } = _
    have hset : s.blk.setEntry (cleanEntry { e with late := true }) = b :=
      setEntry_eq s.blk before after e (cleanEntry { e with late := true }) hr rfl hn
    have hexpire : s.blk.expireJoin n = b.raiseLate e := by
      rw [← hset]
      simp only [Blocks.expireJoin, entry?_eq s.blk before after e n hr hn hnum, joinDue_join hstate, decide_eq_true hdue, if_true]
      rfl
    rw [hexpire, raiseLate_eq]
    rfl
  · subst hu
    have hdue : s.blk.lossDue p ≠ true := fun hdue => by
      obtain ⟨t, hm, hgood, hidle, hlost, hgap⟩ := (lossDue_iff _ _).1 hdue
      rcases h with h | h | h | h | h
      · exact h hm
      · rw [hgood] at h; cases h
      · exact hidle h
      · exact hlost h
      · have := h t hgood; omega
    exact UnitProofs.ended_blk (if_neg hdue)
  · subst hu
    intro b
    change ended { s with blk := s.blk.expireLoss p } = _
    have hdue : s.blk.lossDue p = true := (lossDue_iff _ _).2 ⟨t, hm, hgood, hidle, hlost, hgap⟩
    simp only [Blocks.expireLoss, if_pos hdue, hgood, Option.getD_some]
    rfl
  · intro due
    refine ⟨fun h => UnitProofs.ended_blk (if_neg (mt (refreshDue_iff s).1 h)), fun h => ?_⟩
    exact congrArg (fun b => ended { s with blk := b }) (if_pos ((refreshDue_iff s).2 h))

end Sys2Proof.LimitProofs
end

section
/-! The output lines of a received crop line, and the arithmetic of ingest (O45). -/

namespace Sys2Proof.ScalingProofs

open Sys2Proof.Machine Sys2Proof.Stated

/-! ## The clamp, the crop and the target (R70 to R72) -/

theorem isClamped_clampSample (p : K8) : IsClamped p (clampSample p) :=
  ⟨clampByte_toNat p.y 16 235 (by omega) (by omega), clampByte_toNat p.cb 16 240 (by omega) (by omega),
    clampByte_toNat p.cr 16 240 (by omega) (by omega), rfl⟩

theorem cropAxis_some {origin size source : Nat} (h : origin < source) (hn : min size (source - origin) ≠ 0) :
    cropAxis origin size source = some (origin, min size (source - origin)) :=
  (if_pos h).trans (if_neg hn)

theorem cropAxis_none {origin size source : Nat} (h : ¬ (origin < source ∧ min size (source - origin) ≠ 0)) :
    cropAxis origin size source = none := by
  unfold cropAxis
  by_cases ho : origin < source
  · exact (if_pos ho).trans (if_pos (not_not.1 fun hn => h ⟨ho, hn⟩))
  · exact if_neg ho

theorem cropOf_eq (s : IngestSettings) (w h : Nat) : cropOf s w h =
    if s.cropX < w ∧ s.cropY < h ∧ 16 ≤ min s.cropW (w - s.cropX) ∧ 16 ≤ min s.cropH (h - s.cropY) then
      ⟨s.cropX, s.cropY, min s.cropW (w - s.cropX), min s.cropH (h - s.cropY)⟩
    else ⟨0, 0, w, h⟩ := by
  by_cases hx : s.cropX < w ∧ min s.cropW (w - s.cropX) ≠ 0
  · by_cases hy : s.cropY < h ∧ min s.cropH (h - s.cropY) ≠ 0
    · simp only [cropOf, cropAxis_some hx.1 hx.2, cropAxis_some hy.1 hy.2]
      by_cases hsize : 16 ≤ min s.cropW (w - s.cropX) ∧ 16 ≤ min s.cropH (h - s.cropY)
      · rw [if_neg (by omega), if_pos ⟨hx.1, hy.1, hsize⟩]
      · rw [if_pos (by omega), if_neg (fun hc => hsize ⟨hc.2.2.1, hc.2.2.2⟩)]
    · simp only [cropOf, cropAxis_some hx.1 hx.2, cropAxis_none hy]
      rw [if_neg (fun hc => hy ⟨hc.2.1, by omega⟩)]
  · simp only [cropOf, cropAxis_none hx]
    rw [if_neg (fun hc => hx ⟨hc.1, by omega⟩)]

theorem targetOf_eq (s : IngestSettings) (crop : Rect) (slotBytes : Nat) :
    targetOf s crop slotBytes = sizeBySteps s.targetW s.targetH crop.w crop.h slotBytes := by
  have hfour : ∀ x : Nat, x / 4 * 4 = x - x % 4 := fun x => by omega
  have hmin : ∀ x y : Nat, (if y < x then y else x) = min x y := fun x y => by
    split <;> omega
  have hslots : slotBytes / 64 / 4 * 4 = 4 * (slotBytes / 256) := by
    rw [Nat.div_div_eq_div_mul, Nat.mul_comm]
  simp only [targetOf, sizeBySteps, hmin, hslots]
  simp only [hfour]

/-! ## Mixes (R73, R74) -/

theorem isMix_tapPixel (a b : K8) {f : Nat} (hf : f ≤ 4096) : IsMix (tapPixel a b f) a b f :=
  ⟨tap_toNat _ _ _ hf, tap_toNat _ _ _ hf, tap_toNat _ _ _ hf, tap_toNat _ _ _ hf⟩

theorem pixelAt_eq {pixels : List K8} {i : Nat} {p : K8} (h : pixels[i]? = some p) : pixelAt pixels i = p := by
  rw [pixelAt, List.getD_eq_getElem?_getD, h]
  rfl

/-- A pixel made from two pixels of two lines is their mix, where the lines have them. -/
theorem mixAt_tapPixel {pixels la lb : List K8} {i ia ib f : Nat} {a b : Option K8} (hf : f ≤ 4096)
    (hi : pixels[i]? = some (tapPixel (pixelAt la ia) (pixelAt lb ib) f)) (ha : a = la[ia]?) (hb : b = lb[ib]?) :
    MixAt pixels i a b f := by
  refine ⟨_, hi, fun p p' hp hp' => ?_⟩
  rw [pixelAt_eq (ha ▸ hp), pixelAt_eq (hb ▸ hp')]
  exact isMix_tapPixel p p' hf

theorem scaleLine_spec (crop : Rect) (w step : Nat) (samples : List K8) : (scaleLine crop w step samples).length = w ∧
    ∀ i < w,
      let s := place step i / 4096
      MixAt (scaleLine crop w step samples) i (samples[crop.x + s]?.map clampSample)
        (samples[crop.x + min (s + 1) (crop.w - 1)]?.map clampSample) (place step i % 4096) := by
  refine ⟨by rw [scaleLine, List.length_map, List.length_range], fun i hi => ?_⟩
  intro s
  refine mixAt_tapPixel (by omega) (la := (samples.drop crop.x).map clampSample) (ia := s)
    (lb := (samples.drop crop.x).map clampSample) (ib := min (s + 1) (crop.w - 1)) ?_ ?_ ?_
  · rw [scaleLine, List.getElem?_map, List.getElem?_range hi]
    rfl
  · rw [List.getElem?_map, List.getElem?_drop]
  · rw [List.getElem?_map, List.getElem?_drop]

/-! ## The lines a crop line produces (R74, R76) -/

/-- The content a line held before a received crop line has (R76; log 15). -/
def heldBefore (f : OpenFrame) (content : List K8) : List K8 :=
  match f.lastLine with
  | none => content
  | some (_, line) => line

/-- How many output lines lie below a received crop line, and how many require it (R76). -/
def belowOf (f : OpenFrame) (r : Nat) : Nat := f.countBelow r (f.h - f.nextOut) f.nextOut

def atOf (f : OpenFrame) (r : Nat) : Nat := f.countAt r (f.h - (f.nextOut + belowOf f r)) (f.nextOut + belowOf f r)

/-- The run of lines below a received crop line, and the lines that require it. -/
def belowRun (f : OpenFrame) (r : Nat) (content : List K8) : List LineEntry :=
  if belowOf f r = 0 then [] else [f.lineEntry f.nextOut (belowOf f r) (heldBefore f content)]

def atSingles (f : OpenFrame) (r : Nat) (content : List K8) : List LineEntry :=
  (List.range (atOf f r)).map fun i =>
    f.lineEntry (f.nextOut + belowOf f r + i) 1 (f.formLine (f.nextOut + belowOf f r + i)
      (if f.source (f.nextOut + belowOf f r + i) < r then heldBefore f content else content) content)

theorem produce_eq (f : OpenFrame) (r : Nat) (content : List K8) :
    f.produce r content = (belowRun f r content ++ atSingles f r content, f.nextOut + belowOf f r + atOf f r) := by
  unfold OpenFrame.produce atSingles belowRun heldBefore
  cases hlast : f.lastLine <;> rfl

theorem below_spec {f : OpenFrame} (r : Nat) (hout : f.nextOut ≤ f.h) : f.nextOut + belowOf f r ≤ f.h ∧
    ∀ j, f.nextOut ≤ j → j < f.h → (j < f.nextOut + belowOf f r ↔ f.required j < r) := by
  obtain ⟨hle, hiff⟩ := countBelow_spec f r (f.h - f.nextOut) f.nextOut
  exact ⟨by unfold belowOf; omega, fun j hj hh => hiff j hj (by omega)⟩

theorem at_spec {f : OpenFrame} (r : Nat) (hout : f.nextOut ≤ f.h) : f.nextOut + belowOf f r + atOf f r ≤ f.h ∧
    ∀ j, f.nextOut ≤ j → j < f.h → (j < f.nextOut + belowOf f r + atOf f r ↔ f.required j ≤ r) := by
  obtain ⟨hle, hiff⟩ := below_spec r hout
  have hfrom : ∀ i, f.nextOut + belowOf f r ≤ i → i < f.nextOut + belowOf f r + (f.h - (f.nextOut + belowOf f r)) →
      r ≤ f.required i := fun i hi hh => Nat.not_lt.1 (mt (hiff i (by omega) (by omega)).2 (by omega))
  obtain ⟨hle', hiff'⟩ := countAt_spec f r (f.h - (f.nextOut + belowOf f r)) (f.nextOut + belowOf f r) hfrom
  refine ⟨by unfold atOf; omega, fun j hj hh => ?_⟩
  by_cases hbelow : j < f.nextOut + belowOf f r
  · exact iff_of_true (by omega) ((hiff j hj hh).1 hbelow).le
  · exact hiff' j (by omega) (by omega)

/-- The output lines of entries, in order. -/
theorem lines_belowRun (f : OpenFrame) (r : Nat) (content : List K8) :
    ((belowRun f r content).flatMap fun e => (List.range e.count).map fun i => e.first + i) =
      (List.range (belowOf f r)).map fun i => f.nextOut + i := by
  unfold belowRun
  by_cases h : belowOf f r = 0
  · rw [if_pos h, h]
    rfl
  · rw [if_neg h, List.flatMap_cons, List.flatMap_nil, List.append_nil]
    rfl

theorem lines_atSingles (f : OpenFrame) (r : Nat) (content : List K8) :
    ((atSingles f r content).flatMap fun e => (List.range e.count).map fun i => e.first + i) =
      (List.range (atOf f r)).map fun i => f.nextOut + belowOf f r + i := by
  unfold atSingles
  rw [List.flatMap_map]
  induction List.range (atOf f r) with
  | nil => rfl
  | cons i rest ih =>
    rw [List.flatMap_cons, ih]
    rfl

theorem mem_atSingles {f : OpenFrame} {r : Nat} {content : List K8} {e : LineEntry} (h : e ∈ atSingles f r content) :
    ∃ j, f.nextOut + belowOf f r ≤ j ∧ j < f.nextOut + belowOf f r + atOf f r ∧
      e = f.lineEntry j 1 (f.formLine j (if f.source j < r then heldBefore f content else content) content) := by
  obtain ⟨i, hi, rfl⟩ := List.mem_map.1 h
  exact ⟨f.nextOut + belowOf f r + i, by omega, by have := List.mem_range.1 hi; omega, rfl⟩

theorem eq_of_mem_belowRun {f : OpenFrame} {r : Nat} {content : List K8} {e : LineEntry} (h : e ∈ belowRun f r content) :
    1 ≤ belowOf f r ∧ e = f.lineEntry f.nextOut (belowOf f r) (heldBefore f content) := by
  unfold belowRun at h
  split at h
  · cases h
  · exact ⟨by omega, List.mem_singleton.1 h⟩

theorem formLine_spec (f : OpenFrame) (j : Nat) (a b : List K8) : (f.formLine j a b).length = f.w ∧
    ∀ i < f.w, MixAt (f.formLine j a b) i a[i]? b[i]? (place f.stepY j % 4096) := by
  refine ⟨by rw [OpenFrame.formLine, List.length_map, List.length_range], fun i hi => ?_⟩
  refine mixAt_tapPixel (by omega) (la := a) (lb := b) (ia := i) (ib := i) ?_ rfl rfl
  rw [OpenFrame.formLine, List.getElem?_map, List.getElem?_range hi]
  rfl

/-- What a received crop line produces (R76). -/
theorem produce_spec {f : OpenFrame} {r : Nat} {content : List K8} {entries : List LineEntry} {next : Nat}
    (hout : f.nextOut ≤ f.h) (hproduce : f.produce r content = (entries, next)) :
    f.nextOut ≤ next ∧ next ≤ f.h ∧
      (∀ j, f.nextOut ≤ j → j < f.h → (j < next ↔ f.required j ≤ r)) ∧
      (∀ e ∈ entries, e.slot = f.slot ∧ e.w = f.w ∧ e.linesDone = 0 ∧ e.beatsDone = 0 ∧ 1 ≤ e.count) ∧
      ((entries.flatMap fun e => (List.range e.count).map fun i => e.first + i) =
        (List.range (next - f.nextOut)).map fun i => f.nextOut + i) ∧
      ∃ run single, entries = run ++ single ∧ run.length ≤ 1 ∧
        (∀ e ∈ run, e.content = heldBefore f content ∧ ∀ i < e.count, f.required (e.first + i) < r) ∧
        ∀ e ∈ single, e.count = 1 ∧ f.required e.first = r ∧ e.content.length = f.w ∧
          ∀ i < f.w, MixAt e.content i ((if f.source e.first < r then heldBefore f content else content)[i]?) (content[i]?)
            (place f.stepY e.first % 4096) := by
  rw [produce_eq] at hproduce
  obtain ⟨rfl, rfl⟩ := Prod.mk.inj hproduce
  obtain ⟨hle, hiff⟩ := below_spec r hout
  obtain ⟨hle', hiff'⟩ := at_spec r hout
  refine ⟨by omega, hle', hiff', fun e he => ?_, ?_, belowRun f r content, atSingles f r content, rfl, ?_, fun e he => ?_,
    fun e he => ?_⟩
  · rcases List.mem_append.1 he with he | he
    · obtain ⟨hpos, rfl⟩ := eq_of_mem_belowRun he
      exact ⟨rfl, rfl, rfl, rfl, hpos⟩
    · obtain ⟨j, _, _, rfl⟩ := mem_atSingles he
      exact ⟨rfl, rfl, rfl, rfl, Nat.le_refl 1⟩
  · have hcount : f.nextOut + belowOf f r + atOf f r - f.nextOut = belowOf f r + atOf f r := by omega
    rw [List.flatMap_append, lines_belowRun, lines_atSingles, hcount, List.range_add, List.map_append, List.map_map]
    simp only [Function.comp_def, Nat.add_assoc]
  · unfold belowRun
    split <;> simp
  · obtain ⟨_, rfl⟩ := eq_of_mem_belowRun he
    exact ⟨rfl, fun i hi => (hiff _ (Nat.le_add_right _ _) (lt_of_lt_of_le (Nat.add_lt_add_left hi _) hle)).1
      (Nat.add_lt_add_left hi _)⟩
  · obtain ⟨j, hlo, hhi, rfl⟩ := mem_atSingles he
    obtain ⟨hlen, hmix⟩ := formLine_spec f j (if f.source j < r then heldBefore f content else content) content
    have hle : f.required j ≤ r := (hiff' j (by omega) (by omega)).1 hhi
    have hge : ¬ f.required j < r := mt (hiff j (by omega) (by omega)).2 (by omega)
    exact ⟨rfl, Nat.le_antisymm hle (Nat.not_lt.1 hge), hlen, hmix⟩

/-- Settles O45: the lines by the two counts, the arithmetic part by part. -/
theorem receivedLineProducesOutputLines : Obligations.ReceivedLineProducesOutputLines := by
  unfold Obligations.ReceivedLineProducesOutputLines
  refine ⟨fun f r content entries next hout hproduce => ?_, isClamped_clampSample, cropOf_eq, fun s crop slotBytes => ?_,
    fun crop w step samples => scaleLine_spec crop w step samples⟩
  · exact produce_spec hout hproduce
  · exact ⟨targetOf_eq s crop slotBytes, targetOf_bounds s crop slotBytes⟩

end Sys2Proof.ScalingProofs
end

section
/-! The completion of RESTART (O49) and the monitor state table (O52). -/

namespace Sys2Proof.CompletionProofs

open Sys2Proof.Machine Sys2Proof.Stated

/-! ## The state table (R127 to R130) -/

theorem make_eq (m : Monitor) : m.make = { m with
    computed := .active, onCount := 0
    shotCount := if m.cfg.delayKind = .oneShot then m.cfg.offDelay else m.shotCount } := by
  unfold Monitor.make
  cases hkind : m.cfg.delayKind <;> simp only [hkind, reduceCtorEq, if_true, if_false]

theorem stepActive_eq (m : Monitor) (c : Condition) : m.stepActive c = match m.cfg.delayKind with
    | .latched => m
    | .oneShot =>
      if m.shotCount ≤ 1 then { m with computed := .spent, shotCount := 0 } else { m with shotCount := m.shotCount - 1 }
    | .steady =>
      if c = .off then
        if m.cfg.offDelay = 0 then { m with computed := .idle }
        else { m with computed := .pendingOff, offCount := m.cfg.offDelay }
      else m := by
  unfold Monitor.stepActive
  cases m.cfg.delayKind with
  | latched => rfl
  | oneShot => exact if_congr Nat.sub_eq_zero_iff_le rfl rfl
  | steady => cases c <;> rfl

/-- Settles O52: by the computed state and the condition. -/
theorem monitorStateTable : Obligations.MonitorStateTable := by
  unfold Obligations.MonitorStateTable
  intro m c made
  have hmake : m.make = made := make_eq m
  unfold Monitor.stepComputed
  cases hcomputed : m.computed with
  | active =>
    have hstep := stepActive_eq m c
    simp only [hcomputed] at hstep
    refine hstep.trans ?_
    cases c <;> rfl
  | inhibited | idle | pendingOn | pendingOff | spent => cases c <;> simp only [hmake, reduceCtorEq, if_true, if_false]

/-! ## RESTART drained and completed (R174) -/

theorem restartDrained_iff (b : Blocks) : restartDrained b = true ↔
    (∀ e ∈ b.rtt, e.kind = .pass ∧ e.state ≠ .drain) ∧ b.fetchQueue = [] ∧
      (∀ p, (b.port p).queue = []) ∧ ∀ p i, (b.slot p i).state ≠ .settling := by
  have hports : ∀ p : Fin 4, p ∈ allPorts := by decide
  simp only [restartDrained, Blocks.rttDrained, Blocks.ingestDrained, Bool.and_eq_true, List.all_eq_true, decide_eq_true_eq,
    List.isEmpty_iff, hports, mem_allSlots, true_implies, and_assoc, forall_and]

/-- The blocks whose slot tables, channels and mode a completed RESTART has set back (R174). -/
def settledBack (b : Blocks) : Blocks :=
  { { b with slotTab := Vector.replicate 4 PortSlots.reset }.mapChans (fun _ ch => restartedChannel b.layouts ch) with
    mode := .active }

theorem completeRestart_eq (b : Blocks) :
    completeRestart b = ((settledBack b).raise .restartDone .none [b.restartTime]).requestRefresh := rfl

theorem settle_completed {u : CueUnit} {b : Blocks} (hm : b.mode = .restarting) (hd : restartDrained b = true)
    (hactive : (chain chainFuel u (completeRestart b)).2.mode = .active) :
    settle chainFuel u b = chain chainFuel u (completeRestart b) := by
  refine (if_pos ⟨hm, hd⟩).trans (settle_idle _ _ _ fun h => ?_)
  rw [hactive] at h
  cases h.1

/-- The end of an event goes on from what the completion leaves. -/
theorem endEvent_of_settle {s : State} {t : CueUnit × Blocks} (h : settle chainFuel s.cue s.blk = t)
    (ht : settle chainFuel t.1 t.2 = t) : endEvent s = endEvent { s with cue := t.1, blk := t.2 } := by
  simp only [endEvent, h, ht]

/-- Settles O49: RESTART completes once, and the chain's blocks are in ACTIVE. -/
theorem restartCompletesInOrder : Obligations.RestartCompletesInOrder := by
  unfold Obligations.RestartCompletesInOrder
  intro s
  refine ⟨rfl, restartDrained_iff s.blk, fun hm hd => ⟨settledBack s.blk, completeRestart s.blk, completeRestart_eq _, rfl,
    fun p i => ?_, fun p => ?_, fun c => ?_, fun hactive => ?_⟩⟩
  · exact HoldProofs.resetSlot p i
  · change (Vector.replicate 4 PortSlots.reset)[p].latest = 0
    rw [Fin.getElem_fin, Vector.getElem_replicate]
    rfl
  · exact Blocks.chan_mapChans _ _ c
  · have hsettle := settle_completed hm hd hactive
    have hidle : settle chainFuel (chain chainFuel s.cue (completeRestart s.blk)).1
        (chain chainFuel s.cue (completeRestart s.blk)).2 = chain chainFuel s.cue (completeRestart s.blk) :=
      settle_idle _ _ _ fun h => by rw [hactive] at h; cases h.1
    rw [finish, endEvent_of_settle hsettle hidle]

end Sys2Proof.CompletionProofs
end

section
/-! The claim of a slot and the retention depth (O19). -/

namespace Sys2Proof.ClaimProofs

open Sys2Proof.Machine

theorem allSlots_pairwise : allSlots.Pairwise (· < ·) := by decide

/-- The first FREE slot of the table is the FREE slot of lowest index. -/
theorem claimSlot_of_lowest {b : Blocks} {p : Fin 4} {i : Fin 16} (hfree : (b.slot p i).state = .free)
    (hlowest : ∀ j, j < i → (b.slot p j).state ≠ .free) : b.claimSlot p = some i := by
  have hfind : allSlots.find? (fun j => (b.slot p j).state = .free) = some i := by
    cases hk : allSlots.find? (fun j => (b.slot p j).state = .free) with
    | none => exact absurd (decide_eq_true hfree) (List.find?_eq_none.1 hk i (mem_allSlots i))
    | some k =>
      have hkfree : (b.slot p k).state = .free := by simpa using List.find?_some hk
      have hki : ¬ k < i := fun hlt => hlowest k hlt hkfree
      have hik : ¬ i < k := by
        obtain ⟨_, front, back, hsplit, hfront⟩ := List.find?_eq_some_iff_append.1 hk
        intro hlt
        have hmem : i ∈ front ++ k :: back := hsplit ▸ mem_allSlots i
        have hsorted := hsplit ▸ allSlots_pairwise
        rcases List.mem_append.1 hmem with hin | hin
        · simpa [hfree] using hfront i hin
        · rcases List.mem_cons.1 hin with heq | hin
          · omega
          · have := List.rel_of_pairwise_cons (List.pairwise_append.1 hsorted).2.1 hin
            omega
      exact congrArg some (by omega)
  unfold Blocks.claimSlot
  rw [hfind]

/-- With no FREE slot the claim is the recyclable slot. -/
theorem claimSlot_of_none_free {b : Blocks} {p : Fin 4} (hfree : ∀ i, (b.slot p i).state ≠ .free) :
    b.claimSlot p = b.recyclable p := by
  have hfind : allSlots.find? (fun j => (b.slot p j).state = .free) = none :=
    List.find?_eq_none.2 fun i _ => by simpa using hfree i
  unfold Blocks.claimSlot
  rw [hfind]

theorem mem_unheld_readySlots {b : Blocks} {p : Fin 4} {i : Fin 16} :
    i ∈ (b.readySlots p).filter (fun i => (b.slot p i).hold = 0) ↔
      (b.slot p i).state = .ready ∧ (b.slot p i).hold = 0 := by
  rw [List.mem_filter, mem_readySlots, decide_eq_true_iff]

theorem recyclable_eq_some {b : Blocks} {p : Fin 4} {i : Fin 16} (h : b.recyclable p = some i) :
    (b.slot p i).state = .ready ∧ (b.slot p i).hold = 0 ∧ b.retentionDepth p < b.age p i ∧
      ∀ j, (b.slot p j).state = .ready → (b.slot p j).hold = 0 → b.age p j ≤ b.age p i := by
  unfold Blocks.recyclable at h
  have hspec := (oldest_spec b p ((b.readySlots p).filter fun i => (b.slot p i).hold = 0)).2
  cases hold : b.oldest p ((b.readySlots p).filter fun i => (b.slot p i).hold = 0) with
  | none => simp [hold] at h
  | some k =>
    obtain ⟨hmem, holdest⟩ := hspec k hold
    rw [hold] at h
    simp only [Option.ite_none_right_eq_some, Option.some.injEq] at h
    obtain ⟨hdeep, rfl⟩ := h
    obtain ⟨hready, hunheld⟩ := mem_unheld_readySlots.1 hmem
    exact ⟨hready, hunheld, hdeep, fun j hj hu => holdest j (mem_unheld_readySlots.2 ⟨hj, hu⟩)⟩

theorem recyclable_eq_none {b : Blocks} {p : Fin 4} (h : b.recyclable p = none) {j : Fin 16}
    (hready : (b.slot p j).state = .ready) (hunheld : (b.slot p j).hold = 0) :
    b.age p j ≤ b.retentionDepth p := by
  unfold Blocks.recyclable at h
  have hmem := mem_unheld_readySlots.2 ⟨hready, hunheld⟩
  obtain ⟨hnone, hspec⟩ := oldest_spec b p ((b.readySlots p).filter fun i => (b.slot p i).hold = 0)
  cases hold : b.oldest p ((b.readySlots p).filter fun i => (b.slot p i).hold = 0) with
  | none => simp [hnone.1 hold] at hmem
  | some k =>
    rw [hold] at h
    simp only [ite_eq_right_iff, reduceCtorEq, imp_false, Nat.not_lt] at h
    exact ((hspec k hold).2 j hmem).trans h

theorem retains_iff {b : Blocks} {p : Fin 4} {c : Fin 8} :
    b.retains p c = true ↔ (b.chan c).desc.port = some p ∧ (b.chan c).state ≠ .off := by
  simp [Blocks.retains]

/-- Settles O19: the claim's search by its two lists, the depth by its fold. -/
theorem claimKeepsRetainedFrames : Obligations.ClaimKeepsRetainedFrames := by
  unfold Obligations.ClaimKeepsRetainedFrames
  intro b p
  obtain ⟨_, hbound, hreached⟩ := retention_fold b p allChans 0
  refine ⟨fun i => claimSlot_of_lowest, fun hfree => ?_, fun c hport hstate => ?_, ?_⟩
  · rw [claimSlot_of_none_free hfree]
    exact ⟨fun i => recyclable_eq_some, fun h j => recyclable_eq_none h⟩
  · exact hbound c (HoldProofs.mem_allChans c) (retains_iff.2 ⟨hport, hstate⟩)
  · refine hreached.imp id fun ⟨c, _, hretains, hdelay⟩ => ?_
    obtain ⟨hport, hstate⟩ := retains_iff.1 hretains
    exact ⟨c, hport, hstate, hdelay⟩

end Sys2Proof.ClaimProofs
end

section
/-! The candidates among the reads, and the examined reads that start no frame (O16). -/

namespace Sys2Proof.ExamineProofs

open Sys2Proof.Machine Sys2Proof.Stated

theorem rowWidth_eq (d : Descriptor) : d.rowWidth = d.width * (if d.format = .w10 then 4 else 2) := by
  unfold Descriptor.rowWidth
  cases d.format <;> rfl

/-- The offset in line 0 is its own remainder. -/
theorem isCandidate_iff {d : Descriptor} {a : Nat} {k : Fin 4} (hstride : 0 < d.stride) :
    IsCandidate d a k ↔ d.bufferOf a = some k ∧ d.offset k a < d.rowWidth ∧ d.offset k a < d.stride := by
  unfold IsCandidate Descriptor.offset Descriptor.base
  rw [← rowWidth_eq, Nat.div_eq_zero_iff_lt hstride]
  exact and_congr_right fun _ =>
    ⟨fun ⟨hline, hrow⟩ => ⟨Nat.mod_eq_of_lt hline ▸ hrow, hline⟩,
      fun ⟨hrow, hline⟩ => ⟨hline, (Nat.mod_eq_of_lt hline).symm ▸ hrow⟩⟩

theorem candidate_eq_some {d : Descriptor} {a : Nat} {k : Fin 4} (hstride : 0 < d.stride) :
    candidate d a = some k ↔ IsCandidate d a k := by
  rw [isCandidate_iff hstride]
  unfold candidate
  cases hbuffer : d.bufferOf a with
  | none => simp
  | some j =>
    simp only [Option.ite_none_right_eq_some, Option.some.injEq]
    constructor
    · rintro ⟨hoffset, rfl⟩
      exact ⟨rfl, hoffset⟩
    · rintro ⟨rfl, hoffset⟩
      exact ⟨hoffset, rfl⟩

theorem startsFrame_iff {ch : Channel} {k : Fin 4} :
    ch.startsFrame k = true ↔ ch.state = .armed ∨ ch.buffer ≠ some k ∨ ch.desc.height / 2 ≤ ch.deepest := by
  simp only [Channel.startsFrame, Bool.or_eq_true, decide_eq_true_eq, or_assoc]

theorem raiseDeepest_eq (b : Blocks) (c : Fin 8) (a beats : Nat) : b.raiseDeepest c a beats =
    b.setChan c { b.chan c with deepest := (linesOf (b.chan c).desc a beats).foldl max (b.chan c).deepest } := rfl

/-! ## The three outcomes of an examination -/

theorem examine_off {b : Blocks} {c : Fin 8} {a beats : Nat} (hoff : (b.chan c).state = .off) :
    b.examine c a beats = b := if_pos hoff

/-- A read that is a candidate for no buffer, or starts no frame. -/
theorem examine_other {b : Blocks} {c : Fin 8} {a beats : Nat} (hoff : (b.chan c).state ≠ .off)
    (hother : ∀ k, candidate (b.chan c).desc a = some k → (b.chan c).startsFrame k = false) :
    b.examine c a beats = b.raiseDeepest c a beats := by
  unfold Blocks.examine
  cases hcandidate : candidate (b.chan c).desc a with
  | none => simp [hoff, hcandidate]
  | some k => simp [hoff, hcandidate, hother k hcandidate]

theorem examine_stopping {b : Blocks} {c : Fin 8} {a beats : Nat} {k : Fin 4} (hstate : (b.chan c).state = .stopping)
    (hcandidate : candidate (b.chan c).desc a = some k) (hstarts : (b.chan c).startsFrame k = true) :
    b.examine c a beats = b.channelOff c .frameStart := by
  unfold Blocks.examine
  simp [hstate, hcandidate, hstarts]

theorem examine_frameStart {b : Blocks} {c : Fin 8} {a beats : Nat} {k : Fin 4}
    (hstate : (b.chan c).state = .armed ∨ (b.chan c).state = .running)
    (hcandidate : candidate (b.chan c).desc a = some k) (hstarts : (b.chan c).startsFrame k = true) :
    b.examine c a beats = (b.frameStart c k).raiseDeepest c a beats := by
  unfold Blocks.examine
  rcases hstate with hstate | hstate <;> simp [hstate, hcandidate, hstarts]

/-! ## The end of a stop -/

theorem channelOff_eq (b : Blocks) (c : Fin 8) (cause : StateCause) : b.channelOff c cause =
    ((b.dropHold? ((b.chan c).geom.bind Geometry.slot)).setChan c
      { b.chan c with state := .off, geom := none, buffer := none, deepest := 0 }).raise .channelState
        (.channel c (b.chan c).frame) [quadWord 0 cause.code 0 0] := by
  unfold Blocks.channelOff Blocks.raiseState Blocks.raiseChan Blocks.latchedRef
  simp only [Blocks.chan_setChan_same, Blocks.chan_dropHoldOpt]
  rfl

/-- Settles O16: by whether the read is a candidate and starts a frame. -/
theorem otherReadsKeepTheFrame : Obligations.OtherReadsKeepTheFrame := by
  unfold Obligations.OtherReadsKeepTheFrame
  rintro b c a beats _ rfl hstride
  refine ⟨examine_off, fun hoff hother => ?_, fun k hstate hcandidate hstarts => ?_⟩
  · refine (examine_other hoff fun k hk => ?_).trans (raiseDeepest_eq b c a beats)
    obtain ⟨harmed, hbuffer, hdeepest⟩ := hother k ((candidate_eq_some hstride).1 hk)
    rw [Bool.eq_false_iff, Ne, startsFrame_iff]
    rintro (h | h | h)
    · exact harmed h
    · exact h hbuffer
    · omega
  · exact (examine_stopping hstate ((candidate_eq_some hstride).2 hcandidate) (startsFrame_iff.2 (.inr hstarts))).trans
      (channelOff_eq b c .frameStart)

end Sys2Proof.ExamineProofs
end

section
/-! What the parts of a frame start compute: a monitor's work, a transition's point, the layout records (R108 to R113,
R123, R131). -/

namespace Sys2Proof.FrameParts

open Sys2Proof.Machine Sys2Proof.Stated

theorem frameStart_eq_worked (m other : Monitor) (wasRunning : Prop) [Decidable wasRunning] :
    m.frameStart other (decide wasRunning) = worked m other wasRunning := by
  unfold Monitor.frameStart worked
  simp only [Bool.and_eq_true, decide_eq_true_eq]
  generalize (if m.fresh = true then _ else _) = n
  unfold Monitor.active
  cases n.cfg.force with
  | forceOn | forceOff => rfl
  | auto => simp only [Bool.decide_or]

theorem along_eq_pathPoint (start target k n : Nat) : along start target k n = pathPoint start target k n := by
  unfold pathPoint
  split
  · next hn => rw [hn, along_zero]
  · next hn =>
    split
    · next hup => exact along_up start target k n hn hup
    · next hdown => exact along_down start target k n hn (by omega)

theorem glideStep_eq_glided (g : Glide) (e : LayoutEntry) (new : Bool) :
    glideStep (if new then glideBegin g e else g) = glided g e new := by
  unfold glided
  have hbegin : (if new then glideBegin g e else g) =
      if new = true ∧ (e.x ≠ g.targetX ∨ e.y ≠ g.targetY) then
        { g with startX := g.x, startY := g.y, targetX := e.x, targetY := e.y, length := e.glide, step := 0 }
      else g := by
    unfold glideBegin
    cases new with
    | false => rfl
    | true =>
      by_cases hsame : e.x = g.targetX ∧ e.y = g.targetY
      · rw [if_pos rfl, if_pos hsame, if_neg fun h => h.2.elim (· hsame.1) (· hsame.2)]
      · rw [if_pos rfl, if_neg hsame, if_pos ⟨rfl, not_and_or.1 hsame⟩]
  rw [hbegin]
  simp only [glideStep, along_eq_pathPoint]

theorem fadeStep_eq_faded (f : Fade) (e : LayoutEntry) (new : Bool) :
    fadeStep (if new then fadeBegin f e else f) = faded f e new := by
  unfold faded
  have hbegin : (if new then fadeBegin f e else f) =
      if new = true ∧ e.opacity ≠ f.target then
        { f with start := f.opacity, target := e.opacity, length := e.fade, prescale := e.prescale, count := 0, step := 0 }
      else f := by
    unfold fadeBegin
    cases new with
    | false => rfl
    | true =>
      by_cases hsame : e.opacity = f.target
      · rw [if_pos rfl, if_pos hsame, if_neg (fun h => h.2 hsame)]
      · rw [if_pos rfl, if_neg hsame, if_pos ⟨rfl, hsame⟩]
        rfl
  rw [hbegin]
  simp only [fadeStep, along_eq_pathPoint, Bool.and_eq_true, decide_eq_true_eq]

/-- The layout logic reads the monitors' records and the channel's layout records only. -/
theorem layoutFrame_eq_laidOut {b : Blocks} {ch x : Channel} (hcfgA : x.monA.cfg = ch.monA.cfg)
    (hcfgB : x.monB.cfg = ch.monB.cfg) (hlay : x.lay = ch.lay) (activeA activeB : Bool) :
    layoutFrame b.layouts x activeA activeB = laidOut b ch activeA activeB := by
  unfold layoutFrame laidOut effectiveEntry
  simp only [hcfgA, hcfgB, hlay, glideStep_eq_glided, fadeStep_eq_faded]
  rfl

/-! ## Reports -/

theorem told_append (b : Blocks) (c : Fin 8) (frame : Word) (first second : List (ReportKind × List Word)) :
    told b c frame (first ++ second) = told (told b c frame first) c frame second := List.foldl_append

/-- Reports read the queue, the image and the time base, and write the queue only. -/
theorem told_rep_congr {b b' : Blocks} (hrep : b'.rep = b.rep) (himage : b'.image = b.image)
    (htime : b'.timeBase = b.timeBase) (c : Fin 8) (frame : Word) (reports : List (ReportKind × List Word)) :
    (told b' c frame reports).rep = (told b c frame reports).rep := by
  induction reports generalizing b b' with
  | nil => exact hrep
  | cons r reports ih =>
    exact ih (Blocks.raise_rep_congr hrep himage htime _ _ _) (by rw [Blocks.raise_image, Blocks.raise_image, himage])
      (by rw [Blocks.raise_timeBase, Blocks.raise_timeBase, htime])

theorem channelOnly_told (c : Fin 8) (b : Blocks) (frame : Word) (reports : List (ReportKind × List Word)) :
    ChannelOnly c b (told b c frame reports) := by
  induction reports generalizing b with
  | nil => exact .refl c b
  | cons r reports ih => exact (ChannelOnly.raise c b _ _ _).trans (ih _)

theorem chan_told (b : Blocks) (c c' : Fin 8) (frame : Word) (reports : List (ReportKind × List Word)) :
    (told b c frame reports).chan c' = b.chan c' := by
  induction reports generalizing b with
  | nil => rfl
  | cons r reports ih => exact (ih _).trans (Blocks.chan_raise b _ _ _ c')

theorem slotTab_told (b : Blocks) (c : Fin 8) (frame : Word) (reports : List (ReportKind × List Word)) :
    (told b c frame reports).slotTab = b.slotTab := by
  induction reports generalizing b with
  | nil => rfl
  | cons r reports ih => exact (ih _).trans (Blocks.raise_slotTab b _ _ _)

/-- The reports of two stages of a frame start, one after the other. -/
theorem told_rep_trans {c : Fin 8} {b b' b'' : Blocks} {frame : Word} {first second : List (ReportKind × List Word)}
    (hkept : ChannelOnly c b b') (hfirst : b'.rep = (told b c frame first).rep)
    (hsecond : b''.rep = (told b' c frame second).rep) : b''.rep = (told b c frame (first ++ second)).rep := by
  have htold := channelOnly_told c b frame first
  rw [told_append, hsecond]
  exact told_rep_congr hfirst (hkept.image.trans htold.image.symm) (hkept.timeBase.trans htold.timeBase.symm) c frame second

theorem makes_iff (e : EdgeReports) : e.makes = true ↔ e = .make ∨ e = .both := by cases e <;> decide

theorem breaks_iff (e : EdgeReports) : e.breaks = true ↔ e = .break ∨ e = .both := by cases e <;> decide

theorem code_computed (s : Computed) : s.code = computedCode s := by cases s <;> rfl

theorem bitOf_forced (f : Force) : bitOf (decide (f ≠ .auto)) = if f = .auto then 0 else 1 := by cases f <;> rfl

theorem raiseEdge_eq_told (b : Blocks) (c : Fin 8) (i : MonId) (m : Monitor) (hcfg : m.cfg = ((b.chan c).mon i).cfg) :
    raiseEdge c i m.effective b =
      told b c (b.chan c).frame (edgeReport i.code m ((b.chan c).mon i)) := by
  unfold raiseEdge edgeReport
  simp only [hcfg, bitOf_forced, code_computed, Bool.and_eq_true, Bool.not_eq_true', makes_iff, breaks_iff, and_assoc]
  split
  · rfl
  · split <;> rfl

theorem raisePresence_eq_told (b : Blocks) (c : Fin 8) (before : Option SlotRef) (pick : Except AbsentCause SlotRef) :
    b.raisePresence c before pick = told b c (b.chan c).frame (presenceReport b before pick) := by
  unfold Blocks.raisePresence presenceReport
  cases pick with
  | error cause => cases before <;> cases cause <;> rfl
  | ok y =>
    cases before <;> simp only
    all_goals split <;> rfl

theorem presenceReport_congr {c : Fin 8} {b b' : Blocks} (h : ChannelOnly c b b') (before : Option SlotRef)
    (pick : Except AbsentCause SlotRef) : presenceReport b' before pick = presenceReport b before pick := by
  have hcapture : ∀ p i, (b'.slot p i).capture = (b.slot p i).capture := fun p i => by rw [h.slots p i]
  cases pick with
  | error cause => cases before <;> rfl
  | ok y => simp only [presenceReport, hcapture]

end Sys2Proof.FrameParts
end

section
/-! A frame start, stage by stage: the channel, the holds and the reports it leaves (O15). -/

namespace Sys2Proof.FrameStartProofs

open Sys2Proof.Machine Sys2Proof.Stated Sys2Proof.ChannelFrames Sys2Proof.FrameParts

/-! ## The stages before the pick -/

/-- A channel with a new frame of buffer `k` (R10). -/
def newFrame (ch : Channel) (k : Fin 4) : Channel :=
  { ch with frame := ch.frame + 1, buffer := some k, deepest := 0, state := .running }

theorem beginFrame_eq_told (b : Blocks) (c : Fin 8) (k : Fin 4) : b.beginFrame c k =
    told (b.setChan c (newFrame (b.chan c) k)) c ((b.chan c).frame + 1)
      (if (b.chan c).state = .armed then [(.channelState, [quadWord 2 2 0 0])] else []) := by
  by_cases harmed : (b.chan c).state = .armed
  · refine (if_pos harmed).trans ?_
    rw [if_pos harmed]
    unfold Blocks.raiseState Blocks.raiseChan
    rw [Blocks.chan_setChan_same]
    rfl
  · refine (if_neg harmed).trans ?_
    rw [if_neg harmed]
    rfl

/-- A channel after the monitors' work of a frame start (R123). -/
def monitored (ch : Channel) (wasRunning : Prop) [Decidable wasRunning] : Channel :=
  { ch with monA := worked ch.monA ch.monB wasRunning, monB := worked ch.monB ch.monA wasRunning }

theorem worked_cfg (m other : Monitor) (wasRunning : Prop) [Decidable wasRunning] :
    (worked m other wasRunning).cfg = m.cfg := by
  rw [← frameStart_eq_worked, frameStart_cfg]

theorem zoneHanded_worked (m other : Monitor) (wasRunning : Prop) [Decidable wasRunning] :
    (worked m other wasRunning).zoneHanded = if m.cfg.mode = .off then none else m.cfg.zone := by
  unfold Monitor.zoneHanded
  rw [worked_cfg]

theorem monitorFrame_eq_told (b : Blocks) (c : Fin 8) (wasRunning : Prop) [Decidable wasRunning] :
    b.monitorFrame c (decide wasRunning) =
      told (b.setChan c (monitored (b.chan c) wasRunning)) c (b.chan c).frame
        (edgeReport 0 (b.chan c).monA (monitored (b.chan c) wasRunning).monA ++
          edgeReport 1 (b.chan c).monB (monitored (b.chan c) wasRunning).monB) := by
  unfold Blocks.monitorFrame
  simp only [frameStart_eq_worked]
  change raiseEdge c .b _ (raiseEdge c .a _ (b.setChan c (monitored (b.chan c) wasRunning))) = _
  rw [raiseEdge_eq_told _ c .b, raiseEdge_eq_told _ c .a, chan_told, Blocks.chan_setChan_same, told_append]
  · rfl
  · rw [Blocks.chan_setChan_same]
    exact (worked_cfg _ _ _).symm
  · rw [chan_raiseEdge, Blocks.chan_setChan_same]
    exact (worked_cfg _ _ _).symm

theorem rep_told_setChan (b : Blocks) (c : Fin 8) (x : Channel) (frame : Word)
    (reports : List (ReportKind × List Word)) :
    (told (b.setChan c x) c frame reports).rep = (told b c frame reports).rep :=
  told_rep_congr (Blocks.setChan_rep b c x) (Blocks.setChan_image b c x) (Blocks.setChan_timeBase b c x) c frame reports

/-- The channel of a frame start before its pick: the new frame, the monitors' and the layout logic's work. -/
def workedChannel (b : Blocks) (c : Fin 8) (k : Fin 4) : Channel :=
  let x := monitored (newFrame (b.chan c) k) ((b.chan c).state = .running)
  { x with lay := laidOut b (b.chan c) x.monA.effective x.monB.effective }

/-- The blocks of a frame start before its pick. -/
def beforePick (b : Blocks) (c : Fin 8) (k : Fin 4) : Blocks :=
  ((b.beginFrame c k).monitorFrame c (decide ((b.chan c).state = .running))).layoutFrameOf c

theorem frameStart_eq (b : Blocks) (c : Fin 8) (k : Fin 4) : b.frameStart c k = (beforePick b c k).pickAndLatch c := rfl

theorem channelOnly_beforePick (b : Blocks) (c : Fin 8) (k : Fin 4) : ChannelOnly c b (beforePick b c k) :=
  ((channelOnly_beginFrame b c k).trans (channelOnly_monitorFrame _ c _)).trans (channelOnly_layoutFrameOf _ c)

theorem slotTab_beforePick (b : Blocks) (c : Fin 8) (k : Fin 4) : (beforePick b c k).slotTab = b.slotTab := by
  unfold beforePick Blocks.layoutFrameOf
  rw [Blocks.setChan_slotTab, monitorFrame_eq_told, slotTab_told, Blocks.setChan_slotTab, beginFrame_eq_told,
    slotTab_told, Blocks.setChan_slotTab]

theorem chan_beginFrame (b : Blocks) (c : Fin 8) (k : Fin 4) : (b.beginFrame c k).chan c = newFrame (b.chan c) k := by
  rw [beginFrame_eq_told, chan_told, Blocks.chan_setChan_same]

theorem chan_monitorFrame (b : Blocks) (c : Fin 8) (wasRunning : Prop) [Decidable wasRunning] :
    (b.monitorFrame c (decide wasRunning)).chan c = monitored (b.chan c) wasRunning := by
  rw [monitorFrame_eq_told, chan_told, Blocks.chan_setChan_same]

theorem chan_beforePick (b : Blocks) (c : Fin 8) (k : Fin 4) : (beforePick b c k).chan c = workedChannel b c k := by
  have hlayouts := ((channelOnly_beginFrame b c k).trans
    (channelOnly_monitorFrame _ c (decide ((b.chan c).state = .running)))).layouts
  have hlaid := layoutFrame_eq_laidOut (b := b) (ch := b.chan c)
    (x := monitored (newFrame (b.chan c) k) ((b.chan c).state = .running))
    (worked_cfg _ _ _) (worked_cfg _ _ _) rfl
  unfold beforePick Blocks.layoutFrameOf
  simp only [Blocks.chan_setChan_same, hlayouts, chan_monitorFrame, chan_beginFrame, hlaid]
  rfl

theorem rep_beforePick (b : Blocks) (c : Fin 8) (k : Fin 4) : (beforePick b c k).rep =
    (told b c ((b.chan c).frame + 1)
      ((if (b.chan c).state = .armed then [(.channelState, [quadWord 2 2 0 0])] else []) ++
        (edgeReport 0 (b.chan c).monA (workedChannel b c k).monA ++
          edgeReport 1 (b.chan c).monB (workedChannel b c k).monB))).rep := by
  refine told_rep_trans (channelOnly_beginFrame b c k) ?_ ?_
  · rw [beginFrame_eq_told, rep_told_setChan]
  · unfold beforePick Blocks.layoutFrameOf
    rw [Blocks.setChan_rep, monitorFrame_eq_told, rep_told_setChan, chan_beginFrame]
    rfl

/-! ## The pick -/

theorem latchedRef_beforePick (b : Blocks) (c : Fin 8) (k : Fin 4) :
    (beforePick b c k).latchedRef c = (b.chan c).geom.bind Geometry.slot := by
  unfold Blocks.latchedRef
  rw [chan_beforePick]
  rfl

theorem pick_beforePick (b : Blocks) (c : Fin 8) (k : Fin 4) : (beforePick b c k).pick c = b.pick c :=
  pick_congr c (slotTab_beforePick b c k) (channelOnly_beforePick b c k).ports
    ((congrArg Channel.desc (chan_beforePick b c k)).trans rfl)

theorem chan_pickAndLatch (b : Blocks) (c : Fin 8) : (b.pickAndLatch c).chan c =
    { b.chan c with geom := some (latchGeometry (b.chan c) (b.chan c).lay (Blocks.pickRef (b.pick c))) } := by
  unfold Blocks.pickAndLatch
  simp only [Blocks.chan_setChan_same, chan_raisePresence, chan_moveHold]

theorem slot_pickAndLatch (b : Blocks) (c : Fin 8) (p : Fin 4) (i : Fin 16) : (b.pickAndLatch c).slot p i =
    (b.moveHold (b.latchedRef c) (Blocks.pickRef (b.pick c))).slot p i := by
  unfold Blocks.pickAndLatch
  simp only [Blocks.slot_setChan]
  exact Blocks.slot_congr (slotTab_raisePresence c _ _ _) p i

theorem rep_pickAndLatch (b : Blocks) (c : Fin 8) : (b.pickAndLatch c).rep =
    (told b c (b.chan c).frame (presenceReport b (b.latchedRef c) (b.pick c))).rep := by
  have hmove := ChannelOnly.moveHold c b (b.latchedRef c) (Blocks.pickRef (b.pick c))
  have hrep : (b.moveHold (b.latchedRef c) (Blocks.pickRef (b.pick c))).rep = b.rep := by
    rw [TableProofs.moveHold_eq]
  unfold Blocks.pickAndLatch
  simp only [Blocks.setChan_rep, raisePresence_eq_told, chan_moveHold]
  rw [presenceReport_congr hmove]
  exact told_rep_congr hrep hmove.image hmove.timeBase c _ _

theorem names_eq_any (r : Option SlotRef) (p : Fin 4) (i : Fin 16) :
    (r.any fun r => decide (r.port = p ∧ r.slot = i)) = names r p i := by
  cases r <;> rfl

theorem hold_frameStart (b : Blocks) (c : Fin 8) (k : Fin 4) (p : Fin 4) (i : Fin 16) :
    ((b.frameStart c k).slot p i).hold =
      if names ((b.chan c).geom.bind Geometry.slot) p i = names (Blocks.pickRef (b.pick c)) p i then (b.slot p i).hold
      else if names (Blocks.pickRef (b.pick c)) p i = true then (b.slot p i).hold + 1
      else (b.slot p i).hold - 1 := by
  have hmove := hold_moveHold (beforePick b c k) ((b.chan c).geom.bind Geometry.slot) (Blocks.pickRef (b.pick c)) p i
  simp only [names_eq_any, Blocks.slot_congr (slotTab_beforePick b c k)] at hmove
  rw [frameStart_eq, slot_pickAndLatch, latchedRef_beforePick, pick_beforePick, hmove]

theorem chan_frameStart (b : Blocks) (c : Fin 8) (k : Fin 4) : (b.frameStart c k).chan c =
    { workedChannel b c k with
      geom := some (latchGeometry (workedChannel b c k) (workedChannel b c k).lay (Blocks.pickRef (b.pick c))) } := by
  rw [frameStart_eq, chan_pickAndLatch, chan_beforePick, pick_beforePick]

theorem rep_frameStart (b : Blocks) (c : Fin 8) (k : Fin 4) : (b.frameStart c k).rep =
    (told b c ((b.chan c).frame + 1)
      ((if (b.chan c).state = .armed then [(.channelState, [quadWord 2 2 0 0])] else []) ++
        edgeReport 0 (b.chan c).monA (workedChannel b c k).monA ++
        edgeReport 1 (b.chan c).monB (workedChannel b c k).monB ++
        presenceReport b ((b.chan c).geom.bind Geometry.slot) (b.pick c))).rep := by
  have hpick := rep_pickAndLatch (beforePick b c k) c
  rw [chan_beforePick, latchedRef_beforePick, pick_beforePick,
    presenceReport_congr (channelOnly_beforePick b c k)] at hpick
  have hall := told_rep_trans (channelOnly_beforePick b c k) (rep_beforePick b c k) hpick
  rw [← List.append_assoc] at hall
  exact hall

/-- Settles O15: the frame start by its stages, then the deepest line from 0. -/
theorem frameStartLatchesGeometry : Obligations.FrameStartLatchesGeometry := by
  unfold Obligations.FrameStartLatchesGeometry
  rintro b c a beats k _ _ _ rfl hstride hstate hcandidate hstarts rfl rfl before after
  have hexamine := ExamineProofs.examine_frameStart (beats := beats) hstate ((ExamineProofs.candidate_eq_some hstride).2 hcandidate)
    (ExamineProofs.startsFrame_iff.2 hstarts)
  have hkept := channelOnly_examine b c a beats
  have hchan : (b.examine c a beats).chan c = { workedChannel b c k with
      deepest := (linesOf (b.chan c).desc a beats).foldl max 0
      geom := some (latchGeometry (workedChannel b c k) (workedChannel b c k).lay after) } := by
    rw [hexamine, ExamineProofs.raiseDeepest_eq, Blocks.chan_setChan_same, chan_frameStart]
    rfl
  have hhold : ∀ p i, ((b.examine c a beats).slot p i).hold = ((b.frameStart c k).slot p i).hold := fun p i => by
    rw [hexamine, ExamineProofs.raiseDeepest_eq, Blocks.slot_setChan]
  have hrep : (b.examine c a beats).rep = (b.frameStart c k).rep := by
    rw [hexamine, ExamineProofs.raiseDeepest_eq, Blocks.setChan_rep]
  rw [hchan]
  refine ⟨rfl, rfl, rfl, rfl, rfl, rfl, rfl, rfl, rfl, rfl, ⟨_, rfl, rfl, rfl, rfl, rfl, ?_, ?_⟩, hkept.rest, hkept.others,
    hkept.latest, fun p i => ?_, hrep.trans (rep_frameStart b c k)⟩
  · exact zoneHanded_worked _ _ _
  · exact zoneHanded_worked _ _ _
  · rw [hkept.slots p i, hhold, hold_frameStart]

end Sys2Proof.FrameStartProofs
end

section
/-! The pixels of a request and the classification of a tracked read (O17). -/

namespace Sys2Proof.ClassificationProofs

open Sys2Proof.Machine Sys2Proof.Stated

/-! ## The pixels of a request (R3, R4) -/

theorem base_spanBytes (d : Descriptor) (k : Fin 4) : span d k = (d.base k, d.spanBytes) := by
  unfold span Descriptor.spanBytes
  rw [ExamineProofs.rowWidth_eq]
  rfl

theorem spanHas_iff (d : Descriptor) (k : Fin 4) (a : Nat) : d.spanHas k a = true ↔ SpanHas d k a := by
  unfold SpanHas Descriptor.spanHas
  simp only [base_spanBytes, Bool.and_eq_true, decide_eq_true_eq, and_assoc]

/-- Spans that share no byte leave one buffer to an address. -/
theorem bufferOf_iff {d : Descriptor} (hchecked : RasterChecked d) (a : Nat) (k : Fin 4) :
    d.bufferOf a = some k ↔ SpanHas d k a := by
  obtain ⟨_, _, _, hapart⟩ := hchecked
  rw [Descriptor.bufferOf_eq_some, spanHas_iff]
  refine and_iff_left_of_imp fun ⟨hk, hlow, hhigh⟩ j hj => ?_
  rw [Bool.eq_false_iff, Ne, spanHas_iff]
  rintro ⟨_, hjlow, hjhigh⟩
  have := hapart j k hj hk
  unfold Apart at this
  omega

theorem wordOfColumn_eq (d : Descriptor) (column : Nat) :
    d.wordOfColumn column = if d.format = .w10 then column else column / 2 := by
  unfold Descriptor.wordOfColumn
  cases d.format <;> rfl

theorem requestRuns_of_buffer {d : Descriptor} {a : Nat} {k : Fin 4} (h : d.bufferOf a = some k) (beats : Nat) :
    d.requestRuns a beats = d.runs k a beats := by
  simp only [Descriptor.requestRuns, h]

theorem requestRuns_of_none {d : Descriptor} {a : Nat} (h : d.bufferOf a = none) (beats : Nat) :
    d.requestRuns a beats = [] := by
  simp only [Descriptor.requestRuns, h]

theorem count_of_mem_runs {d : Descriptor} {k : Fin 4} {a beats : Nat} {run : Span} (h : run ∈ d.runs k a beats) :
    1 ≤ run.count := by
  obtain ⟨line, _, hrun⟩ := List.mem_filterMap.1 h
  exact (Descriptor.runOf_some d _ _ line run hrun).2

theorem mem_runs_iff {d : Descriptor} (hchecked : RasterChecked d) {a beats : Nat} (hbeats : beats ≤ 16) {k : Fin 4}
    (hk : SpanHas d k a) (line column : Nat) :
    (∃ run ∈ d.runs k a beats, run.line = line ∧ run.first ≤ column ∧ column < run.first + run.count) ↔
      ∃ x, a ≤ x ∧ x < a + beats * 16 ∧ ByteOfPixel d k x line column := by
  obtain ⟨hwidth, hheight, hstride, _⟩ := hchecked
  obtain ⟨hcount, hlow, _⟩ := hk
  rw [← ExamineProofs.rowWidth_eq] at hstride
  have hrow : 256 ≤ d.rowWidth := hwidth.trans (Nat.le_mul_of_pos_right _ (by cases d.format <;> decide))
  rw [base_spanBytes] at hlow
  rw [Descriptor.mem_runs d k a beats line column hrow hstride hheight hbeats hlow]
  unfold ByteOfPixel SpanHas
  simp only [base_spanBytes, ExamineProofs.rowWidth_eq, wordOfColumn_eq]
  refine exists_congr fun x => and_congr_right fun hx => and_congr_right fun _ => ?_
  exact ⟨fun ⟨hspan, hpixel⟩ => ⟨⟨hcount, hlow.trans hx, hspan⟩, hpixel⟩, fun ⟨⟨_, _, hspan⟩, hpixel⟩ => ⟨hspan, hpixel⟩⟩

theorem mem_requestRuns_iff {d : Descriptor} (hchecked : RasterChecked d) {a beats : Nat} (hbeats : beats ≤ 16)
    (line column : Nat) :
    (∃ run ∈ d.requestRuns a beats, run.line = line ∧ run.first ≤ column ∧ column < run.first + run.count) ↔
      ∃ k x, SpanHas d k a ∧ a ≤ x ∧ x < a + beats * 16 ∧ ByteOfPixel d k x line column := by
  constructor
  · intro hrun
    cases hbuffer : d.bufferOf a with
    | none => simp [requestRuns_of_none hbuffer] at hrun
    | some k =>
      have hk := (bufferOf_iff hchecked a k).1 hbuffer
      rw [requestRuns_of_buffer hbuffer] at hrun
      obtain ⟨x, hpixel⟩ := (mem_runs_iff hchecked hbeats hk line column).1 hrun
      exact ⟨k, x, hk, hpixel⟩
  · rintro ⟨k, x, hk, hpixel⟩
    rw [requestRuns_of_buffer ((bufferOf_iff hchecked a k).2 hk)]
    exact (mem_runs_iff hchecked hbeats hk line column).2 ⟨x, hpixel⟩

/-! ## Rectangles met -/

theorem inside_isSome_iff (s : Span) (r : Rect) : (s.inside r).isSome = true ↔
    ∃ column, s.first ≤ column ∧ column < s.first + s.count ∧ Inside r s.line column := by
  have hsome : (s.inside r).isSome = true ↔
      r.y ≤ s.line ∧ s.line < r.y + r.h ∧ max s.first r.x < min (s.first + s.count) (r.x + r.w) := by
    unfold Span.inside
    simp only
    split
    · next h => exact iff_of_true rfl h
    · next h => exact iff_of_false Bool.false_ne_true h
  rw [hsome]
  unfold Inside
  constructor
  · rintro ⟨htop, hbottom, hcolumns⟩
    exact ⟨max s.first r.x, by omega⟩
  · rintro ⟨column, hfirst, hlast, htop, hbottom, hleft, hright⟩
    omega

theorem anyInside_iff (d : Descriptor) (a beats : Nat) (r : Rect) :
    anyInside (d.requestRuns a beats) r = true ↔ Meets d a beats r := by
  unfold anyInside Meets
  simp only [List.any_eq_true, inside_isSome_iff]

theorem zoneCopy_eq_some {d : Descriptor} {a beats : Nat} {zone : Option Rect} {z : Rect} :
    zoneCopy zone (d.requestRuns a beats) = some z ↔ zone = some z ∧ Meets d a beats z := by
  unfold zoneCopy
  rw [Option.filter_eq_some_iff, anyInside_iff]

/-- The geometry makes a request of the channel BLEND (R22). -/
def Blends (d : Descriptor) (a beats : Nat) (g : Geometry) : Prop :=
  g.slot.isSome = true ∧ 0 < g.opacity ∧ Meets d a beats (insetOf g)

theorem inset_eq (g : Geometry) : g.inset = insetOf g := by
  unfold Geometry.inset insetOf
  cases g.slot <;> rfl

theorem spans_eq_nil_iff (d : Descriptor) (a beats : Nat) (r : Rect) :
    (d.requestRuns a beats).filterMap (fun s => s.inside r) = [] ↔ ¬ Meets d a beats r := by
  rw [← anyInside_iff]
  simp [anyInside, List.filterMap_eq_nil_iff]

theorem blendInfoOf_isSome_iff (d : Descriptor) (a beats : Nat) (g : Geometry) :
    (blendInfoOf g (d.requestRuns a beats)).isSome = true ↔ Blends d a beats g := by
  unfold blendInfoOf Blends
  rw [← inset_eq]
  cases g.slot with
  | none => simp
  | some slot =>
    simp only [Option.isSome_some, true_and]
    split
    · next h =>
      refine iff_of_false Bool.false_ne_true fun ⟨hopacity, hmeets⟩ => ?_
      exact h.elim hopacity.ne' fun hspans => (spans_eq_nil_iff d a beats g.inset).1 hspans hmeets
    · next h =>
      obtain ⟨hopacity, hspans⟩ := not_or.1 h
      have hmeets := not_not.1 (mt (spans_eq_nil_iff d a beats g.inset).2 hspans)
      exact iff_of_true rfl ⟨Nat.pos_of_ne_zero hopacity, hmeets⟩

theorem blendInfoOf_fields {g : Geometry} {runs : List Span} {info : BlendInfo} (h : blendInfoOf g runs = some info) :
    g.slot = some info.slot ∧ info.x = g.x ∧ info.y = g.y ∧ info.opacity = g.opacity := by
  unfold blendInfoOf at h
  cases hslot : g.slot with
  | none => simp [hslot] at h
  | some slot =>
    simp only [hslot, Option.ite_none_left_eq_some, Option.some.injEq] at h
    obtain ⟨_, rfl⟩ := h
    exact ⟨rfl, rfl, rfl, rfl⟩

/-! ## Classification (R22, R23) -/

/-- Reads of a channel are classified against its geometry. -/
def Live (b : Blocks) (c : Fin 8) : Prop :=
  b.mode = .active ∧ ((b.chan c).state = .running ∨ (b.chan c).state = .stopping)

theorem classify_of_not_live {b : Blocks} {c : Fin 8} (a beats : Nat)
    (h : ∀ g, (b.chan c).geom = some g → ¬ Live b c) : b.classify c a beats = (.pass, none, none) := by
  unfold Blocks.classify
  cases hgeom : (b.chan c).geom with
  | none => simp only [hgeom]
  | some g =>
    simp only [hgeom]
    exact if_neg (h g hgeom)

/-- A read of a live channel with a geometry: the zones it meets, BLEND, or MEASURE when it meets a zone. -/
theorem classify_of_live {b : Blocks} {c : Fin 8} {g : Geometry} (a beats : Nat) (hlive : Live b c)
    (hgeom : (b.chan c).geom = some g) :
    let runs := (b.chan c).desc.requestRuns a beats
    (b.classify c a beats).2 = (zoneCopy g.zoneA runs, zoneCopy g.zoneB runs) ∧
      (∀ info, (b.classify c a beats).1 = .blend info ↔ blendInfoOf g runs = some info) ∧
      ((b.classify c a beats).1 = .measure ↔ blendInfoOf g runs = none ∧
        ((zoneCopy g.zoneA runs).isSome = true ∨ (zoneCopy g.zoneB runs).isSome = true)) := by
  intro runs
  unfold Blocks.classify
  unfold Live at hlive
  simp only [hgeom, if_pos hlive]
  cases blendInfoOf g runs with
  | some info => simp [runs]
  | none => cases zoneCopy g.zoneA runs <;> cases zoneCopy g.zoneB runs <;> simp

theorem zoneCopy_isSome_iff (d : Descriptor) (a beats : Nat) (zoneA zoneB : Option Rect) :
    ((zoneCopy zoneA (d.requestRuns a beats)).isSome = true ∨ (zoneCopy zoneB (d.requestRuns a beats)).isSome = true) ↔
      ∃ z, (zoneA = some z ∨ zoneB = some z) ∧ Meets d a beats z := by
  simp only [Option.isSome_iff_exists, zoneCopy_eq_some, or_and_right, exists_or]

/-- Settles O17: the pixels by the buffer and its runs, the kind by the channel's geometry. -/
theorem readClassification : Obligations.ReadClassification := by
  unfold Obligations.ReadClassification
  refine ⟨fun d a beats hchecked hbeats => ?_, fun b c a beats k zoneA zoneB hclassify => ?_⟩
  · refine ⟨bufferOf_iff hchecked a, mem_requestRuns_iff hchecked hbeats, ?_, ?_⟩
    · intro run hrun
      cases hbuffer : d.bufferOf a with
      | none => simp [requestRuns_of_none hbuffer] at hrun
      | some k => exact count_of_mem_runs (requestRuns_of_buffer hbuffer beats ▸ hrun)
    · cases hbuffer : d.bufferOf a with
      | none => exact .inl (requestRuns_of_none hbuffer beats)
      | some k =>
        rw [requestRuns_of_buffer hbuffer]
        exact Descriptor.runs_shape d k a beats
  · intro ch live blends measures
    by_cases hg : ∃ g, ch.geom = some g ∧ Live b c
    · obtain ⟨g, hgeom, hlive⟩ := hg
      obtain ⟨hzones, hblend, hmeasure⟩ := classify_of_live a beats hlive hgeom
      rw [hclassify] at hzones hblend hmeasure
      obtain ⟨rfl, rfl⟩ := Prod.mk.inj hzones
      have hblends : blends g ↔ ∃ info, blendInfoOf g (ch.desc.requestRuns a beats) = some info := by
        rw [← Option.isSome_iff_exists]
        exact (blendInfoOf_isSome_iff ch.desc a beats g).symm
      have hlatched (P : Geometry → Prop) : (live ∧ ∃ g', ch.geom = some g' ∧ P g') ↔ P g := by
        refine ⟨fun ⟨_, g', hgeom', h⟩ => ?_, fun h => ⟨hlive, g, hgeom, h⟩⟩
        rwa [Option.some.inj (hgeom.symm.trans hgeom')]
      refine ⟨?_, ?_, fun info hinfo => ?_, fun z => ?_, fun z => ?_⟩
      · rw [hlatched, hblends]
        exact exists_congr hblend
      · rw [hlatched, hblends, hmeasure, zoneCopy_isSome_iff, Option.eq_none_iff_forall_ne_some, not_exists]
      · exact ⟨g, hgeom, blendInfoOf_fields ((hblend info).1 hinfo)⟩
      · rw [hlatched, zoneCopy_eq_some]
      · rw [hlatched, zoneCopy_eq_some]
    · have hdead (P : Geometry → Prop) : ¬ (live ∧ ∃ g, ch.geom = some g ∧ P g) :=
        fun ⟨hlive, g, hgeom, _⟩ => hg ⟨g, hgeom, hlive⟩
      have hpass := classify_of_not_live a beats fun g hgeom hlive => hg ⟨g, hgeom, hlive⟩
      obtain ⟨rfl, rfl, rfl⟩ : k = .pass ∧ zoneA = none ∧ zoneB = none := by
        simpa using hclassify.symm.trans hpass
      simp only [reduceCtorEq, exists_false, false_iff, false_implies, implies_true, true_and]
      exact ⟨hdead _, hdead _, fun _ => hdead _, fun _ => hdead _⟩

end Sys2Proof.ClassificationProofs
end

section
/-! The words of the boot image and what the blocks take of them (12 section 12.5). -/

namespace Sys2Proof.ImageProofs

open Sys2Proof.Machine Sys2Proof.Stated

/-! ## Parts of a word -/

theorem number_eq (image : List Word) (n : Nat) : number image n = (imgWord image n).toNat := by
  unfold number bits
  rw [Nat.pow_zero, Nat.div_one]
  exact Nat.mod_eq_of_lt (imgWord image n).isLt

theorem bits_low (image : List Word) (n : Nat) : bits image n 0 16 = (lowHalf (imgWord image n)).toNat := by
  rw [lowHalf_toNat]
  unfold bits
  rw [Nat.pow_zero, Nat.div_one]
  rfl

theorem bits_high (image : List Word) (n : Nat) : bits image n 16 16 = (highHalf (imgWord image n)).toNat :=
  (highHalf_toNat _).symm

theorem bits_byte (image : List Word) (n k : Nat) : bits image n (8 * k) 8 = (wordByte (imgWord image n) k).toNat := by
  rw [wordByte_toNat]
  unfold bits
  rw [Nat.pow_mul]
  rfl

theorem bit_eq (image : List Word) (n k : Nat) : decide (bits image n k 1 = 1) = (imgWord image n).getLsbD k := by
  unfold bits
  rw [getLsbD_toNat]
  rfl

theorem address_eq (image : List Word) (n : Nat) : address image n = imgAddr image n :=
  congrArg₂ (fun low high => low + 2 ^ 32 * high) (number_eq image n) (number_eq image (n + 1))

/-! ## The descriptor of a channel -/

theorem aoTagOf_eq (code : Byte) : aoTagOf code =
    if code.toNat ≤ 63 then BitVec.ofNat 8 code.toNat else Config.tagBeyondRange (BitVec.ofNat 8 code.toNat) := by
  unfold aoTagOf
  rw [BitVec.ofNat_toNat, BitVec.setWidth_eq]
  exact if_congr Nat.lt_succ_iff rfl rfl

theorem formatOf_eq (code : Byte) : formatOf code =
    if code.toNat = 0 then .w10 else if code.toNat = 1 then .p8 else Config.unnamedFormat (BitVec.ofNat 8 code.toNat) := by
  unfold formatOf
  rw [BitVec.ofNat_toNat, BitVec.setWidth_eq]
  exact (if_congr (CueEffectProofs.toNat_eq_iff code (by decide)) rfl
    (if_congr (CueEffectProofs.toNat_eq_iff code (by decide)) rfl rfl)).symm

theorem portOf_eq (n : Nat) : portOf n = if h : n ≤ 3 then some ⟨n, by omega⟩ else none := by
  unfold portOf
  split
  · next h => rw [dif_pos (by omega)]
  · next h => rw [dif_neg (by omega)]

theorem imageDescriptor_eq (image : List Word) (c : Fin 8) : imageDescriptor image c = descriptorIn image c := by
  have hbases (n : Nat) : (Vector.ofFn fun k : Fin 4 => imgAddr image (n + 5 + 2 * k.val)) =
      #v[address image (n + 5), address image (n + 7), address image (n + 9), address image (n + 11)] := by
    simp only [address_eq]
    rfl
  unfold imageDescriptor descriptorIn
  simp only [aoTagOf_eq, formatOf_eq, layoutClamp_eq, portOf_eq, hbases, lossPolicyOf, stackPolicyOf, bit_eq, bits_low,
    bits_high, number_eq, bits_byte _ _ 0, bits_byte _ _ 1, bits_byte _ _ 2, bits_byte _ _ 3, Nat.min_comm 12]

/-! ## The settings, the layout table, the monitor records, the regions and limits -/

theorem imageSettings_eq (image : List Word) (p : Fin 4) : imageSettings image p = settingsIn image p := by
  unfold imageSettings settingsIn
  simp only [bits_low, bits_high, Nat.add_zero]

theorem layoutInRange_eq (x y opacity glide fade prescale : Nat) : layoutInRange x y opacity glide fade prescale =
    { x := min 4094 x - min 4094 x % 2
      y := min 2302 y
      opacity := min 256 opacity
      prescale := if prescale = 0 then 1 else min 16 prescale
      glide := min 255 glide
      fade := min 255 fade } := by
  have hx : min x 4094 / 2 * 2 = min 4094 x - min 4094 x % 2 := by omega
  have hprescale : max 1 (min prescale 16) = if prescale = 0 then 1 else min 16 prescale := by split <;> omega
  unfold layoutInRange
  rw [hx, hprescale, Nat.min_comm y, Nat.min_comm opacity, Nat.min_comm glide, Nat.min_comm fade]

theorem imageLayout_eq (image : List Word) (i : Fin 32) : imageLayout image i = layoutIn image i := by
  unfold imageLayout layoutIn
  simp only [layoutInRange_eq, bits_low, bits_high, Nat.add_zero]

/-- Whether a zone meets a raster decides mode and zone of a stored record (R119). -/
theorem recordOf_usable (f : MonitorFields) (width height : Nat) :
    (decide (monModeOf f.mode.toNat ≠ .off) && !zoneOutside (fieldsZone f) width height) =
      decide ((f.mode.toNat = 1 ∨ f.mode.toNat = 2) ∧ f.zoneX.toNat < width ∧ f.zoneY.toNat < height ∧
        f.zoneW.toNat ≠ 0 ∧ f.zoneH.toNat ≠ 0) := by
  have hmode : monModeOf f.mode.toNat ≠ .off ↔ f.mode.toNat = 1 ∨ f.mode.toNat = 2 := by
    unfold monModeOf
    split
    · next h => exact iff_of_true (by decide) (.inl h)
    · next hone =>
      split
      · next h => exact iff_of_true (by decide) (.inr h)
      · next htwo => exact iff_of_false (fun h => h rfl) (not_or.2 ⟨hone, htwo⟩)
  rw [zoneOutside_eq, Bool.not_not, decide_eq_decide.2 hmode]
  exact (Bool.decide_and _ _).symm

theorem mode_of_usable (mode : Nat) (inRaster : Prop) [Decidable inRaster] :
    (if (mode = 1 ∨ mode = 2) ∧ inRaster then monModeOf mode else .off) =
      if mode = 1 ∧ inRaster then MonMode.above else if mode = 2 ∧ inRaster then .below else .off := by
  unfold monModeOf
  by_cases hin : inRaster
  · simp only [hin, and_true]
    by_cases hone : mode = 1
    · simp [hone]
    · by_cases htwo : mode = 2
      · simp [htwo]
      · simp [hone, htwo]
  · simp [hin]

theorem threshold_eq (n : Nat) : max 1 (min n 1023) = if n = 0 then 1 else min 1023 n := by
  split <;> omega

/-- The offset of a monitor record is its high half in two's complement (R118). -/
theorem offsetClamp_imgWord (image : List Word) (n : Nat) : offsetClamp (highHalf (imgWord image n)) =
    max (-1000) (min 1000 (if bits image n 31 1 = 1 then (bits image n 16 16 : Int) - 65536 else bits image n 16 16)) := by
  have hsign : bits image n 31 1 = 1 ↔ ¬ (highHalf (imgWord image n)).toNat < 32768 := by
    rw [highHalf_toNat]
    unfold bits
    change (imgWord image n).toNat / 2 ^ 31 % 2 ^ 1 = 1 ↔ _
    have := (imgWord image n).isLt
    omega
  rw [offsetClamp_eq, bits_high]
  by_cases hlow : (highHalf (imgWord image n)).toNat < 32768
  · rw [if_pos hlow, if_neg (not_not.2 hlow ∘ hsign.1)]
  · rw [if_neg hlow, if_pos (hsign.2 hlow)]

theorem imageMonitor_eq (image : List Word) (c : Fin 8) (m : MonId) (d : Descriptor) :
    imageMonitor image c m d = monitorIn image c m.code d.width d.height := by
  unfold imageMonitor monitorIn
  unfold recordOf
  simp only [recordOf_usable, decide_eq_true_eq, mode_of_usable, threshold_eq, layoutClamp_eq, trackingOf]
  simp only [monitorFields, zoneClamp, fieldsZone, offsetClamp_imgWord, bit_eq, bits_low,
    bits_high, number_eq, bits_byte _ _ 0, bits_byte _ _ 1, bits_byte _ _ 2, bits_byte _ _ 3, Nat.min_comm 1000,
    Nat.min_comm 255]
  rfl

theorem limitOf_eq (v unset hi : Nat) : limitOf v unset hi = if v = 0 then unset else min hi v := by
  unfold limitOf
  rw [Nat.min_comm]

theorem lossLimitOf_eq (v : Nat) : lossLimitOf v = if v = 0 then 1000 else max 100 (min 10000 v) := by
  unfold lossLimitOf
  rw [Nat.min_comm]

theorem imageValues_eq (image : List Word) : imageValues image = {
    cueBase := address image 2
    statusBase := address image 4
    ringBase := address image 6
    ringSize := number image 8
    presBase := address image 9
    slotBytes := number image 11
    starvationLimit := min 15 (number image 12)
    joinLimit := if number image 13 = 0 then 20 else min 1000 (number image 13)
    lossLimit := if number image 14 = 0 then 1000 else max 100 (min 10000 (number image 14))
    refreshPeriod := if number image 15 = 0 then 20 else min 1000 (number image 15) } := by
  unfold imageValues
  simp only [address_eq, number_eq, limitOf_eq, lossLimitOf_eq, Nat.min_comm 15]

end Sys2Proof.ImageProofs
end

section
/-! The structural checks of the boot image (R2, R170) and an image that fails them (O6). -/

namespace Sys2Proof.ImageChecksProofs

open Sys2Proof.Machine Sys2Proof.Stated Sys2Proof.ImageProofs

/-! ## Ranges of bytes -/

theorem disjoint_iff (p q : Nat × Nat) : disjoint p q = true ↔ Apart p q := by
  unfold disjoint Apart
  rw [Bool.or_eq_true, decide_eq_true_iff, decide_eq_true_iff]

theorem allDisjoint_iff (l : List (Nat × Nat)) : allDisjoint l = true ↔ l.Pairwise Apart := by
  induction l with
  | nil => exact iff_of_true rfl .nil
  | cons r l ih => simp only [allDisjoint, Bool.and_eq_true, List.all_eq_true, disjoint_iff, ih, List.pairwise_cons]

theorem regionsOf_eq (image : List Word) : regionsOf (imageValues image) = regions image := by
  rw [imageValues_eq]
  rfl

theorem mem_ringSizes (n : Nat) : n ∈ ringSizes ↔ ∃ k, 6 ≤ k ∧ k ≤ 12 ∧ n = 2 ^ k := by
  constructor
  · intro h
    simp only [ringSizes, List.mem_cons, List.not_mem_nil, or_false] at h
    rcases h with h | h | h | h | h | h | h
    · exact ⟨6, by omega⟩
    · exact ⟨7, by omega⟩
    · exact ⟨8, by omega⟩
    · exact ⟨9, by omega⟩
    · exact ⟨10, by omega⟩
    · exact ⟨11, by omega⟩
    · exact ⟨12, by omega⟩
  · rintro ⟨k, hlow, hhigh, rfl⟩
    interval_cases k <;> decide

/-! ## The buffers of a descriptor -/

theorem buffers_sorted : ([0, 1, 2, 3] : List (Fin 4)) = List.ofFn id := rfl

theorem mem_bufferSpans {d : Descriptor} {P : Nat × Nat → Prop} :
    (∀ r ∈ bufferSpans d, P r) ↔ ∀ k : Fin 4, k.val < d.bufferCount → P (span d k) := by
  unfold bufferSpans
  rw [buffers_sorted]
  simp only [List.forall_mem_map, List.mem_filter, List.mem_ofFn', Set.mem_range, id, exists_eq, true_and,
    decide_eq_true_eq, ClassificationProofs.base_spanBytes]

theorem pairwise_bufferSpans (d : Descriptor) : (bufferSpans d).Pairwise Apart ↔
    ∀ k k' : Fin 4, k.val < k'.val → k'.val < d.bufferCount → Apart (span d k) (span d k') := by
  unfold bufferSpans
  rw [buffers_sorted, List.pairwise_map, List.pairwise_filter, List.pairwise_ofFn]
  simp only [decide_eq_true_eq, id, ClassificationProofs.base_spanBytes]
  refine forall_congr' fun k => forall_congr' fun k' => ?_
  exact ⟨fun h hk hcount => h hk (hk.trans hcount) hcount, fun h hk _ hcount => h hk hcount⟩

theorem descriptorGood_iff (image : List Word) (d : Descriptor) :
    descriptorGood (imageValues image) d = true ↔ ChannelChecks image d := by
  have hspans := mem_bufferSpans (d := d) (P := fun r => r.1 % 16 = 0 ∧ r.1 + r.2 ≤ addressTop)
  have hregions := mem_bufferSpans (d := d) (P := fun r => ∀ x ∈ regions image, Apart r x)
  unfold descriptorGood ChannelChecks
  simp only [Bool.and_eq_true, decide_eq_true_eq, List.all_eq_true, allDisjoint_iff, disjoint_iff, regionsOf_eq,
    ExamineProofs.rowWidth_eq, hspans, hregions, pairwise_bufferSpans, and_assoc]
  constructor
  · rintro ⟨hwidth, hwide, heven, hheight, htall, hstride, hrow, hone, hfour, hplace, hapart, houtside⟩
    refine ⟨hwidth, hwide, heven, hheight, htall, hstride, hrow, hone, hfour, fun k hk => ?_, hapart⟩
    obtain ⟨haligned, htop⟩ := hplace k hk
    exact ⟨haligned, htop, houtside k hk⟩
  · rintro ⟨hwidth, hwide, heven, hheight, htall, hstride, hrow, hone, hfour, hbuffers, hapart⟩
    refine ⟨hwidth, hwide, heven, hheight, htall, hstride, hrow, hone, hfour, fun k hk => ?_, hapart, fun k hk => ?_⟩
    · obtain ⟨haligned, htop, _⟩ := hbuffers k hk
      exact ⟨haligned, htop⟩
    · obtain ⟨_, _, houtside⟩ := hbuffers k hk
      exact houtside

/-! ## The whole image -/

theorem channelsGood_iff (image : List Word) : channelsGood (imageValues image) (imageDescriptor image) = true ↔
    ∀ c : Fin 8, (descriptorIn image c).enabled = true → ChannelChecks image (descriptorIn image c) ∧
      ∀ c' : Fin 8, c' ≠ c → (descriptorIn image c').enabled = true →
        (descriptorIn image c').aoTag ≠ (descriptorIn image c).aoTag := by
  unfold channelsGood
  simp only [imageDescriptor_eq, List.all_eq_true, Bool.or_eq_true, Bool.and_eq_true, Bool.not_eq_true',
    descriptorGood_iff, decide_eq_true_eq, HoldProofs.mem_allChans, forall_const]
  refine forall_congr' fun c => ?_
  rw [Bool.eq_false_iff, ← imp_iff_not_or]
  refine imp_congr_right fun _ => and_congr_right fun _ => forall_congr' fun c' => ?_
  rw [Bool.eq_false_iff, or_assoc, or_iff_not_imp_left, ← imp_iff_not_or]

/-- The sum of words modulo 2^32. -/
theorem toNat_foldl_add (words : List Word) (start : Word) :
    (words.foldl (fun a w => a + w) start).toNat = (start.toNat + (words.map BitVec.toNat).sum) % 2 ^ 32 := by
  induction words generalizing start with
  | nil => exact (Nat.mod_eq_of_lt start.isLt).symm
  | cons w words ih =>
    rw [List.foldl_cons, ih, BitVec.toNat_add, List.map_cons, List.sum_cons, Nat.mod_add_mod, Nat.add_assoc]

theorem imageSum_iff (image : List Word) :
    imageSum image = 0 ↔ ((image.take 422).map BitVec.toNat).sum % 2 ^ 32 = 0 := by
  unfold imageSum
  rw [← BitVec.toNat_inj, toNat_foldl_add]
  exact Iff.of_eq (congrArg (fun n => n % 2 ^ 32 = 0) (Nat.zero_add _))

theorem imageGood_iff (image : List Word) : imageGood image = true ↔ ImageChecks image := by
  have hmagic : imgWord image 0 = Config.magic ↔ number image 0 = 0x4D534B31 := by
    rw [number_eq]
    exact (CueEffectProofs.toNat_eq_iff _ (by decide)).symm
  have hlength : (imgWord image 1).toNat = Config.imageWords ↔ number image 1 = 422 := by
    rw [number_eq]
    rfl
  unfold imageGood regionsGood ImageChecks
  simp only [Bool.and_eq_true, decide_eq_true_eq, hmagic, hlength, imageSum_iff, channelsGood_iff, regionsOf_eq,
    allDisjoint_iff, List.all_eq_true]
  rw [imageValues_eq]
  simp only [mem_ringSizes, and_assoc]
  rfl

theorem exec_bootImageLoad {image : List Word} (s : State) (hwf : imageWf image = true) :
    exec (.bootImageLoad image) s = .next (finish (loadImage s image)) := if_pos hwf

/-- Settles O6: the loader's branches. -/
theorem badImageEntersBypass : Obligations.BadImageEntersBypass := by
  unfold Obligations.BadImageEntersBypass
  intro s image hwf
  rw [exec_bootImageLoad s hwf]
  refine ⟨fun hmode hbad => ?_, fun hmode => ?_⟩
  · have hload : loadImage s image = enterBypass s :=
      (if_pos hmode).trans (if_neg (mt (imageGood_iff image).1 hbad))
    rw [hload]
    rfl
  · have hload : loadImage s image = s := if_neg hmode
    rw [hload]

end Sys2Proof.ImageChecksProofs
end

section
/-! The entry to ACTIVE (O5). -/

namespace Sys2Proof.BootProofs

open Sys2Proof.Machine Sys2Proof.Stated Sys2Proof.ImageProofs

/-- A channel as the image describes it, at rest (R116, R137). -/
def restedChannel (image : List Word) (c : Fin 8) : Channel :=
  let d := descriptorIn image c
  { Channel.reset with
    desc := d
    lay := layoutAtRest d.home (layoutIn image d.home)
    monA := monitorAtRest (monitorIn image c 0 d.width d.height)
    monB := monitorAtRest (monitorIn image c 1 d.width d.height) }

theorem layoutInitial_eq (table : Vector LayoutEntry 32) (home : Fin 32) :
    layoutInitial table home = layoutAtRest home table[home] := rfl

theorem initial_eq (r : MonRecord) : Monitor.initial r = monitorAtRest r := rfl

theorem bootChannel_eq (image : List Word) (c : Fin 8) : bootChannel image c =
    if (descriptorIn image c).enabled = true ∧ (descriptorIn image c).autoStart = true then
      (restedChannel image c).arm (Vector.ofFn (imageLayout image))
    else restedChannel image c := by
  have hentry (i : Fin 32) : (Vector.ofFn (imageLayout image))[i] = layoutIn image i := by
    rw [Fin.getElem_fin, Vector.getElem_ofFn, imageLayout_eq]
  unfold bootChannel
  simp only [imageDescriptor_eq, imageMonitor_eq, layoutInitial_eq, hentry, initial_eq, Bool.and_eq_true]
  rfl

/-- The state of an armed channel, its records apart (R7). -/
theorem arm_fields (table : Vector LayoutEntry 32) (ch : Channel) :
    (ch.arm table).desc = ch.desc ∧ (ch.arm table).state = .armed ∧ (ch.arm table).frame = 0 ∧
      (ch.arm table).buffer = none ∧ (ch.arm table).deepest = 0 ∧ (ch.arm table).geom = ch.geom ∧
      (ch.arm table).lastLate = none ∧ (ch.arm table).lastFetchError = none := ⟨rfl, rfl, rfl, rfl, rfl, rfl, rfl, rfl⟩

/-! ## The blocks -/

theorem enterActive_eq (image : List Word) (b : Blocks) : enterActive image b = { b with
    mode := .active
    image := imageValues image
    chans := Vector.ofFn (bootChannel image)
    layouts := Vector.ofFn (imageLayout image)
    ports := Vector.ofFn fun p => { Port.reset with settings := imageSettings image p }
    slotTab := Vector.replicate 4 PortSlots.reset
    rep := { b.rep with
      mask := (imgWord image 16).setWidth 13
      lastRefresh := b.timeBase
      status := if b.rep.status = .idle then .waiting else b.rep.status
      again := b.rep.again || decide (b.rep.status = .inFlight) } } :=
  Blocks.requestRefresh_eq _

theorem layouts_enterActive (image : List Word) (b : Blocks) :
    (enterActive image b).layouts = Vector.ofFn (imageLayout image) := by
  rw [enterActive_eq]

theorem layout_enterActive (image : List Word) (b : Blocks) (i : Fin 32) :
    (enterActive image b).layout i = layoutIn image i := by
  rw [enterActive_eq, ← imageLayout_eq]
  exact Vector.getElem_ofFn _

theorem port_enterActive (image : List Word) (b : Blocks) (p : Fin 4) :
    (enterActive image b).port p = ⟨.idle, settingsIn image p, none, [], []⟩ := by
  rw [enterActive_eq, ← imageSettings_eq]
  exact Vector.getElem_ofFn _

theorem chan_enterActive (image : List Word) (b : Blocks) (c : Fin 8) :
    (enterActive image b).chan c = bootChannel image c := by
  rw [enterActive_eq]
  exact Vector.getElem_ofFn _

theorem portSlots_enterActive (image : List Word) (b : Blocks) (p : Fin 4) :
    (enterActive image b).portSlots p = PortSlots.reset := by
  rw [enterActive_eq]
  exact Vector.getElem_replicate _

theorem slot_enterActive (image : List Word) (b : Blocks) (p : Fin 4) (i : Fin 16) :
    (enterActive image b).slot p i = ⟨.free, 0, 0, 0, 0, false⟩ := by
  unfold Blocks.slot
  rw [portSlots_enterActive]
  exact Vector.getElem_replicate _

theorem enabled_enterActive (image : List Word) (b : Blocks) (k : ReportKind) :
    (enterActive image b).enabled k = decide (bits image 16 (kindNumber k - 1) 1 = 1) := by
  rw [enterActive_eq, bit_eq, CueEffectProofs.kindNumber_eq]
  change ((imgWord image 16).setWidth 13).getLsbD (k.code - 1) = _
  rw [BitVec.getLsbD_setWidth, decide_eq_true (by have := CueEffectProofs.code_le k; omega), Bool.true_and]

/-- The records of an auto-started channel, by the image's layout table (R115, R136). -/
theorem started_arm (image : List Word) (b : Blocks) (ch : Channel) :
    Started (layoutIn image) ch (ch.arm (Vector.ofFn (imageLayout image))) := by
  have hstarted := CueEffectProofs.started_startRecords (enterActive image b) (ch := ch)
    (x := { ch with state := .armed, frame := 0, buffer := none, deepest := 0, lastLate := none, lastFetchError := none })
    rfl rfl rfl
  rw [funext (layout_enterActive image b), layouts_enterActive] at hstarted
  exact hstarted

/-- Settles O5: each block by the part of the image it takes, each channel by its auto-start. -/
theorem goodImageEntersActive : Obligations.GoodImageEntersActive := by
  unfold Obligations.GoodImageEntersActive
  intro s image hmode hwf hchecks
  have hload : loadImage s image = { s with blk := enterActive image s.blk } :=
    (if_pos hmode).trans (if_pos ((ImageChecksProofs.imageGood_iff image).2 hchecks))
  refine ⟨enterActive image s.blk, ?_, ?_, ?_, enabled_enterActive image s.blk, layout_enterActive image s.blk,
    port_enterActive image s.blk, slot_enterActive image s.blk, fun p => ?_, fun c => ?_⟩
  · rw [ImageChecksProofs.exec_bootImageLoad s hwf, hload]
  · rw [enterActive_eq]
  · rw [enterActive_eq, ← imageValues_eq]
  · rw [portSlots_enterActive]
    rfl
  · intro d
    rw [chan_enterActive, bootChannel_eq]
    by_cases hstarts : d.enabled = true ∧ d.autoStart = true
    · rw [if_pos hstarts]
      obtain ⟨hdesc, hstate, hframe, hbuffer, hdeepest, hgeom, hlate, hfetch⟩ :=
        arm_fields (Vector.ofFn (imageLayout image)) (restedChannel image c)
      exact ⟨hdesc, hframe, hbuffer, hdeepest, hgeom, hlate, hfetch, (if_pos hstarts).mpr
        ⟨hstate, restedChannel image c, rfl, rfl, rfl, rfl, rfl, started_arm image s.blk _⟩⟩
    · rw [if_neg hstarts]
      exact ⟨rfl, rfl, rfl, rfl, rfl, rfl, rfl, (if_neg hstarts).mpr ⟨rfl, rfl, rfl, rfl⟩⟩

end Sys2Proof.BootProofs
end
